-- ==== Sys2Proof/Word.lean ====
section
/-! DEFINITION. The bit-vector types of the machine (00_scope.md R8, R9): bytes, words and longs, and the operation size. -/

namespace Sys2Proof

/-- A byte (00_scope.md R8). -/
abbrev Byte := BitVec 8

/-- A word, 16 bits (00_scope.md R8). -/
abbrev Word := BitVec 16

/-- A long, 32 bits: the width of a register and of a computed address (10_state.md R20, R21, R26). -/
abbrev Long := BitVec 32

/-- The size of an operation (00_scope.md R8). -/
inductive Size where
  | b
  | w
  | l
deriving DecidableEq, Repr

/-- `bytes(sz)` of 00_scope.md R8. -/
abbrev Size.bytes : Size → Nat
  | .b => 1
  | .w => 2
  | .l => 4

/-- `bits(sz)` of 00_scope.md R8. -/
abbrev Size.bits : Size → Nat
  | .b => 8
  | .w => 16
  | .l => 32

end Sys2Proof
end

