-- ==== Sys2Proof/Syntax.lean ====
section
/-! DEFINITION. Instructions: operands and one constructor for each row of spec/opcode_table.json (30_encoding.md R93),
in the table's order. -/

namespace Sys2Proof

/-- The index register, its size and the displacement held by an indexed-mode extension word (30_encoding.md R89).
`reg` is the 4-bit selector of `R[k]` (10_state.md R24). -/
structure IndexExt where
  reg : Fin 16
  long : Bool
  disp : Byte
deriving DecidableEq, Repr

/-- An operand in one of the twelve addressing modes (40_addressing.md R120). -/
inductive Ea where
  /-- Mode 0, `Dn`. -/
  | dn (r : Fin 8)
  /-- Mode 1, `An`. -/
  | an (r : Fin 8)
  /-- Mode 2, `(An)`. -/
  | ind (r : Fin 8)
  /-- Mode 3, `(An)+`. -/
  | postInc (r : Fin 8)
  /-- Mode 4, `-(An)`. -/
  | preDec (r : Fin 8)
  /-- Mode 5, `d16(An)`. -/
  | disp (r : Fin 8) (d : Word)
  /-- Mode 6, `d8(An,Xn)`. -/
  | index (r : Fin 8) (x : IndexExt)
  /-- Mode 7.0, `(xxx).W`. -/
  | absW (a : Word)
  /-- Mode 7.1, `(xxx).L`. -/
  | absL (a : Long)
  /-- Mode 7.2, `d16(PC)`. -/
  | pcDisp (d : Word)
  /-- Mode 7.3, `d8(PC,Xn)`. -/
  | pcIndex (x : IndexExt)
  /-- Mode 7.4, `#<data>`: the value at the operation size, zero-extended (30_encoding.md R86). -/
  | imm (v : Long)
deriving DecidableEq, Repr

/-- The sixteen conditions (47_control.md R276), in the order of their encodings. -/
inductive Cond where
  | t | f | hi | ls | cc | cs | ne | eq | vc | vs | pl | mi | ge | lt | gt | le
deriving DecidableEq, Repr

/-- The displacement of BRA, BSR and Bcc (30_encoding.md R88): in the opword, or in an extension word. -/
inductive BranchDisp where
  | short (d : Byte)
  | word (d : Word)
deriving DecidableEq, Repr

/-- The count of a register shift (46_shift_rotate.md R241): the three bits of an immediate count (0 denotes 8), or the
data register that holds it. -/
inductive ShiftCount where
  | imm (q : Fin 8)
  | reg (r : Fin 8)
deriving DecidableEq, Repr

/-- The two forms of ADDX, SUBX, ABCD and SBCD (30_encoding.md R93, bit `M`). -/
inductive PairMode where
  | dataReg
  | memPreDec
deriving DecidableEq, Repr

/-- The direction of MOVEP (30_encoding.md R93, bit 7). -/
inductive MovepDir where
  | toReg
  | toMem
deriving DecidableEq, Repr

/-- One constructor for each row of spec/opcode_table.json, in its order. -/
inductive Instr where
  -- immediate forms, line 0
  | ori (sz : Size) (imm : Long) (ea : Ea)
  | andi (sz : Size) (imm : Long) (ea : Ea)
  | subi (sz : Size) (imm : Long) (ea : Ea)
  | addi (sz : Size) (imm : Long) (ea : Ea)
  | eori (sz : Size) (imm : Long) (ea : Ea)
  | cmpi (sz : Size) (imm : Long) (ea : Ea)
  | oriToCcr (imm : Byte)
  | oriToSr (imm : Word)
  | andiToCcr (imm : Byte)
  | andiToSr (imm : Word)
  | eoriToCcr (imm : Byte)
  | eoriToSr (imm : Word)
  -- bit instructions: bit number immediate, then in a register
  | btstImm (n : Byte) (ea : Ea)
  | bchgImm (n : Byte) (ea : Ea)
  | bclrImm (n : Byte) (ea : Ea)
  | bsetImm (n : Byte) (ea : Ea)
  | btstReg (dn : Fin 8) (ea : Ea)
  | bchgReg (dn : Fin 8) (ea : Ea)
  | bclrReg (dn : Fin 8) (ea : Ea)
  | bsetReg (dn : Fin 8) (ea : Ea)
  | movep (dir : MovepDir) (sz : Size) (dx : Fin 8) (ay : Fin 8) (d : Word)
  -- moves
  | move (sz : Size) (src : Ea) (dst : Ea)
  | movea (sz : Size) (src : Ea) (an : Fin 8)
  -- line 4
  | negx (sz : Size) (ea : Ea)
  | clr (sz : Size) (ea : Ea)
  | neg (sz : Size) (ea : Ea)
  | not (sz : Size) (ea : Ea)
  | tst (sz : Size) (ea : Ea)
  | moveFromSr (ea : Ea)
  | moveToCcr (ea : Ea)
  | moveToSr (ea : Ea)
  | chk (ea : Ea) (dn : Fin 8)
  | lea (ea : Ea) (an : Fin 8)
  | nbcd (ea : Ea)
  | swap (dn : Fin 8)
  | pea (ea : Ea)
  | ext (sz : Size) (dn : Fin 8)
  | movemToMem (sz : Size) (mask : Word) (ea : Ea)
  | movemToReg (sz : Size) (mask : Word) (ea : Ea)
  | tas (ea : Ea)
  | illegal
  | trap (v : Fin 16)
  | link (an : Fin 8) (d : Word)
  | unlk (an : Fin 8)
  | moveToUsp (an : Fin 8)
  | moveFromUsp (an : Fin 8)
  | reset
  | nop
  | stop (imm : Word)
  | rte
  | rts
  | trapv
  | rtr
  | jsr (ea : Ea)
  | jmp (ea : Ea)
  -- line 5
  | addq (sz : Size) (q : Fin 8) (ea : Ea)
  | subq (sz : Size) (q : Fin 8) (ea : Ea)
  | scc (cond : Cond) (ea : Ea)
  | dbcc (cond : Cond) (dn : Fin 8) (d : Word)
  -- line 6
  | bra (d : BranchDisp)
  | bsr (d : BranchDisp)
  | bcc (cond : Cond) (d : BranchDisp)
  -- line 7
  | moveq (dn : Fin 8) (imm : Byte)
  -- line 8
  | orEaDn (sz : Size) (ea : Ea) (dn : Fin 8)
  | orDnEa (sz : Size) (dn : Fin 8) (ea : Ea)
  | divu (ea : Ea) (dn : Fin 8)
  | divs (ea : Ea) (dn : Fin 8)
  | sbcd (m : PairMode) (ry : Fin 8) (rx : Fin 8)
  -- line 9
  | subEaDn (sz : Size) (ea : Ea) (dn : Fin 8)
  | subDnEa (sz : Size) (dn : Fin 8) (ea : Ea)
  | suba (sz : Size) (ea : Ea) (an : Fin 8)
  | subx (sz : Size) (m : PairMode) (ry : Fin 8) (rx : Fin 8)
  -- line 11
  | cmp (sz : Size) (ea : Ea) (dn : Fin 8)
  | cmpa (sz : Size) (ea : Ea) (an : Fin 8)
  | eor (sz : Size) (dn : Fin 8) (ea : Ea)
  | cmpm (sz : Size) (ry : Fin 8) (rx : Fin 8)
  -- line 12
  | andEaDn (sz : Size) (ea : Ea) (dn : Fin 8)
  | andDnEa (sz : Size) (dn : Fin 8) (ea : Ea)
  | mulu (ea : Ea) (dn : Fin 8)
  | muls (ea : Ea) (dn : Fin 8)
  | abcd (m : PairMode) (ry : Fin 8) (rx : Fin 8)
  | exgDD (rx : Fin 8) (ry : Fin 8)
  | exgAA (rx : Fin 8) (ry : Fin 8)
  | exgDA (rx : Fin 8) (ry : Fin 8)
  -- line 13
  | addEaDn (sz : Size) (ea : Ea) (dn : Fin 8)
  | addDnEa (sz : Size) (dn : Fin 8) (ea : Ea)
  | adda (sz : Size) (ea : Ea) (an : Fin 8)
  | addx (sz : Size) (m : PairMode) (ry : Fin 8) (rx : Fin 8)
  -- line 14: register forms, then memory forms
  | asr (sz : Size) (count : ShiftCount) (dn : Fin 8)
  | asl (sz : Size) (count : ShiftCount) (dn : Fin 8)
  | lsr (sz : Size) (count : ShiftCount) (dn : Fin 8)
  | lsl (sz : Size) (count : ShiftCount) (dn : Fin 8)
  | roxr (sz : Size) (count : ShiftCount) (dn : Fin 8)
  | roxl (sz : Size) (count : ShiftCount) (dn : Fin 8)
  | ror (sz : Size) (count : ShiftCount) (dn : Fin 8)
  | rol (sz : Size) (count : ShiftCount) (dn : Fin 8)
  | asrMem (ea : Ea)
  | aslMem (ea : Ea)
  | lsrMem (ea : Ea)
  | lslMem (ea : Ea)
  | roxrMem (ea : Ea)
  | roxlMem (ea : Ea)
  | rorMem (ea : Ea)
  | rolMem (ea : Ea)
  -- the two lines that hold no instruction (30_encoding.md R96); the low twelve bits are kept
  | lineA (w : BitVec 12)
  | lineF (w : BitVec 12)
deriving DecidableEq, Repr

end Sys2Proof
end

