-- ==== Sys2Proof/WellFormed.lean ====
section
/-! DEFINITION. Which instruction terms an opword can encode: the addressing-mode categories and classes (40_addressing.md
R139, R140) and the constraints of the opcode map (30_encoding.md R93). -/

namespace Sys2Proof

/-- Category "data" of 40_addressing.md R139. -/
def Ea.isData : Ea → Bool
  | .an _ => false
  | _ => true

/-- Category "memory" of 40_addressing.md R139. -/
def Ea.isMemory : Ea → Bool
  | .dn _ => false
  | .an _ => false
  | _ => true

/-- Category "control" of 40_addressing.md R139. -/
def Ea.isControl : Ea → Bool
  | .ind _ => true
  | .disp _ _ => true
  | .index _ _ => true
  | .absW _ => true
  | .absL _ => true
  | .pcDisp _ => true
  | .pcIndex _ => true
  | _ => false

/-- Category "alterable" of 40_addressing.md R139. -/
def Ea.isAlterable : Ea → Bool
  | .pcDisp _ => false
  | .pcIndex _ => false
  | .imm _ => false
  | _ => true

/-- Address register direct, mode 1. -/
def Ea.isAn : Ea → Bool
  | .an _ => true
  | _ => false

/-- Immediate, mode 7.4. -/
def Ea.isImm : Ea → Bool
  | .imm _ => true
  | _ => false

/-- Pre-decrement, mode 4. -/
def Ea.isPreDec : Ea → Bool
  | .preDec _ => true
  | _ => false

/-- Post-increment, mode 3. -/
def Ea.isPostInc : Ea → Bool
  | .postInc _ => true
  | _ => false

/-- Class `all` at a size: every mode, but a byte operation not with `An` (30_encoding.md R93, "byte: not An"). -/
def Ea.allAt (sz : Size) (e : Ea) : Bool := !(sz == .b && e.isAn)

/-- Class `memory_alterable` (`~`). -/
def Ea.memoryAlterable (e : Ea) : Bool := e.isMemory && e.isAlterable

/-- Class `alterable` (`%`) at a size: a byte operation not with `An`. -/
def Ea.alterableAt (sz : Size) (e : Ea) : Bool := e.isAlterable && !(sz == .b && e.isAn)

/-- Class `data` (`;`). -/
def Ea.data (e : Ea) : Bool := e.isData

/-- Class `data_no_imm` (`@`). -/
def Ea.dataNoImm (e : Ea) : Bool := e.isData && !e.isImm

/-- Class `control` (`!`). -/
def Ea.control (e : Ea) : Bool := e.isControl

/-- Class `data_alterable` (`$`). -/
def Ea.dataAlterable (e : Ea) : Bool := e.isData && e.isAlterable

/-- Class `movem_to_mem` (`>`). -/
def Ea.movemToMem (e : Ea) : Bool := (e.isControl && e.isAlterable) || e.isPreDec

/-- Class `movem_from_mem` (`<`). -/
def Ea.movemFromMem (e : Ea) : Bool := e.isControl || e.isPostInc

/-- An immediate value fits its operation size (30_encoding.md R86). -/
def Size.fits (sz : Size) (v : Long) : Bool := decide (v.toNat < 2 ^ sz.bits)

/-- An operand that is an immediate fits the operation size. -/
def Ea.fits (sz : Size) : Ea → Bool
  | .imm v => sz.fits v
  | _ => true

/-- Not the byte size: the instructions with a one-bit size field (30_encoding.md R85). -/
def Size.notByte (sz : Size) : Bool := sz != .b

/-- A short displacement of 0 is no short displacement: it selects the word form (30_encoding.md R88). -/
def BranchDisp.wellFormed : BranchDisp → Bool
  | .short d => d != 0
  | .word _ => true

/-- The conditions Bcc has: encodings 2 to 15 (47_control.md R272). -/
def Cond.inBcc (c : Cond) : Bool := c != .t && c != .f

/-- The instruction terms that an opword and its extension words encode (30_encoding.md R93, 40_addressing.md R140). -/
def Instr.wellFormed : Instr → Bool
  | .ori sz imm ea => sz.fits imm && ea.dataAlterable
  | .andi sz imm ea => sz.fits imm && ea.dataAlterable
  | .subi sz imm ea => sz.fits imm && ea.dataAlterable
  | .addi sz imm ea => sz.fits imm && ea.dataAlterable
  | .eori sz imm ea => sz.fits imm && ea.dataAlterable
  | .cmpi sz imm ea => sz.fits imm && ea.dataAlterable
  | .oriToCcr _ => true
  | .oriToSr _ => true
  | .andiToCcr _ => true
  | .andiToSr _ => true
  | .eoriToCcr _ => true
  | .eoriToSr _ => true
  | .btstImm _ ea => ea.dataNoImm
  | .bchgImm _ ea => ea.dataAlterable
  | .bclrImm _ ea => ea.dataAlterable
  | .bsetImm _ ea => ea.dataAlterable
  | .btstReg _ ea => ea.data && ea.fits .b
  | .bchgReg _ ea => ea.dataAlterable
  | .bclrReg _ ea => ea.dataAlterable
  | .bsetReg _ ea => ea.dataAlterable
  | .movep _ sz _ _ _ => sz.notByte
  | .move sz src dst => src.allAt sz && src.fits sz && dst.dataAlterable
  | .movea sz src _ => sz.notByte && src.fits sz
  | .negx _ ea => ea.dataAlterable
  | .clr _ ea => ea.dataAlterable
  | .neg _ ea => ea.dataAlterable
  | .not _ ea => ea.dataAlterable
  | .tst _ ea => ea.dataAlterable
  | .moveFromSr ea => ea.dataAlterable
  | .moveToCcr ea => ea.data && ea.fits .w
  | .moveToSr ea => ea.data && ea.fits .w
  | .chk ea _ => ea.data && ea.fits .w
  | .lea ea _ => ea.control
  | .nbcd ea => ea.dataAlterable
  | .swap _ => true
  | .pea ea => ea.control
  | .ext sz _ => sz.notByte
  | .movemToMem sz _ ea => sz.notByte && ea.movemToMem
  | .movemToReg sz _ ea => sz.notByte && ea.movemFromMem
  | .tas ea => ea.dataAlterable
  | .illegal => true
  | .trap _ => true
  | .link _ _ => true
  | .unlk _ => true
  | .moveToUsp _ => true
  | .moveFromUsp _ => true
  | .reset => true
  | .nop => true
  | .stop _ => true
  | .rte => true
  | .rts => true
  | .trapv => true
  | .rtr => true
  | .jsr ea => ea.control
  | .jmp ea => ea.control
  | .addq sz _ ea => ea.alterableAt sz
  | .subq sz _ ea => ea.alterableAt sz
  | .scc _ ea => ea.dataAlterable
  | .dbcc _ _ _ => true
  | .bra d => d.wellFormed
  | .bsr d => d.wellFormed
  | .bcc c d => c.inBcc && d.wellFormed
  | .moveq _ _ => true
  | .orEaDn sz ea _ => ea.data && ea.fits sz
  | .orDnEa _ _ ea => ea.memoryAlterable
  | .divu ea _ => ea.data && ea.fits .w
  | .divs ea _ => ea.data && ea.fits .w
  | .sbcd _ _ _ => true
  | .subEaDn sz ea _ => ea.allAt sz && ea.fits sz
  | .subDnEa _ _ ea => ea.memoryAlterable
  | .suba sz ea _ => sz.notByte && ea.fits sz
  | .subx _ _ _ _ => true
  | .cmp sz ea _ => ea.allAt sz && ea.fits sz
  | .cmpa sz ea _ => sz.notByte && ea.fits sz
  | .eor _ _ ea => ea.dataAlterable
  | .cmpm _ _ _ => true
  | .andEaDn sz ea _ => ea.data && ea.fits sz
  | .andDnEa _ _ ea => ea.memoryAlterable
  | .mulu ea _ => ea.data && ea.fits .w
  | .muls ea _ => ea.data && ea.fits .w
  | .abcd _ _ _ => true
  | .exgDD _ _ => true
  | .exgAA _ _ => true
  | .exgDA _ _ => true
  | .addEaDn sz ea _ => ea.allAt sz && ea.fits sz
  | .addDnEa _ _ ea => ea.memoryAlterable
  | .adda sz ea _ => sz.notByte && ea.fits sz
  | .addx _ _ _ _ => true
  | .asr _ _ _ => true
  | .asl _ _ _ => true
  | .lsr _ _ _ => true
  | .lsl _ _ _ => true
  | .roxr _ _ _ => true
  | .roxl _ _ _ => true
  | .ror _ _ _ => true
  | .rol _ _ _ => true
  | .asrMem ea => ea.memoryAlterable
  | .aslMem ea => ea.memoryAlterable
  | .lsrMem ea => ea.memoryAlterable
  | .lslMem ea => ea.memoryAlterable
  | .roxrMem ea => ea.memoryAlterable
  | .roxlMem ea => ea.memoryAlterable
  | .rorMem ea => ea.memoryAlterable
  | .rolMem ea => ea.memoryAlterable
  | .lineA _ => true
  | .lineF _ => true

end Sys2Proof
end

