-- ==== Sys2Proof/Decode.lean ====
section
/-! DEFINITION. The decoder (30_encoding.md R81 to R98), total on any list of words and rejecting by name, and after it the
encoder, written from the same opcode map. An opword is read as six fields, the ones every format of R82 is made of: `l` (15:12),
`d` (11:9), `b` (8), `s` (7:6), `m` (5:3), `r` (2:0). -/

namespace Sys2Proof

/-! ## Words -/

/-- The next extension word (30_encoding.md R84). -/
def nextWord : List Word → Option (Word × List Word)
  | [] => none
  | w :: ws => some (w, ws)

/-- The next two extension words as a long, the first the more significant (30_encoding.md R86, 20_memory.md R54). -/
def nextLong : List Word → Option (Long × List Word)
  | h :: l :: ws => some (h ++ l, ws)
  | _ => none

/-- The immediate of an operation size: the low byte of a word, a word, or two words (30_encoding.md R86). -/
def nextImm (sz : Size) (ws : List Word) : Option (Long × List Word) :=
  match sz with
  | .b => (nextWord ws).map fun p => ((p.1.setWidth 8).setWidth 32, p.2)
  | .w => (nextWord ws).map fun p => (p.1.setWidth 32, p.2)
  | .l => nextLong ws

/-- The extension words of an immediate of an operation size; a byte's high half is written 0 (30_encoding.md R86, R98). -/
def immWords (sz : Size) (v : Long) : List Word :=
  match sz with
  | .b => [(v.setWidth 8).setWidth 16]
  | .w => [v.setWidth 16]
  | .l => [v.extractLsb' 16 16, v.extractLsb' 0 16]

/-- The indexed-mode extension word (30_encoding.md R89); bits 10:8 are ignored (R98). -/
def IndexExt.ofWord (w : Word) : IndexExt :=
  { reg := Fin.ofNat 16 (w.toNat / 4096), long := w.getLsbD 11, disp := w.setWidth 8 }

/-- The indexed-mode extension word of an operand, with bits 10:8 zero (30_encoding.md R89). -/
def IndexExt.toWord (x : IndexExt) : Word :=
  BitVec.ofNat 16 (x.reg.val * 4096 + (if x.long then 2048 else 0) + x.disp.toNat)

/-! ## Operands -/

/-- The mode and register field select an addressing mode (30_encoding.md R92); its extension data is still zero here. -/
def Ea.select (m r : Nat) : Option Ea :=
  match m with
  | 0 => some (.dn (Fin.ofNat 8 r))
  | 1 => some (.an (Fin.ofNat 8 r))
  | 2 => some (.ind (Fin.ofNat 8 r))
  | 3 => some (.postInc (Fin.ofNat 8 r))
  | 4 => some (.preDec (Fin.ofNat 8 r))
  | 5 => some (.disp (Fin.ofNat 8 r) 0)
  | 6 => some (.index (Fin.ofNat 8 r) { reg := 0, long := false, disp := 0 })
  | 7 =>
    match r with
    | 0 => some (.absW 0)
    | 1 => some (.absL 0)
    | 2 => some (.pcDisp 0)
    | 3 => some (.pcIndex { reg := 0, long := false, disp := 0 })
    | 4 => some (.imm 0)
    | _ => none
  | _ => none

/-- Read a selected operand's extension words (40_addressing.md R121). -/
def Ea.fill (e : Ea) (sz : Size) (ws : List Word) : Option (Ea × List Word) :=
  match e with
  | .disp r _ => (nextWord ws).map fun p => (.disp r p.1, p.2)
  | .index r _ => (nextWord ws).map fun p => (.index r (IndexExt.ofWord p.1), p.2)
  | .absW _ => (nextWord ws).map fun p => (.absW p.1, p.2)
  | .absL _ => (nextLong ws).map fun p => (.absL p.1, p.2)
  | .pcDisp _ => (nextWord ws).map fun p => (.pcDisp p.1, p.2)
  | .pcIndex _ => (nextWord ws).map fun p => (.pcIndex (IndexExt.ofWord p.1), p.2)
  | .imm _ => (nextImm sz ws).map fun p => (.imm p.1, p.2)
  | .dn r => some (.dn r, ws)
  | .an r => some (.an r, ws)
  | .ind r => some (.ind r, ws)
  | .postInc r => some (.postInc r, ws)
  | .preDec r => some (.preDec r, ws)

/-- The mode number of an operand (40_addressing.md R120). -/
def Ea.mode : Ea → Nat
  | .dn _ => 0
  | .an _ => 1
  | .ind _ => 2
  | .postInc _ => 3
  | .preDec _ => 4
  | .disp _ _ => 5
  | .index _ _ => 6
  | _ => 7

/-- The register field of an operand (40_addressing.md R120). -/
def Ea.regField : Ea → Nat
  | .dn r => r.val
  | .an r => r.val
  | .ind r => r.val
  | .postInc r => r.val
  | .preDec r => r.val
  | .disp r _ => r.val
  | .index r _ => r.val
  | .absW _ => 0
  | .absL _ => 1
  | .pcDisp _ => 2
  | .pcIndex _ => 3
  | .imm _ => 4

/-- The extension words of an operand (40_addressing.md R120, R121). -/
def Ea.extWords (sz : Size) : Ea → List Word
  | .disp _ d => [d]
  | .index _ x => [x.toWord]
  | .absW a => [a]
  | .absL a => [a.extractLsb' 16 16, a.extractLsb' 0 16]
  | .pcDisp d => [d]
  | .pcIndex x => [x.toWord]
  | .imm v => immWords sz v
  | _ => []

/-- How many extension words an operand has: `eaw` of 30_encoding.md R83. -/
def Ea.words (sz : Size) : Ea → Nat
  | .disp _ _ => 1
  | .index _ _ => 1
  | .absW _ => 1
  | .absL _ => 2
  | .pcDisp _ => 1
  | .pcIndex _ => 1
  | .imm _ => match sz with
    | .b => 1
    | .w => 1
    | .l => 2
  | _ => 0

/-- How many extension words an immediate of an operation size has (30_encoding.md R83, `own`). -/
def Size.immCount : Size → Nat
  | .b => 1
  | .w => 1
  | .l => 2

/-! ## Fields -/

/-- The two-bit size field (30_encoding.md R85); 11 selects another instruction. -/
def Size.ofField (s : Nat) : Option Size :=
  match s with
  | 0 => some .b
  | 1 => some .w
  | 2 => some .l
  | _ => none

/-- The two-bit size field of a size (30_encoding.md R85). -/
def Size.field : Size → Nat
  | .b => 0
  | .w => 1
  | .l => 2

/-- The one-bit size field: 0 word, 1 long (30_encoding.md R85). -/
def Size.ofBit (s : Nat) : Size := if s = 0 then .w else .l

/-- The one-bit size field of a size (30_encoding.md R85). -/
def Size.bit : Size → Nat
  | .b => 0
  | .w => 0
  | .l => 1

/-- The line of MOVE and MOVEA for a size, their size field 13:12 (30_encoding.md R85). -/
def Size.moveLine : Size → Nat
  | .b => 1
  | .w => 3
  | .l => 2

/-- The condition of a four-bit field (47_control.md R276). -/
def Cond.ofField (c : Nat) : Cond :=
  match c with
  | 0 => .t
  | 1 => .f
  | 2 => .hi
  | 3 => .ls
  | 4 => .cc
  | 5 => .cs
  | 6 => .ne
  | 7 => .eq
  | 8 => .vc
  | 9 => .vs
  | 10 => .pl
  | 11 => .mi
  | 12 => .ge
  | 13 => .lt
  | 14 => .gt
  | _ => .le

/-- The four-bit field of a condition (47_control.md R276). -/
def Cond.field : Cond → Nat
  | .t => 0
  | .f => 1
  | .hi => 2
  | .ls => 3
  | .cc => 4
  | .cs => 5
  | .ne => 6
  | .eq => 7
  | .vc => 8
  | .vs => 9
  | .pl => 10
  | .mi => 11
  | .ge => 12
  | .lt => 13
  | .gt => 14
  | .le => 15

/-- A register field. -/
def regOf (n : Nat) : Fin 8 := Fin.ofNat 8 n

/-! ## The decoder -/

/-- What is left of decoding once the opword has selected a row: the instruction from the extension words, or nothing where
they run out. -/
abbrev Tail := List Word → Option (Instr × List Word)

/-- A row without extension words. -/
def rowPlain (i : Instr) : Option Tail := some fun ws => some (i, ws)

/-- A row with one extension word of its own. -/
def rowWord (mk : Word → Instr) : Option Tail :=
  some fun ws => (nextWord ws).map fun p => (mk p.1, p.2)

/-- A row with an operand of a class. -/
def rowEa (cls : Ea → Bool) (sz : Size) (m r : Nat) (mk : Ea → Instr) : Option Tail :=
  match Ea.select m r with
  | none => none
  | some e => if cls e then some fun ws => (e.fill sz ws).map fun p => (mk p.1, p.2) else none

/-- A row with one extension word of its own and then an operand of a class (30_encoding.md R84). -/
def rowWordEa (cls : Ea → Bool) (sz : Size) (m r : Nat) (mk : Word → Ea → Instr) : Option Tail :=
  match Ea.select m r with
  | none => none
  | some e =>
    if cls e then
      some fun ws => (nextWord ws).bind fun p => (e.fill sz p.2).map fun q => (mk p.1 q.1, q.2)
    else none

/-- A row with an immediate of the operation size and then an operand of a class (30_encoding.md R84). -/
def rowImmEa (cls : Ea → Bool) (sz : Size) (m r : Nat) (mk : Long → Ea → Instr) : Option Tail :=
  match Ea.select m r with
  | none => none
  | some e =>
    if cls e then
      some fun ws => (nextImm sz ws).bind fun p => (e.fill sz p.2).map fun q => (mk p.1 q.1, q.2)
    else none

/-- A row with a size field and an operand of a class. -/
def rowSzEa (cls : Ea → Bool) (s m r : Nat) (mk : Size → Ea → Instr) : Option Tail :=
  match Size.ofField s with
  | none => none
  | some sz => rowEa cls sz m r (mk sz)

/-- A row of the immediate instructions ORI to CMPI. -/
def rowSzImmEa (s m r : Nat) (mk : Size → Long → Ea → Instr) : Option Tail :=
  match Size.ofField s with
  | none => none
  | some sz => rowImmEa Ea.dataAlterable sz m r (mk sz)

/-- The rows of an immediate instruction that also has a to-CCR and a to-SR form, in the place of an immediate destination. -/
def rowImmOrStatus (s m r : Nat) (mk : Size → Long → Ea → Instr) (toCcr : Byte → Instr) (toSr : Word → Instr) :
    Option Tail :=
  if m = 7 ∧ r = 4 then
    match s with
    | 0 => rowWord fun w => toCcr (w.setWidth 8)
    | 1 => rowWord toSr
    | _ => none
  else rowSzImmEa s m r mk

/-- A row of BRA, BSR or Bcc: an eight-bit displacement of 0 selects the word form (30_encoding.md R88). -/
def rowBranch (data8 : Nat) (mk : BranchDisp → Instr) : Option Tail :=
  if data8 = 0 then rowWord fun w => mk (.word w) else rowPlain (mk (.short (BitVec.ofNat 8 data8)))

/-- The operand size of a bit instruction: long on a data register, byte elsewhere (45_bit_tas.md R230). -/
def bitSize : Ea → Size
  | .dn _ => .l
  | _ => .b

/-- Line 0: immediate forms, bit instructions, MOVEP. -/
def decodeLine0 (d b s m r : Nat) : Option Tail :=
  if b = 1 then
    if m = 1 then
      rowWord fun w =>
        .movep (if s / 2 = 0 then .toReg else .toMem) (Size.ofBit (s % 2)) (regOf d) (regOf r) w
    else
      match s with
      | 0 => rowEa Ea.data .b m r (.btstReg (regOf d))
      | 1 => rowEa Ea.dataAlterable .b m r (.bchgReg (regOf d))
      | 2 => rowEa Ea.dataAlterable .b m r (.bclrReg (regOf d))
      | _ => rowEa Ea.dataAlterable .b m r (.bsetReg (regOf d))
  else
    match d with
    | 0 => rowImmOrStatus s m r .ori .oriToCcr .oriToSr
    | 1 => rowImmOrStatus s m r .andi .andiToCcr .andiToSr
    | 2 => rowSzImmEa s m r .subi
    | 3 => rowSzImmEa s m r .addi
    | 4 =>
      match s with
      | 0 => rowWordEa Ea.dataNoImm .b m r fun w => .btstImm (w.setWidth 8)
      | 1 => rowWordEa Ea.dataAlterable .b m r fun w => .bchgImm (w.setWidth 8)
      | 2 => rowWordEa Ea.dataAlterable .b m r fun w => .bclrImm (w.setWidth 8)
      | _ => rowWordEa Ea.dataAlterable .b m r fun w => .bsetImm (w.setWidth 8)
    | 5 => rowImmOrStatus s m r .eori .eoriToCcr .eoriToSr
    | 6 => rowSzImmEa s m r .cmpi
    | _ => none

/-- MOVE from a selected source to a selected destination: the source's extension words first (30_encoding.md R84). -/
def rowMove (sz : Size) (dm dr m r : Nat) : Option Tail :=
  match Ea.select m r, Ea.select dm dr with
  | some src, some dst =>
    if src.allAt sz && dst.dataAlterable then
      some fun ws =>
        (src.fill sz ws).bind fun p => (dst.fill sz p.2).map fun q => (.move sz p.1 q.1, q.2)
    else none
  | _, _ => none

/-- Lines 1, 2, 3: MOVE, and MOVEA where the destination mode is 1. -/
def decodeMove (sz : Size) (d b s m r : Nat) : Option Tail :=
  if b * 4 + s = 1 then
    if sz.notByte then rowEa (Ea.allAt sz) sz m r fun e => .movea sz e (regOf d) else none
  else rowMove sz (b * 4 + s) d m r

/-- Line 4, bit 8 clear, 11:9 = 111: the system and control instructions. -/
def decodeLine4Control (s m r : Nat) : Option Tail :=
  match s with
  | 1 =>
    match m with
    | 0 => rowPlain (.trap (Fin.ofNat 16 r))
    | 1 => rowPlain (.trap (Fin.ofNat 16 (8 + r)))
    | 2 => rowWord (.link (regOf r))
    | 3 => rowPlain (.unlk (regOf r))
    | 4 => rowPlain (.moveToUsp (regOf r))
    | 5 => rowPlain (.moveFromUsp (regOf r))
    | 6 =>
      match r with
      | 0 => rowPlain .reset
      | 1 => rowPlain .nop
      | 2 => rowWord .stop
      | 3 => rowPlain .rte
      | 5 => rowPlain .rts
      | 6 => rowPlain .trapv
      | 7 => rowPlain .rtr
      | _ => none
    | _ => none
  | 2 => rowEa Ea.control .l m r .jsr
  | 3 => rowEa Ea.control .l m r .jmp
  | _ => none

/-- Line 4. -/
def decodeLine4 (d b s m r : Nat) : Option Tail :=
  if b = 1 then
    match s with
    | 2 => rowEa Ea.data .w m r fun e => .chk e (regOf d)
    | 3 => rowEa Ea.control .l m r fun e => .lea e (regOf d)
    | _ => none
  else
    match d with
    | 0 => if s = 3 then rowEa Ea.dataAlterable .w m r .moveFromSr else rowSzEa Ea.dataAlterable s m r .negx
    | 1 => rowSzEa Ea.dataAlterable s m r .clr
    | 2 => if s = 3 then rowEa Ea.data .w m r .moveToCcr else rowSzEa Ea.dataAlterable s m r .neg
    | 3 => if s = 3 then rowEa Ea.data .w m r .moveToSr else rowSzEa Ea.dataAlterable s m r .not
    | 4 =>
      match s with
      | 0 => rowEa Ea.dataAlterable .b m r .nbcd
      | 1 => if m = 0 then rowPlain (.swap (regOf r)) else rowEa Ea.control .l m r .pea
      | _ =>
        if m = 0 then rowPlain (.ext (Size.ofBit (s % 2)) (regOf r))
        else rowWordEa Ea.movemToMem (Size.ofBit (s % 2)) m r (.movemToMem (Size.ofBit (s % 2)))
    | 5 =>
      if s = 3 then
        if m = 7 ∧ r = 4 then rowPlain .illegal else rowEa Ea.dataAlterable .b m r .tas
      else rowSzEa Ea.dataAlterable s m r .tst
    | 6 =>
      match s with
      | 2 => rowWordEa Ea.movemFromMem .w m r (.movemToReg .w)
      | 3 => rowWordEa Ea.movemFromMem .l m r (.movemToReg .l)
      | _ => none
    | _ => decodeLine4Control s m r

/-- Line 5: ADDQ, SUBQ, Scc, DBcc. -/
def decodeLine5 (d b s m r : Nat) : Option Tail :=
  match Size.ofField s with
  | some sz =>
    if b = 0 then rowEa (Ea.alterableAt sz) sz m r (.addq sz (regOf d))
    else rowEa (Ea.alterableAt sz) sz m r (.subq sz (regOf d))
  | none =>
    if m = 1 then rowWord (.dbcc (Cond.ofField (d * 2 + b)) (regOf r))
    else rowEa Ea.dataAlterable .b m r (.scc (Cond.ofField (d * 2 + b)))

/-- Line 6: BRA, BSR, Bcc. -/
def decodeLine6 (d b s m r : Nat) : Option Tail :=
  match d * 2 + b with
  | 0 => rowBranch (s * 64 + m * 8 + r) .bra
  | 1 => rowBranch (s * 64 + m * 8 + r) .bsr
  | c => rowBranch (s * 64 + m * 8 + r) (.bcc (Cond.ofField c))

/-- Line 7: MOVEQ. -/
def decodeLine7 (d b s m r : Nat) : Option Tail :=
  if b = 0 then rowPlain (.moveq (regOf d) (BitVec.ofNat 8 (s * 64 + m * 8 + r))) else none

/-- Line 8: OR, DIVU, DIVS, SBCD. -/
def decodeLine8 (d b s m r : Nat) : Option Tail :=
  match Size.ofField s with
  | none =>
    if b = 0 then rowEa Ea.data .w m r fun e => .divu e (regOf d)
    else rowEa Ea.data .w m r fun e => .divs e (regOf d)
  | some sz =>
    if b = 0 then rowEa Ea.data sz m r fun e => .orEaDn sz e (regOf d)
    else if m = 0 then (if s = 0 then rowPlain (.sbcd .dataReg (regOf r) (regOf d)) else none)
    else if m = 1 then (if s = 0 then rowPlain (.sbcd .memPreDec (regOf r) (regOf d)) else none)
    else rowEa Ea.memoryAlterable sz m r (.orDnEa sz (regOf d))

/-- Line 9: SUB, SUBA, SUBX. -/
def decodeLine9 (d b s m r : Nat) : Option Tail :=
  match Size.ofField s with
  | none => rowEa (Ea.allAt (Size.ofBit b)) (Size.ofBit b) m r fun e => .suba (Size.ofBit b) e (regOf d)
  | some sz =>
    if b = 0 then rowEa (Ea.allAt sz) sz m r fun e => .subEaDn sz e (regOf d)
    else if m = 0 then rowPlain (.subx sz .dataReg (regOf r) (regOf d))
    else if m = 1 then rowPlain (.subx sz .memPreDec (regOf r) (regOf d))
    else rowEa Ea.memoryAlterable sz m r (.subDnEa sz (regOf d))

/-- Line 11: CMP, CMPA, EOR, CMPM. -/
def decodeLine11 (d b s m r : Nat) : Option Tail :=
  match Size.ofField s with
  | none => rowEa (Ea.allAt (Size.ofBit b)) (Size.ofBit b) m r fun e => .cmpa (Size.ofBit b) e (regOf d)
  | some sz =>
    if b = 0 then rowEa (Ea.allAt sz) sz m r fun e => .cmp sz e (regOf d)
    else if m = 1 then rowPlain (.cmpm sz (regOf r) (regOf d))
    else rowEa Ea.dataAlterable sz m r (.eor sz (regOf d))

/-- Line 12: AND, MULU, MULS, ABCD, EXG. -/
def decodeLine12 (d b s m r : Nat) : Option Tail :=
  match Size.ofField s with
  | none =>
    if b = 0 then rowEa Ea.data .w m r fun e => .mulu e (regOf d)
    else rowEa Ea.data .w m r fun e => .muls e (regOf d)
  | some sz =>
    if b = 0 then rowEa Ea.data sz m r fun e => .andEaDn sz e (regOf d)
    else if m = 0 then
      match s with
      | 0 => rowPlain (.abcd .dataReg (regOf r) (regOf d))
      | 1 => rowPlain (.exgDD (regOf d) (regOf r))
      | _ => none
    else if m = 1 then
      match s with
      | 0 => rowPlain (.abcd .memPreDec (regOf r) (regOf d))
      | 1 => rowPlain (.exgAA (regOf d) (regOf r))
      | _ => rowPlain (.exgDA (regOf d) (regOf r))
    else rowEa Ea.memoryAlterable sz m r (.andDnEa sz (regOf d))

/-- Line 13: ADD, ADDA, ADDX. -/
def decodeLine13 (d b s m r : Nat) : Option Tail :=
  match Size.ofField s with
  | none => rowEa (Ea.allAt (Size.ofBit b)) (Size.ofBit b) m r fun e => .adda (Size.ofBit b) e (regOf d)
  | some sz =>
    if b = 0 then rowEa (Ea.allAt sz) sz m r fun e => .addEaDn sz e (regOf d)
    else if m = 0 then rowPlain (.addx sz .dataReg (regOf r) (regOf d))
    else if m = 1 then rowPlain (.addx sz .memPreDec (regOf r) (regOf d))
    else rowEa Ea.memoryAlterable sz m r (.addDnEa sz (regOf d))

/-- Line 14, memory forms: type in 10:9, direction in bit 8 (46_shift_rotate.md R240). -/
def decodeShiftMem (d b m r : Nat) : Option Tail :=
  match d * 2 + b with
  | 0 => rowEa Ea.memoryAlterable .w m r .asrMem
  | 1 => rowEa Ea.memoryAlterable .w m r .aslMem
  | 2 => rowEa Ea.memoryAlterable .w m r .lsrMem
  | 3 => rowEa Ea.memoryAlterable .w m r .lslMem
  | 4 => rowEa Ea.memoryAlterable .w m r .roxrMem
  | 5 => rowEa Ea.memoryAlterable .w m r .roxlMem
  | 6 => rowEa Ea.memoryAlterable .w m r .rorMem
  | 7 => rowEa Ea.memoryAlterable .w m r .rolMem
  | _ => none

/-- Line 14, register forms: bit 5 says whether 11:9 is a count or a register, 4:3 is the type (46_shift_rotate.md R240). -/
def decodeShiftReg (sz : Size) (d b m r : Nat) : Option Tail :=
  let count : ShiftCount := if m / 4 = 0 then .imm (regOf d) else .reg (regOf d)
  match m % 4, b with
  | 0, 0 => rowPlain (.asr sz count (regOf r))
  | 0, _ => rowPlain (.asl sz count (regOf r))
  | 1, 0 => rowPlain (.lsr sz count (regOf r))
  | 1, _ => rowPlain (.lsl sz count (regOf r))
  | 2, 0 => rowPlain (.roxr sz count (regOf r))
  | 2, _ => rowPlain (.roxl sz count (regOf r))
  | _, 0 => rowPlain (.ror sz count (regOf r))
  | _, _ => rowPlain (.rol sz count (regOf r))

/-- Line 14: shifts and rotates. -/
def decodeLine14 (d b s m r : Nat) : Option Tail :=
  match Size.ofField s with
  | none => decodeShiftMem d b m r
  | some sz => decodeShiftReg sz d b m r

/-- The row that the six fields of an opword select (30_encoding.md R93, R94), none where it is illegal (R95). -/
def decodeFields (l d b s m r : Nat) : Option Tail :=
  match l with
  | 0 => decodeLine0 d b s m r
  | 1 => decodeMove .b d b s m r
  | 2 => decodeMove .l d b s m r
  | 3 => decodeMove .w d b s m r
  | 4 => decodeLine4 d b s m r
  | 5 => decodeLine5 d b s m r
  | 6 => decodeLine6 d b s m r
  | 7 => decodeLine7 d b s m r
  | 8 => decodeLine8 d b s m r
  | 9 => decodeLine9 d b s m r
  | 10 => rowPlain (.lineA (BitVec.ofNat 12 (d * 512 + b * 256 + s * 64 + m * 8 + r)))
  | 11 => decodeLine11 d b s m r
  | 12 => decodeLine12 d b s m r
  | 13 => decodeLine13 d b s m r
  | 14 => decodeLine14 d b s m r
  | _ => rowPlain (.lineF (BitVec.ofNat 12 (d * 512 + b * 256 + s * 64 + m * 8 + r)))

/-- The row an opword selects. -/
def decodeOpword (w : Word) : Option Tail :=
  decodeFields (w.toNat / 4096) (w.toNat / 512 % 8) (w.toNat / 256 % 2) (w.toNat / 64 % 4) (w.toNat / 8 % 8)
    (w.toNat % 8)

/-- What the decoder answers. -/
inductive Decoded where
  /-- An instruction, and the words after it. -/
  | instr (i : Instr) (rest : List Word)
  /-- The opword selects no row: the illegal-instruction exception (30_encoding.md R95). -/
  | illegalOpword (w : Word)
  /-- The words end before the instruction does. -/
  | truncated
deriving DecidableEq, Repr

/-- The decoding procedure of 30_encoding.md R94 on the words from an opword on. -/
def decode : List Word → Decoded
  | [] => .truncated
  | w :: ws =>
    match decodeOpword w with
    | none => .illegalOpword w
    | some tail =>
      match tail ws with
      | none => .truncated
      | some (i, rest) => .instr i rest

/-- The words that bytes in memory hold, the byte at the lower address the high half (20_memory.md R54). -/
def wordsOfBytes : List Byte → List Word
  | h :: l :: bs => (h ++ l) :: wordsOfBytes bs
  | _ => []

/-- The bytes of words as they lie in memory (20_memory.md R54). -/
def bytesOfWords : List Word → List Byte
  | [] => []
  | w :: ws => w.extractLsb' 8 8 :: w.extractLsb' 0 8 :: bytesOfWords ws

/-- The five words of an instruction numbered as spec/opcode_table.json numbers its bits: the first word is bits 15:0, the
next 31:16, and so on; bits from `nbits` on are 0. -/
def tableWords (nbits w : Nat) : List Word :=
  [BitVec.ofNat 16 (w % 2 ^ nbits), BitVec.ofNat 16 (w % 2 ^ nbits / 2 ^ 16), BitVec.ofNat 16 (w % 2 ^ nbits / 2 ^ 32),
    BitVec.ofNat 16 (w % 2 ^ nbits / 2 ^ 48), BitVec.ofNat 16 (w % 2 ^ nbits / 2 ^ 64)]

/-- The instruction the decoder reads from those words, laid out as the hardware stores them. -/
def decodeTableWord (nbits w : Nat) : Option Instr :=
  match decode (wordsOfBytes (bytesOfWords (tableWords nbits w))) with
  | .instr i _ => some i
  | _ => none

/-! ## The encoder -/

/-- An opword from its six fields. -/
def opword (l d b s m r : Nat) : Word := BitVec.ofNat 16 (l * 4096 + d * 512 + b * 256 + s * 64 + m * 8 + r)

/-- Opword and extension words of a row with an operand in 5:0. -/
def encEa (l d b s : Nat) (own : List Word) (sz : Size) (e : Ea) : List Word :=
  opword l d b s e.mode e.regField :: (own ++ e.extWords sz)

/-- Opword of a row whose low byte is a number. -/
def encByte (l d b : Nat) (n : Byte) : Word := opword l d b (n.toNat / 64) (n.toNat / 8 % 8) (n.toNat % 8)

/-- A branch with its condition field. -/
def encBranch (c : Nat) : BranchDisp → List Word
  | .short d => [encByte 6 (c / 2) (c % 2) d]
  | .word w => [encByte 6 (c / 2) (c % 2) 0, w]

/-- A byte in the low half of an extension word, the high half 0 (30_encoding.md R98). -/
def byteWord (n : Byte) : Word := n.setWidth 16

/-- Bit `M` of ADDX, SUBX, ABCD, SBCD (30_encoding.md R93). -/
def PairMode.field : PairMode → Nat
  | .dataReg => 0
  | .memPreDec => 1

/-- The fields 11:9 and `I` of a shift count (46_shift_rotate.md R240). -/
def ShiftCount.field : ShiftCount → Nat
  | .imm q => q.val
  | .reg r => r.val

/-- Bit `I` of a shift count (46_shift_rotate.md R240). -/
def ShiftCount.isReg : ShiftCount → Nat
  | .imm _ => 0
  | .reg _ => 1

/-- A register shift of type `tt` and direction `dir` (46_shift_rotate.md R240). -/
def encShift (tt dir : Nat) (sz : Size) (c : ShiftCount) (r : Fin 8) : List Word :=
  [opword 14 c.field dir sz.field (c.isReg * 4 + tt) r.val]

/-- Bit 7 of MOVEP (30_encoding.md R93). -/
def MovepDir.field : MovepDir → Nat
  | .toReg => 0
  | .toMem => 1

/-- A row of the two lines without instructions. -/
def encLine (l : Nat) (w : BitVec 12) : List Word :=
  [opword l (w.toNat / 512) (w.toNat / 256 % 2) (w.toNat / 64 % 4) (w.toNat / 8 % 8) (w.toNat % 8)]

/-- The words of a well-formed instruction (30_encoding.md R93, R84), reserved bits written 0 (R98). -/
def encode : Instr → List Word
  | .ori sz v e => encEa 0 0 0 sz.field (immWords sz v) sz e
  | .andi sz v e => encEa 0 1 0 sz.field (immWords sz v) sz e
  | .subi sz v e => encEa 0 2 0 sz.field (immWords sz v) sz e
  | .addi sz v e => encEa 0 3 0 sz.field (immWords sz v) sz e
  | .eori sz v e => encEa 0 5 0 sz.field (immWords sz v) sz e
  | .cmpi sz v e => encEa 0 6 0 sz.field (immWords sz v) sz e
  | .oriToCcr n => [opword 0 0 0 0 7 4, byteWord n]
  | .oriToSr w => [opword 0 0 0 1 7 4, w]
  | .andiToCcr n => [opword 0 1 0 0 7 4, byteWord n]
  | .andiToSr w => [opword 0 1 0 1 7 4, w]
  | .eoriToCcr n => [opword 0 5 0 0 7 4, byteWord n]
  | .eoriToSr w => [opword 0 5 0 1 7 4, w]
  | .btstImm n e => encEa 0 4 0 0 [byteWord n] .b e
  | .bchgImm n e => encEa 0 4 0 1 [byteWord n] .b e
  | .bclrImm n e => encEa 0 4 0 2 [byteWord n] .b e
  | .bsetImm n e => encEa 0 4 0 3 [byteWord n] .b e
  | .btstReg d e => encEa 0 d.val 1 0 [] .b e
  | .bchgReg d e => encEa 0 d.val 1 1 [] .b e
  | .bclrReg d e => encEa 0 d.val 1 2 [] .b e
  | .bsetReg d e => encEa 0 d.val 1 3 [] .b e
  | .movep dir sz dx ay w => [opword 0 dx.val 1 (dir.field * 2 + sz.bit) 1 ay.val, w]
  | .move sz src dst =>
      opword sz.moveLine dst.regField (dst.mode / 4) (dst.mode % 4) src.mode src.regField
        :: (src.extWords sz ++ dst.extWords sz)
  | .movea sz src an => encEa sz.moveLine an.val 0 1 [] sz src
  | .negx sz e => encEa 4 0 0 sz.field [] sz e
  | .clr sz e => encEa 4 1 0 sz.field [] sz e
  | .neg sz e => encEa 4 2 0 sz.field [] sz e
  | .not sz e => encEa 4 3 0 sz.field [] sz e
  | .tst sz e => encEa 4 5 0 sz.field [] sz e
  | .moveFromSr e => encEa 4 0 0 3 [] .w e
  | .moveToCcr e => encEa 4 2 0 3 [] .w e
  | .moveToSr e => encEa 4 3 0 3 [] .w e
  | .chk e dn => encEa 4 dn.val 1 2 [] .w e
  | .lea e an => encEa 4 an.val 1 3 [] .l e
  | .nbcd e => encEa 4 4 0 0 [] .b e
  | .swap dn => [opword 4 4 0 1 0 dn.val]
  | .pea e => encEa 4 4 0 1 [] .l e
  | .ext sz dn => [opword 4 4 0 (2 + sz.bit) 0 dn.val]
  | .movemToMem sz mask e => encEa 4 4 0 (2 + sz.bit) [mask] sz e
  | .movemToReg sz mask e => encEa 4 6 0 (2 + sz.bit) [mask] sz e
  | .tas e => encEa 4 5 0 3 [] .b e
  | .illegal => [opword 4 5 0 3 7 4]
  | .trap v => [opword 4 7 0 1 (v.val / 8) (v.val % 8)]
  | .link an w => [opword 4 7 0 1 2 an.val, w]
  | .unlk an => [opword 4 7 0 1 3 an.val]
  | .moveToUsp an => [opword 4 7 0 1 4 an.val]
  | .moveFromUsp an => [opword 4 7 0 1 5 an.val]
  | .reset => [opword 4 7 0 1 6 0]
  | .nop => [opword 4 7 0 1 6 1]
  | .stop w => [opword 4 7 0 1 6 2, w]
  | .rte => [opword 4 7 0 1 6 3]
  | .rts => [opword 4 7 0 1 6 5]
  | .trapv => [opword 4 7 0 1 6 6]
  | .rtr => [opword 4 7 0 1 6 7]
  | .jsr e => encEa 4 7 0 2 [] .l e
  | .jmp e => encEa 4 7 0 3 [] .l e
  | .addq sz q e => encEa 5 q.val 0 sz.field [] sz e
  | .subq sz q e => encEa 5 q.val 1 sz.field [] sz e
  | .scc c e => encEa 5 (c.field / 2) (c.field % 2) 3 [] .b e
  | .dbcc c dn w => [opword 5 (c.field / 2) (c.field % 2) 3 1 dn.val, w]
  | .bra d => encBranch 0 d
  | .bsr d => encBranch 1 d
  | .bcc c d => encBranch c.field d
  | .moveq dn n => [encByte 7 dn.val 0 n]
  | .orEaDn sz e dn => encEa 8 dn.val 0 sz.field [] sz e
  | .orDnEa sz dn e => encEa 8 dn.val 1 sz.field [] sz e
  | .divu e dn => encEa 8 dn.val 0 3 [] .w e
  | .divs e dn => encEa 8 dn.val 1 3 [] .w e
  | .sbcd pm ry rx => [opword 8 rx.val 1 0 pm.field ry.val]
  | .subEaDn sz e dn => encEa 9 dn.val 0 sz.field [] sz e
  | .subDnEa sz dn e => encEa 9 dn.val 1 sz.field [] sz e
  | .suba sz e an => encEa 9 an.val sz.bit 3 [] sz e
  | .subx sz pm ry rx => [opword 9 rx.val 1 sz.field pm.field ry.val]
  | .cmp sz e dn => encEa 11 dn.val 0 sz.field [] sz e
  | .cmpa sz e an => encEa 11 an.val sz.bit 3 [] sz e
  | .eor sz dn e => encEa 11 dn.val 1 sz.field [] sz e
  | .cmpm sz ry rx => [opword 11 rx.val 1 sz.field 1 ry.val]
  | .andEaDn sz e dn => encEa 12 dn.val 0 sz.field [] sz e
  | .andDnEa sz dn e => encEa 12 dn.val 1 sz.field [] sz e
  | .mulu e dn => encEa 12 dn.val 0 3 [] .w e
  | .muls e dn => encEa 12 dn.val 1 3 [] .w e
  | .abcd pm ry rx => [opword 12 rx.val 1 0 pm.field ry.val]
  | .exgDD rx ry => [opword 12 rx.val 1 1 0 ry.val]
  | .exgAA rx ry => [opword 12 rx.val 1 1 1 ry.val]
  | .exgDA rx ry => [opword 12 rx.val 1 2 1 ry.val]
  | .addEaDn sz e dn => encEa 13 dn.val 0 sz.field [] sz e
  | .addDnEa sz dn e => encEa 13 dn.val 1 sz.field [] sz e
  | .adda sz e an => encEa 13 an.val sz.bit 3 [] sz e
  | .addx sz pm ry rx => [opword 13 rx.val 1 sz.field pm.field ry.val]
  | .asr sz c dn => encShift 0 0 sz c dn
  | .asl sz c dn => encShift 0 1 sz c dn
  | .lsr sz c dn => encShift 1 0 sz c dn
  | .lsl sz c dn => encShift 1 1 sz c dn
  | .roxr sz c dn => encShift 2 0 sz c dn
  | .roxl sz c dn => encShift 2 1 sz c dn
  | .ror sz c dn => encShift 3 0 sz c dn
  | .rol sz c dn => encShift 3 1 sz c dn
  | .asrMem e => encEa 14 0 0 3 [] .w e
  | .aslMem e => encEa 14 0 1 3 [] .w e
  | .lsrMem e => encEa 14 1 0 3 [] .w e
  | .lslMem e => encEa 14 1 1 3 [] .w e
  | .roxrMem e => encEa 14 2 0 3 [] .w e
  | .roxlMem e => encEa 14 2 1 3 [] .w e
  | .rorMem e => encEa 14 3 0 3 [] .w e
  | .rolMem e => encEa 14 3 1 3 [] .w e
  | .lineA w => encLine 10 w
  | .lineF w => encLine 15 w

/-- The length of an instruction in bytes, from its own words and its operands' (30_encoding.md R83). -/
def lengthOf (own : Nat) (operandWords : Nat) : Long := BitVec.ofNat 32 (2 + 2 * (own + operandWords))

/-- How many extension words a branch has (30_encoding.md R83, R88). -/
def BranchDisp.words : BranchDisp → Nat
  | .short _ => 0
  | .word _ => 1

end Sys2Proof
end

