-- ==== Sys2Proof/Machine/Bits.lean ====
section
/-! DEFINITION. Values of an operation size held in a long (00_scope.md R9): the low `bits(sz)` bits count, and an operand's
other bits are zero. -/

namespace Sys2Proof.Machine

/-- `trunc_n(v)`, zero-extended to a long (00_scope.md R9). -/
def trunc (sz : Size) (v : Long) : Long := (v.setWidth sz.bits).setWidth 32

/-- `uint(v)` at a size (00_scope.md R9). -/
def uint (sz : Size) (v : Long) : Nat := (v.setWidth sz.bits).toNat

/-- `sint(v)` at a size (00_scope.md R9). -/
def sint (sz : Size) (v : Long) : Int := (v.setWidth sz.bits).toInt

/-- `sext_32(v)` of a value of a size (00_scope.md R9). -/
def sext (sz : Size) (v : Long) : Long := (v.setWidth sz.bits).signExtend 32

/-- `msb(v)` at a size (00_scope.md R9). -/
def msb (sz : Size) (v : Long) : Bool := v.getLsbD (sz.bits - 1)

/-- The value of a size denoted by a natural number, modulo 2^bits (00_scope.md R9 `trunc_n`). -/
def ofNatAt (sz : Size) (n : Nat) : Long := BitVec.ofNat 32 (n % 2 ^ sz.bits)

/-- The value of a size denoted by an integer, modulo 2^bits (00_scope.md R9, R11). -/
def ofIntAt (sz : Size) (i : Int) : Long := ofNatAt sz (i % (2 ^ sz.bits : Int)).toNat

/-- `D[n][sz] <- v`: the low bits replaced, the others kept (00_scope.md R10, 10_state.md R22). -/
def insertLow (sz : Size) (old v : Long) : Long :=
  match sz with
  | .b => old.extractLsb' 8 24 ++ v.extractLsb' 0 8
  | .w => old.extractLsb' 16 16 ++ v.extractLsb' 0 16
  | .l => v

/-- A number of bytes as an address increment. -/
def sizeStep (sz : Size) : Long := BitVec.ofNat 32 sz.bytes

end Sys2Proof.Machine
end

