-- ==== Sys2Proof/Config.lean ====
section
/-! DEFINITION. What an implementation or a platform fixes (00_scope.md R6), as plain data that State carries, and the free
values of the manual as constants without a body. -/

namespace Sys2Proof

/-- What stands behind a byte address (the parameter `MEMORY_MAP`, 00_scope.md R6; 20_memory.md R62, R63). -/
inductive MemKind where
  /-- Read and written. -/
  | ram
  /-- Read; a write is rejected by the platform, which is a bus error (20_memory.md R63). -/
  | rom
  /-- Read; the platform ignores a write (20_memory.md R63, last sentence). -/
  | quietRom
  /-- A device: what an access does there is the platform's (20_memory.md R60) and no rule says it. -/
  | device
  /-- Nothing: an access is a bus error (20_memory.md R63). -/
  | unmapped
deriving DecidableEq, Repr

/-- One region of the memory map: `size` byte addresses from `base` on. -/
structure Region where
  base : Nat
  size : Nat
  kind : MemKind
deriving DecidableEq, Repr

/-- The parameter `ROX_ZERO_COUNT_C` (00_scope.md R6, 46_shift_rotate.md R248, 90_conflicts.md C7). -/
inductive RoxZeroCountC where
  | clear
  | copyX
deriving DecidableEq, Repr

/-- The parameter `STOP_CLEARS_S` (00_scope.md R6, 48_muldiv_chk_system.md R299, 90_conflicts.md C13). -/
inductive StopClearsS where
  | privilegeViolation
  | stopInUserMode
deriving DecidableEq, Repr

/-- The parameters of 00_scope.md R6 that a run keeps fixed. `IPL` and `IACK` are inputs and stand in State. -/
structure Config where
  /-- `ADDR_BITS`: an address is used modulo 2 to this power (20_memory.md R50). -/
  addrBits : Nat
  /-- `MEMORY_MAP`: the first region that holds an address decides; an address in none is unmapped. -/
  memoryMap : List Region
  roxZeroCountC : RoxZeroCountC
  stopClearsS : StopClearsS
deriving DecidableEq, Repr

/-- The defaults of 00_scope.md R6; for `MEMORY_MAP`, which has none there, RAM at every address
(DESIGN CHOICE, unsafe: log 6). -/
def Config.default : Config :=
  { addrBits := 24
    memoryMap := [{ base := 0, size := 2 ^ 24, kind := .ram }]
    roxZeroCountC := .clear
    stopClearsS := .privilegeViolation }

/-- What an unlisted byte of memory reads as (DESIGN CHOICE, unsafe: log 5; 95_test_vectors.md section 3 uses the same). -/
def Config.emptyByte : Byte := 0

/-- The value a register without a reset value holds after reset (DESIGN CHOICE, unsafe: logs 1 to 3). -/
def Config.resetRegister : Long := 0

/-- The value a flag without a reset value holds after reset (DESIGN CHOICE, unsafe: log 4). -/
def Config.resetFlag : Bool := false

/-- `draw()` of 00_scope.md R10: the free bit with this number (93_implementation_defined.md U1 to U4; log 8). -/
opaque Config.drawBit : Nat → Bool

/-- The free byte with this number: the result of a decimal instruction on a digit above 9
(43_bcd.md R200, 93_implementation_defined.md U4; logs 8 and 19). -/
opaque Config.drawByte : Nat → Byte

/-- Which of the words that the prefetch queue may hold for this address the fetch with this number executes, counted modulo how
many there are, the word in memory first (20_memory.md R69; logs 8 and 17). -/
opaque Config.prefetchPick : Nat → Long → Nat

end Sys2Proof
end

