-- ==== Sys2Proof/Machine/State.lean ====
section
/-! DEFINITION. The state of one 68000 (10_state.md R20 to R37), the inputs the platform gives it, and the reasons a step can
stop. State is plain data. -/

namespace Sys2Proof.Machine

/-- The condition code register's five flags (10_state.md R27, R28). -/
structure Ccr where
  x : Bool
  n : Bool
  z : Bool
  v : Bool
  c : Bool
deriving DecidableEq, Repr

/-- The status register (10_state.md R27): its implemented bits. Bits 14, 12, 11, 7, 6, 5 do not exist (R32), so they have
no field; `StatusReg.toWord` and `StatusReg.ofWord` of Machine/Ops.lean give the 16-bit view (log 27). -/
structure StatusReg where
  /-- Trace (10_state.md R30). -/
  t : Bool
  /-- Supervisor (10_state.md R29). -/
  s : Bool
  /-- Interrupt priority mask (10_state.md R31). -/
  ipm : BitVec 3
  ccr : Ccr
deriving DecidableEq, Repr

/-- The run state (10_state.md R34). -/
inductive RunState where
  | running
  | stopped
  /-- Entered by a model fault, which is also the step's outcome; only external reset leaves it (70_reset_and_hazards.md R380,
  92_eei_decisions.md D36; log 14). -/
  | faulted
deriving DecidableEq, Repr

/-- What the platform answers to an interrupt acknowledge (00_scope.md R6, `IACK`). -/
inductive IackAnswer where
  | vector (n : BitVec 8)
  | autovector
  | spurious
deriving DecidableEq, Repr

/-- What the platform presents for one step (10_state.md R35, 60_exceptions.md R333; log 11). -/
inductive PlatformInput where
  /-- A level on the interrupt request input, 0 for no request, and the answer if it is acknowledged. -/
  | irq (level : BitVec 3) (answer : IackAnswer)
  /-- External reset. -/
  | reset
deriving DecidableEq, Repr

/-- What the processor puts out to the platform (48_muldiv_chk_system.md R298; log 32). -/
inductive PlatformEvent where
  /-- The RESET* line is asserted. -/
  | resetPeripherals
deriving DecidableEq, Repr

/-- A word that the prefetch queue may still hold for an address of the reduced space, older than the word in memory
(20_memory.md R69; log 17). -/
structure HeldWord where
  addr : Nat
  word : Word
deriving DecidableEq, Repr

/-- The state of the machine. -/
structure State where
  /-- D0 to D7 (10_state.md R20). -/
  d : Vector Long 8
  /-- A0 to A6 (10_state.md R21). -/
  a : Vector Long 7
  /-- The user stack pointer (10_state.md R23). -/
  usp : Long
  /-- The supervisor stack pointer (10_state.md R23). -/
  ssp : Long
  /-- The address of the next instruction's opword (10_state.md R26). -/
  pc : Long
  /-- The status register (10_state.md R27). -/
  sr : StatusReg
  /-- Running, stopped or faulted (10_state.md R34). -/
  run : RunState
  /-- Memory in canonical form (20_memory.md R50): addresses rising, no byte that equals `Config.emptyByte`. -/
  mem : List Host.Cell
  /-- Older words the prefetch queue may still hold (10_state.md R36, 20_memory.md R69; log 17). -/
  stale : List HeldWord
  /-- The interrupt level seen at the last boundary (60_exceptions.md R350; log 12). -/
  lastIpl : BitVec 3
  /-- The platform's inputs for the steps to come, one a step; when it is empty, no request (10_state.md R35; log 11). -/
  inputs : List PlatformInput
  /-- The platform events put out so far, the latest last (48_muldiv_chk_system.md R298). -/
  events : List PlatformEvent
  /-- The MODEL's own: the number of the next free value (00_scope.md R10 `draw()`; log 8). -/
  draws : Nat
  /-- The parameters of 00_scope.md R6; no step changes them (log 26). -/
  cfg : Config
deriving DecidableEq, Repr

/-- Why a run stops: the model faults of the spec (92_eei_decisions.md D36). All are safe: the model stops where the chip
takes an exception whose frame the spec does not describe. A fault carries the state it leaves, so that external reset can
follow: what the instruction did before the access stands, the access is not done (log 14). -/
inductive Fault where
  /-- A word or long data access, or an instruction fetch, at an odd address (20_memory.md R55, R56; 60_exceptions.md R335).
  Raised by Machine/Memory.lean's access checks. Safe. -/
  | addressError (a : Long) (left : State)
  /-- An access to an unmapped address, or a write that ROM rejects (20_memory.md R63; 60_exceptions.md R334). Raised by
  Machine/Memory.lean's access checks. Safe. -/
  | busError (a : Long) (left : State)
deriving DecidableEq, Repr

/-- Why the model gives no meaning. -/
inductive Refusal where
  /-- An instruction without a meaning yet; raised by exec's arm of it alone. Safe. -/
  | notModelled (mnemonic : String)
  /-- An access to a device, whose behaviour the spec leaves to the platform (20_memory.md R60). Raised by
  Machine/Memory.lean's access checks where the memory map has a device. Safe (log 16). -/
  | deviceAccess (a : Long)
  /-- An instruction term that no opword encodes: an operand that is not in memory where the instruction needs its address,
  or a write to an immediate. Raised by Machine/Operands.lean; never by step, whose decoder gives no such term. Safe (log 25). -/
  | notEncodable
deriving DecidableEq, Repr

/-- What a step answers. -/
abbrev Result := Host.Outcome State Fault Refusal

/-- Why an operation inside a step stops. -/
inductive Stop where
  | fault (f : Fault)
  | refused (r : Refusal)
deriving DecidableEq, Repr

/-- What an operation inside a step answers: a value, or why it stops. -/
abbrev Res (α : Type) := Except Stop α

/-- The outcome of a step from the answer of its last operation. -/
def finish : Res State → Result
  | .ok s => .next s
  | .error (.fault f) => .fault f
  | .error (.refused r) => .refused r

/-- The machine right after reset (10_state.md R37, 70_reset_and_hazards.md R380), with nothing listed in memory: SSP and PC
are the longs at addresses 0 and 4, which then read `Config.emptyByte` in every byte (logs 1 to 5). -/
def State.reset : State :=
  { d := Vector.replicate 8 Config.resetRegister
    a := Vector.replicate 7 Config.resetRegister
    usp := Config.resetRegister
    ssp := Config.emptyByte ++ Config.emptyByte ++ Config.emptyByte ++ Config.emptyByte
    pc := Config.emptyByte ++ Config.emptyByte ++ Config.emptyByte ++ Config.emptyByte
    sr :=
      { t := false, s := true, ipm := 7
        ccr := { x := Config.resetFlag, n := Config.resetFlag, z := Config.resetFlag, v := Config.resetFlag,
                 c := Config.resetFlag } }
    run := .running
    mem := []
    stale := []
    lastIpl := 0
    inputs := []
    events := []
    draws := 0
    cfg := Config.default }

end Sys2Proof.Machine
end

