-- ==== Sys2Proof/Machine/Memory.lean ====
section
/-! DEFINITION. Memory (20_memory.md): the byte list and its canonical form, the memory map, and the aligned, mapped,
big-endian accesses `MemRead` and `MemWrite` of 00_scope.md R10. -/

namespace Sys2Proof.Machine

/-! ## The list of bytes -/

/-- The byte at an address of the reduced address space; an unlisted address reads `Config.emptyByte` (log 5). -/
def memRead : List Host.Cell → Nat → Byte
  | [], _ => Config.emptyByte
  | (k, b) :: m, a => if k = a then b else memRead m a

/-- Write a byte, keeping the canonical form: writing what an unlisted address reads as removes the entry. -/
def memWrite : List Host.Cell → Nat → Byte → List Host.Cell
  | [], a, b => if b = Config.emptyByte then [] else [(a, b)]
  | (k, c) :: m, a, b =>
    if a < k then (if b = Config.emptyByte then (k, c) :: m else (a, b) :: (k, c) :: m)
    else if a = k then (if b = Config.emptyByte then m else (a, b) :: m)
    else (k, c) :: memWrite m a b

/-- The canonical form from an address on: addresses strictly rising, none below `lo`, no byte equal to
`Config.emptyByte`. -/
def memWfFrom : Nat → List Host.Cell → Bool
  | _, [] => true
  | lo, (k, b) :: m => decide (lo ≤ k) && b != Config.emptyByte && memWfFrom (k + 1) m

/-- The canonical form of memory. -/
def Memory.wf (m : List Host.Cell) : Bool := memWfFrom 0 m

/-! ## Addresses and the memory map -/

/-- The address that reaches memory: `addr mod 2^ADDR_BITS` (20_memory.md R50). -/
def physAddr (c : Config) (a : Long) : Nat := a.toNat % 2 ^ c.addrBits

/-- What stands at a reduced address: the first region that holds it, else nothing (00_scope.md R6 `MEMORY_MAP`). -/
def regionKind : List Region → Nat → MemKind
  | [], _ => .unmapped
  | r :: rs, n => if r.base ≤ n ∧ n < r.base + r.size then r.kind else regionKind rs n

/-- What stands at an address. -/
def kindAt (c : Config) (a : Long) : MemKind := regionKind c.memoryMap (physAddr c a)

/-- `M[a]` of 20_memory.md R52. -/
def State.byteAt (s : State) (a : Long) : Byte := memRead s.mem (physAddr s.cfg a)

/-! ## Access checks -/

/-- Why reading one byte stops, if it does (20_memory.md R63; log 16). -/
def readStopAt (s : State) (a : Long) : Option Stop :=
  match kindAt s.cfg a with
  | .ram => none
  | .rom => none
  | .quietRom => none
  | .device => some (.refused (.deviceAccess a))
  | .unmapped => some (.fault (.busError a s))

/-- Why writing one byte stops, if it does (20_memory.md R63; log 16). -/
def writeStopAt (s : State) (a : Long) : Option Stop :=
  match kindAt s.cfg a with
  | .ram => none
  | .rom => some (.fault (.busError a s))
  | .quietRom => none
  | .device => some (.refused (.deviceAccess a))
  | .unmapped => some (.fault (.busError a s))

/-- The first reason among bytes. -/
def firstStop (f : Long → Option Stop) : List Long → Option Stop
  | [] => none
  | a :: as =>
    match f a with
    | some e => some e
    | none => firstStop f as

/-- The addresses of the bytes of an access; each is reduced separately (40_addressing.md R143). -/
def accessBytes (sz : Size) (a : Long) : List Long :=
  match sz with
  | .b => [a]
  | .w => [a, a + 1]
  | .l => [a, a + 1, a + 2, a + 3]

/-- A word or long at an odd address is misaligned; a long need not be a multiple of 4 (20_memory.md R55). -/
def misaligned (sz : Size) (a : Long) : Bool := sz != .b && a.getLsbD 0

/-- Why a read of this size stops, if it does: alignment first, then the map (20_memory.md R55, R63; log 35). -/
def readStop (s : State) (sz : Size) (a : Long) : Option Stop :=
  if misaligned sz a then some (.fault (.addressError a s)) else firstStop (readStopAt s) (accessBytes sz a)

/-- Why a write of this size stops, if it does: alignment first, then the map (20_memory.md R55, R63; log 35). -/
def writeStop (s : State) (sz : Size) (a : Long) : Option Stop :=
  if misaligned sz a then some (.fault (.addressError a s)) else firstStop (writeStopAt s) (accessBytes sz a)

/-! ## Reading and writing -/

/-- The big-endian value in memory, zero-extended to 32 bits (20_memory.md R52). -/
def State.load (s : State) (sz : Size) (a : Long) : Long :=
  match sz with
  | .b => (s.byteAt a).setWidth 32
  | .w => (s.byteAt a ++ s.byteAt (a + 1)).setWidth 32
  | .l => s.byteAt a ++ s.byteAt (a + 1) ++ s.byteAt (a + 2) ++ s.byteAt (a + 3)

/-- Store one byte; a ROM that ignores writes keeps its byte (20_memory.md R63). -/
def State.storeByte (s : State) (a : Long) (b : Byte) : State :=
  if kindAt s.cfg a = .quietRom then s else { s with mem := memWrite s.mem (physAddr s.cfg a) b }

/-- Store the low bytes of a value, big-endian (20_memory.md R52). -/
def State.store (s : State) (sz : Size) (a : Long) (v : Long) : State :=
  match sz with
  | .b => s.storeByte a (v.extractLsb' 0 8)
  | .w => (s.storeByte a (v.extractLsb' 8 8)).storeByte (a + 1) (v.extractLsb' 0 8)
  | .l =>
    (((s.storeByte a (v.extractLsb' 24 8)).storeByte (a + 1) (v.extractLsb' 16 8)).storeByte (a + 2)
      (v.extractLsb' 8 8)).storeByte (a + 3) (v.extractLsb' 0 8)

/-- `MemRead(a, bytes(sz))` of 00_scope.md R10, zero-extended. -/
def readMem (s : State) (sz : Size) (a : Long) : Res Long :=
  match readStop s sz a with
  | some e => .error e
  | none => .ok (s.load sz a)

/-- `MemWrite(a, bytes(sz), v)` of 00_scope.md R10. -/
def writeMem (s : State) (sz : Size) (a : Long) (v : Long) : Res State :=
  match writeStop s sz a with
  | some e => .error e
  | none => .ok (s.store sz a v)

end Sys2Proof.Machine
end

