-- ==== Sys2Proof/Machine/Ops.lean ====
section
/-! DEFINITION. The named operations over registers and the status register (10_state.md), the stack, and taking an exception
and returning from one (60_exceptions.md R340, 47_control.md R269). -/

namespace Sys2Proof.Machine

/-! ## Registers -/

/-- `D[n]` (00_scope.md R10). -/
def State.dreg (s : State) (r : Fin 8) : Long := s.d[r.val]

/-- `D[n] <- v` (00_scope.md R10). -/
def State.setDreg (s : State) (r : Fin 8) (v : Long) : State := { s with d := s.d.set r.val v }

/-- `D[n][sz]`: the low bits of a data register (40_addressing.md R126). -/
def State.dregAt (s : State) (sz : Size) (r : Fin 8) : Long := trunc sz (s.dreg r)

/-- `D[n][sz] <- v` (00_scope.md R10, 10_state.md R22). -/
def State.setDregAt (s : State) (sz : Size) (r : Fin 8) (v : Long) : State :=
  s.setDreg r (insertLow sz (s.dreg r) v)

/-- The active stack pointer (10_state.md R23). -/
def State.sp (s : State) : Long := if s.sr.s then s.ssp else s.usp

/-- Write the active stack pointer (10_state.md R23). -/
def State.setSp (s : State) (v : Long) : State :=
  if s.sr.s then { s with ssp := v } else { s with usp := v }

/-- `A[n]`; number 7 is the active stack pointer (00_scope.md R10, 10_state.md R21, R23). -/
def State.areg (s : State) (r : Fin 8) : Long :=
  if h : r.val < 7 then s.a[r.val] else s.sp

/-- `A[n] <- v` (00_scope.md R10, 10_state.md R21, R23). -/
def State.setAreg (s : State) (r : Fin 8) (v : Long) : State :=
  if h : r.val < 7 then { s with a := s.a.set r.val v } else s.setSp v

/-- `R[k]`: a data register for k below 8, else an address register (00_scope.md R10, 10_state.md R24). -/
def State.rreg (s : State) (k : Fin 16) : Long :=
  if k.val < 8 then s.dreg (Fin.ofNat 8 k.val) else s.areg (Fin.ofNat 8 (k.val - 8))

/-- `R[k] <- v` (00_scope.md R10, 10_state.md R24). -/
def State.setRreg (s : State) (k : Fin 16) (v : Long) : State :=
  if k.val < 8 then s.setDreg (Fin.ofNat 8 k.val) v else s.setAreg (Fin.ofNat 8 (k.val - 8)) v

/-- The number of the stack pointer among the address registers (10_state.md R23). -/
def spNumber : Fin 8 := 7

/-! ## The program counter -/

/-- `pc <- t` (00_scope.md R10). -/
def State.jump (s : State) (t : Long) : State := { s with pc := t }

/-- Go on after an instruction of this length: `pc <- next` (10_state.md R26). -/
def State.advance (s : State) (len : Long) : State := s.jump (s.pc + len)

/-! ## The status register -/

/-- The CCR as a byte: X N Z V C in bits 4:0, bits 7:5 zero (10_state.md R27, R32). -/
def Ccr.toByte (c : Ccr) : Byte :=
  0#3 ++ BitVec.ofBool c.x ++ BitVec.ofBool c.n ++ BitVec.ofBool c.z ++ BitVec.ofBool c.v ++ BitVec.ofBool c.c

/-- The flags in the low five bits of a byte; the others are dropped (10_state.md R32). -/
def Ccr.ofByte (b : Byte) : Ccr :=
  { x := b.getLsbD 4, n := b.getLsbD 3, z := b.getLsbD 2, v := b.getLsbD 1, c := b.getLsbD 0 }

/-- SR as a word (10_state.md R27); unimplemented bits read 0 (R32). -/
def StatusReg.toWord (r : StatusReg) : Word :=
  BitVec.ofBool r.t ++ 0#1 ++ BitVec.ofBool r.s ++ 0#2 ++ r.ipm ++ r.ccr.toByte

/-- SR from a word: `value & 0xA71F` (10_state.md R32). -/
def StatusReg.ofWord (w : Word) : StatusReg :=
  { t := w.getLsbD 15, s := w.getLsbD 13, ipm := w.extractLsb' 8 3, ccr := Ccr.ofByte (w.setWidth 8) }

/-- Replace the condition codes. -/
def State.setCcr (s : State) (c : Ccr) : State := { s with sr := { s.sr with ccr := c } }

/-- Replace the whole status register. -/
def State.setSr (s : State) (r : StatusReg) : State := { s with sr := r }

/-! ## Free values -/

/-- The free bit `k` places after the next one (00_scope.md R10 `draw()`; log 8). -/
def State.draw (s : State) (k : Nat) : Bool := Config.drawBit (s.draws + k)

/-- The next free byte (log 8). -/
def State.drawByte (s : State) : Byte := Config.drawByte s.draws

/-- Use up free values, so that the next execution draws anew (93_implementation_defined.md, "made anew at each execution"). -/
def State.skipDraws (s : State) (k : Nat) : State := { s with draws := s.draws + k }

/-! ## The stack -/

/-- `Push32(v)` on the active stack (00_scope.md R10). -/
def push32 (v : Long) (s : State) : Res State :=
  writeMem (s.setSp (s.sp - 4)) .l (s.sp - 4) v

/-- `Pop32()` from the active stack (00_scope.md R10). -/
def pop32 (s : State) : Res (Long × State) := do
  let v ← readMem s .l s.sp
  .ok (v, s.setSp (s.sp + 4))

/-- `Pop16()` from the active stack (00_scope.md R10). -/
def pop16 (s : State) : Res (Long × State) := do
  let v ← readMem s .w s.sp
  .ok (v, s.setSp (s.sp + 2))

/-! ## Taking an exception and returning from one -/

/-- The address of a vector: `4 * v` (60_exceptions.md R331, 20_memory.md R62). -/
def vectorAddr (v : BitVec 8) : Long := v.setWidth 32 * 4

/-- The status register while an exception is taken: S set, T clear, the mask raised to the level of an interrupt
(60_exceptions.md R340, R351). -/
def StatusReg.forException (r : StatusReg) (level : Option (BitVec 3)) : StatusReg :=
  { r with s := true, t := false, ipm := level.getD r.ipm }

/-- `ExceptionEntry(v, stacked_pc, level)` of 60_exceptions.md R340: copy SR, set S and clear T, push the PC and the copy on
the supervisor stack, read the vector. A failure inside is a model fault (R354; log 33). -/
def exceptionEntry (v : BitVec 8) (stackedPc : Long) (level : Option (BitVec 3)) (s : State) : Res State := do
  let s1 := { s with sr := s.sr.forException level, ssp := s.ssp - 4 }
  let s2 ← writeMem s1 .l s1.ssp stackedPc
  let s3 := { s2 with ssp := s2.ssp - 2 }
  let s4 ← writeMem s3 .w s3.ssp (s.sr.toWord.setWidth 32)
  let t ← readMem s4 .l (vectorAddr v)
  .ok (s4.jump t)

/-- Take a trap that stacks the address of the next instruction (60_exceptions.md R348). -/
def trapNext (v : BitVec 8) (len : Long) (s : State) : Res State := exceptionEntry v (s.pc + len) none s

/-- Take an exception that stacks the address of the offending opword (60_exceptions.md R348). -/
def trapHere (v : BitVec 8) (s : State) : Res State := exceptionEntry v s.pc none s

/-- Vector 4 (60_exceptions.md R336). -/
def vecIllegal : BitVec 8 := 4
/-- Vector 5 (60_exceptions.md R337). -/
def vecZeroDivide : BitVec 8 := 5
/-- Vector 6 (60_exceptions.md R338). -/
def vecChk : BitVec 8 := 6
/-- Vector 7 (60_exceptions.md R339). -/
def vecTrapV : BitVec 8 := 7
/-- Vector 8 (60_exceptions.md R341). -/
def vecPrivilege : BitVec 8 := 8
/-- Vector 9 (60_exceptions.md R342). -/
def vecTrace : BitVec 8 := 9
/-- Vector 10 (60_exceptions.md R343). -/
def vecLineA : BitVec 8 := 10
/-- Vector 11 (60_exceptions.md R344). -/
def vecLineF : BitVec 8 := 11
/-- Vector 24 (60_exceptions.md R347). -/
def vecSpurious : BitVec 8 := 24
/-- Vectors 25 to 31: 24 + level (60_exceptions.md R331). -/
def vecAutovector (level : BitVec 3) : BitVec 8 := 24 + level.setWidth 8
/-- Vectors 32 to 47: 32 + n (60_exceptions.md R345). -/
def vecTrap (n : Fin 16) : BitVec 8 := 32 + BitVec.ofNat 8 n.val

/-- Return from an exception (47_control.md R269): pop SR, then PC, from the supervisor stack. -/
def returnFromException (s : State) : Res State := do
  let w ← readMem s .w s.ssp
  let t ← readMem s .l (s.ssp + 2)
  .ok (({ s with ssp := s.ssp + 6 }.setSr (StatusReg.ofWord (w.setWidth 16))).jump t)

/-! ## Privilege -/

/-- Run a privileged instruction's effect in supervisor mode; in user mode take the privilege violation, with no other effect
(60_exceptions.md R341, R361). -/
def privileged (s : State) (effect : Res State) : Res State :=
  if s.sr.s then effect else trapHere vecPrivilege s

end Sys2Proof.Machine
end

