-- ==== Sys2Proof/Machine/Fetch.lean ====
section
/-! DEFINITION. Fetching an instruction (20_memory.md R54, R56, R57, R69; 30_encoding.md R94). -/

namespace Sys2Proof.Machine

/-- The word of memory at an address. -/
def State.wordAt (s : State) (a : Long) : Word := s.byteAt a ++ s.byteAt (a + 1)

/-- The older words the prefetch queue may hold for an address (20_memory.md R69; log 17). -/
def State.heldAt (s : State) (a : Long) : List Word :=
  (s.stale.filter fun e => e.addr == physAddr s.cfg a).map HeldWord.word

/-- `Fetch16(a)` (20_memory.md R57). Where the queue may still hold older words, a free choice says which of them or of the word in
memory is executed (20_memory.md R69; log 17). -/
def fetchWord (s : State) (a : Long) : Res Word :=
  match readStop s .w a with
  | some e => .error e
  | none =>
    match s.heldAt a with
    | [] => .ok (s.wordAt a)
    | w :: ws => .ok ((s.wordAt a :: w :: ws).getD (Config.prefetchPick s.draws a % (ws.length + 2)) (s.wordAt a))

/-- Up to this many words from an address on, and why they end early, if they do. -/
def fetchWords (s : State) : Nat → Long → List Word × Option Stop
  | 0, _ => ([], none)
  | n + 1, a =>
    match fetchWord s a with
    | .error e => ([], some e)
    | .ok w => (w :: (fetchWords s n (a + 2)).1, (fetchWords s n (a + 2)).2)

/-- The longest instruction, in words (30_encoding.md R83). -/
def maxWords : Nat := 5

/-- What the fetch at the program counter gives. -/
inductive Fetched where
  /-- An instruction and its length in bytes. -/
  | instr (i : Instr) (len : Long)
  /-- An opword that selects no row (30_encoding.md R95). -/
  | illegalOpword
  /-- A word the instruction needs cannot be read. -/
  | stop (e : Stop)
deriving DecidableEq, Repr

/-- The privileged instructions (60_exceptions.md R361). -/
def isPrivileged : Instr → Bool
  | .moveToSr _ => true
  | .moveToUsp _ => true
  | .moveFromUsp _ => true
  | .andiToSr _ => true
  | .eoriToSr _ => true
  | .oriToSr _ => true
  | .rte => true
  | .reset => true
  | .stop _ => true
  | _ => false

/-- Where an instruction's extension words cannot be read: a privileged instruction in user mode takes its exception before
they matter (60_exceptions.md R341, "no operand is read"), any other stops there (log 28). -/
def fetchTruncated (userMode : Bool) (ws : List Word) (e : Stop) : Fetched :=
  match decode (ws ++ [0, 0, 0, 0]) with
  | .instr i _ =>
    if isPrivileged i && userMode && !ws.isEmpty then .instr i (BitVec.ofNat 32 (2 * ws.length)) else .stop e
  | _ => .stop e

/-- Fetch and decode at the program counter; a word beyond the instruction does not matter (30_encoding.md R94; log 28). Five
words always suffice (30_encoding.md R83), so the last arm is never taken. -/
def fetchInstr (s : State) : Fetched :=
  match fetchWords s maxWords s.pc with
  | (ws, stop) =>
    match decode ws with
    | .instr i rest => .instr i (BitVec.ofNat 32 (2 * (ws.length - rest.length)))
    | .illegalOpword _ => .illegalOpword
    | .truncated =>
      match stop with
      | some e => fetchTruncated (!s.sr.s) ws e
      | none => .illegalOpword

/-- The fetch uses up one free choice where the queue may hold older words. -/
def afterFetch (s : State) : State :=
  match s.stale with
  | [] => s
  | _ :: _ => s.skipDraws 1

end Sys2Proof.Machine
end

