-- ==== Sys2Proof/Machine/Flags.lean ====
section
/-! DEFINITION. Flag computations (00_scope.md R11, 10_state.md R28): add, subtract, logic, shifts (46_shift_rotate.md R250),
decimal (43_bcd.md R200), and the sixteen conditions (47_control.md R276). -/

namespace Sys2Proof.Machine

/-! ## Add and subtract -/

/-- The five results of `AddFlags` and `SubFlags` (00_scope.md R11). -/
structure Arith where
  r : Long
  n : Bool
  z : Bool
  v : Bool
  c : Bool
deriving DecidableEq, Repr

/-- Outside the signed range of a size (00_scope.md R11, `V`). -/
def signedOverflow (sz : Size) (t : Int) : Bool :=
  decide (t < -(2 ^ (sz.bits - 1) : Int) ∨ (2 ^ (sz.bits - 1) : Int) - 1 < t)

/-- `AddFlags(sz, s, d, x)` (00_scope.md R11). -/
def addFlags (sz : Size) (s d : Long) (x : Bool) : Arith :=
  let u := uint sz d + uint sz s + x.toNat
  let t := sint sz d + sint sz s + (x.toNat : Int)
  let r := ofNatAt sz u
  { r := r, n := msb sz r, z := decide (r = 0), v := signedOverflow sz t, c := decide (2 ^ sz.bits ≤ u) }

/-- `SubFlags(sz, s, d, x)`: `d - s - x`, C the borrow (00_scope.md R11). -/
def subFlags (sz : Size) (s d : Long) (x : Bool) : Arith :=
  let u := (uint sz d : Int) - (uint sz s : Int) - (x.toNat : Int)
  let t := sint sz d - sint sz s - (x.toNat : Int)
  let r := ofIntAt sz u
  { r := r, n := msb sz r, z := decide (r = 0), v := signedOverflow sz t, c := decide (u < 0) }

/-- `N <- n; Z <- z; V <- v; C <- c; X <- c` (42_add_sub_cmp.md R170). -/
def Arith.ccr (a : Arith) : Ccr := { x := a.c, n := a.n, z := a.z, v := a.v, c := a.c }

/-- As `Arith.ccr`, but Z is only ever cleared (42_add_sub_cmp.md R174). -/
def Arith.stickyCcr (a : Arith) (old : Ccr) : Ccr :=
  { x := a.c, n := a.n, z := if a.r = 0 then old.z else false, v := a.v, c := a.c }

/-- As `Arith.ccr`, but X unchanged (42_add_sub_cmp.md R180). -/
def Arith.compareCcr (a : Arith) (old : Ccr) : Ccr := { x := old.x, n := a.n, z := a.z, v := a.v, c := a.c }

/-- `LogicFlags(sz, r)` (00_scope.md R11): X unchanged. -/
def logicCcr (sz : Size) (r : Long) (old : Ccr) : Ccr :=
  { x := old.x, n := msb sz r, z := decide (trunc sz r = 0), v := false, c := false }

/-! ## Operations of two operands: size, source, destination, old flags to result and new flags -/

/-- What a two-operand instruction computes. -/
abbrev AluOp := Size → Long → Long → Ccr → Long × Ccr

/-- 42_add_sub_cmp.md R170. -/
def addOp : AluOp := fun sz s d _ => ((addFlags sz s d false).r, (addFlags sz s d false).ccr)
/-- 42_add_sub_cmp.md R175. -/
def subOp : AluOp := fun sz s d _ => ((subFlags sz s d false).r, (subFlags sz s d false).ccr)
/-- 42_add_sub_cmp.md R174. -/
def addxOp : AluOp := fun sz s d c => ((addFlags sz s d c.x).r, (addFlags sz s d c.x).stickyCcr c)
/-- 42_add_sub_cmp.md R179. -/
def subxOp : AluOp := fun sz s d c => ((subFlags sz s d c.x).r, (subFlags sz s d c.x).stickyCcr c)
/-- 44_logic.md R210. -/
def andOp : AluOp := fun sz s d c => (d &&& s, logicCcr sz (d &&& s) c)
/-- 44_logic.md R218. -/
def orOp : AluOp := fun sz s d c => (d ||| s, logicCcr sz (d ||| s) c)
/-- 44_logic.md R214. -/
def eorOp : AluOp := fun sz s d c => (d ^^^ s, logicCcr sz (d ^^^ s) c)

/-- The flags of a comparison: `destination - source`, X unchanged (42_add_sub_cmp.md R180). -/
def cmpCcr (sz : Size) (s d : Long) (old : Ccr) : Ccr := (subFlags sz s d false).compareCcr old

/-! ## Operations of one operand -/

/-- What a one-operand instruction computes: size, operand, old flags to result and new flags. -/
abbrev UnaryOp := Size → Long → Ccr → Long × Ccr

/-- 49_unary_misc.md R310. -/
def clrOp : UnaryOp := fun _ _ c => (0, { x := c.x, n := false, z := true, v := false, c := false })
/-- 49_unary_misc.md R311: `0 - d`. -/
def negOp : UnaryOp := fun sz d _ => ((subFlags sz d 0 false).r, (subFlags sz d 0 false).ccr)
/-- 49_unary_misc.md R312: `0 - d - X`. -/
def negxOp : UnaryOp := fun sz d c => ((subFlags sz d 0 c.x).r, (subFlags sz d 0 c.x).stickyCcr c)
/-- 49_unary_misc.md R313. -/
def notOp : UnaryOp := fun sz d c => (trunc sz (~~~d), logicCcr sz (~~~d) c)
/-- 45_bit_tas.md R236: the flags are those of the byte before bit 7 is set. -/
def tasOp : UnaryOp := fun _ d c => (d ||| 0x80, logicCcr .b d c)

/-! ## Bit instructions -/

/-- The bit tested and changed: modulo 32 on a data register, modulo 8 elsewhere (45_bit_tas.md R230). -/
def bitIndex (sz : Size) (n : Long) : Nat := n.toNat % sz.bits

/-- Z from the bit before any change, the other flags unchanged (45_bit_tas.md R230). -/
def bitCcr (sz : Size) (n d : Long) (old : Ccr) : Ccr := { old with z := !d.getLsbD (bitIndex sz n) }

/-- 45_bit_tas.md R232. -/
def bchgOp : AluOp := fun sz n d c => (d ^^^ BitVec.ofNat 32 (2 ^ bitIndex sz n), bitCcr sz n d c)
/-- 45_bit_tas.md R233. -/
def bclrOp : AluOp := fun sz n d c => (d &&& ~~~(BitVec.ofNat 32 (2 ^ bitIndex sz n)), bitCcr sz n d c)
/-- 45_bit_tas.md R234. -/
def bsetOp : AluOp := fun sz n d c => (d ||| BitVec.ofNat 32 (2 ^ bitIndex sz n), bitCcr sz n d c)

/-! ## Shifts and rotates -/

/-- The eight operations of 46_shift_rotate.md. -/
inductive ShiftKind where
  | asl | asr | lsl | lsr | rol | ror | roxl | roxr
deriving DecidableEq, Repr

/-- The operand, X, C and "the sign changed" while an operand is shifted (46_shift_rotate.md R250). -/
structure ShiftAcc where
  d : Long
  x : Bool
  c : Bool
  v : Bool
deriving DecidableEq, Repr

/-- One place to the left at a size, `inb` entering at bit 0. -/
def shiftLeft1 (sz : Size) (d : Long) (inb : Bool) : Long := trunc sz (d <<< 1) ||| BitVec.ofNat 32 inb.toNat

/-- One place to the right at a size, `inb` entering at the top bit. -/
def shiftRight1 (sz : Size) (d : Long) (inb : Bool) : Long :=
  (d >>> 1) ||| BitVec.ofNat 32 (inb.toNat * 2 ^ (sz.bits - 1))

/-- The one-bit step of each operation (46_shift_rotate.md R242 to R249). -/
def shiftStep (k : ShiftKind) (sz : Size) (a : ShiftAcc) : ShiftAcc :=
  match k with
  | .asl =>
    { d := shiftLeft1 sz a.d false, x := msb sz a.d, c := msb sz a.d,
      v := a.v || (msb sz (shiftLeft1 sz a.d false) != msb sz a.d) }
  | .asr => { d := shiftRight1 sz a.d (msb sz a.d), x := a.d.getLsbD 0, c := a.d.getLsbD 0, v := false }
  | .lsl => { d := shiftLeft1 sz a.d false, x := msb sz a.d, c := msb sz a.d, v := false }
  | .lsr => { d := shiftRight1 sz a.d false, x := a.d.getLsbD 0, c := a.d.getLsbD 0, v := false }
  | .rol => { d := shiftLeft1 sz a.d (msb sz a.d), x := a.x, c := msb sz a.d, v := false }
  | .ror => { d := shiftRight1 sz a.d (a.d.getLsbD 0), x := a.x, c := a.d.getLsbD 0, v := false }
  | .roxl => { d := shiftLeft1 sz a.d a.x, x := msb sz a.d, c := msb sz a.d, v := false }
  | .roxr => { d := shiftRight1 sz a.d a.x, x := a.d.getLsbD 0, c := a.d.getLsbD 0, v := false }

/-- `repeat c times` (46_shift_rotate.md R250). -/
def shiftLoop (k : ShiftKind) (sz : Size) : Nat → ShiftAcc → ShiftAcc
  | 0, a => a
  | n + 1, a => shiftLoop k sz n (shiftStep k sz a)

/-- C after a count of zero: clear, but for ROXL and ROXR as the parameter says (46_shift_rotate.md R248, R250; log 9). -/
def zeroCountC (k : ShiftKind) (p : RoxZeroCountC) (x : Bool) : Bool :=
  match k, p with
  | .roxl, .copyX => x
  | .roxr, .copyX => x
  | _, _ => false

/-- The common frame of 46_shift_rotate.md R250: operand, count and old flags to result and new flags. -/
def shiftOp (k : ShiftKind) (p : RoxZeroCountC) (sz : Size) (count : Nat) (d : Long) (old : Ccr) : Long × Ccr :=
  let a := shiftLoop k sz count { d := d, x := old.x, c := zeroCountC k p old.x, v := false }
  (a.d, { x := a.x, n := msb sz a.d, z := decide (a.d = 0), v := a.v, c := a.c })

/-! ## Decimal -/

/-- Both digits of a byte are at most 9 (43_bcd.md R200). -/
def isBcd (b : Byte) : Bool := decide (b.toNat / 16 ≤ 9 ∧ b.toNat % 16 ≤ 9)

/-- `dec(b)` (43_bcd.md R200). -/
def decOf (b : Byte) : Nat := 10 * (b.toNat / 16) + b.toNat % 16

/-- `bcd(k)` (43_bcd.md R200). -/
def bcdOf (k : Nat) : Byte := BitVec.ofNat 8 (16 * (k / 10) + k % 10)

/-- `BcdAdd(s, d, x)`: result and carry (43_bcd.md R200). -/
def bcdAdd (s d : Byte) (x : Bool) : Byte × Bool :=
  let t := decOf d + decOf s + x.toNat
  (bcdOf (t % 100), decide (100 ≤ t))

/-- `BcdSub(s, d, x)`: result and borrow (43_bcd.md R200). -/
def bcdSub (s d : Byte) (x : Bool) : Byte × Bool :=
  let t : Int := (decOf d : Int) - (decOf s : Int) - (x.toNat : Int)
  (bcdOf (t % 100).toNat, decide (t < 0))

/-- The free values of one decimal instruction (43_bcd.md R200; logs 8 and 19). -/
structure BcdDraws where
  n : Bool
  v : Bool
  r : Byte
  x : Bool
  c : Bool
  z : Bool
deriving DecidableEq, Repr

/-- The free values the next decimal instruction takes; it uses five numbers. -/
def State.bcdDraws (s : State) : BcdDraws :=
  { n := s.draw 0, v := s.draw 1, r := s.drawByte, x := s.draw 2, c := s.draw 3, z := s.draw 4 }

/-- How many numbers of free values a decimal instruction uses. -/
def bcdDrawCount : Nat := 5

/-- Result and flags of a decimal operation (43_bcd.md R200 to R202): N and V free; with a digit above 9 the result byte, X, C
and Z are free too. -/
def bcdOp (f : Byte → Byte → Bool → Byte × Bool) (w : BcdDraws) (s d : Long) (old : Ccr) : Long × Ccr :=
  let sb : Byte := s.setWidth 8
  let db : Byte := d.setWidth 8
  if isBcd sb && isBcd db then
    let p := f sb db old.x
    (p.1.setWidth 32, { x := p.2, n := w.n, z := if p.1 = 0 then old.z else false, v := w.v, c := p.2 })
  else (w.r.setWidth 32, { x := w.x, n := w.n, z := w.z, v := w.v, c := w.c })

/-! ## Conditions -/

/-- `cond(cc)` (47_control.md R276). -/
def condHolds (c : Ccr) : Cond → Bool
  | .t => true
  | .f => false
  | .hi => !(c.c || c.z)
  | .ls => c.c || c.z
  | .cc => !c.c
  | .cs => c.c
  | .ne => !c.z
  | .eq => c.z
  | .vc => !c.v
  | .vs => c.v
  | .pl => !c.n
  | .mi => c.n
  | .ge => !(c.n ^^ c.v)
  | .lt => c.n ^^ c.v
  | .gt => !((c.n ^^ c.v) || c.z)
  | .le => (c.n ^^ c.v) || c.z

end Sys2Proof.Machine
end

