-- ==== Sys2Proof/Machine/Operands.lean ====
section
/-! DEFINITION. Effective addresses (40_addressing.md R121 to R125): resolving an operand once, reading it, writing it,
changing it in place. -/

namespace Sys2Proof.Machine

/-- A location (40_addressing.md R121). -/
inductive Loc where
  | dreg (r : Fin 8)
  | areg (r : Fin 8)
  | mem (a : Long)
  | imm (v : Long)
deriving DecidableEq, Repr

/-- `step(reg, sz)`: the stack pointer steps by 2 for a byte (40_addressing.md R121, R138). -/
def eaStep (r : Fin 8) (sz : Size) : Long :=
  if sz = .b ∧ r = spNumber then 2 else sizeStep sz

/-- `Index(w)` (40_addressing.md R121, R132). -/
def indexValue (s : State) (x : IndexExt) : Long :=
  if x.long then s.rreg x.reg else sext .w (s.rreg x.reg)

/-- `EA(mode, reg, sz)` with its side effects; `ext` is the address of the operand's first extension word
(40_addressing.md R121, R126 to R137). -/
def resolve (e : Ea) (sz : Size) (ext : Long) (s : State) : Loc × State :=
  match e with
  | .dn r => (.dreg r, s)
  | .an r => (.areg r, s)
  | .ind r => (.mem (s.areg r), s)
  | .postInc r => (.mem (s.areg r), s.setAreg r (s.areg r + eaStep r sz))
  | .preDec r => (.mem (s.areg r - eaStep r sz), s.setAreg r (s.areg r - eaStep r sz))
  | .disp r d => (.mem (s.areg r + d.signExtend 32), s)
  | .index r x => (.mem (s.areg r + x.disp.signExtend 32 + indexValue s x), s)
  | .absW a => (.mem (a.signExtend 32), s)
  | .absL a => (.mem a, s)
  | .pcDisp d => (.mem (ext + d.signExtend 32), s)
  | .pcIndex x => (.mem (ext + x.disp.signExtend 32 + indexValue s x), s)
  | .imm v => (.imm v, s)

/-- Read a location at a size (40_addressing.md R122). -/
def readLoc (l : Loc) (sz : Size) (s : State) : Res Long :=
  match l with
  | .dreg r => .ok (s.dregAt sz r)
  | .areg r => .ok (trunc sz (s.areg r))
  | .mem a => readMem s sz a
  | .imm v => .ok (trunc sz v)

/-- Write a location at a size (40_addressing.md R123); an address register is written whole, a word sign-extended
(10_state.md R25). An immediate is never written (log 25). -/
def writeLoc (l : Loc) (sz : Size) (v : Long) (s : State) : Res State :=
  match l with
  | .dreg r => .ok (s.setDregAt sz r v)
  | .areg r => .ok (s.setAreg r (sext sz v))
  | .mem a => writeMem s sz a v
  | .imm _ => .error (.refused .notEncodable)

/-- `ReadEA` (40_addressing.md R122). -/
def readEa (e : Ea) (sz : Size) (ext : Long) (s : State) : Res (Long × State) :=
  match resolve e sz ext s with
  | (l, s1) =>
    match readLoc l sz s1 with
    | .error x => .error x
    | .ok v => .ok (v, s1)

/-- `WriteEA` (40_addressing.md R123). -/
def writeEa (e : Ea) (sz : Size) (ext : Long) (v : Long) (s : State) : Res State :=
  match resolve e sz ext s with
  | (l, s1) => writeLoc l sz v s1

/-- `ModifyEA` (40_addressing.md R124), the operand resolved once; `f` gives the new value and the new flags. -/
def modifyEa (e : Ea) (sz : Size) (ext : Long) (f : Long → Long × Ccr) (s : State) : Res State :=
  match resolve e sz ext s with
  | (l, s1) =>
    match readLoc l sz s1 with
    | .error x => .error x
    | .ok old =>
      match writeLoc l sz (f old).1 s1 with
      | .error x => .error x
      | .ok s2 => .ok (s2.setCcr (f old).2)

/-- `AddrEA` (40_addressing.md R125): the address of a control-mode operand, no memory access. A term without an address is
not encodable (log 25). -/
def addrEa (e : Ea) (ext : Long) (s : State) : Res Long :=
  match resolve e .l ext s with
  | (.mem a, _) => .ok a
  | _ => .error (.refused .notEncodable)

/-- The address of the first extension word after the instruction's own words (40_addressing.md R121). -/
def extAt (s : State) (own : Nat) : Long := s.pc + BitVec.ofNat 32 (2 + 2 * own)

end Sys2Proof.Machine
end

