-- ==== Sys2Proof/Machine/Shapes.lean ====
section
/-! DEFINITION. The shapes that instructions share: which operand is the source, which the destination, in which order they are
resolved, read and written (20_memory.md R61, 40_addressing.md R141). A meaning is one shape with one operation. -/

namespace Sys2Proof.Machine

/-- End an instruction that does not transfer control: `pc <- next` (41_move.md, head; 10_state.md R26). -/
def advanceBy (len : Long) : Res State → Res State
  | .ok s => .ok (s.advance len)
  | .error e => .error e

/-! ## Two operands -/

/-- `op.sz <ea>,Dn` (42_add_sub_cmp.md R170, first form). -/
def eaToDn (op : AluOp) (sz : Size) (ea : Ea) (dn : Fin 8) (s : State) : Res State :=
  match readEa ea sz (extAt s 0) s with
  | .error e => .error e
  | .ok (v, s1) =>
    let p := op sz v (s1.dregAt sz dn) s.sr.ccr
    advanceBy (lengthOf 0 (ea.words sz)) (.ok ((s1.setDregAt sz dn p.1).setCcr p.2))

/-- `op.sz Dn,<ea>` (42_add_sub_cmp.md R170, second form). -/
def dnToEa (op : AluOp) (sz : Size) (dn : Fin 8) (ea : Ea) (s : State) : Res State :=
  advanceBy (lengthOf 0 (ea.words sz))
    (modifyEa ea sz (extAt s 0) (fun d => op sz (s.dregAt sz dn) d s.sr.ccr) s)

/-- `op.sz #<data>,<ea>`: the immediate's words come before the operand's (42_add_sub_cmp.md R172). -/
def immToEa (op : AluOp) (sz : Size) (imm : Long) (ea : Ea) (s : State) : Res State :=
  advanceBy (lengthOf sz.immCount (ea.words sz))
    (modifyEa ea sz (extAt s sz.immCount) (fun d => op sz (trunc sz imm) d s.sr.ccr) s)

/-- The value of a three-bit quick field: 0 denotes 8 (42_add_sub_cmp.md R173, 46_shift_rotate.md R241). -/
def quickValue (q : Fin 8) : Nat := if q.val = 0 then 8 else q.val

/-- ADDQ and SUBQ: with `An` a 32-bit operation without flags, else as an immediate form without words of its own
(42_add_sub_cmp.md R173, R178). -/
def quickToEa (op : AluOp) (onAn : Long → Long → Long) (sz : Size) (q : Fin 8) (ea : Ea) (s : State) : Res State :=
  match ea with
  | .an r => advanceBy (lengthOf 0 0) (.ok (s.setAreg r (onAn (s.areg r) (BitVec.ofNat 32 (quickValue q)))))
  | _ =>
    advanceBy (lengthOf 0 (ea.words sz))
      (modifyEa ea sz (extAt s 0) (fun d => op sz (BitVec.ofNat 32 (quickValue q)) d s.sr.ccr) s)

/-- ADDX and SUBX: data registers, or both operands pre-decremented, the source first (42_add_sub_cmp.md R174). -/
def pairOp (op : AluOp) (sz : Size) (m : PairMode) (ry rx : Fin 8) (s : State) : Res State :=
  match m with
  | .dataReg =>
    let p := op sz (s.dregAt sz ry) (s.dregAt sz rx) s.sr.ccr
    advanceBy (lengthOf 0 0) (.ok ((s.setDregAt sz rx p.1).setCcr p.2))
  | .memPreDec =>
    match readEa (.preDec ry) sz (extAt s 0) s with
    | .error e => .error e
    | .ok (v, s1) =>
      advanceBy (lengthOf 0 0) (modifyEa (.preDec rx) sz (extAt s 0) (fun d => op sz v d s.sr.ccr) s1)

/-- ADDA and SUBA: a word source is sign-extended and all 32 bits are written; no flag changes (42_add_sub_cmp.md R171). -/
def eaToAn (f : Long → Long → Long) (sz : Size) (ea : Ea) (an : Fin 8) (s : State) : Res State :=
  match readEa ea sz (extAt s 0) s with
  | .error e => .error e
  | .ok (v, s1) =>
    advanceBy (lengthOf 0 (ea.words sz)) (.ok (s1.setAreg an (f (s1.areg an) (sext sz v))))

/-! ## One operand -/

/-- `op.sz <ea>` that reads and writes its operand (49_unary_misc.md R310 to R314). -/
def unaryEa (op : UnaryOp) (sz : Size) (ea : Ea) (s : State) : Res State :=
  advanceBy (lengthOf 0 (ea.words sz)) (modifyEa ea sz (extAt s 0) (fun d => op sz d s.sr.ccr) s)

/-- An instruction that only reads its operand, for its flags; `own` words come before the operand's. -/
def testEa (own : Nat) (sz : Size) (ea : Ea) (flags : Long → Ccr → Ccr) (s : State) : Res State :=
  match readEa ea sz (extAt s own) s with
  | .error e => .error e
  | .ok (v, s1) => advanceBy (lengthOf own (ea.words sz)) (.ok (s1.setCcr (flags v s.sr.ccr)))

/-- A bit instruction that changes its bit: the width by the operand (45_bit_tas.md R230); `own` words come before the
operand's. -/
def bitEa (op : AluOp) (own : Nat) (n : Long) (ea : Ea) (s : State) : Res State :=
  advanceBy (lengthOf own (ea.words (bitSize ea)))
    (modifyEa ea (bitSize ea) (extAt s own) (fun d => op (bitSize ea) n d s.sr.ccr) s)

/-! ## Decimal -/

/-- ABCD and SBCD (43_bcd.md R201, R202). -/
def bcdPair (f : Byte → Byte → Bool → Byte × Bool) (m : PairMode) (ry rx : Fin 8) (s : State) : Res State :=
  pairOp (fun _ v d c => bcdOp f s.bcdDraws v d c) .b m ry rx (s.skipDraws bcdDrawCount)

/-! ## Shifts -/

/-- The count of a register shift (46_shift_rotate.md R241). -/
def shiftCountOf (s : State) : ShiftCount → Nat
  | .imm q => quickValue q
  | .reg r => (s.dreg r).toNat % 64

/-- The register forms: the count is read before the result is written (46_shift_rotate.md R240, R241, R250). -/
def shiftReg (k : ShiftKind) (sz : Size) (count : ShiftCount) (dn : Fin 8) (s : State) : Res State :=
  let p := shiftOp k s.cfg.roxZeroCountC sz (shiftCountOf s count) (s.dregAt sz dn) s.sr.ccr
  advanceBy (lengthOf 0 0) (.ok ((s.setDregAt sz dn p.1).setCcr p.2))

/-- The memory form: a word, by one place (46_shift_rotate.md R240, R250). -/
def shiftMem (k : ShiftKind) (ea : Ea) (s : State) : Res State :=
  advanceBy (lengthOf 0 (ea.words .w))
    (modifyEa ea .w (extAt s 0) (fun d => shiftOp k s.cfg.roxZeroCountC .w 1 d s.sr.ccr) s)

/-! ## The status register -/

/-- A logic operation of an immediate on the CCR (44_logic.md R212, R216, R220): its unimplemented bits stay zero. -/
def immToCcr (f : Byte → Byte → Byte) (imm : Byte) (s : State) : Res State :=
  advanceBy (lengthOf 1 0) (.ok (s.setCcr (Ccr.ofByte (f s.sr.ccr.toByte imm))))

/-- A logic operation of an immediate on SR, privileged (44_logic.md R213, R217, R221). -/
def immToSr (f : Word → Word → Word) (imm : Word) (s : State) : Res State :=
  privileged s (advanceBy (lengthOf 1 0) (.ok (s.setSr (StatusReg.ofWord (f s.sr.toWord imm)))))

/-! ## Lists of registers -/

/-- The numbers 0 to 15, ascending. -/
def registerNumbers : List (Fin 16) := [0, 1, 2, 3, 4, 5, 6, 7, 8, 9, 10, 11, 12, 13, 14, 15]

/-- The mask bits that are set, ascending (41_move.md R158, `for k = 0 .. 15`). -/
def maskBits (mask : Word) : List (Fin 16) := registerNumbers.filter fun k => mask.getLsbD k.val

/-- Store registers upwards from an address (41_move.md R158, the forms other than `-(An)`). -/
def storeUp (sz : Size) : List (Fin 16) → Long → State → Res State
  | [], _, s => .ok s
  | k :: ks, a, s =>
    match writeMem s sz a (s.rreg k) with
    | .error e => .error e
    | .ok s1 => storeUp sz ks (a + sizeStep sz) s1

/-- Store registers downwards below an address; mask bit k stands for `R[15 - k]` (41_move.md R158, `-(An)`). No register
changes here, so the base register's value is its initial one. Answers the last address too. -/
def storeDown (sz : Size) : List (Fin 16) → Long → State → Res (Long × State)
  | [], a, s => .ok (a, s)
  | k :: ks, a, s =>
    match writeMem s sz (a - sizeStep sz) (s.rreg (15 - k)) with
    | .error e => .error e
    | .ok s1 => storeDown sz ks (a - sizeStep sz) s1

/-- Load registers upwards from an address, words sign-extended (41_move.md R159). Answers the address after them too. -/
def loadUp (sz : Size) : List (Fin 16) → Long → State → Res (Long × State)
  | [], a, s => .ok (a, s)
  | k :: ks, a, s =>
    match readMem s sz a with
    | .error e => .error e
    | .ok v => loadUp sz ks (a + sizeStep sz) (s.setRreg k (sext sz v))

/-- MOVEM's extra access: one word after the last register's, its value unused (41_move.md R159). -/
def extraRead (p : Long × State) : Res (Long × State) :=
  match readMem p.2 .w p.1 with
  | .error e => .error e
  | .ok _ => .ok p

/-- Store bytes two addresses apart, ascending (41_move.md R161). -/
def storeLanes : List Byte → Long → State → Res State
  | [], _, s => .ok s
  | b :: bs, a, s =>
    match writeMem s .b a (b.setWidth 32) with
    | .error e => .error e
    | .ok s1 => storeLanes bs (a + 2) s1

/-- Load this many bytes two addresses apart, ascending, the first the most significant (41_move.md R161). -/
def loadLanes : Nat → Long → Long → State → Res Long
  | 0, acc, _, _ => .ok acc
  | n + 1, acc, a, s =>
    match readMem s .b a with
    | .error e => .error e
    | .ok v => loadLanes n ((acc <<< 8) ||| v) (a + 2) s

/-- The bytes MOVEP stores, from the lowest address (41_move.md R161). -/
def movepBytes (sz : Size) (v : Long) : List Byte :=
  match sz with
  | .l => [v.extractLsb' 24 8, v.extractLsb' 16 8, v.extractLsb' 8 8, v.extractLsb' 0 8]
  | _ => [v.extractLsb' 8 8, v.extractLsb' 0 8]

/-! ## Branches -/

/-- The displacement of a branch, sign-extended (47_control.md R261). -/
def dispValue : BranchDisp → Long
  | .short d => d.signExtend 32
  | .word d => d.signExtend 32

/-- `target = pc + 2 + disp` (47_control.md R261). -/
def branchTarget (s : State) (d : BranchDisp) : Long := s.pc + 2 + dispValue d

end Sys2Proof.Machine
end

