-- ==== Sys2Proof/Machine/System.lean ====
section
/-! DEFINITION. Multiply, divide, CHK, traps, RESET, STOP (48_muldiv_chk_system.md) and the two lines that hold no instruction
(60_exceptions.md R343, R344). -/

namespace Sys2Proof.Machine

/-! ## Multiply -/

/-- A product in a data register, with the flags of the 32-bit result (48_muldiv_chk_system.md R292, R293). -/
def mulEa (f : Long → Long → Long) (ea : Ea) (dn : Fin 8) (s : State) : Res State :=
  match readEa ea .w (extAt s 0) s with
  | .error e => .error e
  | .ok (v, s1) =>
    let p := f (s1.dreg dn) v
    advanceBy (lengthOf 0 (ea.words .w)) (.ok ((s1.setDreg dn p).setCcr (logicCcr .l p s.sr.ccr)))

/-- MULS (48_muldiv_chk_system.md R292). -/
def execMuls (ea : Ea) (dn : Fin 8) (s : State) : Result :=
  finish (mulEa (fun d v => ofIntAt .l (sint .w d * sint .w v)) ea dn s)

/-- MULU (48_muldiv_chk_system.md R293). -/
def execMulu (ea : Ea) (dn : Fin 8) (s : State) : Result :=
  finish (mulEa (fun d v => ofNatAt .l (uint .w d * uint .w v)) ea dn s)

/-! ## Divide -/

/-- The remainder in the upper word and the quotient in the lower (48_muldiv_chk_system.md R290). -/
def packDivision (r q : Int) : Long := BitVec.ofInt 16 r ++ BitVec.ofInt 16 q

/-- What a division does after its source is read: by zero, C is 0, N, Z, V are free and vector 5 is taken; on overflow, V is 1,
C is 0, N and Z are free and the register is kept; else quotient and remainder (48_muldiv_chk_system.md R290, R291; log 20).
`q` and `r` are the exact quotient and remainder, `lo` and `hi` the quotient's range, and N is bit 15 of it. -/
def divideBy (zero : Bool) (q r lo hi : Int) (dn : Fin 8) (len : Long) (s : State) : Res State :=
  let x := s.sr.ccr.x
  if zero then
    trapNext vecZeroDivide len
      ((s.setCcr { x := x, n := s.draw 0, z := s.draw 1, v := s.draw 2, c := false }).skipDraws 3)
  else if q < lo ∨ hi < q then
    advanceBy len
      (.ok ((s.setCcr { x := x, n := s.draw 0, z := s.draw 1, v := true, c := false }).skipDraws 3))
  else
    advanceBy len
      (.ok
        (((s.setDreg dn (packDivision r q)).setCcr
          { x := x, n := (BitVec.ofInt 16 q).getLsbD 15, z := decide (q = 0), v := false, c := false }).skipDraws 3))

/-- DIVS: the quotient is truncated toward zero (48_muldiv_chk_system.md R290). -/
def execDivs (ea : Ea) (dn : Fin 8) (s : State) : Result :=
  finish
    (match readEa ea .w (extAt s 0) s with
     | .error e => .error e
     | .ok (v, s1) =>
       let n := sint .l (s1.dreg dn)
       let m := sint .w v
       divideBy (decide (m = 0)) (n.tdiv m) (n.tmod m) (-32768) 32767 dn (lengthOf 0 (ea.words .w)) s1)

/-- DIVU (48_muldiv_chk_system.md R291). -/
def execDivu (ea : Ea) (dn : Fin 8) (s : State) : Result :=
  finish
    (match readEa ea .w (extAt s 0) s with
     | .error e => .error e
     | .ok (v, s1) =>
       let n := uint .l (s1.dreg dn)
       let m := uint .w v
       divideBy (decide (m = 0)) ((n / m : Nat) : Int) ((n % m : Nat) : Int) 0 65535 dn
         (lengthOf 0 (ea.words .w)) s1)

/-! ## Traps -/

/-- The flags after CHK: X kept, N as given, Z, V and C free (48_muldiv_chk_system.md R294; log 20). -/
def chkCcr (s : State) (n : Bool) : Ccr := { x := s.sr.ccr.x, n := n, z := s.draw 0, v := s.draw 1, c := s.draw 2 }

/-- CHK (48_muldiv_chk_system.md R294). -/
def execChk (ea : Ea) (dn : Fin 8) (s : State) : Result :=
  finish
    (match readEa ea .w (extAt s 0) s with
     | .error e => .error e
     | .ok (w, s1) =>
       let b := sint .w w
       let v := sint .w (s1.dreg dn)
       let len := lengthOf 0 (ea.words .w)
       if v < 0 then trapNext vecChk len ((s1.setCcr (chkCcr s1 true)).skipDraws 4)
       else if b < v then trapNext vecChk len ((s1.setCcr (chkCcr s1 false)).skipDraws 4)
       else advanceBy len (.ok ((s1.setCcr (chkCcr s1 (s1.draw 3))).skipDraws 4)))

/-- ILLEGAL (48_muldiv_chk_system.md R295). -/
def execIllegal (s : State) : Result := finish (trapHere vecIllegal s)

/-- TRAP (48_muldiv_chk_system.md R296). -/
def execTrap (v : Fin 16) (s : State) : Result := finish (trapNext (vecTrap v) (lengthOf 0 0) s)

/-- TRAPV (48_muldiv_chk_system.md R297). -/
def execTrapv (s : State) : Result :=
  finish (if s.sr.ccr.v then trapNext vecTrapV (lengthOf 0 0) s else advanceBy (lengthOf 0 0) (.ok s))

/-- Line A (60_exceptions.md R343); the low twelve bits are for the handler. -/
def execLineA (_w : BitVec 12) (s : State) : Result := finish (trapHere vecLineA s)

/-- Line F (60_exceptions.md R344); the low twelve bits are for the handler. -/
def execLineF (_w : BitVec 12) (s : State) : Result := finish (trapHere vecLineF s)

/-! ## System control -/

/-- RESET, privileged: an output event and nothing else (48_muldiv_chk_system.md R298, 70_reset_and_hazards.md R381). -/
def execReset (s : State) : Result :=
  finish (privileged s (advanceBy (lengthOf 0 0) (.ok { s with events := s.events ++ [.resetPeripherals] })))

/-- STOP takes a privilege violation: in user mode, and in supervisor mode where its operand would clear S and the parameter
says so (48_muldiv_chk_system.md R299; log 10). -/
def stopViolates (imm : Word) (s : State) : Bool :=
  !s.sr.s || (!imm.getLsbD 13 && s.cfg.stopClearsS == .privilegeViolation)

/-- STOP (48_muldiv_chk_system.md R299): load SR and stop, but not with T set before; the trace exception then follows at the
instruction boundary (60_exceptions.md R352; log 29). -/
def execStop (imm : Word) (s : State) : Result :=
  finish
    (if stopViolates imm s then trapHere vecPrivilege s
     else
       advanceBy (lengthOf 1 0)
         (.ok { s.setSr (StatusReg.ofWord imm) with run := if s.sr.t then s.run else .stopped }))

end Sys2Proof.Machine
end

