-- ==== Sys2Proof/Machine/Boundary.lean ====
section
/-! DEFINITION. The instruction boundary (60_exceptions.md R349): trace, interrupt, external reset, the stopped and faulted states,
and what the prefetch queue may still hold. -/

namespace Sys2Proof.Machine

/-! ## Trace -/

/-- The instruction is executed: it is not an illegal opword, a line A or line F opword or a privilege violation
(60_exceptions.md R352, R336, R341). -/
def executes (i : Instr) (s : State) : Bool :=
  match i with
  | .illegal => false
  | .lineA _ => false
  | .lineF _ => false
  | .stop imm => !stopViolates imm s
  | _ => !isPrivileged i || s.sr.s

/-- The trace exception (60_exceptions.md R342, R352). -/
def traceEntry (s : State) : Res State := exceptionEntry vecTrace s.pc none s

/-- Trace where the instruction that ended began with T set (60_exceptions.md R352). -/
def traceIf (t0 : Bool) (s : State) : Res State := if t0 then traceEntry s else .ok s

/-! ## Interrupts -/

/-- The level and answer the platform presents to a step; with no input left, no request (10_state.md R35; log 11). -/
def presented : List PlatformInput → BitVec 3 × IackAnswer
  | .irq level answer :: _ => (level, answer)
  | _ => (0, .autovector)

/-- `accept(IPL)` (60_exceptions.md R350): above the mask, or a new level 7 (log 12). -/
def accepts (s : State) (level : BitVec 3) : Bool :=
  decide (s.sr.ipm.toNat < level.toNat) || (level == 7 && s.lastIpl != 7)

/-- The vector of an accepted interrupt (60_exceptions.md R351, R347). -/
def iackVector (level : BitVec 3) : IackAnswer → BitVec 8
  | .vector n => n
  | .autovector => vecAutovector level
  | .spurious => vecSpurious

/-- Interrupt entry (60_exceptions.md R351); a stopped processor runs again (R355). -/
def interruptEntry (level : BitVec 3) (answer : IackAnswer) (s : State) : Res State :=
  exceptionEntry (iackVector level answer) s.pc (some level) { s with run := .running }

/-- Look at the interrupt input once, at a boundary or while stopped (60_exceptions.md R350, R355; logs 11, 12, 34). -/
def serviceInterrupt (s : State) : Res State :=
  let p := presented s.inputs
  let s1 := { s with inputs := s.inputs.tail, lastIpl := p.1 }
  if accepts s p.1 then interruptEntry p.1 p.2 s1 else .ok s1

/-! ## External reset -/

/-- What `Reset()` sets without a look at memory (70_reset_and_hazards.md R380); the registers and flags that then hold no value
take the values of `State.reset` (logs 1 to 4, 13). Memory, the platform's inputs and events, and the parameters stay. -/
def resetRegisters (s : State) : State :=
  { State.reset with
      ssp := s.ssp, pc := s.pc, mem := s.mem, inputs := s.inputs, events := s.events, draws := s.draws, cfg := s.cfg }

/-- `Reset()` of 70_reset_and_hazards.md R380, from any run state; a read that fails and an odd SSP or PC are model faults. -/
def resetSequence (s : State) : Res State :=
  match readMem (resetRegisters s) .l 0 with
  | .error e => .error e
  | .ok ssp =>
    match readMem { resetRegisters s with ssp := ssp } .l 4 with
    | .error e => .error e
    | .ok pc =>
      let t := { resetRegisters s with ssp := ssp, pc := pc }
      if ssp.getLsbD 0 then .error (.fault (.addressError ssp t))
      else if pc.getLsbD 0 then .error (.fault (.addressError pc t))
      else .ok t

/-- External reset is the next thing the platform presents. -/
def resetNext : List PlatformInput → Bool
  | .reset :: _ => true
  | _ => false

/-- The next input is taken. -/
def State.dropInput (s : State) : State := { s with inputs := s.inputs.tail }

/-! ## Prefetch -/

/-- The addresses of the two instruction words at `next` (20_memory.md R69). -/
def prefetchWindow (s : State) (next : Long) : List Nat := [physAddr s.cfg next, physAddr s.cfg (next + 2)]

/-- The word of a memory at an address of the reduced space. -/
def memWord (m : List Host.Cell) (n : Nat) : Word := memRead m n ++ memRead m (n + 1)

/-- Older words still possible after memory went from `before` to `after`: those of words that did not change, and those of words
changed in the window of the store, which again may or may not be seen. Any other store is seen (20_memory.md R69; log 17). -/
def keepStale (before after : List Host.Cell) (window : List Nat) (st : List HeldWord) : List HeldWord :=
  st.filter fun e => memWord before e.addr == memWord after e.addr || window.contains e.addr

/-- The words of the window that changed, as they were before. -/
def newStale (before after : List Host.Cell) (window : List Nat) : List HeldWord :=
  (window.filter fun n => memWord before n != memWord after n).map fun n => { addr := n, word := memWord before n }

/-- What the queue may still hold after an instruction that began at `s`, has `next` after it and ended at `s1`
(20_memory.md R69; log 17). -/
def noteStores (s : State) (next : Long) (s1 : State) : State :=
  let window := prefetchWindow s next
  { s1 with stale := newStale s.mem s1.mem window ++ keepStale s.mem s1.mem window s1.stale }

/-- After exception processing outside an instruction: the entries of words that it changed go. -/
def noteEntry (before : State) (s : State) : State := { s with stale := keepStale before.mem s.mem [] s.stale }

/-! ## Model faults -/

/-- The state a fault leaves. -/
def Fault.left : Fault → State
  | .addressError _ s => s
  | .busError _ s => s

/-- A fault with another state left. -/
def Fault.withLeft (t : State) : Fault → Fault
  | .addressError a _ => .addressError a t
  | .busError a _ => .busError a t

/-- A model fault ends a step that began at `s`: the run state becomes Faulted, and the step has taken its input
(10_state.md R34; log 14). -/
def enterFaulted (s : State) : Result → Result
  | .fault f => .fault (f.withLeft { f.left with run := .faulted, inputs := s.inputs.tail })
  | .next t => .next t
  | .refused r => .refused r

/-! ## The boundary -/

/-- From the end of an instruction to the next: trace, then an interrupt (60_exceptions.md R349). `t0` says that the
instruction was executed and began with T set. -/
def endInstruction (t0 : Bool) (s : State) : Res State :=
  match traceIf t0 s with
  | .error e => .error e
  | .ok s1 =>
    match serviceInterrupt s1 with
    | .error e => .error e
    | .ok s2 => .ok (noteEntry s s2)

/-- While stopped nothing but the inputs is looked at (60_exceptions.md R355). -/
def stoppedStep (s : State) : Res State :=
  match serviceInterrupt s with
  | .error e => .error e
  | .ok s1 => .ok (noteEntry s s1)

/-- What follows an instruction's own outcome (60_exceptions.md R349, R352): `i` of length `len` began at `s`. -/
def afterInstr (i : Instr) (len : Long) (s : State) : Result → Result
  | .next s1 => enterFaulted s (finish (endInstruction (s.sr.t && executes i s) (noteStores s (s.pc + len) s1)))
  | .fault f => enterFaulted s (.fault f)
  | .refused r => .refused r

/-! ## Placing an instruction -/

/-- Bytes written to memory from an address on, whatever the memory map says of it. -/
def placeBytes (c : Config) : List Byte → Long → List Host.Cell → List Host.Cell
  | [], _, m => m
  | b :: bs, a, m => placeBytes c bs (a + 1) (memWrite m (physAddr c a) b)

/-- The inputs from the first one that is no external reset on. -/
def dropResets : List PlatformInput → List PlatformInput
  | .reset :: ins => dropResets ins
  | ins => ins

/-- The state whose next step fetches and runs the instruction in these words (log 24). -/
def placeWords (ws : List Word) (s : State) : State :=
  { s with mem := placeBytes s.cfg (bytesOfWords ws) s.pc s.mem, stale := [], run := .running, inputs := dropResets s.inputs }

end Sys2Proof.Machine
end

