-- ==== Sys2Proof/Machine/Arith.lean ====
section
/-! DEFINITION. Binary arithmetic: ADD, SUB, CMP and their forms (42_add_sub_cmp.md), CLR, NEG, NEGX, TST (49_unary_misc.md). -/

namespace Sys2Proof.Machine

/-! ## Addition -/

/-- ADD to a data register (42_add_sub_cmp.md R170). -/
def execAddEaDn (sz : Size) (ea : Ea) (dn : Fin 8) (s : State) : Result := finish (eaToDn addOp sz ea dn s)

/-- ADD to memory (42_add_sub_cmp.md R170). -/
def execAddDnEa (sz : Size) (dn : Fin 8) (ea : Ea) (s : State) : Result := finish (dnToEa addOp sz dn ea s)

/-- ADDA (42_add_sub_cmp.md R171). -/
def execAdda (sz : Size) (ea : Ea) (an : Fin 8) (s : State) : Result := finish (eaToAn (fun d v => d + v) sz ea an s)

/-- ADDI (42_add_sub_cmp.md R172). -/
def execAddi (sz : Size) (imm : Long) (ea : Ea) (s : State) : Result := finish (immToEa addOp sz imm ea s)

/-- ADDQ (42_add_sub_cmp.md R173). -/
def execAddq (sz : Size) (q : Fin 8) (ea : Ea) (s : State) : Result :=
  finish (quickToEa addOp (fun d v => d + v) sz q ea s)

/-- ADDX (42_add_sub_cmp.md R174). -/
def execAddx (sz : Size) (m : PairMode) (ry rx : Fin 8) (s : State) : Result := finish (pairOp addxOp sz m ry rx s)

/-! ## Subtraction -/

/-- SUB from a data register (42_add_sub_cmp.md R175). -/
def execSubEaDn (sz : Size) (ea : Ea) (dn : Fin 8) (s : State) : Result := finish (eaToDn subOp sz ea dn s)

/-- SUB from memory (42_add_sub_cmp.md R175). -/
def execSubDnEa (sz : Size) (dn : Fin 8) (ea : Ea) (s : State) : Result := finish (dnToEa subOp sz dn ea s)

/-- SUBA (42_add_sub_cmp.md R176). -/
def execSuba (sz : Size) (ea : Ea) (an : Fin 8) (s : State) : Result := finish (eaToAn (fun d v => d - v) sz ea an s)

/-- SUBI (42_add_sub_cmp.md R177). -/
def execSubi (sz : Size) (imm : Long) (ea : Ea) (s : State) : Result := finish (immToEa subOp sz imm ea s)

/-- SUBQ (42_add_sub_cmp.md R178). -/
def execSubq (sz : Size) (q : Fin 8) (ea : Ea) (s : State) : Result :=
  finish (quickToEa subOp (fun d v => d - v) sz q ea s)

/-- SUBX (42_add_sub_cmp.md R179). -/
def execSubx (sz : Size) (m : PairMode) (ry rx : Fin 8) (s : State) : Result := finish (pairOp subxOp sz m ry rx s)

/-! ## Comparison -/

/-- CMP (42_add_sub_cmp.md R180). -/
def execCmp (sz : Size) (ea : Ea) (dn : Fin 8) (s : State) : Result :=
  finish
    (match readEa ea sz (extAt s 0) s with
     | .error e => .error e
     | .ok (v, s1) =>
       advanceBy (lengthOf 0 (ea.words sz)) (.ok (s1.setCcr (cmpCcr sz v (s1.dregAt sz dn) s.sr.ccr))))

/-- CMPA: always a 32-bit compare (42_add_sub_cmp.md R181). -/
def execCmpa (sz : Size) (ea : Ea) (an : Fin 8) (s : State) : Result :=
  finish
    (match readEa ea sz (extAt s 0) s with
     | .error e => .error e
     | .ok (v, s1) =>
       advanceBy (lengthOf 0 (ea.words sz)) (.ok (s1.setCcr (cmpCcr .l (sext sz v) (s1.areg an) s.sr.ccr))))

/-- CMPI (42_add_sub_cmp.md R182). -/
def execCmpi (sz : Size) (imm : Long) (ea : Ea) (s : State) : Result :=
  finish (testEa sz.immCount sz ea (fun d c => cmpCcr sz (trunc sz imm) d c) s)

/-- CMPM: the source is read and stepped first (42_add_sub_cmp.md R183). -/
def execCmpm (sz : Size) (ry rx : Fin 8) (s : State) : Result :=
  finish
    (match readEa (.postInc ry) sz (extAt s 0) s with
     | .error e => .error e
     | .ok (v, s1) => testEa 0 sz (.postInc rx) (fun d c => cmpCcr sz v d c) s1)

/-! ## One operand -/

/-- CLR: a memory operand is read before it is written (49_unary_misc.md R310). -/
def execClr (sz : Size) (ea : Ea) (s : State) : Result := finish (unaryEa clrOp sz ea s)

/-- NEG (49_unary_misc.md R311). -/
def execNeg (sz : Size) (ea : Ea) (s : State) : Result := finish (unaryEa negOp sz ea s)

/-- NEGX (49_unary_misc.md R312). -/
def execNegx (sz : Size) (ea : Ea) (s : State) : Result := finish (unaryEa negxOp sz ea s)

/-- TST (49_unary_misc.md R318). -/
def execTst (sz : Size) (ea : Ea) (s : State) : Result := finish (testEa 0 sz ea (fun d c => logicCcr sz d c) s)

end Sys2Proof.Machine
end

