-- ==== Sys2Proof/Machine/Control.lean ====
section
/-! DEFINITION. Program control (47_control.md) and NOP (49_unary_misc.md R319). -/

namespace Sys2Proof.Machine

/-- BRA (47_control.md R273). -/
def execBra (d : BranchDisp) (s : State) : Result := finish (.ok (s.jump (branchTarget s d)))

/-- BSR: the address of the next instruction is pushed, then control goes to the target (47_control.md R262). -/
def execBsr (d : BranchDisp) (s : State) : Result :=
  finish
    (match push32 (s.pc + lengthOf 0 d.words) s with
     | .error e => .error e
     | .ok s1 => .ok (s1.jump (branchTarget s d)))

/-- Bcc (47_control.md R272). -/
def execBcc (cond : Cond) (d : BranchDisp) (s : State) : Result :=
  finish
    (if condHolds s.sr.ccr cond then .ok (s.jump (branchTarget s d)) else advanceBy (lengthOf 0 d.words) (.ok s))

/-- DBcc: the counter is the low word of the register (47_control.md R274). -/
def execDbcc (cond : Cond) (dn : Fin 8) (d : Word) (s : State) : Result :=
  finish
    (if condHolds s.sr.ccr cond then advanceBy (lengthOf 1 0) (.ok s)
     else
       let cnt : Word := (s.dreg dn).setWidth 16 - 1
       let s1 := s.setDregAt .w dn (cnt.setWidth 32)
       if cnt = 0xFFFF then advanceBy (lengthOf 1 0) (.ok s1) else .ok (s1.jump (branchTarget s (.word d))))

/-- Scc (47_control.md R275): a destination in memory is read before it is written, the value unused (log 18). -/
def execScc (cond : Cond) (ea : Ea) (s : State) : Result :=
  finish
    (advanceBy (lengthOf 0 (ea.words .b))
      (modifyEa ea .b (extAt s 0) (fun _ => (if condHolds s.sr.ccr cond then 0xFF else 0, s.sr.ccr)) s))

/-- JMP (47_control.md R263). -/
def execJmp (ea : Ea) (s : State) : Result :=
  finish
    (match addrEa ea (extAt s 0) s with
     | .error e => .error e
     | .ok a => .ok (s.jump a))

/-- JSR: the address is computed before the push (47_control.md R264). -/
def execJsr (ea : Ea) (s : State) : Result :=
  finish
    (match addrEa ea (extAt s 0) s with
     | .error e => .error e
     | .ok a =>
       match push32 (s.pc + lengthOf 0 (ea.words .l)) s with
       | .error e => .error e
       | .ok s1 => .ok (s1.jump a))

/-- PEA: the address is computed before the push (47_control.md R266). -/
def execPea (ea : Ea) (s : State) : Result :=
  finish
    (match addrEa ea (extAt s 0) s with
     | .error e => .error e
     | .ok a => advanceBy (lengthOf 0 (ea.words .l)) (push32 a s))

/-- LINK: with A7 the value pushed is the already decremented one (47_control.md R267). -/
def execLink (an : Fin 8) (d : Word) (s : State) : Result :=
  let s1 := s.setSp (s.sp - 4)
  finish
    (match writeMem s1 .l s1.sp (s1.areg an) with
     | .error e => .error e
     | .ok s2 =>
       let s3 := s2.setAreg an s2.sp
       advanceBy (lengthOf 1 0) (.ok (s3.setSp (s3.sp + d.signExtend 32))))

/-- UNLK: with A7 the value popped is the final one (47_control.md R268). -/
def execUnlk (an : Fin 8) (s : State) : Result :=
  finish
    (match pop32 (s.setSp (s.areg an)) with
     | .error e => .error e
     | .ok (v, s1) => advanceBy (lengthOf 0 0) (.ok (s1.setAreg an v)))

/-- RTS (47_control.md R271). -/
def execRts (s : State) : Result :=
  finish
    (match pop32 s with
     | .error e => .error e
     | .ok (v, s1) => .ok (s1.jump v))

/-- RTR: a word is popped for the CCR, then the PC (47_control.md R270). -/
def execRtr (s : State) : Result :=
  finish
    (match pop16 s with
     | .error e => .error e
     | .ok (w, s1) =>
       match pop32 (s1.setCcr (Ccr.ofByte (w.setWidth 8))) with
       | .error e => .error e
       | .ok (v, s2) => .ok (s2.jump v))

/-- RTE, privileged (47_control.md R269). -/
def execRte (s : State) : Result := finish (privileged s (returnFromException s))

/-- NOP (49_unary_misc.md R319). -/
def execNop (s : State) : Result := finish (advanceBy (lengthOf 0 0) (.ok s))

end Sys2Proof.Machine
end

