-- ==== Sys2Proof/Machine/Logic.lean ====
section
/-! DEFINITION. Logic and its CCR and SR forms (44_logic.md), NOT (49_unary_misc.md), the bit instructions and TAS
(45_bit_tas.md). -/

namespace Sys2Proof.Machine

/-- AND to a data register (44_logic.md R210). -/
def execAndEaDn (sz : Size) (ea : Ea) (dn : Fin 8) (s : State) : Result := finish (eaToDn andOp sz ea dn s)

/-- AND to memory (44_logic.md R210). -/
def execAndDnEa (sz : Size) (dn : Fin 8) (ea : Ea) (s : State) : Result := finish (dnToEa andOp sz dn ea s)

/-- ANDI (44_logic.md R211). -/
def execAndi (sz : Size) (imm : Long) (ea : Ea) (s : State) : Result := finish (immToEa andOp sz imm ea s)

/-- ANDI to CCR (44_logic.md R212). -/
def execAndiToCcr (imm : Byte) (s : State) : Result := finish (immToCcr (fun c m => c &&& m) imm s)

/-- ANDI to SR (44_logic.md R213). -/
def execAndiToSr (imm : Word) (s : State) : Result := finish (immToSr (fun w m => w &&& m) imm s)

/-- EOR (44_logic.md R214). -/
def execEor (sz : Size) (dn : Fin 8) (ea : Ea) (s : State) : Result := finish (dnToEa eorOp sz dn ea s)

/-- EORI (44_logic.md R215). -/
def execEori (sz : Size) (imm : Long) (ea : Ea) (s : State) : Result := finish (immToEa eorOp sz imm ea s)

/-- EORI to CCR (44_logic.md R216). -/
def execEoriToCcr (imm : Byte) (s : State) : Result := finish (immToCcr (fun c m => c ^^^ m) imm s)

/-- EORI to SR (44_logic.md R217). -/
def execEoriToSr (imm : Word) (s : State) : Result := finish (immToSr (fun w m => w ^^^ m) imm s)

/-- OR to a data register (44_logic.md R218). -/
def execOrEaDn (sz : Size) (ea : Ea) (dn : Fin 8) (s : State) : Result := finish (eaToDn orOp sz ea dn s)

/-- OR to memory (44_logic.md R218). -/
def execOrDnEa (sz : Size) (dn : Fin 8) (ea : Ea) (s : State) : Result := finish (dnToEa orOp sz dn ea s)

/-- ORI (44_logic.md R219). -/
def execOri (sz : Size) (imm : Long) (ea : Ea) (s : State) : Result := finish (immToEa orOp sz imm ea s)

/-- ORI to CCR (44_logic.md R220). -/
def execOriToCcr (imm : Byte) (s : State) : Result := finish (immToCcr (fun c m => c ||| m) imm s)

/-- ORI to SR (44_logic.md R221). -/
def execOriToSr (imm : Word) (s : State) : Result := finish (immToSr (fun w m => w ||| m) imm s)

/-- NOT (49_unary_misc.md R313). -/
def execNot (sz : Size) (ea : Ea) (s : State) : Result := finish (unaryEa notOp sz ea s)

/-! ## Bits -/

/-- BTST with an immediate bit number (45_bit_tas.md R231). -/
def execBtstImm (n : Byte) (ea : Ea) (s : State) : Result :=
  finish (testEa 1 (bitSize ea) ea (fun d c => bitCcr (bitSize ea) (n.setWidth 32) d c) s)

/-- BTST with a bit number in a register (45_bit_tas.md R231). -/
def execBtstReg (dn : Fin 8) (ea : Ea) (s : State) : Result :=
  finish (testEa 0 (bitSize ea) ea (fun d c => bitCcr (bitSize ea) (s.dreg dn) d c) s)

/-- BCHG with an immediate bit number (45_bit_tas.md R232). -/
def execBchgImm (n : Byte) (ea : Ea) (s : State) : Result := finish (bitEa bchgOp 1 (n.setWidth 32) ea s)

/-- BCHG with a bit number in a register (45_bit_tas.md R232). -/
def execBchgReg (dn : Fin 8) (ea : Ea) (s : State) : Result := finish (bitEa bchgOp 0 (s.dreg dn) ea s)

/-- BCLR with an immediate bit number (45_bit_tas.md R233). -/
def execBclrImm (n : Byte) (ea : Ea) (s : State) : Result := finish (bitEa bclrOp 1 (n.setWidth 32) ea s)

/-- BCLR with a bit number in a register (45_bit_tas.md R233). -/
def execBclrReg (dn : Fin 8) (ea : Ea) (s : State) : Result := finish (bitEa bclrOp 0 (s.dreg dn) ea s)

/-- BSET with an immediate bit number (45_bit_tas.md R234). -/
def execBsetImm (n : Byte) (ea : Ea) (s : State) : Result := finish (bitEa bsetOp 1 (n.setWidth 32) ea s)

/-- BSET with a bit number in a register (45_bit_tas.md R234). -/
def execBsetReg (dn : Fin 8) (ea : Ea) (s : State) : Result := finish (bitEa bsetOp 0 (s.dreg dn) ea s)

/-- TAS (45_bit_tas.md R236); indivisible, since one step is one instruction (20_memory.md R67). -/
def execTas (ea : Ea) (s : State) : Result := finish (unaryEa tasOp .b ea s)

end Sys2Proof.Machine
end

