-- ==== Sys2Proof/Machine/Move.lean ====
section
/-! DEFINITION. Data movement (41_move.md), EXG, EXT, SWAP (49_unary_misc.md), LEA (47_control.md R265). -/

namespace Sys2Proof.Machine

/-- MOVE: the source resolved and read first, then the destination resolved and written (41_move.md R150). -/
def execMove (sz : Size) (src dst : Ea) (s : State) : Result :=
  finish
    (match readEa src sz (extAt s 0) s with
     | .error e => .error e
     | .ok (v, s1) =>
       match writeEa dst sz (extAt s (src.words sz)) v s1 with
       | .error e => .error e
       | .ok s2 =>
         advanceBy (lengthOf 0 (src.words sz + dst.words sz)) (.ok (s2.setCcr (logicCcr sz v s.sr.ccr))))

/-- MOVEA (41_move.md R151). -/
def execMovea (sz : Size) (src : Ea) (an : Fin 8) (s : State) : Result := finish (eaToAn (fun _ v => v) sz src an s)

/-- MOVEQ (41_move.md R152). -/
def execMoveq (dn : Fin 8) (imm : Byte) (s : State) : Result :=
  finish
    (advanceBy (lengthOf 0 0)
      (.ok ((s.setDreg dn (imm.signExtend 32)).setCcr (logicCcr .l (imm.signExtend 32) s.sr.ccr))))

/-- MOVE to CCR: a word is read, its low five bits are loaded (41_move.md R153). -/
def execMoveToCcr (ea : Ea) (s : State) : Result :=
  finish (testEa 0 .w ea (fun v _ => Ccr.ofByte (v.setWidth 8)) s)

/-- MOVE from SR: not privileged; a destination in memory is read before it is written, the value unused (41_move.md R154;
log 18). -/
def execMoveFromSr (ea : Ea) (s : State) : Result :=
  finish
    (advanceBy (lengthOf 0 (ea.words .w))
      (modifyEa ea .w (extAt s 0) (fun _ => (s.sr.toWord.setWidth 32, s.sr.ccr)) s))

/-- MOVE to SR, privileged (41_move.md R155). -/
def execMoveToSr (ea : Ea) (s : State) : Result :=
  finish
    (privileged s
      (match readEa ea .w (extAt s 0) s with
       | .error e => .error e
       | .ok (v, s1) =>
         advanceBy (lengthOf 0 (ea.words .w)) (.ok (s1.setSr (StatusReg.ofWord (v.setWidth 16))))))

/-- MOVE to USP, privileged (41_move.md R156). -/
def execMoveToUsp (an : Fin 8) (s : State) : Result :=
  finish (privileged s (advanceBy (lengthOf 0 0) (.ok { s with usp := s.areg an })))

/-- MOVE from USP, privileged (41_move.md R157). -/
def execMoveFromUsp (an : Fin 8) (s : State) : Result :=
  finish (privileged s (advanceBy (lengthOf 0 0) (.ok (s.setAreg an s.usp))))

/-- MOVEM to memory (41_move.md R158); the operand's words come after the mask. -/
def execMovemToMem (sz : Size) (mask : Word) (ea : Ea) (s : State) : Result :=
  finish
    (advanceBy (lengthOf 1 (ea.words sz))
      (match ea with
       | .preDec r =>
         match storeDown sz (maskBits mask) (s.areg r) s with
         | .error e => .error e
         | .ok (a, s1) => .ok (s1.setAreg r a)
       | _ =>
         match addrEa ea (extAt s 1) s with
         | .error e => .error e
         | .ok a => storeUp sz (maskBits mask) a s))

/-- MOVEM to registers (41_move.md R159); with `(An)+` the final address is written after the loads. -/
def execMovemToReg (sz : Size) (mask : Word) (ea : Ea) (s : State) : Result :=
  finish
    (advanceBy (lengthOf 1 (ea.words sz))
      (match ea with
       | .postInc r =>
         match (loadUp sz (maskBits mask) (s.areg r) s).bind extraRead with
         | .error e => .error e
         | .ok (a, s1) => .ok (s1.setAreg r a)
       | _ =>
         match addrEa ea (extAt s 1) s with
         | .error e => .error e
         | .ok a =>
           match (loadUp sz (maskBits mask) a s).bind extraRead with
           | .error e => .error e
           | .ok (_, s1) => .ok s1))

/-- MOVEP: bytes at every second address (41_move.md R161). -/
def execMovep (dir : MovepDir) (sz : Size) (dx ay : Fin 8) (d : Word) (s : State) : Result :=
  finish
    (advanceBy (lengthOf 1 0)
      (match dir with
       | .toMem => storeLanes (movepBytes sz (s.dreg dx)) (s.areg ay + d.signExtend 32) s
       | .toReg =>
         match loadLanes sz.bytes 0 (s.areg ay + d.signExtend 32) s with
         | .error e => .error e
         | .ok v => .ok (s.setDregAt sz dx v)))

/-- LEA: no memory access (47_control.md R265). -/
def execLea (ea : Ea) (an : Fin 8) (s : State) : Result :=
  finish
    (match addrEa ea (extAt s 0) s with
     | .error e => .error e
     | .ok a => advanceBy (lengthOf 0 (ea.words .l)) (.ok (s.setAreg an a)))

/-- EXG of data registers (49_unary_misc.md R315). -/
def execExgDD (rx ry : Fin 8) (s : State) : Result :=
  finish (advanceBy (lengthOf 0 0) (.ok ((s.setDreg rx (s.dreg ry)).setDreg ry (s.dreg rx))))

/-- EXG of address registers (49_unary_misc.md R315). -/
def execExgAA (rx ry : Fin 8) (s : State) : Result :=
  finish (advanceBy (lengthOf 0 0) (.ok ((s.setAreg rx (s.areg ry)).setAreg ry (s.areg rx))))

/-- EXG of a data and an address register (49_unary_misc.md R315). -/
def execExgDA (rx ry : Fin 8) (s : State) : Result :=
  finish (advanceBy (lengthOf 0 0) (.ok ((s.setDreg rx (s.areg ry)).setAreg ry (s.dreg rx))))

/-- The value EXT computes: a byte to a word, or a word to a long (49_unary_misc.md R316). -/
def extValue (sz : Size) (v : Long) : Long :=
  match sz with
  | .l => sext .w v
  | _ => trunc .w (sext .b v)

/-- EXT (49_unary_misc.md R316). -/
def execExt (sz : Size) (dn : Fin 8) (s : State) : Result :=
  finish
    (advanceBy (lengthOf 0 0)
      (.ok ((s.setDregAt sz dn (extValue sz (s.dreg dn))).setCcr (logicCcr sz (extValue sz (s.dreg dn)) s.sr.ccr))))

/-- The two halves of a long exchanged (49_unary_misc.md R317). -/
def swapHalves (v : Long) : Long := v.extractLsb' 0 16 ++ v.extractLsb' 16 16

/-- SWAP (49_unary_misc.md R317). -/
def execSwap (dn : Fin 8) (s : State) : Result :=
  finish
    (advanceBy (lengthOf 0 0)
      (.ok ((s.setDreg dn (swapHalves (s.dreg dn))).setCcr (logicCcr .l (swapHalves (s.dreg dn)) s.sr.ccr))))

end Sys2Proof.Machine
end

