-- ==== Sys2Proof/Machine/Shift.lean ====
section
/-! DEFINITION. Shifts and rotates (46_shift_rotate.md) and decimal arithmetic (43_bcd.md, 49_unary_misc.md R314). -/

namespace Sys2Proof.Machine

/-! ## Register forms -/

/-- ASR of a data register (46_shift_rotate.md R243). -/
def execAsr (sz : Size) (count : ShiftCount) (dn : Fin 8) (s : State) : Result := finish (shiftReg .asr sz count dn s)

/-- ASL of a data register (46_shift_rotate.md R242). -/
def execAsl (sz : Size) (count : ShiftCount) (dn : Fin 8) (s : State) : Result := finish (shiftReg .asl sz count dn s)

/-- LSR of a data register (46_shift_rotate.md R245). -/
def execLsr (sz : Size) (count : ShiftCount) (dn : Fin 8) (s : State) : Result := finish (shiftReg .lsr sz count dn s)

/-- LSL of a data register (46_shift_rotate.md R244). -/
def execLsl (sz : Size) (count : ShiftCount) (dn : Fin 8) (s : State) : Result := finish (shiftReg .lsl sz count dn s)

/-- ROXR of a data register (46_shift_rotate.md R249). -/
def execRoxr (sz : Size) (count : ShiftCount) (dn : Fin 8) (s : State) : Result := finish (shiftReg .roxr sz count dn s)

/-- ROXL of a data register (46_shift_rotate.md R248). -/
def execRoxl (sz : Size) (count : ShiftCount) (dn : Fin 8) (s : State) : Result := finish (shiftReg .roxl sz count dn s)

/-- ROR of a data register (46_shift_rotate.md R247). -/
def execRor (sz : Size) (count : ShiftCount) (dn : Fin 8) (s : State) : Result := finish (shiftReg .ror sz count dn s)

/-- ROL of a data register (46_shift_rotate.md R246). -/
def execRol (sz : Size) (count : ShiftCount) (dn : Fin 8) (s : State) : Result := finish (shiftReg .rol sz count dn s)

/-! ## Memory forms -/

/-- ASR of a memory word (46_shift_rotate.md R243). -/
def execAsrMem (ea : Ea) (s : State) : Result := finish (shiftMem .asr ea s)

/-- ASL of a memory word (46_shift_rotate.md R242). -/
def execAslMem (ea : Ea) (s : State) : Result := finish (shiftMem .asl ea s)

/-- LSR of a memory word (46_shift_rotate.md R245). -/
def execLsrMem (ea : Ea) (s : State) : Result := finish (shiftMem .lsr ea s)

/-- LSL of a memory word (46_shift_rotate.md R244). -/
def execLslMem (ea : Ea) (s : State) : Result := finish (shiftMem .lsl ea s)

/-- ROXR of a memory word (46_shift_rotate.md R249). -/
def execRoxrMem (ea : Ea) (s : State) : Result := finish (shiftMem .roxr ea s)

/-- ROXL of a memory word (46_shift_rotate.md R248). -/
def execRoxlMem (ea : Ea) (s : State) : Result := finish (shiftMem .roxl ea s)

/-- ROR of a memory word (46_shift_rotate.md R247). -/
def execRorMem (ea : Ea) (s : State) : Result := finish (shiftMem .ror ea s)

/-- ROL of a memory word (46_shift_rotate.md R246). -/
def execRolMem (ea : Ea) (s : State) : Result := finish (shiftMem .rol ea s)

/-! ## Decimal -/

/-- ABCD (43_bcd.md R201). -/
def execAbcd (m : PairMode) (ry rx : Fin 8) (s : State) : Result := finish (bcdPair bcdAdd m ry rx s)

/-- SBCD (43_bcd.md R202). -/
def execSbcd (m : PairMode) (ry rx : Fin 8) (s : State) : Result := finish (bcdPair bcdSub m ry rx s)

/-- NBCD: `0 - d - X`, decimal (49_unary_misc.md R314). -/
def execNbcd (ea : Ea) (s : State) : Result :=
  finish (unaryEa (fun _ d c => bcdOp bcdSub s.bcdDraws d 0 c) .b ea (s.skipDraws bcdDrawCount))

end Sys2Proof.Machine
end

