-- ==== Sys2Proof/Machine/Dispatch.lean ====
section
/-! DEFINITION. The meaning of each instruction: one arm for each row of spec/opcode_table.json, in its order. -/

namespace Sys2Proof.Machine

def exec (i : Instr) (s : State) : Host.Outcome State Fault Refusal :=
  match i with
  -- immediate forms, line 0
  | .ori sz imm ea => Sys2Proof.Machine.execOri sz imm ea s
  | .andi sz imm ea => Sys2Proof.Machine.execAndi sz imm ea s
  | .subi sz imm ea => Sys2Proof.Machine.execSubi sz imm ea s
  | .addi sz imm ea => Sys2Proof.Machine.execAddi sz imm ea s
  | .eori sz imm ea => Sys2Proof.Machine.execEori sz imm ea s
  | .cmpi sz imm ea => Sys2Proof.Machine.execCmpi sz imm ea s
  | .oriToCcr imm => Sys2Proof.Machine.execOriToCcr imm s
  | .oriToSr imm => Sys2Proof.Machine.execOriToSr imm s
  | .andiToCcr imm => Sys2Proof.Machine.execAndiToCcr imm s
  | .andiToSr imm => Sys2Proof.Machine.execAndiToSr imm s
  | .eoriToCcr imm => Sys2Proof.Machine.execEoriToCcr imm s
  | .eoriToSr imm => Sys2Proof.Machine.execEoriToSr imm s
  -- bit instructions: bit number immediate, then in a register
  | .btstImm n ea => Sys2Proof.Machine.execBtstImm n ea s
  | .bchgImm n ea => Sys2Proof.Machine.execBchgImm n ea s
  | .bclrImm n ea => Sys2Proof.Machine.execBclrImm n ea s
  | .bsetImm n ea => Sys2Proof.Machine.execBsetImm n ea s
  | .btstReg dn ea => Sys2Proof.Machine.execBtstReg dn ea s
  | .bchgReg dn ea => Sys2Proof.Machine.execBchgReg dn ea s
  | .bclrReg dn ea => Sys2Proof.Machine.execBclrReg dn ea s
  | .bsetReg dn ea => Sys2Proof.Machine.execBsetReg dn ea s
  | .movep dir sz dx ay d => Sys2Proof.Machine.execMovep dir sz dx ay d s
  -- moves
  | .move sz src dst => Sys2Proof.Machine.execMove sz src dst s
  | .movea sz src an => Sys2Proof.Machine.execMovea sz src an s
  -- line 4
  | .negx sz ea => Sys2Proof.Machine.execNegx sz ea s
  | .clr sz ea => Sys2Proof.Machine.execClr sz ea s
  | .neg sz ea => Sys2Proof.Machine.execNeg sz ea s
  | .not sz ea => Sys2Proof.Machine.execNot sz ea s
  | .tst sz ea => Sys2Proof.Machine.execTst sz ea s
  | .moveFromSr ea => Sys2Proof.Machine.execMoveFromSr ea s
  | .moveToCcr ea => Sys2Proof.Machine.execMoveToCcr ea s
  | .moveToSr ea => Sys2Proof.Machine.execMoveToSr ea s
  | .chk ea dn => Sys2Proof.Machine.execChk ea dn s
  | .lea ea an => Sys2Proof.Machine.execLea ea an s
  | .nbcd ea => Sys2Proof.Machine.execNbcd ea s
  | .swap dn => Sys2Proof.Machine.execSwap dn s
  | .pea ea => Sys2Proof.Machine.execPea ea s
  | .ext sz dn => Sys2Proof.Machine.execExt sz dn s
  | .movemToMem sz mask ea => Sys2Proof.Machine.execMovemToMem sz mask ea s
  | .movemToReg sz mask ea => Sys2Proof.Machine.execMovemToReg sz mask ea s
  | .tas ea => Sys2Proof.Machine.execTas ea s
  | .illegal => Sys2Proof.Machine.execIllegal s
  | .trap v => Sys2Proof.Machine.execTrap v s
  | .link an d => Sys2Proof.Machine.execLink an d s
  | .unlk an => Sys2Proof.Machine.execUnlk an s
  | .moveToUsp an => Sys2Proof.Machine.execMoveToUsp an s
  | .moveFromUsp an => Sys2Proof.Machine.execMoveFromUsp an s
  | .reset => Sys2Proof.Machine.execReset s
  | .nop => Sys2Proof.Machine.execNop s
  | .stop imm => Sys2Proof.Machine.execStop imm s
  | .rte => Sys2Proof.Machine.execRte s
  | .rts => Sys2Proof.Machine.execRts s
  | .trapv => Sys2Proof.Machine.execTrapv s
  | .rtr => Sys2Proof.Machine.execRtr s
  | .jsr ea => Sys2Proof.Machine.execJsr ea s
  | .jmp ea => Sys2Proof.Machine.execJmp ea s
  -- line 5
  | .addq sz q ea => Sys2Proof.Machine.execAddq sz q ea s
  | .subq sz q ea => Sys2Proof.Machine.execSubq sz q ea s
  | .scc cond ea => Sys2Proof.Machine.execScc cond ea s
  | .dbcc cond dn d => Sys2Proof.Machine.execDbcc cond dn d s
  -- line 6
  | .bra d => Sys2Proof.Machine.execBra d s
  | .bsr d => Sys2Proof.Machine.execBsr d s
  | .bcc cond d => Sys2Proof.Machine.execBcc cond d s
  -- line 7
  | .moveq dn imm => Sys2Proof.Machine.execMoveq dn imm s
  -- line 8
  | .orEaDn sz ea dn => Sys2Proof.Machine.execOrEaDn sz ea dn s
  | .orDnEa sz dn ea => Sys2Proof.Machine.execOrDnEa sz dn ea s
  | .divu ea dn => Sys2Proof.Machine.execDivu ea dn s
  | .divs ea dn => Sys2Proof.Machine.execDivs ea dn s
  | .sbcd m ry rx => Sys2Proof.Machine.execSbcd m ry rx s
  -- line 9
  | .subEaDn sz ea dn => Sys2Proof.Machine.execSubEaDn sz ea dn s
  | .subDnEa sz dn ea => Sys2Proof.Machine.execSubDnEa sz dn ea s
  | .suba sz ea an => Sys2Proof.Machine.execSuba sz ea an s
  | .subx sz m ry rx => Sys2Proof.Machine.execSubx sz m ry rx s
  -- line 11
  | .cmp sz ea dn => Sys2Proof.Machine.execCmp sz ea dn s
  | .cmpa sz ea an => Sys2Proof.Machine.execCmpa sz ea an s
  | .eor sz dn ea => Sys2Proof.Machine.execEor sz dn ea s
  | .cmpm sz ry rx => Sys2Proof.Machine.execCmpm sz ry rx s
  -- line 12
  | .andEaDn sz ea dn => Sys2Proof.Machine.execAndEaDn sz ea dn s
  | .andDnEa sz dn ea => Sys2Proof.Machine.execAndDnEa sz dn ea s
  | .mulu ea dn => Sys2Proof.Machine.execMulu ea dn s
  | .muls ea dn => Sys2Proof.Machine.execMuls ea dn s
  | .abcd m ry rx => Sys2Proof.Machine.execAbcd m ry rx s
  | .exgDD rx ry => Sys2Proof.Machine.execExgDD rx ry s
  | .exgAA rx ry => Sys2Proof.Machine.execExgAA rx ry s
  | .exgDA rx ry => Sys2Proof.Machine.execExgDA rx ry s
  -- line 13
  | .addEaDn sz ea dn => Sys2Proof.Machine.execAddEaDn sz ea dn s
  | .addDnEa sz dn ea => Sys2Proof.Machine.execAddDnEa sz dn ea s
  | .adda sz ea an => Sys2Proof.Machine.execAdda sz ea an s
  | .addx sz m ry rx => Sys2Proof.Machine.execAddx sz m ry rx s
  -- line 14: register forms, then memory forms
  | .asr sz count dn => Sys2Proof.Machine.execAsr sz count dn s
  | .asl sz count dn => Sys2Proof.Machine.execAsl sz count dn s
  | .lsr sz count dn => Sys2Proof.Machine.execLsr sz count dn s
  | .lsl sz count dn => Sys2Proof.Machine.execLsl sz count dn s
  | .roxr sz count dn => Sys2Proof.Machine.execRoxr sz count dn s
  | .roxl sz count dn => Sys2Proof.Machine.execRoxl sz count dn s
  | .ror sz count dn => Sys2Proof.Machine.execRor sz count dn s
  | .rol sz count dn => Sys2Proof.Machine.execRol sz count dn s
  | .asrMem ea => Sys2Proof.Machine.execAsrMem ea s
  | .aslMem ea => Sys2Proof.Machine.execAslMem ea s
  | .lsrMem ea => Sys2Proof.Machine.execLsrMem ea s
  | .lslMem ea => Sys2Proof.Machine.execLslMem ea s
  | .roxrMem ea => Sys2Proof.Machine.execRoxrMem ea s
  | .roxlMem ea => Sys2Proof.Machine.execRoxlMem ea s
  | .rorMem ea => Sys2Proof.Machine.execRorMem ea s
  | .rolMem ea => Sys2Proof.Machine.execRolMem ea s
  -- the two lines that hold no instruction (30_encoding.md R96); the low twelve bits are kept
  | .lineA w => Sys2Proof.Machine.execLineA w s
  | .lineF w => Sys2Proof.Machine.execLineF w s

end Sys2Proof.Machine
end

