-- ==== Sys2Proof/Machine/Step.lean ====
section
/-! DEFINITION. One step: external reset, or one look at the inputs while stopped, or the wait for reset after a fault, or one
instruction and the boundary that ends it (10_state.md R34, 60_exceptions.md R333, R349, R355). -/

namespace Sys2Proof.Machine

/-- One step. A faulted processor waits for external reset (70_reset_and_hazards.md R380); an opword that selects no row does what
ILLEGAL does (60_exceptions.md R336, 48_muldiv_chk_system.md R295). -/
def step (s : State) : Host.Outcome State Fault Refusal :=
  if resetNext s.inputs then enterFaulted s (finish (resetSequence s.dropInput))
  else
    match s.run with
    | .faulted => .next s.dropInput
    | .stopped => enterFaulted s (finish (stoppedStep s))
    | .running =>
      match fetchInstr s with
      | .stop e => enterFaulted s (finish (.error e))
      | .illegalOpword => afterInstr .illegal 2 s (exec .illegal (afterFetch s))
      | .instr i len => afterInstr i len s (exec i (afterFetch s))

/-- The state whose next step runs the instruction whose bits are `w` (log 24). -/
def State.withFetchWord (s : State) (nbits w : Nat) : State := placeWords (tableWords nbits w) s

end Sys2Proof.Machine
end

