-- ==== Sys2Proof/Safety.lean ====
section
/-! DEFINITION. The terms claims use: numbers a value denotes, where memory may be read and written, what an instruction leaves
unchanged, the flag rules of the spec over plain numbers, what taking an exception leaves, and the invariant every step keeps. -/

namespace Sys2Proof.Safety

open Sys2Proof.Machine

/-! ## Numbers (00_scope.md R9) -/

/-- `uint(v)` at a size. -/
def natOf (sz : Size) (v : Long) : Nat := v.toNat % 2 ^ sz.bits

/-- `sint(v)` at a size. -/
def intOf (sz : Size) (v : Long) : Int :=
  if natOf sz v < 2 ^ (sz.bits - 1) then (natOf sz v : Int) else (natOf sz v : Int) - 2 ^ sz.bits

/-- The bits of a register above an operation size are as before (10_state.md R22). -/
def UpperKept (sz : Size) (old new : Long) : Prop := ∀ k, sz.bits ≤ k → new.getLsbD k = old.getLsbD k

/-! ## Memory -/

/-- At least the vector table is addressed (20_memory.md R62), at most what a register holds. -/
def addrBitsOk (c : Config) : Prop := 10 ≤ c.addrBits ∧ c.addrBits ≤ 32

/-- Memory is in canonical form and the address space is one of a 68000 (premises of statements about stored values). -/
def Sound (s : State) : Prop := addrBitsOk s.cfg ∧ Memory.wf s.mem = true

/-- A byte at any address, a word or long at an even one (20_memory.md R55). -/
def Aligned (sz : Size) (a : Long) : Prop := sz = .b ∨ a.toNat % 2 = 0

/-- Every byte of the access is RAM and the access is aligned. -/
def Ram (c : Config) (sz : Size) (a : Long) : Prop := Aligned sz a ∧ ∀ b ∈ accessBytes sz a, kindAt c b = .ram

/-- Every byte of the access can be read and the access is aligned. -/
def Readable (c : Config) (sz : Size) (a : Long) : Prop :=
  Aligned sz a ∧ ∀ b ∈ accessBytes sz a, kindAt c b = .ram ∨ kindAt c b = .rom ∨ kindAt c b = .quietRom

/-- The first byte of an access that is not RAM lies at `b` and is of this kind (20_memory.md R63; log 35). -/
def FirstNotRam (c : Config) (sz : Size) (a : Long) (kind : MemKind) (b : Long) : Prop :=
  kind ≠ .ram ∧ kindAt c b = kind ∧
    ∃ pre post, accessBytes sz a = pre ++ b :: post ∧ ∀ x ∈ pre, kindAt c x = .ram

/-- The memory bytes of an access, as addresses of the reduced space. -/
def bytesAt (c : Config) (sz : Size) (a : Long) : List Nat := (accessBytes sz a).map (physAddr c)

/-- The memory bytes of a location. -/
def locBytes (c : Config) (sz : Size) : Loc → List Nat
  | .mem a => bytesAt c sz a
  | _ => []

/-- A data location an instruction can read, change and write: a data register, or aligned RAM. -/
def Writable (c : Config) (sz : Size) : Loc → Prop
  | .dreg _ => True
  | .areg _ => False
  | .mem a => Ram c sz a
  | .imm _ => False

/-- A location an instruction can read: any register, an immediate, or aligned readable memory. -/
def LocReadable (c : Config) (sz : Size) : Loc → Prop
  | .mem a => Readable c sz a
  | _ => True

/-- What a location holds at a size. -/
def locValue (sz : Size) (s : State) : Loc → Long
  | .dreg r => s.dregAt sz r
  | .areg r => trunc sz (s.areg r)
  | .mem a => s.load sz a
  | .imm v => trunc sz v

/-! ## Frames -/

/-- The stack pointer that is not active (10_state.md R23). -/
def otherSp (s : State) : Long := if s.sr.s then s.usp else s.ssp

/-- Nothing but the condition codes of SR, and nothing outside registers and memory, changes. -/
def SameControl (s t : State) : Prop :=
  t.sr.t = s.sr.t ∧ t.sr.s = s.sr.s ∧ t.sr.ipm = s.sr.ipm ∧ t.run = s.run ∧ t.stale = s.stale ∧ t.lastIpl = s.lastIpl ∧
    t.inputs = s.inputs ∧ t.events = s.events ∧ t.cfg = s.cfg

/-- Every byte of memory outside a list is as before. -/
def MemKept (bytes : List Nat) (s t : State) : Prop := ∀ n, n ∉ bytes → memRead t.mem n = memRead s.mem n

/-- The frame of an instruction: data registers outside `dd`, address registers outside `da` (number 7 is the active stack
pointer), the other stack pointer, and memory outside `bytes` are as before. -/
def Kept (dd da : Fin 8 → Bool) (bytes : List Nat) (s t : State) : Prop :=
  (∀ r, dd r = false → t.dreg r = s.dreg r) ∧ (∀ r, da r = false → t.areg r = s.areg r) ∧ otherSp t = otherSp s ∧
    MemKept bytes s t ∧ SameControl s t

/-- No register. -/
def noReg : Fin 8 → Bool := fun _ => false

/-- One register. -/
def oneReg (r : Fin 8) : Fin 8 → Bool := fun q => q == r

/-- The data register of a location. -/
def locReg : Loc → Fin 8 → Bool
  | .dreg r => oneReg r
  | _ => noReg

/-- The address register that an operand steps: post-increment and pre-decrement (40_addressing.md R129, R130). -/
def eaSteps : Ea → Fin 8 → Bool
  | .postInc r => oneReg r
  | .preDec r => oneReg r
  | _ => noReg

/-- The address registers that two operands step. -/
def bothSteps (e f : Ea) : Fin 8 → Bool := fun q => eaSteps e q || eaSteps f q

/-- The bits of a data register location above the operation size are as before. -/
def UpperLoc (sz : Size) (s t : State) : Loc → Prop
  | .dreg r => UpperKept sz (s.dreg r) (t.dreg r)
  | _ => True

/-- The address after an instruction: its opword's and its length (10_state.md R26). -/
def nextPc (i : Instr) (s : State) : Long := s.pc + BitVec.ofNat 32 (2 * (encode i).length)

/-- What an instruction that does not transfer control leaves besides its results: the program counter at the next instruction,
the address registers as the operands left them in `s1`, and the frame. -/
def Advanced (i : Instr) (dd da : Fin 8 → Bool) (bytes : List Nat) (s s1 t : State) : Prop :=
  t.pc = nextPc i s ∧ (∀ q, t.areg q = s1.areg q) ∧ Kept dd da bytes s t

/-- As `Advanced`, with the operand `l` of size `sz` written: a data register keeps its bits above the size, and memory outside
the operand's bytes is as before. -/
def Changed (i : Instr) (sz : Size) (l : Loc) (da : Fin 8 → Bool) (s s1 t : State) : Prop :=
  UpperLoc sz s t l ∧ Advanced i (locReg l) da (locBytes s.cfg sz l) s s1 t

/-! ## Operands -/

/-- The operands of ADDX, SUBX, ABCD, SBCD in their two forms (42_add_sub_cmp.md R174). -/
def pairOperand (m : PairMode) (r : Fin 8) : Ea :=
  match m with
  | .dataReg => .dn r
  | .memPreDec => .preDec r

/-- The displacement of a branch as a number (47_control.md R261). -/
def dispInt : BranchDisp → Int
  | .short d => d.toInt
  | .word d => d.toInt

/-- The address of the item `j` places after an address, for items of a size. -/
def itemAt (sz : Size) (a : Long) (j : Nat) : Long := a + BitVec.ofNat 32 (j * sz.bytes)

/-- The memory bytes of `n` consecutive items. -/
def itemBytes (c : Config) (sz : Size) (a : Long) (n : Nat) : List Nat :=
  (List.range n).flatMap fun j => bytesAt c sz (itemAt sz a j)

/-- The memory bytes of `n` bytes at every second address (41_move.md R161). -/
def laneBytes (c : Config) (a : Long) (n : Nat) : List Nat :=
  (List.range n).map fun j => physAddr c (a + BitVec.ofNat 32 (2 * j))

/-- The condition codes whose bits are given: X N Z V C in bits 4 to 0 (10_state.md R27). -/
def flagsOf (f : Nat → Bool) : Ccr := { x := f 4, n := f 3, z := f 2, v := f 1, c := f 0 }

/-- The status register whose bits are given (10_state.md R27). -/
def statusOf (f : Nat → Bool) : StatusReg :=
  { t := f 15, s := f 13, ipm := BitVec.ofBool (f 10) ++ BitVec.ofBool (f 9) ++ BitVec.ofBool (f 8), ccr := flagsOf f }

/-- The shift instruction of a kind, register form. -/
def shiftInstr (k : ShiftKind) (sz : Size) (c : ShiftCount) (dn : Fin 8) : Instr :=
  match k with
  | .asl => .asl sz c dn
  | .asr => .asr sz c dn
  | .lsl => .lsl sz c dn
  | .lsr => .lsr sz c dn
  | .rol => .rol sz c dn
  | .ror => .ror sz c dn
  | .roxl => .roxl sz c dn
  | .roxr => .roxr sz c dn

/-- The shift instruction of a kind, memory form. -/
def shiftMemInstr (k : ShiftKind) (ea : Ea) : Instr :=
  match k with
  | .asl => .aslMem ea
  | .asr => .asrMem ea
  | .lsl => .lslMem ea
  | .lsr => .lsrMem ea
  | .rol => .rolMem ea
  | .ror => .rorMem ea
  | .roxl => .roxlMem ea
  | .roxr => .roxrMem ea

/-! ## Flag rules (00_scope.md R11) -/

/-- `AddFlags` over numbers: result, C, V, N. -/
def AddRule (sz : Size) (src dst : Long) (x : Bool) (r : Long) (f : Ccr) : Prop :=
  natOf sz r = (natOf sz dst + natOf sz src + x.toNat) % 2 ^ sz.bits ∧
    f.c = decide (2 ^ sz.bits ≤ natOf sz dst + natOf sz src + x.toNat) ∧
    f.v = decide (intOf sz dst + intOf sz src + x.toNat < -2 ^ (sz.bits - 1) ∨
      2 ^ (sz.bits - 1) - 1 < intOf sz dst + intOf sz src + x.toNat) ∧
    f.n = decide (intOf sz r < 0)

/-- `SubFlags` over numbers, `dst - src - x`: result, C the borrow, V, N. -/
def SubRule (sz : Size) (src dst : Long) (x : Bool) (r : Long) (f : Ccr) : Prop :=
  (natOf sz r : Int) = ((natOf sz dst : Int) - natOf sz src - x.toNat) % 2 ^ sz.bits ∧
    f.c = decide (natOf sz dst < natOf sz src + x.toNat) ∧
    f.v = decide (intOf sz dst - intOf sz src - x.toNat < -2 ^ (sz.bits - 1) ∨
      2 ^ (sz.bits - 1) - 1 < intOf sz dst - intOf sz src - x.toNat) ∧
    f.n = decide (intOf sz r < 0)

/-- Z by the result. -/
def ZeroRule (sz : Size) (r : Long) (f : Ccr) : Prop := f.z = decide (natOf sz r = 0)

/-- Z only ever cleared (42_add_sub_cmp.md R174). -/
def StickyZero (sz : Size) (r : Long) (old f : Ccr) : Prop := f.z = (old.z && decide (natOf sz r = 0))

/-- `LogicFlags`: N and Z by the result, V and C clear, X as before. -/
def LogicRule (sz : Size) (r : Long) (old f : Ccr) : Prop :=
  f.n = decide (intOf sz r < 0) ∧ f.z = decide (natOf sz r = 0) ∧ f.v = false ∧ f.c = false ∧ f.x = old.x

/-- A bitwise operation below a size: every bit of the result from the bits of source and destination. -/
def BitwiseRule (f : Bool → Bool → Bool) (sz : Size) (src dst r : Long) : Prop :=
  ∀ k, k < sz.bits → r.getLsbD k = f (dst.getLsbD k) (src.getLsbD k)

/-- One bit of a value replaced. -/
def OneBitRule (f : Bool → Bool) (sz : Size) (idx : Nat) (old r : Long) : Prop :=
  ∀ k, k < sz.bits → r.getLsbD k = if k = idx then f (old.getLsbD k) else old.getLsbD k

/-! ## Shifts over numbers (46_shift_rotate.md R242 to R250) -/

/-- The operand, X, C and "the sign changed" while an operand is shifted. -/
structure ShiftNumbers where
  d : Nat
  x : Bool
  c : Bool
  v : Bool
deriving DecidableEq, Repr

/-- One step at `n` bits: what leaves, what enters, and which of X and C follow. -/
def shiftNumbersStep (k : ShiftKind) (n : Nat) (a : ShiftNumbers) : ShiftNumbers :=
  let top := decide (2 ^ (n - 1) ≤ a.d)
  let low := decide (a.d % 2 = 1)
  let left := fun (i : Bool) => 2 * a.d % 2 ^ n + i.toNat
  let right := fun (i : Bool) => a.d / 2 + i.toNat * 2 ^ (n - 1)
  match k with
  | .asl => { d := left false, x := top, c := top, v := a.v || (top != decide (2 ^ (n - 1) ≤ left false)) }
  | .lsl => { d := left false, x := top, c := top, v := false }
  | .rol => { d := left top, x := a.x, c := top, v := false }
  | .roxl => { d := left a.x, x := top, c := top, v := false }
  | .asr => { d := right top, x := low, c := low, v := false }
  | .lsr => { d := right false, x := low, c := low, v := false }
  | .ror => { d := right low, x := a.x, c := low, v := false }
  | .roxr => { d := right a.x, x := low, c := low, v := false }

/-- That many steps. -/
def shiftNumbers (k : ShiftKind) (n : Nat) : Nat → ShiftNumbers → ShiftNumbers
  | 0, a => a
  | j + 1, a => shiftNumbers k n j (shiftNumbersStep k n a)

/-- C before the first step: 0, but X for ROXL and ROXR where the parameter says so (46_shift_rotate.md R248, R250). -/
def zeroCountCarry (k : ShiftKind) (p : RoxZeroCountC) (x : Bool) : Bool :=
  (k == .roxl || k == .roxr) && p == .copyX && x

/-- Result and flags of a shift by a count (46_shift_rotate.md R250). -/
def ShiftRule (k : ShiftKind) (p : RoxZeroCountC) (sz : Size) (count : Nat) (dst : Long) (old : Ccr) (r : Long) (f : Ccr) :
    Prop :=
  let a := shiftNumbers k sz.bits count { d := natOf sz dst, x := old.x, c := zeroCountCarry k p old.x, v := false }
  natOf sz r = a.d ∧ f.x = a.x ∧ f.c = a.c ∧ f.v = a.v ∧ f.n = decide (intOf sz r < 0) ∧ f.z = decide (natOf sz r = 0)

/-- The number of places of a shift count (46_shift_rotate.md R241). -/
def countOf (s : State) : ShiftCount → Nat
  | .imm q => if q.val = 0 then 8 else q.val
  | .reg r => (s.dreg r).toNat % 64

/-! ## Decimal (43_bcd.md R200) -/

/-- Both digits are at most 9. -/
def decimal (b : Nat) : Prop := b / 16 ≤ 9 ∧ b % 16 ≤ 9

/-- The number two digits denote. -/
def decimalValue (b : Nat) : Nat := 10 * (b / 16) + b % 16

/-- What a decimal instruction leaves with valid digits: result, X, C and Z; N and V are free. -/
def DecimalRule (total : Int) (old : Ccr) (r : Nat) (f : Ccr) : Prop :=
  decimal r ∧ (decimalValue r : Int) = total % 100 ∧ f.c = decide (total < 0 ∨ 100 ≤ total) ∧ f.x = f.c ∧
    f.z = (old.z && decide (r = 0))

/-! ## Exceptions (60_exceptions.md R340) -/

/-- The supervisor stack can take a frame of six bytes and the vector can be read. -/
def EntryReady (v : BitVec 8) (s : State) : Prop :=
  Sound s ∧ Ram s.cfg .l (s.ssp - 4) ∧ Ram s.cfg .w (s.ssp - 6) ∧ Readable s.cfg .l (BitVec.ofNat 32 (4 * v.toNat))

/-- The bytes of the frame. -/
def frameBytes (s : State) : List Nat := bytesAt s.cfg .l (s.ssp - 4) ++ bytesAt s.cfg .w (s.ssp - 6)

/-- The vector of an acknowledged interrupt (60_exceptions.md R351). -/
def VectorFor (level : BitVec 3) (answer : IackAnswer) (v : BitVec 8) : Prop :=
  match answer with
  | .vector n => v = n
  | .autovector => v.toNat = 24 + level.toNat
  | .spurious => v = 24

/-- What taking an exception leaves (60_exceptions.md R340): S set and T clear, the mask as given, the flags kept; the frame, the
program counter from the vector; nothing else. -/
def Entered (v : BitVec 8) (stackedPc : Long) (mask : BitVec 3) (s t : State) : Prop :=
  t.sr = { t := false, s := true, ipm := mask, ccr := s.sr.ccr } ∧ t.ssp = s.ssp - 6 ∧ t.usp = s.usp ∧
    t.load .l (t.ssp + 2) = stackedPc ∧ t.load .w t.ssp = s.sr.toWord.setWidth 32 ∧
    t.pc = t.load .l (BitVec.ofNat 32 (4 * v.toNat)) ∧ t.d = s.d ∧ t.a = s.a ∧ MemKept (frameBytes s) s t ∧
    t.run = s.run ∧ t.stale = s.stale ∧ t.lastIpl = s.lastIpl ∧ t.inputs = s.inputs ∧ t.events = s.events ∧ t.cfg = s.cfg

/-! ## The invariant -/

/-- Memory is canonical and within the address space; so is what the prefetch queue may hold; a processor that the parameter
does not let stop in user mode is stopped in supervisor mode only (48_muldiv_chk_system.md R299). -/
def Inv (s : State) : Prop :=
  Memory.wf s.mem = true ∧ (∀ e ∈ s.mem, e.1 < 2 ^ s.cfg.addrBits) ∧ (∀ e ∈ s.stale, e.addr < 2 ^ s.cfg.addrBits) ∧
    (s.run = .stopped → s.cfg.stopClearsS = .privilegeViolation → s.sr.s = true)

end Sys2Proof.Safety
end

