-- ==== Sys2Proof/Certificates/Slice0/Obligations.lean ====
section
/-! DEFINITION. The statements for the provers. A premise on an instruction's operands says where they lie (`resolve`), that they
can be read (`LocReadable`) or written (`Writable`), and that the state's memory is canonical (`Sound`). -/

open Sys2Proof Sys2Proof.Machine Sys2Proof.Safety

/-! ## Encoding -/

/-- Words written out from the spec's encodings decode to the instructions they stand for (30_encoding.md R93; the words are those
of the examples in 41_move.md to 49_unary_misc.md). -/
def Obligations.DecodeSpecWords : Prop :=
  decode [0x76FF] = .instr (.moveq 3 0xFF) [] ∧ decode [0x57C0] = .instr (.scc .eq (.dn 0)) [] ∧
    decode [0x4E56, 0xFFF8] = .instr (.link 6 0xFFF8) [] ∧ decode [0x51C8, 0xFFFC] = .instr (.dbcc .f 0 0xFFFC) [] ∧
    decode [0x6106] = .instr (.bsr (.short 6)) [] ∧ decode [0x4EB8, 0x4000] = .instr (.jsr (.absW 0x4000)) [] ∧
    decode [0x4E72, 0x2700] = .instr (.stop 0x2700) [] ∧ decode [0xC188] = .instr (.exgDA 0 0) [] ∧
    decode [0x48E7, 0xC080] = .instr (.movemToMem .l 0xC080 (.preDec 7)) [] ∧
    decode [0x4EFA, 0x0002] = .instr (.jmp (.pcDisp 2)) []

/-- Decoding the words of a well-formed instruction gives it back, with every operand, and leaves the words after it
(30_encoding.md R84, R93, R94). -/
def Obligations.DecodeEncode : Prop :=
  ∀ (i : Instr) (rest : List Word), i.wellFormed = true → decode (encode i ++ rest) = .instr i rest

/-- What the decoder answers is an instruction the opcode map has, of one to five words, whose opword is the one read
(30_encoding.md R83, R93, R94). -/
def Obligations.DecodedWellFormed : Prop :=
  ∀ (w : Word) (ws rest : List Word) (i : Instr), decode (w :: ws) = .instr i rest →
    i.wellFormed = true ∧ (encode i).length ≤ 5 ∧ (encode i).head? = some w ∧
      ∃ own, w :: ws = own ++ rest ∧ own.length = (encode i).length

/-! ## The step -/

/-- A running machine without a reset input, whose prefetch queue holds nothing older than memory, runs the instruction that the
words at its program counter decode to; `afterInstr` is what follows exec at the boundary (60_exceptions.md R349). -/
def Obligations.StepRunsDecoded : Prop :=
  ∀ (i : Instr) (ws : List Word) (s : State), s.run = .running → resetNext s.inputs = false → s.stale = [] →
    ws.length ≤ 5 → decode ws = .instr i [] →
    (∀ (j : Nat) (w : Word), ws[j]? = some w →
      Readable s.cfg .w (itemAt .w s.pc j) ∧ s.load .w (itemAt .w s.pc j) = w.setWidth 32) →
    step s = afterInstr i (BitVec.ofNat 32 (2 * ws.length)) s (exec i s)

/-- At an instruction boundary with no trace due and no interrupt accepted, nothing changes but that the input is taken and its
level noted; a fault or a refusal of the instruction is the step's, and a fault leaves the processor faulted
(60_exceptions.md R349, R350, 10_state.md R34; one input a step is the model's choice, logs 11, 14, 34). -/
def Obligations.QuietBoundaryKeepsState : Prop :=
  ∀ (i : Instr) (len : Long) (s u : State), (s.sr.t = false ∨ executes i s = false) →
    ¬ (u.sr.ipm.toNat < (presented u.inputs).1.toNat) → ¬ ((presented u.inputs).1 = 7 ∧ u.lastIpl ≠ 7) →
    (∃ t, afterInstr i len s (.next u) = .next t ∧
      t = { u with inputs := u.inputs.tail, lastIpl := (presented u.inputs).1, stale := t.stale }) ∧
    (∀ f, afterInstr i len s (.fault f) =
      .fault (f.withLeft { f.left with run := .faulted, inputs := s.inputs.tail })) ∧
    ∀ r, afterInstr i len s (.refused r) = .refused r

/-- The prefetch queue: an instruction word fetched is what memory holds, or an older word the queue may still hold for that
address. After an instruction the queue may hold, of the words that the boundary's exceptions did not change, what it held before
and the instruction did not change outside the two words after it, and the old value of each of those two words that it changed;
nothing else (20_memory.md R69; that all these words are admitted is the model's choice, log 17). -/
def Obligations.PrefetchOldOrNewWord : Prop :=
  (∀ (s : State) (a : Long) (w : Word), fetchWord s a = .ok w →
    w = s.wordAt a ∨ ∃ e ∈ s.stale, e.addr = physAddr s.cfg a ∧ e.word = w) ∧
  ∀ (i : Instr) (len : Long) (s u t : State), afterInstr i len s (.next u) = .next t → ∀ e : HeldWord,
    e ∈ t.stale ↔
      memWord t.mem e.addr = memWord u.mem e.addr ∧
        ((e ∈ u.stale ∧ (memWord u.mem e.addr = memWord s.mem e.addr ∨ e.addr ∈ prefetchWindow s (s.pc + len))) ∨
          (e.addr ∈ prefetchWindow s (s.pc + len) ∧ e.word = memWord s.mem e.addr ∧ e.word ≠ memWord u.mem e.addr))

/-- An opword that selects no row takes the illegal-instruction exception, vector 4, stacking its own address, with no other
effect and no trace; its step is in everything that of the instruction ILLEGAL (60_exceptions.md R336, 30_encoding.md R95,
48_muldiv_chk_system.md R295). -/
def Obligations.IllegalOpwordTakesVector4 : Prop :=
  ∀ (s : State), s.run = .running → s.stale = [] → Readable s.cfg .w s.pc →
    decodeOpword ((s.load .w s.pc).setWidth 16) = none →
    (resetNext s.inputs = false → step s = afterInstr .illegal 2 s (exec .illegal s)) ∧
    (s.inputs = [] → EntryReady vecIllegal s →
      ∃ t e, Entered 4 s.pc s.sr.ipm s e ∧ step s = .next t ∧ t = { e with lastIpl := 0, stale := t.stale })

/-- A step at an odd program counter or at an unmapped one, a read at an odd address and an exception entry on an odd stack
stop as model faults with memory as it was; shown for the fetch, TST, RTS and TRAP (20_memory.md R55, R56, R63, 60_exceptions.md
R354; where on the chip an exception is taken, log 15; what state the fault leaves, log 14). -/
def Obligations.MisalignedStops : Prop :=
  (∀ (s : State), s.run = .running → resetNext s.inputs = false →
    (s.pc.toNat % 2 = 1 →
      step s = .fault (.addressError s.pc { s with run := .faulted, inputs := s.inputs.tail })) ∧
    (s.pc.toNat % 2 = 0 → kindAt s.cfg s.pc = .unmapped →
      step s = .fault (.busError s.pc { s with run := .faulted, inputs := s.inputs.tail }))) ∧
  ((∀ (sz : Size) (ea : Ea) (s s1 : State) (a : Long), sz ≠ .b → resolve ea sz (extAt s 0) s = (.mem a, s1) →
    a.toNat % 2 = 1 → exec (.tst sz ea) s = .fault (.addressError a s1)) ∧
  (∀ (s : State), s.sp.toNat % 2 = 1 → exec .rts s = .fault (.addressError s.sp s)) ∧
  ∀ (n : Fin 16) (s : State), s.ssp.toNat % 2 = 1 →
    ∃ u, exec (.trap n) s = .fault (.addressError (s.ssp - 4) u) ∧ u.mem = s.mem ∧ u.d = s.d ∧ u.a = s.a ∧ u.usp = s.usp)

/-! ## The invariant -/

/-- Every step keeps the invariant, and no step changes the parameters (20_memory.md R50, 48_muldiv_chk_system.md R299; the
canonical form of memory is the model's). -/
def Obligations.StepKeepsInvariant : Prop := ∀ (s t : State), Inv s → step s = .next t → Inv t ∧ t.cfg = s.cfg

/-- The invariant holds right after reset. -/
def Obligations.ResetInvariant : Prop := Inv State.reset

/-- What reset leaves: S set, T clear, mask 7, running, SSP and PC from the longs at addresses 0 and 4, memory with nothing listed
(10_state.md R37; that memory lists nothing, so that both longs are 0, is the model's choice, log 5). -/
def Obligations.ResetValues : Prop :=
  State.reset.sr.s = true ∧ State.reset.sr.t = false ∧ State.reset.sr.ipm = 7 ∧ State.reset.run = .running ∧
    State.reset.ssp = State.reset.load .l 0 ∧ State.reset.pc = State.reset.load .l 4 ∧ State.reset.mem = []

/-- External reset, from any run state: S set, T clear, mask 7, running, SSP and PC from memory, memory and parameters kept; an odd
SSP or PC is a model fault. A model fault leaves the processor faulted, and a faulted one does nothing but take its inputs until
external reset (70_reset_and_hazards.md R380, 60_exceptions.md R333, 10_state.md R34; reset as the input of one step is the
model's choice, log 13, and so is the state a fault carries, log 14). -/
def Obligations.ExternalResetSequence : Prop :=
  (∀ (s : State) (ins : List PlatformInput), s.inputs = .reset :: ins → Readable s.cfg .l 0 → Readable s.cfg .l 4 →
    ((s.load .l 0).toNat % 2 = 0 → (s.load .l 4).toNat % 2 = 0 →
      ∃ t, step s = .next t ∧ t.sr.s = true ∧ t.sr.t = false ∧ t.sr.ipm = 7 ∧ t.run = .running ∧ t.ssp = s.load .l 0 ∧
        t.pc = s.load .l 4 ∧ t.mem = s.mem ∧ t.cfg = s.cfg ∧ t.events = s.events ∧ t.inputs = ins) ∧
    ((s.load .l 0).toNat % 2 = 1 → ∃ u, step s = .fault (.addressError (s.load .l 0) u) ∧ u.mem = s.mem) ∧
    ((s.load .l 0).toNat % 2 = 0 → (s.load .l 4).toNat % 2 = 1 →
      ∃ u, step s = .fault (.addressError (s.load .l 4) u) ∧ u.mem = s.mem)) ∧
  ((∀ (s : State) (f : Fault), step s = .fault f →
    f.left.run = .faulted ∧ f.left.inputs = s.inputs.tail) ∧
  ∀ (s : State), s.run = .faulted → resetNext s.inputs = false → step s = .next { s with inputs := s.inputs.tail })

/-! ## Exceptions, trace, interrupts, privilege -/

/-- Exception processing: the six-byte frame on the supervisor stack, S set, T clear, the mask raised for an interrupt only, the
program counter from the vector (60_exceptions.md R340). -/
def Obligations.ExceptionProcessing : Prop :=
  ∀ (v : BitVec 8) (pc : Long) (level : Option (BitVec 3)) (s : State), EntryReady v s →
    ∃ t, exceptionEntry v pc level s = .ok t ∧ Entered v pc (level.getD s.sr.ipm) s t

/-- A plain RTE at the handler's first instruction restores SR, the program counter, both stack pointers and every register
(60_exceptions.md R353, 47_control.md R269). -/
def Obligations.EntryThenRte : Prop :=
  ∀ (v : BitVec 8) (pc : Long) (level : Option (BitVec 3)) (s t : State), EntryReady v s →
    exceptionEntry v pc level s = .ok t →
    ∃ u, exec .rte t = .next u ∧ u.sr = s.sr ∧ u.pc = pc ∧ u.ssp = s.ssp ∧ u.usp = s.usp ∧ u.d = s.d ∧ u.a = s.a ∧
      MemKept (frameBytes s) s u

/-- An executed instruction that began with T set is followed by the trace exception, which stacks the address where
execution would continue; one that was not executed is followed by none; an interrupt accepted at the same boundary comes after
the trace exception and stacks the address of its handler (60_exceptions.md R342, R349, R352). -/
def Obligations.TraceFollowsTracedInstruction : Prop :=
  (∀ (i : Instr) (len : Long) (s u : State), s.sr.t = true → u.inputs = [] →
    (executes i s = true → EntryReady vecTrace u →
      ∃ t e, Entered 9 u.pc u.sr.ipm u e ∧ afterInstr i len s (.next u) = .next t ∧
        t = { e with lastIpl := 0, stale := t.stale }) ∧
    (executes i s = false →
      ∃ t, afterInstr i len s (.next u) = .next t ∧ t = { u with lastIpl := 0, stale := t.stale })) ∧
  (∀ (i : Instr) (len : Long) (s u e : State) (level : BitVec 3) (answer : IackAnswer) (v : BitVec 8)
    (ins : List PlatformInput), s.sr.t = true → executes i s = true → u.inputs = .irq level answer :: ins →
    VectorFor level answer v → (u.sr.ipm.toNat < level.toNat ∨ (level = 7 ∧ u.lastIpl ≠ 7)) →
    exceptionEntry vecTrace u.pc none u = .ok e → EntryReady v e →
    ∃ t f, Entered v e.pc level { e with run := .running, inputs := ins, lastIpl := level } f ∧
      afterInstr i len s (.next u) = .next t ∧ t = { f with stale := t.stale })

/-- Which instructions are privileged and which count as not executed (ILLEGAL, the two lines, a privilege violation); a
privileged instruction in user mode has no effect but the privilege violation: vector 8, its own address stacked
(60_exceptions.md R341, R352, R361). -/
def Obligations.PrivilegedInstructionsTrapInUserMode : Prop :=
  (∀ (i : Instr) (s : State),
    (isPrivileged i = true ↔
      (∃ e, i = .moveToSr e) ∨ (∃ r, i = .moveToUsp r) ∨ (∃ r, i = .moveFromUsp r) ∨ (∃ w, i = .andiToSr w) ∨
        (∃ w, i = .eoriToSr w) ∨ (∃ w, i = .oriToSr w) ∨ i = .rte ∨ i = .reset ∨ ∃ w, i = .stop w) ∧
    (executes i s = false ↔
      i = .illegal ∨ (∃ w, i = .lineA w) ∨ (∃ w, i = .lineF w) ∨ (isPrivileged i = true ∧ s.sr.s = false) ∨
        ∃ w, i = .stop w ∧ w.getLsbD 13 = false ∧ s.cfg.stopClearsS = .privilegeViolation)) ∧
  (∀ (i : Instr) (s : State), isPrivileged i = true → s.sr.s = false → EntryReady vecPrivilege s →
    ∃ t, exec i s = .next t ∧ Entered 8 s.pc s.sr.ipm s t)

/-- An interrupt above the mask, or a new one of level 7, is accepted at the boundary: the frame with the next address, the mask
at the level, the vector of the acknowledge (60_exceptions.md R350, R351, R347; what makes a level-7 request new is log 12). -/
def Obligations.InterruptAcceptedAtBoundary : Prop :=
  ∀ (i : Instr) (len : Long) (s u : State) (level : BitVec 3) (answer : IackAnswer) (v : BitVec 8)
    (ins : List PlatformInput), (s.sr.t = false ∨ executes i s = false) → u.inputs = .irq level answer :: ins →
    VectorFor level answer v → (u.sr.ipm.toNat < level.toNat ∨ (level = 7 ∧ u.lastIpl ≠ 7)) → EntryReady v u →
    ∃ t e, Entered v u.pc level { u with run := .running, inputs := ins, lastIpl := level } e ∧
      afterInstr i len s (.next u) = .next t ∧ t = { e with stale := t.stale }

/-- While stopped, whatever the prefetch queue holds: an input that is not accepted, or none at all, changes nothing but what was
seen of it; an accepted interrupt wakes the processor and stacks the program counter STOP left. Accepted is a level above the mask
or a level 7 that was not there at the last look, so a level 7 held at mask 7 wakes once (60_exceptions.md R355, R350,
48_muldiv_chk_system.md R299; R299's "is 7" is read by R350 and log 12, and one input a step is log 11). -/
def Obligations.StoppedUntilInterrupt : Prop :=
  ∀ (s : State) (v : BitVec 8), s.run = .stopped → resetNext s.inputs = false →
    let level := (presented s.inputs).1
    let seen := { s with inputs := s.inputs.tail, lastIpl := level }
    (¬ (s.sr.ipm.toNat < level.toNat) → ¬ (level = 7 ∧ s.lastIpl ≠ 7) → step s = .next seen) ∧
    ((s.sr.ipm.toNat < level.toNat ∨ (level = 7 ∧ s.lastIpl ≠ 7)) → VectorFor level (presented s.inputs).2 v →
      EntryReady v s →
      ∃ t e, Entered v s.pc level { seen with run := .running } e ∧ step s = .next t ∧ t = { e with stale := t.stale })

/-- An instruction that begins and ends in user mode changes neither the system byte nor SSP nor the run state, and puts out no
event (60_exceptions.md R363). -/
def Obligations.UserModeKeepsSystem : Prop :=
  ∀ (i : Instr) (s t : State), s.sr.s = false → exec i s = .next t → t.sr.s = false →
    t.sr.t = s.sr.t ∧ t.sr.ipm = s.sr.ipm ∧ t.ssp = s.ssp ∧ t.run = s.run ∧ t.events = s.events ∧ t.inputs = s.inputs

/-- The only way from user mode into supervisor mode inside an instruction is an exception: a frame was pushed on the
supervisor stack and the program counter is one of the vectors an instruction can raise. Supervisor mode is left only by RTE, MOVE
to SR, ANDI to SR, EORI to SR, and STOP where the parameter says so (60_exceptions.md R362, R364). -/
def Obligations.SupervisorModeEnteredAndLeft : Prop :=
  (∀ (i : Instr) (s t : State), s.sr.s = false → exec i s = .next t → t.sr.s = true →
    t.ssp = s.ssp - 6 ∧ t.sr.t = false ∧ t.sr.ipm = s.sr.ipm ∧
      ∃ v : Nat, (4 ≤ v ∧ v ≤ 8 ∨ v = 10 ∨ v = 11 ∨ 32 ≤ v ∧ v ≤ 47) ∧ t.pc = t.load .l (BitVec.ofNat 32 (4 * v))) ∧
  (∀ (i : Instr) (s t : State), s.sr.s = true → exec i s = .next t → t.sr.s = false →
    i = .rte ∨ (∃ e, i = .moveToSr e) ∨ (∃ w, i = .andiToSr w) ∨ (∃ w, i = .eoriToSr w) ∨
      ∃ w, i = .stop w ∧ s.cfg.stopClearsS = .stopInUserMode)

/-! ## Memory, operands, flags -/

/-- Reads and writes are big-endian, byte by byte, and a read after a write of the same place gives the value; every other byte is
as before (20_memory.md R52, R53). That memory stays a canonical list (`Memory.wf`) is no rule's: it is the form the model chose
(log 5). -/
def Obligations.BigEndianAccess : Prop :=
  (∀ (s : State) (sz : Size) (a : Long), Readable s.cfg sz a →
    ∃ v, readMem s sz a = .ok v ∧
      v.toNat = match sz with
        | .b => (s.byteAt a).toNat
        | .w => (s.byteAt a).toNat * 2 ^ 8 + (s.byteAt (a + 1)).toNat
        | .l => (s.byteAt a).toNat * 2 ^ 24 + (s.byteAt (a + 1)).toNat * 2 ^ 16 + (s.byteAt (a + 2)).toNat * 2 ^ 8 +
            (s.byteAt (a + 3)).toNat) ∧
  ∀ (s : State) (sz : Size) (a v : Long), Sound s → Ram s.cfg sz a →
    ∃ t, writeMem s sz a v = .ok t ∧ Memory.wf t.mem = true ∧ MemKept (bytesAt s.cfg sz a) s t ∧
      t = { s with mem := t.mem } ∧ natOf sz (t.load sz a) = natOf sz v ∧
      (sz = .w → (t.byteAt a).toNat = v.toNat / 2 ^ 8 % 2 ^ 8 ∧ (t.byteAt (a + 1)).toNat = v.toNat % 2 ^ 8) ∧
      (sz = .l → (t.byteAt a).toNat = v.toNat / 2 ^ 24 ∧ (t.byteAt (a + 1)).toNat = v.toNat / 2 ^ 16 % 2 ^ 8 ∧
        (t.byteAt (a + 2)).toNat = v.toNat / 2 ^ 8 % 2 ^ 8 ∧ (t.byteAt (a + 3)).toNat = v.toNat % 2 ^ 8 ∧
        (t.load .w (a + 2)).toNat = v.toNat % 2 ^ 16)

/-- A word or long access at an odd address is an address error and does nothing, wherever it lies; a byte access at any address
is none. Where the first byte of an aligned access that is not RAM is unmapped or, for a write, ROM that rejects it, that byte
names the bus error; where it is a device's, the refusal. A ROM may also ignore a write (20_memory.md R55, R63; both are model faults, log 15; a device is
log 16; that alignment comes before the map and which byte names the stop is log 35; the state a fault carries, log 14). -/
def Obligations.MisalignedAndUnmappedAccessesFault : Prop :=
  (∀ (s : State) (sz : Size) (a v : Long), sz ≠ .b → a.toNat % 2 = 1 →
    readMem s sz a = .error (.fault (.addressError a s)) ∧ writeMem s sz a v = .error (.fault (.addressError a s))) ∧
  (∀ (s u : State) (a b v : Long),
    readMem s .b a ≠ .error (.fault (.addressError b u)) ∧ writeMem s .b a v ≠ .error (.fault (.addressError b u))) ∧
  (∀ (s : State) (sz : Size) (a b v : Long), Aligned sz a → FirstNotRam s.cfg sz a .unmapped b →
    readMem s sz a = .error (.fault (.busError b s)) ∧ writeMem s sz a v = .error (.fault (.busError b s))) ∧
  (∀ (s : State) (sz : Size) (a b v : Long), Aligned sz a → FirstNotRam s.cfg sz a .rom b →
    writeMem s sz a v = .error (.fault (.busError b s))) ∧
  (∀ (s : State) (sz : Size) (a b v : Long), Aligned sz a → FirstNotRam s.cfg sz a .device b →
    readMem s sz a = .error (.refused (.deviceAccess b)) ∧ writeMem s sz a v = .error (.refused (.deviceAccess b))) ∧
  ∀ (s : State) (a v : Long), kindAt s.cfg a = .quietRom → writeMem s .b a v = .ok s

/-- Where each of the twelve addressing modes finds its operand and what it steps (40_addressing.md R126 to R138). -/
def Obligations.AddressingModeLocations : Prop :=
  ∀ (sz : Size) (ext : Long) (s : State) (r : Fin 8) (d : Word) (x : IndexExt) (w : Word) (a v : Long),
    let index : Long := if x.long then s.rreg x.reg else BitVec.ofInt 32 (intOf .w (s.rreg x.reg))
    let step : Long := if sz = .b ∧ r = 7 then 2 else BitVec.ofNat 32 sz.bytes
    resolve (.dn r) sz ext s = (.dreg r, s) ∧ resolve (.an r) sz ext s = (.areg r, s) ∧
      resolve (.ind r) sz ext s = (.mem (s.areg r), s) ∧
      resolve (.postInc r) sz ext s = (.mem (s.areg r), s.setAreg r (s.areg r + step)) ∧
      resolve (.preDec r) sz ext s = (.mem (s.areg r - step), s.setAreg r (s.areg r - step)) ∧
      resolve (.disp r d) sz ext s = (.mem (s.areg r + BitVec.ofInt 32 d.toInt), s) ∧
      resolve (.index r x) sz ext s = (.mem (s.areg r + BitVec.ofInt 32 x.disp.toInt + index), s) ∧
      resolve (.absW w) sz ext s = (.mem (BitVec.ofInt 32 w.toInt), s) ∧ resolve (.absL a) sz ext s = (.mem a, s) ∧
      resolve (.pcDisp d) sz ext s = (.mem (ext + BitVec.ofInt 32 d.toInt), s) ∧
      resolve (.pcIndex x) sz ext s = (.mem (ext + BitVec.ofInt 32 x.disp.toInt + index), s) ∧
      resolve (.imm v) sz ext s = (.imm v, s)

/-- Address register 7 is the stack pointer the S bit selects, and a write to it leaves the other pointer alone; the numbers 0 to
15 of the combined file name the data and then the address registers (10_state.md R23, R24). -/
def Obligations.RegisterFileAndStackPointers : Prop :=
  ∀ (s : State) (v : Long) (r q : Fin 8),
    s.areg 7 = (if s.sr.s then s.ssp else s.usp) ∧
      (s.setAreg 7 v).usp = (if s.sr.s then s.usp else v) ∧ (s.setAreg 7 v).ssp = (if s.sr.s then v else s.ssp) ∧
      (s.setAreg r v).areg q = (if q = r then v else s.areg q) ∧ (s.setDreg r v).dreg q = (if q = r then v else s.dreg q) ∧
      (∀ k : Fin 16, k.val = r.val → s.rreg k = s.dreg r) ∧ ∀ k : Fin 16, k.val = 8 + r.val → s.rreg k = s.areg r

/-- The status register's word: T, S, the mask and X N Z V C in their places (10_state.md R27), the other bits read 0 and a write to
them is ignored; loading a word keeps `value & 0xA71F` (R32). That the register is held as a record of its implemented bits, of
which the word is a view, is log 27. -/
def Obligations.StatusWordLayout : Prop :=
  (∀ r : StatusReg, StatusReg.ofWord r.toWord = r ∧ r = statusOf (fun k => r.toWord.getLsbD k) ∧
    ∀ k ∈ [14, 12, 11, 7, 6, 5], r.toWord.getLsbD k = false) ∧
  (∀ w : Word, (StatusReg.ofWord w).toWord = w &&& 0xA71F ∧ StatusReg.ofWord w = StatusReg.ofWord (w &&& 0xA71F)) ∧
  ∀ b : Byte, (Ccr.ofByte b).toByte = b &&& 0x1F

/-- The sixteen conditions by their encodings; odd encodings are the negations of the even ones below them, and X takes no part
(47_control.md R276). -/
def Obligations.ConditionTable : Prop :=
  ∀ (f : Ccr),
    condHolds f (Cond.ofField 0) = true ∧ condHolds f (Cond.ofField 1) = false ∧
      condHolds f (Cond.ofField 2) = decide (f.c = false ∧ f.z = false) ∧
      condHolds f (Cond.ofField 3) = decide (f.c = true ∨ f.z = true) ∧
      condHolds f (Cond.ofField 4) = decide (f.c = false) ∧ condHolds f (Cond.ofField 5) = decide (f.c = true) ∧
      condHolds f (Cond.ofField 6) = decide (f.z = false) ∧ condHolds f (Cond.ofField 7) = decide (f.z = true) ∧
      condHolds f (Cond.ofField 8) = decide (f.v = false) ∧ condHolds f (Cond.ofField 9) = decide (f.v = true) ∧
      condHolds f (Cond.ofField 10) = decide (f.n = false) ∧ condHolds f (Cond.ofField 11) = decide (f.n = true) ∧
      condHolds f (Cond.ofField 12) = decide (f.n = f.v) ∧ condHolds f (Cond.ofField 13) = decide (f.n ≠ f.v) ∧
      condHolds f (Cond.ofField 14) = decide (f.n = f.v ∧ f.z = false) ∧
      condHolds f (Cond.ofField 15) = decide (f.n ≠ f.v ∨ f.z = true) ∧
      (∀ k, k < 8 → condHolds f (Cond.ofField (2 * k + 1)) = !condHolds f (Cond.ofField (2 * k))) ∧
      ∀ (x : Bool) (co : Cond), condHolds { f with x := x } co = condHolds f co

/-! ## Data movement -/

/-- MOVE: the source resolved and read first, then the destination resolved and written; flags by the value moved
(41_move.md R150). -/
def Obligations.MoveCopiesAndSetsFlags : Prop :=
  ∀ (sz : Size) (src dst : Ea) (s s1 s2 : State) (ls ld : Loc), Instr.wellFormed (.move sz src dst) = true → Sound s →
    resolve src sz (extAt s 0) s = (ls, s1) → LocReadable s.cfg sz ls →
    resolve dst sz (extAt s (src.words sz)) s1 = (ld, s2) → Writable s.cfg sz ld →
    ∃ t, exec (.move sz src dst) s = .next t ∧ natOf sz (locValue sz t ld) = natOf sz (locValue sz s1 ls) ∧
      LogicRule sz (locValue sz s1 ls) s.sr.ccr t.sr.ccr ∧ Changed (.move sz src dst) sz ld (bothSteps src dst) s s2 t

/-- MOVEA, ADDA, SUBA: a word source is sign-extended, the register as the source left it is the operand, all 32 bits are written,
and no flag changes (41_move.md R151, 42_add_sub_cmp.md R171, R176, 40_addressing.md R141). -/
def Obligations.AddressRegisterArithmetic : Prop :=
  ∀ (sz : Size) (ea : Ea) (an : Fin 8) (s s1 : State) (l : Loc), Instr.wellFormed (.movea sz ea an) = true →
    resolve ea sz (extAt s 0) s = (l, s1) → LocReadable s.cfg sz l →
    let v : Long := BitVec.ofInt 32 (intOf sz (locValue sz s1 l))
    let rest := fun (i : Instr) (t : State) =>
      t.pc = nextPc i s ∧ t.sr = s.sr ∧ (∀ q, q ≠ an → t.areg q = s1.areg q) ∧
        Kept noReg (fun q => eaSteps ea q || oneReg an q) [] s t
    (∃ t, exec (.movea sz ea an) s = .next t ∧ t.areg an = v ∧ rest (.movea sz ea an) t) ∧
      (∃ t, exec (.adda sz ea an) s = .next t ∧ t.areg an = s1.areg an + v ∧ rest (.adda sz ea an) t) ∧
      ∃ t, exec (.suba sz ea an) s = .next t ∧ t.areg an = s1.areg an - v ∧ rest (.suba sz ea an) t

/-- MOVEQ, EXT, SWAP: the value and the flags of a logic result; EXG exchanges all 32 bits of two registers and
changes no flag (41_move.md R152, 49_unary_misc.md R315, R316, R317). -/
def Obligations.RegisterMoveResults : Prop :=
  (∀ (dn : Fin 8) (imm : Byte) (s : State),
    (∃ t, exec (.moveq dn imm) s = .next t ∧ (t.dreg dn).toInt = imm.toInt ∧
      LogicRule .l (t.dreg dn) s.sr.ccr t.sr.ccr ∧ Advanced (.moveq dn imm) (oneReg dn) noReg [] s s t) ∧
    (∃ t, exec (.ext .w dn) s = .next t ∧ intOf .w (t.dreg dn) = intOf .b (s.dreg dn) ∧
      UpperKept .w (s.dreg dn) (t.dreg dn) ∧ LogicRule .w (t.dreg dn) s.sr.ccr t.sr.ccr ∧
      Advanced (.ext .w dn) (oneReg dn) noReg [] s s t) ∧
    (∃ t, exec (.ext .l dn) s = .next t ∧ intOf .l (t.dreg dn) = intOf .w (s.dreg dn) ∧
      LogicRule .l (t.dreg dn) s.sr.ccr t.sr.ccr ∧ Advanced (.ext .l dn) (oneReg dn) noReg [] s s t) ∧
    ∃ t, exec (.swap dn) s = .next t ∧
      (t.dreg dn).toNat = (s.dreg dn).toNat % 2 ^ 16 * 2 ^ 16 + (s.dreg dn).toNat / 2 ^ 16 ∧
      LogicRule .l (t.dreg dn) s.sr.ccr t.sr.ccr ∧ Advanced (.swap dn) (oneReg dn) noReg [] s s t) ∧
  (∀ (rx ry : Fin 8) (s : State),
    (∃ t, exec (.exgDD rx ry) s = .next t ∧ t.dreg rx = s.dreg ry ∧ t.dreg ry = s.dreg rx ∧ t.sr = s.sr ∧
      Advanced (.exgDD rx ry) (fun q => oneReg rx q || oneReg ry q) noReg [] s s t) ∧
    (∃ t, exec (.exgAA rx ry) s = .next t ∧ t.areg rx = s.areg ry ∧ t.areg ry = s.areg rx ∧ t.sr = s.sr ∧
      t.pc = nextPc (.exgAA rx ry) s ∧ Kept noReg (fun q => oneReg rx q || oneReg ry q) [] s t) ∧
    ∃ t, exec (.exgDA rx ry) s = .next t ∧ t.dreg rx = s.areg ry ∧ t.areg ry = s.dreg rx ∧ t.sr = s.sr ∧
      t.pc = nextPc (.exgDA rx ry) s ∧ Kept (oneReg rx) (oneReg ry) [] s t)

/-- MOVE to CCR and ANDI, EORI, ORI to CCR: the five flags from bits 4 to 0, the system byte kept (41_move.md R153, 44_logic.md
R212, R216, R220). -/
def Obligations.CcrLoadedFromOperand : Prop :=
  (∀ (ea : Ea) (s s1 : State) (l : Loc), Instr.wellFormed (.moveToCcr ea) = true →
    resolve ea .w (extAt s 0) s = (l, s1) → LocReadable s.cfg .w l →
    ∃ t, exec (.moveToCcr ea) s = .next t ∧ t.sr.ccr = flagsOf (fun k => (locValue .w s1 l).getLsbD k) ∧
      Advanced (.moveToCcr ea) noReg (eaSteps ea) [] s s1 t) ∧
  ∀ (m : Byte) (s : State),
    (∃ t, exec (.andiToCcr m) s = .next t ∧ t.sr.ccr = flagsOf (fun k => s.sr.toWord.getLsbD k && m.getLsbD k) ∧
      Advanced (.andiToCcr m) noReg noReg [] s s t) ∧
    (∃ t, exec (.eoriToCcr m) s = .next t ∧ t.sr.ccr = flagsOf (fun k => s.sr.toWord.getLsbD k ^^ m.getLsbD k) ∧
      Advanced (.eoriToCcr m) noReg noReg [] s s t) ∧
    ∃ t, exec (.oriToCcr m) s = .next t ∧ t.sr.ccr = flagsOf (fun k => s.sr.toWord.getLsbD k || m.getLsbD k) ∧
      Advanced (.oriToCcr m) noReg noReg [] s s t

/-- MOVE to SR and ANDI, EORI, ORI to SR in supervisor mode: every implemented bit of SR from the value, nothing else changes
(41_move.md R155, 44_logic.md R213, R217, R221). -/
def Obligations.SrLoadedInSupervisorMode : Prop :=
  (∀ (ea : Ea) (s s1 : State) (l : Loc), Instr.wellFormed (.moveToSr ea) = true → s.sr.s = true →
    resolve ea .w (extAt s 0) s = (l, s1) → LocReadable s.cfg .w l →
    exec (.moveToSr ea) s =
      .next { s1 with sr := statusOf (fun k => (locValue .w s1 l).getLsbD k), pc := nextPc (.moveToSr ea) s }) ∧
  ∀ (m : Word) (s : State), s.sr.s = true →
    exec (.andiToSr m) s =
        .next { s with sr := statusOf (fun k => s.sr.toWord.getLsbD k && m.getLsbD k), pc := nextPc (.andiToSr m) s } ∧
      exec (.eoriToSr m) s =
        .next { s with sr := statusOf (fun k => s.sr.toWord.getLsbD k ^^ m.getLsbD k), pc := nextPc (.eoriToSr m) s } ∧
      exec (.oriToSr m) s =
        .next { s with sr := statusOf (fun k => s.sr.toWord.getLsbD k || m.getLsbD k), pc := nextPc (.oriToSr m) s }

/-- MOVE from SR, in either mode, and Scc: what is written, and no flag changes (41_move.md R154, 47_control.md R275). -/
def Obligations.SrAndSccStored : Prop :=
  ∀ (ea : Ea) (co : Cond) (s s1 s2 : State) (l m : Loc), Instr.wellFormed (.moveFromSr ea) = true → Sound s →
    resolve ea .w (extAt s 0) s = (l, s1) → resolve ea .b (extAt s 0) s = (m, s2) →
    (Writable s.cfg .w l →
      ∃ t, exec (.moveFromSr ea) s = .next t ∧ natOf .w (locValue .w t l) = s.sr.toWord.toNat ∧ t.sr = s.sr ∧
        Changed (.moveFromSr ea) .w l (eaSteps ea) s s1 t) ∧
    (Writable s.cfg .b m →
      ∃ t, exec (.scc co ea) s = .next t ∧ natOf .b (locValue .b t m) = (if condHolds s.sr.ccr co then 255 else 0) ∧
        t.sr = s.sr ∧ Changed (.scc co ea) .b m (eaSteps ea) s s2 t)

/-- MOVE to USP and MOVE from USP in supervisor mode; with A7 the register is SSP (41_move.md R156, R157). -/
def Obligations.UspMovesInSupervisorMode : Prop :=
  ∀ (an : Fin 8) (s : State), s.sr.s = true →
    exec (.moveToUsp an) s = .next { s with usp := s.areg an, pc := nextPc (.moveToUsp an) s } ∧
      ∃ t, exec (.moveFromUsp an) s = .next t ∧ t.areg an = s.usp ∧ t.usp = s.usp ∧ t.sr = s.sr ∧
        t.pc = nextPc (.moveFromUsp an) s ∧ Kept noReg (oneReg an) [] s t

/-- MOVEM to memory: the listed registers lie in ascending order in memory, at their initial values; `-(An)` stores downwards and
ends at the last address (41_move.md R158). -/
def Obligations.MovemStoresListInOrder : Prop :=
  (∀ (sz : Size) (mask : Word) (ea : Ea) (s s1 : State) (a : Long), Instr.wellFormed (.movemToMem sz mask ea) = true →
    ea.isPreDec = false → Sound s → resolve ea .l (extAt s 1) s = (.mem a, s1) →
    (∀ j, j < (maskBits mask).length → Ram s.cfg sz (itemAt sz a j)) →
    ∃ t, exec (.movemToMem sz mask ea) s = .next t ∧
      (∀ (j : Nat) (k : Fin 16), (maskBits mask)[j]? = some k →
        natOf sz (t.load sz (itemAt sz a j)) = natOf sz (s.rreg k)) ∧
      t.sr = s.sr ∧
      Advanced (.movemToMem sz mask ea) noReg noReg (itemBytes s.cfg sz a (maskBits mask).length) s s t) ∧
  ∀ (sz : Size) (mask : Word) (r : Fin 8) (s : State), sz ≠ .b → Sound s →
    let n := (maskBits mask).length
    let a := s.areg r - BitVec.ofNat 32 (n * sz.bytes)
    (∀ j, j < n → Ram s.cfg sz (itemAt sz a j)) →
    ∃ t, exec (.movemToMem sz mask (.preDec r)) s = .next t ∧
      (∀ (j : Nat) (k : Fin 16), (maskBits mask)[j]? = some k →
        natOf sz (t.load sz (itemAt sz a (n - 1 - j))) = natOf sz (s.rreg (15 - k))) ∧
      t.areg r = a ∧ t.sr = s.sr ∧ t.pc = nextPc (.movemToMem sz mask (.preDec r)) s ∧
      Kept noReg (oneReg r) (itemBytes s.cfg sz a n) s t

/-- MOVEM from memory: each listed register gets its item, a word sign-extended to 32 bits; with `(An)+` the final address wins
over a loaded value. One more word is read after the last item: where nothing is mapped there, that read is the bus error that
ends the instruction (41_move.md R159, 20_memory.md R60, R63). -/
def Obligations.MovemLoadsListInOrder : Prop :=
  (∀ (sz : Size) (mask : Word) (ea : Ea) (s s1 : State) (a : Long), Instr.wellFormed (.movemToReg sz mask ea) = true →
    ea.isPostInc = false → resolve ea .l (extAt s 1) s = (.mem a, s1) →
    let n := (maskBits mask).length
    (∀ j, j < n → Readable s.cfg sz (itemAt sz a j)) →
    (Readable s.cfg .w (itemAt sz a n) →
      ∃ t, exec (.movemToReg sz mask ea) s = .next t ∧
        (∀ (j : Nat) (k : Fin 16), (maskBits mask)[j]? = some k →
          (t.rreg k).toInt = intOf sz (s.load sz (itemAt sz a j))) ∧
        (∀ k : Fin 16, mask.getLsbD k.val = false → t.rreg k = s.rreg k) ∧ t.sr = s.sr ∧
        t.pc = nextPc (.movemToReg sz mask ea) s ∧ Kept (fun _ => true) (fun _ => true) [] s t) ∧
    (Aligned .w (itemAt sz a n) → kindAt s.cfg (itemAt sz a n) = .unmapped →
      ∃ u, exec (.movemToReg sz mask ea) s = .fault (.busError (itemAt sz a n) u))) ∧
  ∀ (sz : Size) (mask : Word) (r : Fin 8) (s : State), sz ≠ .b →
    let n := (maskBits mask).length
    (∀ j, j < n → Readable s.cfg sz (itemAt sz (s.areg r) j)) →
    (Readable s.cfg .w (itemAt sz (s.areg r) n) →
      ∃ t, exec (.movemToReg sz mask (.postInc r)) s = .next t ∧ t.areg r = itemAt sz (s.areg r) n ∧
        (∀ (j : Nat) (k : Fin 16), (maskBits mask)[j]? = some k → k.val ≠ 8 + r.val →
          (t.rreg k).toInt = intOf sz (s.load sz (itemAt sz (s.areg r) j))) ∧
        (∀ k : Fin 16, mask.getLsbD k.val = false → k.val ≠ 8 + r.val → t.rreg k = s.rreg k) ∧ t.sr = s.sr ∧
        t.pc = nextPc (.movemToReg sz mask (.postInc r)) s ∧ Kept (fun _ => true) (fun _ => true) [] s t) ∧
    (Aligned .w (itemAt sz (s.areg r) n) → kindAt s.cfg (itemAt sz (s.areg r) n) = .unmapped →
      ∃ u, exec (.movemToReg sz mask (.postInc r)) s = .fault (.busError (itemAt sz (s.areg r) n) u))

/-- MOVEP: bytes at every second address, the most significant at the lowest, no alignment needed, the bytes between untouched
(41_move.md R161). -/
def Obligations.MovepEverySecondByte : Prop :=
  ∀ (sz : Size) (dx ay : Fin 8) (d : Word) (s : State), sz ≠ .b →
    let a := s.areg ay + BitVec.ofInt 32 d.toInt
    let n := sz.bytes
    (Sound s → (∀ j, j < n → Ram s.cfg .b (a + BitVec.ofNat 32 (2 * j))) →
      ∃ t, exec (.movep .toMem sz dx ay d) s = .next t ∧
        (∀ j, j < n → (t.byteAt (a + BitVec.ofNat 32 (2 * j))).toNat = (s.dreg dx).toNat / 2 ^ (8 * (n - 1 - j)) % 2 ^ 8) ∧
        t.sr = s.sr ∧ Advanced (.movep .toMem sz dx ay d) noReg noReg (laneBytes s.cfg a n) s s t) ∧
    ((∀ j, j < n → Readable s.cfg .b (a + BitVec.ofNat 32 (2 * j))) →
      ∃ t, exec (.movep .toReg sz dx ay d) s = .next t ∧
        (∀ j, j < n → (t.dreg dx).toNat / 2 ^ (8 * (n - 1 - j)) % 2 ^ 8 = (s.byteAt (a + BitVec.ofNat 32 (2 * j))).toNat) ∧
        UpperKept sz (s.dreg dx) (t.dreg dx) ∧ t.sr = s.sr ∧
        Advanced (.movep .toReg sz dx ay d) (oneReg dx) noReg [] s s t)

/-- NOP: the fixed opword 0x4E71, after which only the program counter has changed (49_unary_misc.md R319). -/
def Obligations.NopChangesOnlyPc : Prop :=
  (∀ ws, decode (0x4E71 :: ws) = .instr .nop ws) ∧ ∀ s : State, exec .nop s = .next { s with pc := s.pc + 2 }

/-! ## Arithmetic -/

/-- ADD, SUB, AND and OR to a data register (42_add_sub_cmp.md R170, R175, 44_logic.md R210, R218). -/
def Obligations.ArithLogicToRegisterResults : Prop :=
  (∀ (sz : Size) (ea : Ea) (dn : Fin 8) (s s1 : State) (l : Loc), Instr.wellFormed (.addEaDn sz ea dn) = true →
    resolve ea sz (extAt s 0) s = (l, s1) → LocReadable s.cfg sz l →
    let rest := fun (i : Instr) (t : State) =>
      ZeroRule sz (t.dreg dn) t.sr.ccr ∧ t.sr.ccr.x = t.sr.ccr.c ∧ UpperKept sz (s.dreg dn) (t.dreg dn) ∧
        Advanced i (oneReg dn) (eaSteps ea) [] s s1 t
    (∃ t, exec (.addEaDn sz ea dn) s = .next t ∧
      AddRule sz (locValue sz s1 l) (s.dreg dn) false (t.dreg dn) t.sr.ccr ∧ rest (.addEaDn sz ea dn) t) ∧
    ∃ t, exec (.subEaDn sz ea dn) s = .next t ∧
      SubRule sz (locValue sz s1 l) (s.dreg dn) false (t.dreg dn) t.sr.ccr ∧ rest (.subEaDn sz ea dn) t) ∧
  (∀ (sz : Size) (ea : Ea) (dn : Fin 8) (s s1 : State) (l : Loc), Instr.wellFormed (.andEaDn sz ea dn) = true →
    resolve ea sz (extAt s 0) s = (l, s1) → LocReadable s.cfg sz l →
    let rest := fun (i : Instr) (t : State) =>
      LogicRule sz (t.dreg dn) s.sr.ccr t.sr.ccr ∧ UpperKept sz (s.dreg dn) (t.dreg dn) ∧
        Advanced i (oneReg dn) (eaSteps ea) [] s s1 t
    (∃ t, exec (.andEaDn sz ea dn) s = .next t ∧
      BitwiseRule (fun d v => d && v) sz (locValue sz s1 l) (s.dreg dn) (t.dreg dn) ∧ rest (.andEaDn sz ea dn) t) ∧
    ∃ t, exec (.orEaDn sz ea dn) s = .next t ∧
      BitwiseRule (fun d v => d || v) sz (locValue sz s1 l) (s.dreg dn) (t.dreg dn) ∧ rest (.orEaDn sz ea dn) t)

/-- ADD and SUB of a data register to memory, ADDI and SUBI (42_add_sub_cmp.md R170, R172, R175, R177). -/
def Obligations.AddSubToOperandResults : Prop :=
  ∀ (sz : Size) (ea : Ea) (dn : Fin 8) (imm : Long) (s s1 s2 : State) (l m : Loc), Sound s →
    resolve ea sz (extAt s 0) s = (l, s1) → resolve ea sz (extAt s sz.immCount) s = (m, s2) →
    let rest := fun (i : Instr) (k : Loc) (u t : State) =>
      ZeroRule sz (locValue sz t k) t.sr.ccr ∧ t.sr.ccr.x = t.sr.ccr.c ∧ Changed i sz k (eaSteps ea) s u t
    (Instr.wellFormed (.addDnEa sz dn ea) = true → Writable s.cfg sz l →
      (∃ t, exec (.addDnEa sz dn ea) s = .next t ∧
        AddRule sz (s.dreg dn) (locValue sz s1 l) false (locValue sz t l) t.sr.ccr ∧ rest (.addDnEa sz dn ea) l s1 t) ∧
      ∃ t, exec (.subDnEa sz dn ea) s = .next t ∧
        SubRule sz (s.dreg dn) (locValue sz s1 l) false (locValue sz t l) t.sr.ccr ∧ rest (.subDnEa sz dn ea) l s1 t) ∧
    (Instr.wellFormed (.addi sz imm ea) = true → Writable s.cfg sz m →
      (∃ t, exec (.addi sz imm ea) s = .next t ∧
        AddRule sz imm (locValue sz s2 m) false (locValue sz t m) t.sr.ccr ∧ rest (.addi sz imm ea) m s2 t) ∧
      ∃ t, exec (.subi sz imm ea) s = .next t ∧
        SubRule sz imm (locValue sz s2 m) false (locValue sz t m) t.sr.ccr ∧ rest (.subi sz imm ea) m s2 t)

/-- ADDQ and SUBQ: the field 0 denotes 8; on an address register 32 bits and no flags at either size (42_add_sub_cmp.md R173,
R178). -/
def Obligations.QuickAddSubResults : Prop :=
  ∀ (sz : Size) (q : Fin 8) (s : State), Sound s →
    let v : Long := if q = 0 then 8 else BitVec.ofNat 32 q.val
    (∀ (ea : Ea) (s1 : State) (l : Loc), Instr.wellFormed (.addq sz q ea) = true → ea.isAn = false →
      resolve ea sz (extAt s 0) s = (l, s1) → Writable s.cfg sz l →
      (∃ t, exec (.addq sz q ea) s = .next t ∧ AddRule sz v (locValue sz s1 l) false (locValue sz t l) t.sr.ccr ∧
        ZeroRule sz (locValue sz t l) t.sr.ccr ∧ t.sr.ccr.x = t.sr.ccr.c ∧ Changed (.addq sz q ea) sz l (eaSteps ea) s s1 t) ∧
      ∃ t, exec (.subq sz q ea) s = .next t ∧ SubRule sz v (locValue sz s1 l) false (locValue sz t l) t.sr.ccr ∧
        ZeroRule sz (locValue sz t l) t.sr.ccr ∧ t.sr.ccr.x = t.sr.ccr.c ∧
        Changed (.subq sz q ea) sz l (eaSteps ea) s s1 t) ∧
    ∀ r : Fin 8, sz ≠ .b →
      (∃ t, exec (.addq sz q (.an r)) s = .next t ∧ t.areg r = s.areg r + v ∧ t.sr = s.sr ∧
        t.pc = nextPc (.addq sz q (.an r)) s ∧ Kept noReg (oneReg r) [] s t) ∧
      ∃ t, exec (.subq sz q (.an r)) s = .next t ∧ t.areg r = s.areg r - v ∧ t.sr = s.sr ∧
        t.pc = nextPc (.subq sz q (.an r)) s ∧ Kept noReg (oneReg r) [] s t

/-- ADDX and SUBX in both forms: X takes part, and Z is only ever cleared; in memory the source is decremented and read first
(42_add_sub_cmp.md R174, R179). -/
def Obligations.ExtendedAddSubStickyZero : Prop :=
  ∀ (sz : Size) (m : PairMode) (ry rx : Fin 8) (s s1 s2 : State) (ls ld : Loc), Sound s →
    resolve (pairOperand m ry) sz (extAt s 0) s = (ls, s1) → LocReadable s.cfg sz ls →
    resolve (pairOperand m rx) sz (extAt s 0) s1 = (ld, s2) → Writable s.cfg sz ld →
    let rest := fun (i : Instr) (t : State) =>
      StickyZero sz (locValue sz t ld) s.sr.ccr t.sr.ccr ∧ t.sr.ccr.x = t.sr.ccr.c ∧
        Changed i sz ld (bothSteps (pairOperand m ry) (pairOperand m rx)) s s2 t
    (∃ t, exec (.addx sz m ry rx) s = .next t ∧
      AddRule sz (locValue sz s1 ls) (locValue sz s2 ld) s.sr.ccr.x (locValue sz t ld) t.sr.ccr ∧
      rest (.addx sz m ry rx) t) ∧
    ∃ t, exec (.subx sz m ry rx) s = .next t ∧
      SubRule sz (locValue sz s1 ls) (locValue sz s2 ld) s.sr.ccr.x (locValue sz t ld) t.sr.ccr ∧ rest (.subx sz m ry rx) t

/-- CMP, CMPA, CMPI, CMPM: the flags of `destination - source`, X kept, nothing written, CMPA over 32 bits; TST: the
flags of a logic result (42_add_sub_cmp.md R180 to R183, 49_unary_misc.md R318). -/
def Obligations.CompareAndTestOnlyFlags : Prop :=
  ((∀ (sz : Size) (ea : Ea) (n : Fin 8) (imm : Long) (s s1 s2 : State) (l m : Loc),
    resolve ea sz (extAt s 0) s = (l, s1) → LocReadable s.cfg sz l →
    resolve ea sz (extAt s sz.immCount) s = (m, s2) → LocReadable s.cfg sz m →
    (Instr.wellFormed (.cmp sz ea n) = true →
      ∃ t r, exec (.cmp sz ea n) s = .next t ∧ SubRule sz (locValue sz s1 l) (s.dreg n) false r t.sr.ccr ∧
        ZeroRule sz r t.sr.ccr ∧ t.sr.ccr.x = s.sr.ccr.x ∧ Advanced (.cmp sz ea n) noReg (eaSteps ea) [] s s1 t) ∧
    (Instr.wellFormed (.cmpa sz ea n) = true →
      ∃ t r, exec (.cmpa sz ea n) s = .next t ∧
        SubRule .l (BitVec.ofInt 32 (intOf sz (locValue sz s1 l))) (s1.areg n) false r t.sr.ccr ∧
        ZeroRule .l r t.sr.ccr ∧ t.sr.ccr.x = s.sr.ccr.x ∧ Advanced (.cmpa sz ea n) noReg (eaSteps ea) [] s s1 t) ∧
    (Instr.wellFormed (.cmpi sz imm ea) = true →
      ∃ t r, exec (.cmpi sz imm ea) s = .next t ∧ SubRule sz imm (locValue sz s2 m) false r t.sr.ccr ∧
        ZeroRule sz r t.sr.ccr ∧ t.sr.ccr.x = s.sr.ccr.x ∧ Advanced (.cmpi sz imm ea) noReg (eaSteps ea) [] s s2 t)) ∧
  ∀ (sz : Size) (ry rx : Fin 8) (s s1 s2 : State) (ls ld : Loc), resolve (.postInc ry) sz (extAt s 0) s = (ls, s1) →
    LocReadable s.cfg sz ls → resolve (.postInc rx) sz (extAt s 0) s1 = (ld, s2) → LocReadable s.cfg sz ld →
    ∃ t r, exec (.cmpm sz ry rx) s = .next t ∧ SubRule sz (locValue sz s1 ls) (locValue sz s2 ld) false r t.sr.ccr ∧
      ZeroRule sz r t.sr.ccr ∧ t.sr.ccr.x = s.sr.ccr.x ∧
      Advanced (.cmpm sz ry rx) noReg (bothSteps (.postInc ry) (.postInc rx)) [] s s2 t) ∧
  (∀ (sz : Size) (ea : Ea) (s s1 : State) (l : Loc), Instr.wellFormed (.tst sz ea) = true →
    resolve ea sz (extAt s 0) s = (l, s1) → LocReadable s.cfg sz l →
    ∃ t, exec (.tst sz ea) s = .next t ∧ LogicRule sz (locValue sz s1 l) s.sr.ccr t.sr.ccr ∧
      Advanced (.tst sz ea) noReg (eaSteps ea) [] s s1 t)

/-- CLR, NEG, NEGX, NOT, TAS: result and flags; TAS describes the byte before its bit 7 is set (49_unary_misc.md R310 to R313,
45_bit_tas.md R236). -/
def Obligations.UnaryResultsAndFlags : Prop :=
  ∀ (sz : Size) (ea : Ea) (s s1 : State) (l : Loc), Instr.wellFormed (.clr sz ea) = true → Sound s →
    resolve ea sz (extAt s 0) s = (l, s1) → Writable s.cfg sz l →
    (∃ t, exec (.clr sz ea) s = .next t ∧ natOf sz (locValue sz t l) = 0 ∧ LogicRule sz 0 s.sr.ccr t.sr.ccr ∧
      Changed (.clr sz ea) sz l (eaSteps ea) s s1 t) ∧
    (∃ t, exec (.neg sz ea) s = .next t ∧ SubRule sz (locValue sz s1 l) 0 false (locValue sz t l) t.sr.ccr ∧
      ZeroRule sz (locValue sz t l) t.sr.ccr ∧ t.sr.ccr.x = t.sr.ccr.c ∧ Changed (.neg sz ea) sz l (eaSteps ea) s s1 t) ∧
    (∃ t, exec (.negx sz ea) s = .next t ∧ SubRule sz (locValue sz s1 l) 0 s.sr.ccr.x (locValue sz t l) t.sr.ccr ∧
      StickyZero sz (locValue sz t l) s.sr.ccr t.sr.ccr ∧ t.sr.ccr.x = t.sr.ccr.c ∧
      Changed (.negx sz ea) sz l (eaSteps ea) s s1 t) ∧
    (∃ t, exec (.not sz ea) s = .next t ∧ BitwiseRule (fun d _ => !d) sz 0 (locValue sz s1 l) (locValue sz t l) ∧
      LogicRule sz (locValue sz t l) s.sr.ccr t.sr.ccr ∧ Changed (.not sz ea) sz l (eaSteps ea) s s1 t) ∧
    (sz = .b → ∃ t, exec (.tas ea) s = .next t ∧ OneBitRule (fun _ => true) .b 7 (locValue .b s1 l) (locValue .b t l) ∧
      LogicRule .b (locValue .b s1 l) s.sr.ccr t.sr.ccr ∧ Changed (.tas ea) .b l (eaSteps ea) s s1 t)

/-! ## Logic and bits -/

/-- AND, OR and EOR of a data register to an operand, ANDI, ORI, EORI (44_logic.md R210, R211, R214, R215, R218, R219). -/
def Obligations.LogicToOperandResults : Prop :=
  ∀ (sz : Size) (ea : Ea) (dn : Fin 8) (imm : Long) (s s1 s2 : State) (l m : Loc), Sound s →
    resolve ea sz (extAt s 0) s = (l, s1) → resolve ea sz (extAt s sz.immCount) s = (m, s2) →
    let rest := fun (i : Instr) (k : Loc) (u t : State) =>
      LogicRule sz (locValue sz t k) s.sr.ccr t.sr.ccr ∧ Changed i sz k (eaSteps ea) s u t
    (Instr.wellFormed (.andDnEa sz dn ea) = true → Writable s.cfg sz l →
      (∃ t, exec (.andDnEa sz dn ea) s = .next t ∧
        BitwiseRule (fun d v => d && v) sz (s.dreg dn) (locValue sz s1 l) (locValue sz t l) ∧
        rest (.andDnEa sz dn ea) l s1 t) ∧
      ∃ t, exec (.orDnEa sz dn ea) s = .next t ∧
        BitwiseRule (fun d v => d || v) sz (s.dreg dn) (locValue sz s1 l) (locValue sz t l) ∧
        rest (.orDnEa sz dn ea) l s1 t) ∧
    (Instr.wellFormed (.eor sz dn ea) = true → Writable s.cfg sz l →
      ∃ t, exec (.eor sz dn ea) s = .next t ∧
        BitwiseRule (fun d v => d ^^ v) sz (s.dreg dn) (locValue sz s1 l) (locValue sz t l) ∧ rest (.eor sz dn ea) l s1 t) ∧
    (Instr.wellFormed (.andi sz imm ea) = true → Writable s.cfg sz m →
      (∃ t, exec (.andi sz imm ea) s = .next t ∧
        BitwiseRule (fun d v => d && v) sz imm (locValue sz s2 m) (locValue sz t m) ∧ rest (.andi sz imm ea) m s2 t) ∧
      (∃ t, exec (.ori sz imm ea) s = .next t ∧
        BitwiseRule (fun d v => d || v) sz imm (locValue sz s2 m) (locValue sz t m) ∧ rest (.ori sz imm ea) m s2 t) ∧
      ∃ t, exec (.eori sz imm ea) s = .next t ∧
        BitwiseRule (fun d v => d ^^ v) sz imm (locValue sz s2 m) (locValue sz t m) ∧ rest (.eori sz imm ea) m s2 t)

/-- BTST in both forms: Z from the bit, modulo 32 on a data register and modulo 8 elsewhere; nothing else changes
(45_bit_tas.md R230, R231). -/
def Obligations.BitTestOnlyZ : Prop :=
  ∀ (n : Byte) (dn : Fin 8) (ea : Ea) (s s1 s2 : State) (l m : Loc),
    let sz := bitSize ea
    resolve ea sz (extAt s 0) s = (l, s1) → resolve ea sz (extAt s 1) s = (m, s2) →
    (Instr.wellFormed (.btstReg dn ea) = true → LocReadable s.cfg sz l →
      ∃ t, exec (.btstReg dn ea) s = .next t ∧
        t.sr.ccr = { s.sr.ccr with z := !(locValue sz s1 l).getLsbD ((s.dreg dn).toNat % sz.bits) } ∧
        Advanced (.btstReg dn ea) noReg (eaSteps ea) [] s s1 t) ∧
    (Instr.wellFormed (.btstImm n ea) = true → LocReadable s.cfg sz m →
      ∃ t, exec (.btstImm n ea) s = .next t ∧
        t.sr.ccr = { s.sr.ccr with z := !(locValue sz s2 m).getLsbD (n.toNat % sz.bits) } ∧
        Advanced (.btstImm n ea) noReg (eaSteps ea) [] s s2 t)

/-- BCHG, BCLR, BSET with the bit number in a register or immediate: one bit changed, Z from the bit before, modulo 32 on
a data register and modulo 8 elsewhere (45_bit_tas.md R230, R232 to R234). -/
def Obligations.BitChangeOneBit : Prop :=
  (∀ (dn : Fin 8) (ea : Ea) (s s1 : State) (l : Loc),
    let sz := bitSize ea
    let idx := (s.dreg dn).toNat % sz.bits
    Instr.wellFormed (.bchgReg dn ea) = true → Sound s → resolve ea sz (extAt s 0) s = (l, s1) → Writable s.cfg sz l →
    let rest := fun (i : Instr) (t : State) =>
      t.sr.ccr = { s.sr.ccr with z := !(locValue sz s1 l).getLsbD idx } ∧ Changed i sz l (eaSteps ea) s s1 t
    (∃ t, exec (.bchgReg dn ea) s = .next t ∧ OneBitRule (fun b => !b) sz idx (locValue sz s1 l) (locValue sz t l) ∧
      rest (.bchgReg dn ea) t) ∧
    (∃ t, exec (.bclrReg dn ea) s = .next t ∧ OneBitRule (fun _ => false) sz idx (locValue sz s1 l) (locValue sz t l) ∧
      rest (.bclrReg dn ea) t) ∧
    ∃ t, exec (.bsetReg dn ea) s = .next t ∧ OneBitRule (fun _ => true) sz idx (locValue sz s1 l) (locValue sz t l) ∧
      rest (.bsetReg dn ea) t) ∧
  (∀ (n : Byte) (ea : Ea) (s s1 : State) (l : Loc),
    let sz := bitSize ea
    let idx := n.toNat % sz.bits
    Instr.wellFormed (.bchgImm n ea) = true → Sound s → resolve ea sz (extAt s 1) s = (l, s1) → Writable s.cfg sz l →
    let rest := fun (i : Instr) (t : State) =>
      t.sr.ccr = { s.sr.ccr with z := !(locValue sz s1 l).getLsbD idx } ∧ Changed i sz l (eaSteps ea) s s1 t
    (∃ t, exec (.bchgImm n ea) s = .next t ∧ OneBitRule (fun b => !b) sz idx (locValue sz s1 l) (locValue sz t l) ∧
      rest (.bchgImm n ea) t) ∧
    (∃ t, exec (.bclrImm n ea) s = .next t ∧ OneBitRule (fun _ => false) sz idx (locValue sz s1 l) (locValue sz t l) ∧
      rest (.bclrImm n ea) t) ∧
    ∃ t, exec (.bsetImm n ea) s = .next t ∧ OneBitRule (fun _ => true) sz idx (locValue sz s1 l) (locValue sz t l) ∧
      rest (.bsetImm n ea) t)

/-! ## Shifts -/

/-- The eight shifts and rotates: result and flags by the one-bit step repeated; of a data register with the count from the
immediate (0 denotes 8) or modulo 64 from a register, of a memory word by one place; C after a count of zero by the parameter
(46_shift_rotate.md R240 to R250). -/
def Obligations.ShiftStepRepeated : Prop :=
  (∀ (k : ShiftKind) (sz : Size) (c : ShiftCount) (dn : Fin 8) (s : State),
    ∃ t, exec (shiftInstr k sz c dn) s = .next t ∧
      ShiftRule k s.cfg.roxZeroCountC sz (countOf s c) (s.dreg dn) s.sr.ccr (t.dreg dn) t.sr.ccr ∧
      UpperKept sz (s.dreg dn) (t.dreg dn) ∧ Advanced (shiftInstr k sz c dn) (oneReg dn) noReg [] s s t) ∧
  (∀ (k : ShiftKind) (ea : Ea) (s s1 : State) (l : Loc), Instr.wellFormed (shiftMemInstr k ea) = true → Sound s →
    resolve ea .w (extAt s 0) s = (l, s1) → Writable s.cfg .w l →
    ∃ t, exec (shiftMemInstr k ea) s = .next t ∧
      ShiftRule k s.cfg.roxZeroCountC .w 1 (locValue .w s1 l) s.sr.ccr (locValue .w t l) t.sr.ccr ∧
      Changed (shiftMemInstr k ea) .w l (eaSteps ea) s s1 t)

/-- Closed forms of the shifts that are no rotates, for a count of at least one (46_shift_rotate.md R251, R242). -/
def Obligations.ShiftClosedForms : Prop :=
  ∀ (sz : Size) (c : ShiftCount) (dn : Fin 8) (s : State), 1 ≤ countOf s c →
    let n := sz.bits
    let k := countOf s c
    let d := natOf sz (s.dreg dn)
    (∃ t, exec (.lsl sz c dn) s = .next t ∧ natOf sz (t.dreg dn) = d * 2 ^ k % 2 ^ n ∧
      t.sr.ccr.c = (decide (k ≤ n) && decide (d / 2 ^ (n - k) % 2 = 1)) ∧ t.sr.ccr.x = t.sr.ccr.c ∧ t.sr.ccr.v = false) ∧
    (∃ t, exec (.asl sz c dn) s = .next t ∧ natOf sz (t.dreg dn) = d * 2 ^ k % 2 ^ n ∧
      t.sr.ccr.c = (decide (k ≤ n) && decide (d / 2 ^ (n - k) % 2 = 1)) ∧ t.sr.ccr.x = t.sr.ccr.c ∧
      (t.sr.ccr.v = false ↔
        (k < n ∧ (d / 2 ^ (n - 1 - k) = 0 ∨ d / 2 ^ (n - 1 - k) = 2 ^ (k + 1) - 1)) ∨ (n ≤ k ∧ d = 0))) ∧
    (∃ t, exec (.lsr sz c dn) s = .next t ∧ natOf sz (t.dreg dn) = d / 2 ^ k ∧
      t.sr.ccr.c = decide (d / 2 ^ (k - 1) % 2 = 1) ∧ t.sr.ccr.x = t.sr.ccr.c ∧ t.sr.ccr.v = false) ∧
    ∃ t, exec (.asr sz c dn) s = .next t ∧ intOf sz (t.dreg dn) = intOf sz (s.dreg dn) / 2 ^ k ∧
      t.sr.ccr.c = decide (intOf sz (s.dreg dn) / 2 ^ (k - 1) % 2 = 1) ∧ t.sr.ccr.x = t.sr.ccr.c ∧ t.sr.ccr.v = false

/-! ## Decimal -/

/-- ABCD and SBCD in both forms and NBCD (`0 - d - X`), on any operands; with decimal digits the decimal result, C, X
and the Z that is only cleared; N and V are free, and with another digit the result and all flags are (43_bcd.md R200 to R202,
49_unary_misc.md R314; logs 8, 19). -/
def Obligations.DecimalResults : Prop :=
  (∀ (m : PairMode) (ry rx : Fin 8) (s s1 s2 : State) (ls ld : Loc), Sound s →
    resolve (pairOperand m ry) .b (extAt s 0) s = (ls, s1) → LocReadable s.cfg .b ls →
    resolve (pairOperand m rx) .b (extAt s 0) s1 = (ld, s2) → Writable s.cfg .b ld →
    let src := natOf .b (locValue .b s1 ls)
    let dst := natOf .b (locValue .b s2 ld)
    let rest := fun (i : Instr) (t : State) => Changed i .b ld (bothSteps (pairOperand m ry) (pairOperand m rx)) s s2 t
    (∃ t, exec (.abcd m ry rx) s = .next t ∧
      (decimal src → decimal dst →
        DecimalRule (decimalValue dst + decimalValue src + s.sr.ccr.x.toNat) s.sr.ccr (natOf .b (locValue .b t ld))
          t.sr.ccr) ∧ rest (.abcd m ry rx) t) ∧
    ∃ t, exec (.sbcd m ry rx) s = .next t ∧
      (decimal src → decimal dst →
        DecimalRule ((decimalValue dst : Int) - decimalValue src - s.sr.ccr.x.toNat) s.sr.ccr
          (natOf .b (locValue .b t ld)) t.sr.ccr) ∧ rest (.sbcd m ry rx) t) ∧
  (∀ (ea : Ea) (s s1 : State) (l : Loc), Instr.wellFormed (.nbcd ea) = true → Sound s →
    resolve ea .b (extAt s 0) s = (l, s1) → Writable s.cfg .b l →
    ∃ t, exec (.nbcd ea) s = .next t ∧
      (decimal (natOf .b (locValue .b s1 l)) →
        DecimalRule (-(decimalValue (natOf .b (locValue .b s1 l)) : Int) - s.sr.ccr.x.toNat) s.sr.ccr
          (natOf .b (locValue .b t l)) t.sr.ccr) ∧
      Changed (.nbcd ea) .b l (eaSteps ea) s s1 t)

/-! ## Program control -/

/-- BRA, Bcc, DBcc: the target is `pc + 2` plus the displacement; DBcc counts in the low word only while its condition
is false and leaves when the count passes zero. JMP goes to its operand's address, LEA loads it, no flag changes (47_control.md
R261, R263, R265, R272 to R274). -/
def Obligations.BranchAndJumpTargets : Prop :=
  ((∀ (d : BranchDisp) (s : State), exec (.bra d) s = .next { s with pc := s.pc + 2 + BitVec.ofInt 32 (dispInt d) }) ∧
  (∀ (co : Cond) (d : BranchDisp) (s : State),
    exec (.bcc co d) s =
      .next { s with pc := if condHolds s.sr.ccr co then s.pc + 2 + BitVec.ofInt 32 (dispInt d) else nextPc (.bcc co d) s }) ∧
  ∀ (co : Cond) (dn : Fin 8) (d : Word) (s : State),
    (condHolds s.sr.ccr co = true → exec (.dbcc co dn d) s = .next { s with pc := s.pc + 4 }) ∧
    (condHolds s.sr.ccr co = false →
      ∃ t, exec (.dbcc co dn d) s = .next t ∧ natOf .w (t.dreg dn) = (natOf .w (s.dreg dn) + 65535) % 65536 ∧
        UpperKept .w (s.dreg dn) (t.dreg dn) ∧ t.sr = s.sr ∧
        t.pc = (if natOf .w (s.dreg dn) = 0 then s.pc + 4 else s.pc + 2 + BitVec.ofInt 32 d.toInt) ∧
        Kept (oneReg dn) noReg [] s t)) ∧
  (∀ (ea : Ea) (an : Fin 8) (s s1 : State) (a : Long), Instr.wellFormed (.jmp ea) = true →
    resolve ea .l (extAt s 0) s = (.mem a, s1) →
    exec (.jmp ea) s = .next { s with pc := a } ∧
      ∃ t, exec (.lea ea an) s = .next t ∧ t.areg an = a ∧ t.sr = s.sr ∧ t.pc = nextPc (.lea ea an) s ∧
        Kept noReg (oneReg an) [] s t)

/-- BSR, JSR, PEA: what is pushed on the active stack and where control goes; the address of JSR and PEA is that before the push
(47_control.md R262, R264, R266). -/
def Obligations.PushesAndTargets : Prop :=
  ∀ (s : State), Sound s → Ram s.cfg .l (s.sp - 4) →
    let pushed := fun (v : Long) (t : State) =>
      t.load .l (s.sp - 4) = v ∧ t.sp = s.sp - 4 ∧ t.sr = s.sr ∧ Kept noReg (oneReg 7) (bytesAt s.cfg .l (s.sp - 4)) s t
    (∀ d : BranchDisp,
      ∃ t, exec (.bsr d) s = .next t ∧ t.pc = s.pc + 2 + BitVec.ofInt 32 (dispInt d) ∧ pushed (nextPc (.bsr d) s) t) ∧
    ∀ (ea : Ea) (s1 : State) (a : Long), Instr.wellFormed (.jsr ea) = true → resolve ea .l (extAt s 0) s = (.mem a, s1) →
      (∃ t, exec (.jsr ea) s = .next t ∧ t.pc = a ∧ pushed (nextPc (.jsr ea) s) t) ∧
      ∃ t, exec (.pea ea) s = .next t ∧ t.pc = nextPc (.pea ea) s ∧ pushed a t

/-- LINK and UNLK, with A7 as their register too: LINK A7 pushes the decremented pointer, UNLK A7 ends with the value popped
(47_control.md R267, R268). -/
def Obligations.LinkAndUnlkFrames : Prop :=
  (∀ (an : Fin 8) (d : Word) (s : State), Sound s → Ram s.cfg .l (s.sp - 4) →
    ∃ t, exec (.link an d) s = .next t ∧ t.load .l (s.sp - 4) = (if an = 7 then s.sp - 4 else s.areg an) ∧
      t.sp = s.sp - 4 + BitVec.ofInt 32 d.toInt ∧ (an ≠ 7 → t.areg an = s.sp - 4) ∧ t.sr = s.sr ∧
      t.pc = nextPc (.link an d) s ∧
      Kept noReg (fun q => oneReg an q || oneReg 7 q) (bytesAt s.cfg .l (s.sp - 4)) s t) ∧
  ∀ (an : Fin 8) (s : State), Readable s.cfg .l (s.areg an) →
    ∃ t, exec (.unlk an) s = .next t ∧ t.areg an = s.load .l (s.areg an) ∧ (an ≠ 7 → t.sp = s.areg an + 4) ∧
      t.sr = s.sr ∧ t.pc = nextPc (.unlk an) s ∧ Kept noReg (fun q => oneReg an q || oneReg 7 q) [] s t

/-- RTS and RTR on the active stack, RTR loading the five flags from a word and leaving the system byte; RTE in supervisor
mode: SR and the program counter from the supervisor stack, SSP six higher, nothing else (47_control.md R269 to R271). -/
def Obligations.ReturnsRestore : Prop :=
  (∀ (s : State),
    (Readable s.cfg .l s.sp →
      ∃ t, exec .rts s = .next t ∧ t.pc = s.load .l s.sp ∧ t.sp = s.sp + 4 ∧ t.sr = s.sr ∧ Kept noReg (oneReg 7) [] s t) ∧
    (Readable s.cfg .w s.sp → Readable s.cfg .l (s.sp + 2) →
      ∃ t, exec .rtr s = .next t ∧ t.pc = s.load .l (s.sp + 2) ∧ t.sp = s.sp + 6 ∧
        t.sr.ccr = flagsOf (fun k => (s.load .w s.sp).getLsbD k) ∧ Kept noReg (oneReg 7) [] s t)) ∧
  (∀ (s : State), s.sr.s = true → Readable s.cfg .w s.ssp → Readable s.cfg .l (s.ssp + 2) →
    exec .rte s =
      .next { s with sr := statusOf (fun k => (s.load .w s.ssp).getLsbD k), pc := s.load .l (s.ssp + 2), ssp := s.ssp + 6 })

/-! ## Multiply, divide, traps, system control -/

/-- MULS and MULU: the 32-bit product of the low words, flags of the 32-bit result (48_muldiv_chk_system.md R292, R293). -/
def Obligations.MultiplyProduct : Prop :=
  ∀ (ea : Ea) (dn : Fin 8) (s s1 : State) (l : Loc), Instr.wellFormed (.muls ea dn) = true →
    resolve ea .w (extAt s 0) s = (l, s1) → LocReadable s.cfg .w l →
    (∃ t, exec (.muls ea dn) s = .next t ∧ (t.dreg dn).toInt = intOf .w (s.dreg dn) * intOf .w (locValue .w s1 l) ∧
      LogicRule .l (t.dreg dn) s.sr.ccr t.sr.ccr ∧ Advanced (.muls ea dn) (oneReg dn) (eaSteps ea) [] s s1 t) ∧
    ∃ t, exec (.mulu ea dn) s = .next t ∧ (t.dreg dn).toNat = natOf .w (s.dreg dn) * natOf .w (locValue .w s1 l) ∧
      LogicRule .l (t.dreg dn) s.sr.ccr t.sr.ccr ∧ Advanced (.mulu ea dn) (oneReg dn) (eaSteps ea) [] s s1 t

/-- DIVU and DIVS: quotient (truncated toward zero) and remainder (with the dividend's sign) with their flags where the
quotient fits; else V set, C clear, the register kept, N and Z free (48_muldiv_chk_system.md R290, R291; log 20). -/
def Obligations.DivideQuotientRemainder : Prop :=
  (∀ (ea : Ea) (dn : Fin 8) (s s1 : State) (l : Loc), Instr.wellFormed (.divu ea dn) = true →
    resolve ea .w (extAt s 0) s = (l, s1) → LocReadable s.cfg .w l →
    let n := (s.dreg dn).toNat
    let m := natOf .w (locValue .w s1 l)
    m ≠ 0 →
    (n / m ≤ 65535 →
      ∃ t, exec (.divu ea dn) s = .next t ∧ (t.dreg dn).toNat = n % m * 2 ^ 16 + n / m ∧
        t.sr.ccr = { x := s.sr.ccr.x, n := decide (32768 ≤ n / m), z := decide (n / m = 0), v := false, c := false } ∧
        Advanced (.divu ea dn) (oneReg dn) (eaSteps ea) [] s s1 t) ∧
    (65535 < n / m →
      ∃ t, exec (.divu ea dn) s = .next t ∧ t.sr.ccr.x = s.sr.ccr.x ∧ t.sr.ccr.v = true ∧ t.sr.ccr.c = false ∧
        Advanced (.divu ea dn) noReg (eaSteps ea) [] s s1 t)) ∧
  (∀ (ea : Ea) (dn : Fin 8) (s s1 : State) (l : Loc) (q r : Int), Instr.wellFormed (.divs ea dn) = true →
    resolve ea .w (extAt s 0) s = (l, s1) → LocReadable s.cfg .w l →
    let n := (s.dreg dn).toInt
    let m := intOf .w (locValue .w s1 l)
    m ≠ 0 → n = q * m + r → |r| < |m| → (0 < r → 0 < n) → (r < 0 → n < 0) →
    (-32768 ≤ q → q ≤ 32767 →
      ∃ t, exec (.divs ea dn) s = .next t ∧ intOf .w (t.dreg dn) = q ∧ intOf .w (t.dreg dn >>> 16) = r ∧
        t.sr.ccr = { x := s.sr.ccr.x, n := decide (q < 0), z := decide (q = 0), v := false, c := false } ∧
        Advanced (.divs ea dn) (oneReg dn) (eaSteps ea) [] s s1 t) ∧
    ((q < -32768 ∨ 32767 < q) →
      ∃ t, exec (.divs ea dn) s = .next t ∧ t.sr.ccr.x = s.sr.ccr.x ∧ t.sr.ccr.v = true ∧ t.sr.ccr.c = false ∧
        Advanced (.divs ea dn) noReg (eaSteps ea) [] s s1 t))

/-- DIVS and DIVU by zero: vector 5 with the next address stacked, the operand's step done, the register kept, X kept, C clear;
N, Z and V are free (60_exceptions.md R337, 48_muldiv_chk_system.md R290; log 20). -/
def Obligations.ZeroDivideTrap : Prop :=
  ∀ (ea : Ea) (dn : Fin 8) (s s1 : State) (l : Loc), Instr.wellFormed (.divu ea dn) = true →
    resolve ea .w (extAt s 0) s = (l, s1) → LocReadable s.cfg .w l → natOf .w (locValue .w s1 l) = 0 →
    EntryReady vecZeroDivide s1 → ∀ i ∈ [Instr.divu ea dn, Instr.divs ea dn],
    ∃ t f, exec i s = .next t ∧ f.x = s.sr.ccr.x ∧ f.c = false ∧ Entered 5 (nextPc i s) s.sr.ipm (s1.setCcr f) t

/-- CHK: within the bounds it goes on and only flags change; below zero or above the bound it takes vector 6 with N telling which,
the next address stacked; Z, V, C, and N within the bounds, are free (48_muldiv_chk_system.md R294, 60_exceptions.md R338;
log 20). -/
def Obligations.ChkTrapsOutsideBounds : Prop :=
  ∀ (ea : Ea) (dn : Fin 8) (s s1 : State) (l : Loc), Instr.wellFormed (.chk ea dn) = true →
    resolve ea .w (extAt s 0) s = (l, s1) → LocReadable s.cfg .w l →
    let v := intOf .w (s.dreg dn)
    let b := intOf .w (locValue .w s1 l)
    (0 ≤ v → v ≤ b →
      ∃ t, exec (.chk ea dn) s = .next t ∧ t.sr.ccr.x = s.sr.ccr.x ∧ Advanced (.chk ea dn) noReg (eaSteps ea) [] s s1 t) ∧
    ((v < 0 ∨ b < v) → EntryReady vecChk s1 →
      ∃ t f, exec (.chk ea dn) s = .next t ∧ f.x = s.sr.ccr.x ∧ f.n = decide (v < 0) ∧
        Entered 6 (nextPc (.chk ea dn) s) s.sr.ipm (s1.setCcr f) t)

/-- TRAP #n, in either mode: vector 32 + n with the next address stacked (60_exceptions.md R345). -/
def Obligations.TrapEntersVector : Prop :=
  ∀ (n : Fin 16) (s : State), EntryReady (BitVec.ofNat 8 (32 + n.val)) s →
    ∃ t, exec (.trap n) s = .next t ∧ Entered (BitVec.ofNat 8 (32 + n.val)) (s.pc + 2) s.sr.ipm s t

/-- TRAPV: vector 7 with the next address stacked where V is set, else only the program counter moves; ILLEGAL and the two lines
take vectors 4, 10 and 11 with their own address stacked (60_exceptions.md R336, R339, R343, R344). -/
def Obligations.TrapvIllegalAndLines : Prop :=
  ∀ (s : State) (w : BitVec 12),
    (s.sr.ccr.v = false → exec .trapv s = .next { s with pc := s.pc + 2 }) ∧
    (s.sr.ccr.v = true → EntryReady 7 s → ∃ t, exec .trapv s = .next t ∧ Entered 7 (s.pc + 2) s.sr.ipm s t) ∧
    (EntryReady 4 s → ∃ t, exec .illegal s = .next t ∧ Entered 4 s.pc s.sr.ipm s t) ∧
    (EntryReady 10 s → ∃ t, exec (.lineA w) s = .next t ∧ Entered 10 s.pc s.sr.ipm s t) ∧
    (EntryReady 11 s → ∃ t, exec (.lineF w) s = .next t ∧ Entered 11 s.pc s.sr.ipm s t)

/-- RESET puts out its event and changes nothing else; STOP loads SR and stops, or with T set leaves the stopping to the trace
exception; where its operand clears S the parameter decides (48_muldiv_chk_system.md R298, R299; logs 10, 29). -/
def Obligations.ResetEventAndStop : Prop :=
  ∀ (w : Word) (s : State), s.sr.s = true →
    exec .reset s = .next { s with events := s.events ++ [.resetPeripherals], pc := s.pc + 2 } ∧
    (w.getLsbD 13 = true ∨ s.cfg.stopClearsS = .stopInUserMode →
      exec (.stop w) s =
        .next { s with sr := statusOf (fun k => w.getLsbD k), pc := s.pc + 4, run := if s.sr.t then s.run else .stopped }) ∧
    (w.getLsbD 13 = false → s.cfg.stopClearsS = .privilegeViolation → EntryReady vecPrivilege s →
      ∃ t, exec (.stop w) s = .next t ∧ Entered 8 s.pc s.sr.ipm s t)
end

