-- ==== Sys2Proof/Laws/Memory.lean ====
section
/-! SUPPORT. The memory list: reading after writing, the canonical form is kept, equal reads make equal memories. -/

namespace Sys2Proof.Machine

/-! ## The canonical form -/

theorem memWfFrom_mono {lo lo' : Nat} {m : List Host.Cell} (h : memWfFrom lo m = true) (hl : lo' ≤ lo) :
    memWfFrom lo' m = true := by
  cases m with
  | nil => rfl
  | cons e m =>
    simp only [memWfFrom, Bool.and_eq_true, decide_eq_true_eq] at h ⊢
    exact ⟨⟨by omega, h.1.2⟩, h.2⟩

/-- Below the first listed address nothing is listed. -/
theorem memRead_below {lo : Nat} {m : List Host.Cell} (h : memWfFrom lo m = true) {a : Nat} (ha : a < lo) :
    memRead m a = Config.emptyByte := by
  induction m generalizing lo with
  | nil => rfl
  | cons e m ih =>
    simp only [memWfFrom, Bool.and_eq_true, decide_eq_true_eq] at h
    have hne : ¬ e.1 = a := by omega
    simp only [memRead, if_neg hne]
    exact ih h.2 (by omega)

/-- A write leaves every other address alone. -/
theorem memRead_memWrite_ne (m : List Host.Cell) {a x : Nat} (b : Byte) (h : x ≠ a) :
    memRead (memWrite m a b) x = memRead m x := by
  have h' : ¬ a = x := fun e => h e.symm
  induction m with
  | nil => unfold memWrite; split <;> simp [memRead, h']
  | cons e m ih =>
    obtain ⟨k, c⟩ := e
    unfold memWrite
    split
    · split <;> simp [memRead, h']
    · split
      · rename_i hak
        subst hak
        split <;> simp [memRead, h']
      · simp [memRead, ih]

/-- A read of the address written gives the byte written. -/
theorem memRead_memWrite_same {lo : Nat} {m : List Host.Cell} (hm : memWfFrom lo m = true) (a : Nat) (b : Byte) :
    memRead (memWrite m a b) a = b := by
  induction m generalizing lo with
  | nil => unfold memWrite; split <;> simp_all [memRead]
  | cons e m ih =>
    obtain ⟨k, c⟩ := e
    simp only [memWfFrom, Bool.and_eq_true, decide_eq_true_eq] at hm
    unfold memWrite
    split
    · split
      · rename_i hb
        have hne : ¬ k = a := by omega
        simp only [memRead, if_neg hne, hb]
        exact memRead_below hm.2 (by omega)
      · simp [memRead]
    · split
      · rename_i hak
        split
        · rename_i hb
          rw [hb]
          exact memRead_below hm.2 (by omega)
        · simp [memRead]
      · rename_i hak
        have hne : ¬ k = a := fun e => hak e.symm
        simp only [memRead, if_neg hne]
        exact ih hm.2

theorem memRead_memWrite {m : List Host.Cell} (hm : Memory.wf m = true) (a x : Nat) (b : Byte) :
    memRead (memWrite m a b) x = if x = a then b else memRead m x := by
  split
  · rename_i h; rw [h]; exact memRead_memWrite_same hm a b
  · rename_i h; exact memRead_memWrite_ne m b h

theorem memWfFrom_memWrite {lo : Nat} {m : List Host.Cell} (hm : memWfFrom lo m = true) {a : Nat} (ha : lo ≤ a) (b : Byte) :
    memWfFrom lo (memWrite m a b) = true := by
  induction m generalizing lo with
  | nil => unfold memWrite; split <;> simp_all [memWfFrom]
  | cons e m ih =>
    obtain ⟨k, c⟩ := e
    have hm' := hm
    simp only [memWfFrom, Bool.and_eq_true, decide_eq_true_eq] at hm
    unfold memWrite
    split
    · split
      · exact hm'
      · rename_i hak hb
        simp only [memWfFrom, Bool.and_eq_true, decide_eq_true_eq]
        exact ⟨⟨ha, by simpa using hb⟩, ⟨by omega, hm.1.2⟩, hm.2⟩
    · split
      · rename_i hak
        split
        · exact memWfFrom_mono hm.2 (by omega)
        · rename_i hb
          subst hak
          simp only [memWfFrom, Bool.and_eq_true, decide_eq_true_eq]
          exact ⟨⟨ha, by simpa using hb⟩, hm.2⟩
      · simp only [memWfFrom, Bool.and_eq_true, decide_eq_true_eq]
        exact ⟨hm.1, ih hm.2 (by omega)⟩

/-- A write keeps the canonical form. -/
theorem wf_memWrite {m : List Host.Cell} (hm : Memory.wf m = true) (a : Nat) (b : Byte) :
    Memory.wf (memWrite m a b) = true := memWfFrom_memWrite hm (Nat.zero_le a) b

/-- A write lists no address but its own and those listed before. -/
theorem mem_memWrite {m : List Host.Cell} {a : Nat} {b : Byte} {e : Host.Cell} (h : e ∈ memWrite m a b) :
    e.1 = a ∨ e ∈ m := by
  induction m with
  | nil =>
    unfold memWrite at h
    split at h
    · simp at h
    · simp at h; exact .inl (by rw [h])
  | cons p m ih =>
    obtain ⟨k, c⟩ := p
    unfold memWrite at h
    split at h
    · split at h
      · exact .inr h
      · rcases List.mem_cons.mp h with h | h
        · exact .inl (by rw [h])
        · exact .inr h
    · split at h
      · split at h
        · exact .inr (List.mem_cons_of_mem _ h)
        · rcases List.mem_cons.mp h with h | h
          · exact .inl (by rw [h])
          · exact .inr (List.mem_cons_of_mem _ h)
      · rcases List.mem_cons.mp h with h | h
        · exact .inr (by rw [h]; exact List.mem_cons_self)
        · rcases ih h with h | h
          · exact .inl h
          · exact .inr (List.mem_cons_of_mem _ h)

theorem memWfFrom_ext {lo : Nat} {m m' : List Host.Cell} (h : memWfFrom lo m = true) (h' : memWfFrom lo m' = true)
    (e : ∀ a, memRead m a = memRead m' a) : m = m' := by
  induction m generalizing lo m' with
  | nil =>
    cases m' with
    | nil => rfl
    | cons p m' =>
      simp only [memWfFrom, Bool.and_eq_true, decide_eq_true_eq] at h'
      have := e p.1
      simp only [memRead, if_true] at this
      simp_all
  | cons q m ih =>
    obtain ⟨k, c⟩ := q
    simp only [memWfFrom, Bool.and_eq_true, decide_eq_true_eq] at h
    cases m' with
    | nil =>
      have := e k
      simp only [memRead, if_true] at this
      simp_all
    | cons p m' =>
      obtain ⟨k', c'⟩ := p
      simp only [memWfFrom, Bool.and_eq_true, decide_eq_true_eq] at h'
      have hk : k = k' := by
        rcases Nat.lt_trichotomy k k' with hlt | heq | hgt
        · have := e k
          have hne : ¬ k' = k := by omega
          simp only [memRead, if_true, if_neg hne, memRead_below h'.2 (by omega : k < k' + 1)] at this
          simp_all
        · exact heq
        · have := e k'
          have hne : ¬ k = k' := by omega
          simp only [memRead, if_true, if_neg hne, memRead_below h.2 (by omega : k' < k + 1)] at this
          simp_all
      subst hk
      have hc : c = c' := by have := e k; simpa [memRead] using this
      subst hc
      have : m = m' := by
        apply ih h.2 h'.2
        intro a
        by_cases hak : k = a
        · rw [memRead_below h.2 (by omega), memRead_below h'.2 (by omega)]
        · have := e a
          simpa [memRead, hak] using this
      rw [this]

/-- Canonical memories that read the same are the same. -/
theorem Memory.ext_of_read {m m' : List Host.Cell} (h : Memory.wf m = true) (h' : Memory.wf m' = true)
    (e : ∀ a, memRead m a = memRead m' a) : m = m' := memWfFrom_ext h h' e

/-- Memory right after reset is canonical. -/
theorem reset_memory_wf : Memory.wf State.reset.mem = true := rfl

/-! ## Bytes and accesses of a state -/

theorem physAddr_lt (c : Config) (a : Long) : physAddr c a < 2 ^ c.addrBits := Nat.mod_lt _ (Nat.two_pow_pos _)

/-- A byte stored leaves every other byte alone. -/
theorem memRead_storeByte_ne (s : State) (a : Long) (b : Byte) {x : Nat} (h : x ≠ physAddr s.cfg a) :
    memRead (s.storeByte a b).mem x = memRead s.mem x := by
  unfold State.storeByte
  split
  · rfl
  · exact memRead_memWrite_ne _ _ h

/-- A byte stored in RAM is read back. -/
theorem memRead_storeByte_same {s : State} (hm : Memory.wf s.mem = true) {a : Long} (hk : kindAt s.cfg a = .ram) (b : Byte) :
    memRead (s.storeByte a b).mem (physAddr s.cfg a) = b := by
  have : ¬ kindAt s.cfg a = .quietRom := by simp [hk]
  simp only [State.storeByte, if_neg this]
  exact memRead_memWrite_same hm _ _

theorem wf_storeByte {s : State} (hm : Memory.wf s.mem = true) (a : Long) (b : Byte) :
    Memory.wf (s.storeByte a b).mem = true := by
  unfold State.storeByte
  split
  · exact hm
  · exact wf_memWrite hm _ _

theorem storeByte_cfg (s : State) (a : Long) (b : Byte) : (s.storeByte a b).cfg = s.cfg := by
  unfold State.storeByte; split <;> rfl

/-- A store keeps the canonical form. -/
theorem wf_store {s : State} (hm : Memory.wf s.mem = true) (sz : Size) (a v : Long) : Memory.wf (s.store sz a v).mem = true := by
  cases sz <;> simp only [State.store]
  · exact wf_storeByte hm _ _
  · exact wf_storeByte (wf_storeByte hm _ _) _ _
  · exact wf_storeByte (wf_storeByte (wf_storeByte (wf_storeByte hm _ _) _ _) _ _) _ _

/-- A store leaves every byte outside it alone. -/
theorem memRead_store_ne (s : State) (sz : Size) (a v : Long) {x : Nat} (h : x ∉ (accessBytes sz a).map (physAddr s.cfg)) :
    memRead (s.store sz a v).mem x = memRead s.mem x := by
  cases sz <;> simp only [State.store, accessBytes, List.map, List.mem_cons, List.not_mem_nil, or_false, not_or] at h ⊢
  · exact memRead_storeByte_ne _ _ _ h
  · rw [memRead_storeByte_ne _ _ _ (by rw [storeByte_cfg]; exact h.2), memRead_storeByte_ne _ _ _ h.1]
  · rw [memRead_storeByte_ne _ _ _ (by simp only [storeByte_cfg]; exact h.2.2.2),
      memRead_storeByte_ne _ _ _ (by simp only [storeByte_cfg]; exact h.2.2.1),
      memRead_storeByte_ne _ _ _ (by simp only [storeByte_cfg]; exact h.2.1), memRead_storeByte_ne _ _ _ h.1]

/-- A store keeps memory within the address space. -/
theorem bound_storeByte {s : State} (hb : ∀ e ∈ s.mem, e.1 < 2 ^ s.cfg.addrBits) (a : Long) (b : Byte) :
    ∀ e ∈ (s.storeByte a b).mem, e.1 < 2 ^ s.cfg.addrBits := by
  intro e he
  unfold State.storeByte at he
  split at he
  · exact hb e he
  · rcases mem_memWrite he with h | h
    · rw [h]; exact physAddr_lt _ _
    · exact hb e h

theorem bound_store {s : State} (hb : ∀ e ∈ s.mem, e.1 < 2 ^ s.cfg.addrBits) (sz : Size) (a v : Long) :
    ∀ e ∈ (s.store sz a v).mem, e.1 < 2 ^ s.cfg.addrBits := by
  have step : ∀ {t : State} (_ : t.cfg = s.cfg) (_ : ∀ e ∈ t.mem, e.1 < 2 ^ s.cfg.addrBits) (a : Long) (b : Byte),
      ∀ e ∈ (t.storeByte a b).mem, e.1 < 2 ^ s.cfg.addrBits := by
    intro t hc ht a b
    rw [← hc] at ht ⊢
    exact bound_storeByte ht a b
  cases sz <;> simp only [State.store]
  · exact step rfl hb _ _
  · exact step (storeByte_cfg _ _ _) (step rfl hb _ _) _ _
  · refine step ?_ (step ?_ (step ?_ (step rfl hb _ _) _ _) _ _) _ _ <;> simp [storeByte_cfg]

/-- What a read answers: the value in memory, and nothing stops it. -/
theorem readMem_eq_ok {s : State} {sz : Size} {a v : Long} :
    readMem s sz a = .ok v ↔ readStop s sz a = none ∧ v = s.load sz a := by
  unfold readMem
  split
  · rename_i h; simp [h]
  · rename_i h; simp [h, eq_comm]

/-- What a write answers: the state with the value stored, and nothing stops it. -/
theorem writeMem_eq_ok {s t : State} {sz : Size} {a v : Long} :
    writeMem s sz a v = .ok t ↔ writeStop s sz a = none ∧ t = s.store sz a v := by
  unfold writeMem
  split
  · rename_i h; simp [h]
  · rename_i h; simp [h, eq_comm]

end Sys2Proof.Machine
end

