-- ==== Sys2Proof/Laws/State.lean ====
section
/-! SUPPORT. One lemma for each field and each update of a state, and what reading a register after writing one gives. -/

namespace Sys2Proof.Machine

/-! ## setDreg -/

@[simp] theorem State.setDreg_a (s : State) (r : Fin 8) (v : Long) : (s.setDreg r v).a = s.a := rfl
@[simp] theorem State.setDreg_usp (s : State) (r : Fin 8) (v : Long) : (s.setDreg r v).usp = s.usp := rfl
@[simp] theorem State.setDreg_ssp (s : State) (r : Fin 8) (v : Long) : (s.setDreg r v).ssp = s.ssp := rfl
@[simp] theorem State.setDreg_pc (s : State) (r : Fin 8) (v : Long) : (s.setDreg r v).pc = s.pc := rfl
@[simp] theorem State.setDreg_sr (s : State) (r : Fin 8) (v : Long) : (s.setDreg r v).sr = s.sr := rfl
@[simp] theorem State.setDreg_run (s : State) (r : Fin 8) (v : Long) : (s.setDreg r v).run = s.run := rfl
@[simp] theorem State.setDreg_mem (s : State) (r : Fin 8) (v : Long) : (s.setDreg r v).mem = s.mem := rfl
@[simp] theorem State.setDreg_stale (s : State) (r : Fin 8) (v : Long) : (s.setDreg r v).stale = s.stale := rfl
@[simp] theorem State.setDreg_lastIpl (s : State) (r : Fin 8) (v : Long) : (s.setDreg r v).lastIpl = s.lastIpl := rfl
@[simp] theorem State.setDreg_inputs (s : State) (r : Fin 8) (v : Long) : (s.setDreg r v).inputs = s.inputs := rfl
@[simp] theorem State.setDreg_events (s : State) (r : Fin 8) (v : Long) : (s.setDreg r v).events = s.events := rfl
@[simp] theorem State.setDreg_draws (s : State) (r : Fin 8) (v : Long) : (s.setDreg r v).draws = s.draws := rfl
@[simp] theorem State.setDreg_cfg (s : State) (r : Fin 8) (v : Long) : (s.setDreg r v).cfg = s.cfg := rfl

/-! ## setDregAt -/

@[simp] theorem State.setDregAt_a (s : State) (sz : Size) (r : Fin 8) (v : Long) : (s.setDregAt sz r v).a = s.a := rfl
@[simp] theorem State.setDregAt_usp (s : State) (sz : Size) (r : Fin 8) (v : Long) : (s.setDregAt sz r v).usp = s.usp := rfl
@[simp] theorem State.setDregAt_ssp (s : State) (sz : Size) (r : Fin 8) (v : Long) : (s.setDregAt sz r v).ssp = s.ssp := rfl
@[simp] theorem State.setDregAt_pc (s : State) (sz : Size) (r : Fin 8) (v : Long) : (s.setDregAt sz r v).pc = s.pc := rfl
@[simp] theorem State.setDregAt_sr (s : State) (sz : Size) (r : Fin 8) (v : Long) : (s.setDregAt sz r v).sr = s.sr := rfl
@[simp] theorem State.setDregAt_run (s : State) (sz : Size) (r : Fin 8) (v : Long) : (s.setDregAt sz r v).run = s.run := rfl
@[simp] theorem State.setDregAt_mem (s : State) (sz : Size) (r : Fin 8) (v : Long) : (s.setDregAt sz r v).mem = s.mem := rfl
@[simp] theorem State.setDregAt_stale (s : State) (sz : Size) (r : Fin 8) (v : Long) : (s.setDregAt sz r v).stale = s.stale := rfl
@[simp] theorem State.setDregAt_lastIpl (s : State) (sz : Size) (r : Fin 8) (v : Long) : (s.setDregAt sz r v).lastIpl = s.lastIpl := rfl
@[simp] theorem State.setDregAt_inputs (s : State) (sz : Size) (r : Fin 8) (v : Long) : (s.setDregAt sz r v).inputs = s.inputs := rfl
@[simp] theorem State.setDregAt_events (s : State) (sz : Size) (r : Fin 8) (v : Long) : (s.setDregAt sz r v).events = s.events := rfl
@[simp] theorem State.setDregAt_draws (s : State) (sz : Size) (r : Fin 8) (v : Long) : (s.setDregAt sz r v).draws = s.draws := rfl
@[simp] theorem State.setDregAt_cfg (s : State) (sz : Size) (r : Fin 8) (v : Long) : (s.setDregAt sz r v).cfg = s.cfg := rfl

/-! ## jump -/

@[simp] theorem State.jump_d (s : State) (t : Long) : (s.jump t).d = s.d := rfl
@[simp] theorem State.jump_a (s : State) (t : Long) : (s.jump t).a = s.a := rfl
@[simp] theorem State.jump_usp (s : State) (t : Long) : (s.jump t).usp = s.usp := rfl
@[simp] theorem State.jump_ssp (s : State) (t : Long) : (s.jump t).ssp = s.ssp := rfl
@[simp] theorem State.jump_sr (s : State) (t : Long) : (s.jump t).sr = s.sr := rfl
@[simp] theorem State.jump_run (s : State) (t : Long) : (s.jump t).run = s.run := rfl
@[simp] theorem State.jump_mem (s : State) (t : Long) : (s.jump t).mem = s.mem := rfl
@[simp] theorem State.jump_stale (s : State) (t : Long) : (s.jump t).stale = s.stale := rfl
@[simp] theorem State.jump_lastIpl (s : State) (t : Long) : (s.jump t).lastIpl = s.lastIpl := rfl
@[simp] theorem State.jump_inputs (s : State) (t : Long) : (s.jump t).inputs = s.inputs := rfl
@[simp] theorem State.jump_events (s : State) (t : Long) : (s.jump t).events = s.events := rfl
@[simp] theorem State.jump_draws (s : State) (t : Long) : (s.jump t).draws = s.draws := rfl
@[simp] theorem State.jump_cfg (s : State) (t : Long) : (s.jump t).cfg = s.cfg := rfl

/-! ## advance -/

@[simp] theorem State.advance_d (s : State) (len : Long) : (s.advance len).d = s.d := rfl
@[simp] theorem State.advance_a (s : State) (len : Long) : (s.advance len).a = s.a := rfl
@[simp] theorem State.advance_usp (s : State) (len : Long) : (s.advance len).usp = s.usp := rfl
@[simp] theorem State.advance_ssp (s : State) (len : Long) : (s.advance len).ssp = s.ssp := rfl
@[simp] theorem State.advance_sr (s : State) (len : Long) : (s.advance len).sr = s.sr := rfl
@[simp] theorem State.advance_run (s : State) (len : Long) : (s.advance len).run = s.run := rfl
@[simp] theorem State.advance_mem (s : State) (len : Long) : (s.advance len).mem = s.mem := rfl
@[simp] theorem State.advance_stale (s : State) (len : Long) : (s.advance len).stale = s.stale := rfl
@[simp] theorem State.advance_lastIpl (s : State) (len : Long) : (s.advance len).lastIpl = s.lastIpl := rfl
@[simp] theorem State.advance_inputs (s : State) (len : Long) : (s.advance len).inputs = s.inputs := rfl
@[simp] theorem State.advance_events (s : State) (len : Long) : (s.advance len).events = s.events := rfl
@[simp] theorem State.advance_draws (s : State) (len : Long) : (s.advance len).draws = s.draws := rfl
@[simp] theorem State.advance_cfg (s : State) (len : Long) : (s.advance len).cfg = s.cfg := rfl

/-! ## setCcr -/

@[simp] theorem State.setCcr_d (s : State) (c : Ccr) : (s.setCcr c).d = s.d := rfl
@[simp] theorem State.setCcr_a (s : State) (c : Ccr) : (s.setCcr c).a = s.a := rfl
@[simp] theorem State.setCcr_usp (s : State) (c : Ccr) : (s.setCcr c).usp = s.usp := rfl
@[simp] theorem State.setCcr_ssp (s : State) (c : Ccr) : (s.setCcr c).ssp = s.ssp := rfl
@[simp] theorem State.setCcr_pc (s : State) (c : Ccr) : (s.setCcr c).pc = s.pc := rfl
@[simp] theorem State.setCcr_run (s : State) (c : Ccr) : (s.setCcr c).run = s.run := rfl
@[simp] theorem State.setCcr_mem (s : State) (c : Ccr) : (s.setCcr c).mem = s.mem := rfl
@[simp] theorem State.setCcr_stale (s : State) (c : Ccr) : (s.setCcr c).stale = s.stale := rfl
@[simp] theorem State.setCcr_lastIpl (s : State) (c : Ccr) : (s.setCcr c).lastIpl = s.lastIpl := rfl
@[simp] theorem State.setCcr_inputs (s : State) (c : Ccr) : (s.setCcr c).inputs = s.inputs := rfl
@[simp] theorem State.setCcr_events (s : State) (c : Ccr) : (s.setCcr c).events = s.events := rfl
@[simp] theorem State.setCcr_draws (s : State) (c : Ccr) : (s.setCcr c).draws = s.draws := rfl
@[simp] theorem State.setCcr_cfg (s : State) (c : Ccr) : (s.setCcr c).cfg = s.cfg := rfl

/-! ## setSr -/

@[simp] theorem State.setSr_d (s : State) (r : StatusReg) : (s.setSr r).d = s.d := rfl
@[simp] theorem State.setSr_a (s : State) (r : StatusReg) : (s.setSr r).a = s.a := rfl
@[simp] theorem State.setSr_usp (s : State) (r : StatusReg) : (s.setSr r).usp = s.usp := rfl
@[simp] theorem State.setSr_ssp (s : State) (r : StatusReg) : (s.setSr r).ssp = s.ssp := rfl
@[simp] theorem State.setSr_pc (s : State) (r : StatusReg) : (s.setSr r).pc = s.pc := rfl
@[simp] theorem State.setSr_run (s : State) (r : StatusReg) : (s.setSr r).run = s.run := rfl
@[simp] theorem State.setSr_mem (s : State) (r : StatusReg) : (s.setSr r).mem = s.mem := rfl
@[simp] theorem State.setSr_stale (s : State) (r : StatusReg) : (s.setSr r).stale = s.stale := rfl
@[simp] theorem State.setSr_lastIpl (s : State) (r : StatusReg) : (s.setSr r).lastIpl = s.lastIpl := rfl
@[simp] theorem State.setSr_inputs (s : State) (r : StatusReg) : (s.setSr r).inputs = s.inputs := rfl
@[simp] theorem State.setSr_events (s : State) (r : StatusReg) : (s.setSr r).events = s.events := rfl
@[simp] theorem State.setSr_draws (s : State) (r : StatusReg) : (s.setSr r).draws = s.draws := rfl
@[simp] theorem State.setSr_cfg (s : State) (r : StatusReg) : (s.setSr r).cfg = s.cfg := rfl

/-! ## skipDraws -/

@[simp] theorem State.skipDraws_d (s : State) (k : Nat) : (s.skipDraws k).d = s.d := rfl
@[simp] theorem State.skipDraws_a (s : State) (k : Nat) : (s.skipDraws k).a = s.a := rfl
@[simp] theorem State.skipDraws_usp (s : State) (k : Nat) : (s.skipDraws k).usp = s.usp := rfl
@[simp] theorem State.skipDraws_ssp (s : State) (k : Nat) : (s.skipDraws k).ssp = s.ssp := rfl
@[simp] theorem State.skipDraws_pc (s : State) (k : Nat) : (s.skipDraws k).pc = s.pc := rfl
@[simp] theorem State.skipDraws_sr (s : State) (k : Nat) : (s.skipDraws k).sr = s.sr := rfl
@[simp] theorem State.skipDraws_run (s : State) (k : Nat) : (s.skipDraws k).run = s.run := rfl
@[simp] theorem State.skipDraws_mem (s : State) (k : Nat) : (s.skipDraws k).mem = s.mem := rfl
@[simp] theorem State.skipDraws_stale (s : State) (k : Nat) : (s.skipDraws k).stale = s.stale := rfl
@[simp] theorem State.skipDraws_lastIpl (s : State) (k : Nat) : (s.skipDraws k).lastIpl = s.lastIpl := rfl
@[simp] theorem State.skipDraws_inputs (s : State) (k : Nat) : (s.skipDraws k).inputs = s.inputs := rfl
@[simp] theorem State.skipDraws_events (s : State) (k : Nat) : (s.skipDraws k).events = s.events := rfl
@[simp] theorem State.skipDraws_cfg (s : State) (k : Nat) : (s.skipDraws k).cfg = s.cfg := rfl

/-! ## dropInput -/

@[simp] theorem State.dropInput_d (s : State) : s.dropInput.d = s.d := rfl
@[simp] theorem State.dropInput_a (s : State) : s.dropInput.a = s.a := rfl
@[simp] theorem State.dropInput_usp (s : State) : s.dropInput.usp = s.usp := rfl
@[simp] theorem State.dropInput_ssp (s : State) : s.dropInput.ssp = s.ssp := rfl
@[simp] theorem State.dropInput_pc (s : State) : s.dropInput.pc = s.pc := rfl
@[simp] theorem State.dropInput_sr (s : State) : s.dropInput.sr = s.sr := rfl
@[simp] theorem State.dropInput_run (s : State) : s.dropInput.run = s.run := rfl
@[simp] theorem State.dropInput_mem (s : State) : s.dropInput.mem = s.mem := rfl
@[simp] theorem State.dropInput_stale (s : State) : s.dropInput.stale = s.stale := rfl
@[simp] theorem State.dropInput_lastIpl (s : State) : s.dropInput.lastIpl = s.lastIpl := rfl
@[simp] theorem State.dropInput_events (s : State) : s.dropInput.events = s.events := rfl
@[simp] theorem State.dropInput_draws (s : State) : s.dropInput.draws = s.draws := rfl
@[simp] theorem State.dropInput_cfg (s : State) : s.dropInput.cfg = s.cfg := rfl

/-! ## setSp -/

@[simp] theorem State.setSp_d (s : State) (v : Long) : (s.setSp v).d = s.d := by unfold State.setSp; split <;> rfl
@[simp] theorem State.setSp_a (s : State) (v : Long) : (s.setSp v).a = s.a := by unfold State.setSp; split <;> rfl
@[simp] theorem State.setSp_pc (s : State) (v : Long) : (s.setSp v).pc = s.pc := by unfold State.setSp; split <;> rfl
@[simp] theorem State.setSp_sr (s : State) (v : Long) : (s.setSp v).sr = s.sr := by unfold State.setSp; split <;> rfl
@[simp] theorem State.setSp_run (s : State) (v : Long) : (s.setSp v).run = s.run := by unfold State.setSp; split <;> rfl
@[simp] theorem State.setSp_mem (s : State) (v : Long) : (s.setSp v).mem = s.mem := by unfold State.setSp; split <;> rfl
@[simp] theorem State.setSp_stale (s : State) (v : Long) : (s.setSp v).stale = s.stale := by unfold State.setSp; split <;> rfl
@[simp] theorem State.setSp_lastIpl (s : State) (v : Long) : (s.setSp v).lastIpl = s.lastIpl := by unfold State.setSp; split <;> rfl
@[simp] theorem State.setSp_inputs (s : State) (v : Long) : (s.setSp v).inputs = s.inputs := by unfold State.setSp; split <;> rfl
@[simp] theorem State.setSp_events (s : State) (v : Long) : (s.setSp v).events = s.events := by unfold State.setSp; split <;> rfl
@[simp] theorem State.setSp_draws (s : State) (v : Long) : (s.setSp v).draws = s.draws := by unfold State.setSp; split <;> rfl
@[simp] theorem State.setSp_cfg (s : State) (v : Long) : (s.setSp v).cfg = s.cfg := by unfold State.setSp; split <;> rfl

/-! ## setAreg -/

@[simp] theorem State.setAreg_d (s : State) (r : Fin 8) (v : Long) : (s.setAreg r v).d = s.d := by unfold State.setAreg; split <;> simp
@[simp] theorem State.setAreg_pc (s : State) (r : Fin 8) (v : Long) : (s.setAreg r v).pc = s.pc := by unfold State.setAreg; split <;> simp
@[simp] theorem State.setAreg_sr (s : State) (r : Fin 8) (v : Long) : (s.setAreg r v).sr = s.sr := by unfold State.setAreg; split <;> simp
@[simp] theorem State.setAreg_run (s : State) (r : Fin 8) (v : Long) : (s.setAreg r v).run = s.run := by unfold State.setAreg; split <;> simp
@[simp] theorem State.setAreg_mem (s : State) (r : Fin 8) (v : Long) : (s.setAreg r v).mem = s.mem := by unfold State.setAreg; split <;> simp
@[simp] theorem State.setAreg_stale (s : State) (r : Fin 8) (v : Long) : (s.setAreg r v).stale = s.stale := by unfold State.setAreg; split <;> simp
@[simp] theorem State.setAreg_lastIpl (s : State) (r : Fin 8) (v : Long) : (s.setAreg r v).lastIpl = s.lastIpl := by unfold State.setAreg; split <;> simp
@[simp] theorem State.setAreg_inputs (s : State) (r : Fin 8) (v : Long) : (s.setAreg r v).inputs = s.inputs := by unfold State.setAreg; split <;> simp
@[simp] theorem State.setAreg_events (s : State) (r : Fin 8) (v : Long) : (s.setAreg r v).events = s.events := by unfold State.setAreg; split <;> simp
@[simp] theorem State.setAreg_draws (s : State) (r : Fin 8) (v : Long) : (s.setAreg r v).draws = s.draws := by unfold State.setAreg; split <;> simp
@[simp] theorem State.setAreg_cfg (s : State) (r : Fin 8) (v : Long) : (s.setAreg r v).cfg = s.cfg := by unfold State.setAreg; split <;> simp

/-! ## storeByte -/

@[simp] theorem State.storeByte_d (s : State) (a : Long) (b : Byte) : (s.storeByte a b).d = s.d := by unfold State.storeByte; split <;> rfl
@[simp] theorem State.storeByte_a (s : State) (a : Long) (b : Byte) : (s.storeByte a b).a = s.a := by unfold State.storeByte; split <;> rfl
@[simp] theorem State.storeByte_usp (s : State) (a : Long) (b : Byte) : (s.storeByte a b).usp = s.usp := by unfold State.storeByte; split <;> rfl
@[simp] theorem State.storeByte_ssp (s : State) (a : Long) (b : Byte) : (s.storeByte a b).ssp = s.ssp := by unfold State.storeByte; split <;> rfl
@[simp] theorem State.storeByte_pc (s : State) (a : Long) (b : Byte) : (s.storeByte a b).pc = s.pc := by unfold State.storeByte; split <;> rfl
@[simp] theorem State.storeByte_sr (s : State) (a : Long) (b : Byte) : (s.storeByte a b).sr = s.sr := by unfold State.storeByte; split <;> rfl
@[simp] theorem State.storeByte_run (s : State) (a : Long) (b : Byte) : (s.storeByte a b).run = s.run := by unfold State.storeByte; split <;> rfl
@[simp] theorem State.storeByte_stale (s : State) (a : Long) (b : Byte) : (s.storeByte a b).stale = s.stale := by unfold State.storeByte; split <;> rfl
@[simp] theorem State.storeByte_lastIpl (s : State) (a : Long) (b : Byte) : (s.storeByte a b).lastIpl = s.lastIpl := by unfold State.storeByte; split <;> rfl
@[simp] theorem State.storeByte_inputs (s : State) (a : Long) (b : Byte) : (s.storeByte a b).inputs = s.inputs := by unfold State.storeByte; split <;> rfl
@[simp] theorem State.storeByte_events (s : State) (a : Long) (b : Byte) : (s.storeByte a b).events = s.events := by unfold State.storeByte; split <;> rfl
@[simp] theorem State.storeByte_draws (s : State) (a : Long) (b : Byte) : (s.storeByte a b).draws = s.draws := by unfold State.storeByte; split <;> rfl
@[simp] theorem State.storeByte_cfg (s : State) (a : Long) (b : Byte) : (s.storeByte a b).cfg = s.cfg := by unfold State.storeByte; split <;> rfl

/-! ## setRreg -/

@[simp] theorem State.setRreg_pc (s : State) (k : Fin 16) (v : Long) : (s.setRreg k v).pc = s.pc := by unfold State.setRreg; split <;> simp
@[simp] theorem State.setRreg_sr (s : State) (k : Fin 16) (v : Long) : (s.setRreg k v).sr = s.sr := by unfold State.setRreg; split <;> simp
@[simp] theorem State.setRreg_run (s : State) (k : Fin 16) (v : Long) : (s.setRreg k v).run = s.run := by unfold State.setRreg; split <;> simp
@[simp] theorem State.setRreg_mem (s : State) (k : Fin 16) (v : Long) : (s.setRreg k v).mem = s.mem := by unfold State.setRreg; split <;> simp
@[simp] theorem State.setRreg_stale (s : State) (k : Fin 16) (v : Long) : (s.setRreg k v).stale = s.stale := by unfold State.setRreg; split <;> simp
@[simp] theorem State.setRreg_lastIpl (s : State) (k : Fin 16) (v : Long) : (s.setRreg k v).lastIpl = s.lastIpl := by unfold State.setRreg; split <;> simp
@[simp] theorem State.setRreg_inputs (s : State) (k : Fin 16) (v : Long) : (s.setRreg k v).inputs = s.inputs := by unfold State.setRreg; split <;> simp
@[simp] theorem State.setRreg_events (s : State) (k : Fin 16) (v : Long) : (s.setRreg k v).events = s.events := by unfold State.setRreg; split <;> simp
@[simp] theorem State.setRreg_draws (s : State) (k : Fin 16) (v : Long) : (s.setRreg k v).draws = s.draws := by unfold State.setRreg; split <;> simp
@[simp] theorem State.setRreg_cfg (s : State) (k : Fin 16) (v : Long) : (s.setRreg k v).cfg = s.cfg := by unfold State.setRreg; split <;> simp

/-! ## store -/

@[simp] theorem State.store_d (s : State) (sz : Size) (a v : Long) : (s.store sz a v).d = s.d := by cases sz <;> simp [State.store]
@[simp] theorem State.store_a (s : State) (sz : Size) (a v : Long) : (s.store sz a v).a = s.a := by cases sz <;> simp [State.store]
@[simp] theorem State.store_usp (s : State) (sz : Size) (a v : Long) : (s.store sz a v).usp = s.usp := by cases sz <;> simp [State.store]
@[simp] theorem State.store_ssp (s : State) (sz : Size) (a v : Long) : (s.store sz a v).ssp = s.ssp := by cases sz <;> simp [State.store]
@[simp] theorem State.store_pc (s : State) (sz : Size) (a v : Long) : (s.store sz a v).pc = s.pc := by cases sz <;> simp [State.store]
@[simp] theorem State.store_sr (s : State) (sz : Size) (a v : Long) : (s.store sz a v).sr = s.sr := by cases sz <;> simp [State.store]
@[simp] theorem State.store_run (s : State) (sz : Size) (a v : Long) : (s.store sz a v).run = s.run := by cases sz <;> simp [State.store]
@[simp] theorem State.store_stale (s : State) (sz : Size) (a v : Long) : (s.store sz a v).stale = s.stale := by cases sz <;> simp [State.store]
@[simp] theorem State.store_lastIpl (s : State) (sz : Size) (a v : Long) : (s.store sz a v).lastIpl = s.lastIpl := by cases sz <;> simp [State.store]
@[simp] theorem State.store_inputs (s : State) (sz : Size) (a v : Long) : (s.store sz a v).inputs = s.inputs := by cases sz <;> simp [State.store]
@[simp] theorem State.store_events (s : State) (sz : Size) (a v : Long) : (s.store sz a v).events = s.events := by cases sz <;> simp [State.store]
@[simp] theorem State.store_draws (s : State) (sz : Size) (a v : Long) : (s.store sz a v).draws = s.draws := by cases sz <;> simp [State.store]
@[simp] theorem State.store_cfg (s : State) (sz : Size) (a v : Long) : (s.store sz a v).cfg = s.cfg := by cases sz <;> simp [State.store]

/-! ## Changed fields -/

@[simp] theorem State.jump_pc (s : State) (t : Long) : (s.jump t).pc = t := rfl
@[simp] theorem State.advance_pc (s : State) (len : Long) : (s.advance len).pc = s.pc + len := rfl
@[simp] theorem State.setCcr_ccr (s : State) (c : Ccr) : (s.setCcr c).sr.ccr = c := rfl
@[simp] theorem State.setCcr_t (s : State) (c : Ccr) : (s.setCcr c).sr.t = s.sr.t := rfl
@[simp] theorem State.setCcr_s (s : State) (c : Ccr) : (s.setCcr c).sr.s = s.sr.s := rfl
@[simp] theorem State.setCcr_ipm (s : State) (c : Ccr) : (s.setCcr c).sr.ipm = s.sr.ipm := rfl
@[simp] theorem State.setSr_sr (s : State) (r : StatusReg) : (s.setSr r).sr = r := rfl
@[simp] theorem State.skipDraws_draws (s : State) (k : Nat) : (s.skipDraws k).draws = s.draws + k := rfl

/-! ## Registers -/

theorem State.dreg_setDreg (s : State) (r q : Fin 8) (v : Long) :
    (s.setDreg r v).dreg q = if q = r then v else s.dreg q := by
  simp only [State.dreg, State.setDreg, Vector.getElem_set, Fin.ext_iff]
  split <;> split <;> simp_all

@[simp] theorem State.dreg_setDreg_same (s : State) (r : Fin 8) (v : Long) : (s.setDreg r v).dreg r = v := by
  simp [State.dreg_setDreg]

theorem State.dreg_setDreg_ne (s : State) (r q : Fin 8) (v : Long) (h : q ≠ r) : (s.setDreg r v).dreg q = s.dreg q := by
  simp [State.dreg_setDreg, h]

@[simp] theorem State.dreg_setDregAt_same (s : State) (sz : Size) (r : Fin 8) (v : Long) :
    (s.setDregAt sz r v).dreg r = insertLow sz (s.dreg r) v := by simp [State.setDregAt]

theorem State.dreg_setDregAt_ne (s : State) (sz : Size) (r q : Fin 8) (v : Long) (h : q ≠ r) :
    (s.setDregAt sz r v).dreg q = s.dreg q := by simp [State.setDregAt, State.dreg_setDreg, h]

@[simp] theorem State.sp_setSp (s : State) (v : Long) : (s.setSp v).sp = v := by
  unfold State.setSp State.sp; split <;> simp_all

/-- An address register depends on these fields alone. -/
theorem State.areg_congr {s t : State} (ha : t.a = s.a) (hu : t.usp = s.usp) (hs : t.ssp = s.ssp) (hr : t.sr.s = s.sr.s)
    (q : Fin 8) : t.areg q = s.areg q := by
  simp only [State.areg, State.sp, ha, hu, hs, hr]

theorem State.areg_setAreg (s : State) (r q : Fin 8) (v : Long) :
    (s.setAreg r v).areg q = if q = r then v else s.areg q := by
  by_cases hq : q.val < 7 <;> by_cases hr : r.val < 7
  · simp only [State.areg, State.setAreg, hq, hr, dif_pos, Vector.getElem_set]
    by_cases e : q = r
    · simp [e]
    · have e2 : ¬ r.val = q.val := fun h => e (Fin.ext h.symm)
      simp [e, e2]
  · have : q ≠ r := fun e => hr (e ▸ hq)
    rw [if_neg this]
    simp only [State.setAreg, hr, dif_neg, not_false_iff]
    exact (by rw [State.areg, State.areg, dif_pos hq, dif_pos hq]; simp)
  · have : q ≠ r := fun e => hq (e ▸ hr)
    simp only [State.areg, State.setAreg, hq, hr, this, dif_pos, dif_neg, not_false_iff, if_false]
    rw [State.sp, State.sp]
  · have : q = r := Fin.ext (by omega)
    simp [State.areg, State.setAreg, hr, this]

@[simp] theorem State.areg_setAreg_same (s : State) (r : Fin 8) (v : Long) : (s.setAreg r v).areg r = v := by
  simp [State.areg_setAreg]

theorem State.areg_setAreg_ne (s : State) (r q : Fin 8) (v : Long) (h : q ≠ r) : (s.setAreg r v).areg q = s.areg q := by
  simp [State.areg_setAreg, h]

@[simp] theorem State.dreg_setAreg (s : State) (r q : Fin 8) (v : Long) : (s.setAreg r v).dreg q = s.dreg q := by
  simp [State.dreg]

@[simp] theorem State.areg_setDreg (s : State) (r q : Fin 8) (v : Long) : (s.setDreg r v).areg q = s.areg q := rfl

@[simp] theorem State.areg_setDregAt (s : State) (sz : Size) (r q : Fin 8) (v : Long) :
    (s.setDregAt sz r v).areg q = s.areg q := rfl

@[simp] theorem State.dreg_setCcr (s : State) (q : Fin 8) (c : Ccr) : (s.setCcr c).dreg q = s.dreg q := rfl
@[simp] theorem State.areg_setCcr (s : State) (q : Fin 8) (c : Ccr) : (s.setCcr c).areg q = s.areg q := rfl
@[simp] theorem State.dreg_advance (s : State) (q : Fin 8) (l : Long) : (s.advance l).dreg q = s.dreg q := rfl
@[simp] theorem State.areg_advance (s : State) (q : Fin 8) (l : Long) : (s.advance l).areg q = s.areg q := rfl
@[simp] theorem State.dreg_jump (s : State) (q : Fin 8) (l : Long) : (s.jump l).dreg q = s.dreg q := rfl
@[simp] theorem State.areg_jump (s : State) (q : Fin 8) (l : Long) : (s.jump l).areg q = s.areg q := rfl
@[simp] theorem State.dreg_skipDraws (s : State) (q : Fin 8) (k : Nat) : (s.skipDraws k).dreg q = s.dreg q := rfl
@[simp] theorem State.areg_skipDraws (s : State) (q : Fin 8) (k : Nat) : (s.skipDraws k).areg q = s.areg q := rfl

@[simp] theorem State.dreg_store (s : State) (sz : Size) (a v : Long) (q : Fin 8) :
    (s.store sz a v).dreg q = s.dreg q := by simp [State.dreg]

@[simp] theorem State.areg_store (s : State) (sz : Size) (a v : Long) (q : Fin 8) :
    (s.store sz a v).areg q = s.areg q :=
  State.areg_congr (by simp) (by simp) (by simp) (by simp) q

/-- The stack pointer that is not active is not written through an address register (10_state.md R23). -/
theorem State.other_setAreg (s : State) (r : Fin 8) (v : Long) :
    (if s.sr.s then (s.setAreg r v).usp else (s.setAreg r v).ssp) = if s.sr.s then s.usp else s.ssp := by
  by_cases h : r.val < 7
  · simp [State.setAreg, h]
  · simp only [State.setAreg, h, dif_neg, not_false_iff, State.setSp]
    split <;> simp_all

end Sys2Proof.Machine
end

