-- ==== Sys2Proof/Laws/Access.lean ====
section
/-! SUPPORT. When an access completes, and what a load reads after a store. -/

namespace Sys2Proof.Machine

open Sys2Proof.Safety

/-! ## Addresses -/

/-- An address a few bytes on, in the reduced address space (20_memory.md R50). -/
theorem physAddr_add {c : Config} (h : c.addrBits ≤ 32) (a : Long) (k : Nat) :
    physAddr c (a + BitVec.ofNat 32 k) = (a.toNat + k) % 2 ^ c.addrBits := by
  have hd : (2 ^ c.addrBits : Nat) ∣ 2 ^ 32 := Nat.pow_dvd_pow 2 h
  simp only [physAddr, BitVec.toNat_add, BitVec.toNat_ofNat]
  rw [Nat.mod_mod_of_dvd _ hd, Nat.add_mod, Nat.mod_mod_of_dvd _ hd, ← Nat.add_mod]

/-- Addresses less than 1024 apart are different bytes. -/
theorem physAddr_add_ne {c : Config} (h : addrBitsOk c) (a : Long) {i j : Nat} (hi : i < 1024) (hj : j < 1024) (hij : i ≠ j) :
    physAddr c (a + BitVec.ofNat 32 i) ≠ physAddr c (a + BitVec.ofNat 32 j) := by
  rw [physAddr_add h.2, physAddr_add h.2]
  have h10 : (1024 : Nat) ≤ 2 ^ c.addrBits := by
    have : (2 : Nat) ^ 10 ≤ 2 ^ c.addrBits := Nat.pow_le_pow_right (by omega) h.1
    omega
  generalize 2 ^ c.addrBits = m at h10
  intro he
  have h1 := Nat.div_add_mod (a.toNat + i) m
  have h2 := Nat.div_add_mod (a.toNat + j) m
  rw [he] at h1
  rcases Nat.lt_trichotomy ((a.toNat + i) / m) ((a.toNat + j) / m) with hlt | heq | hgt
  · have := Nat.mul_le_mul_left m (Nat.succ_le_of_lt hlt)
    rw [Nat.mul_succ] at this
    omega
  · rw [heq] at h1; omega
  · have := Nat.mul_le_mul_left m (Nat.succ_le_of_lt hgt)
    rw [Nat.mul_succ] at this
    omega

/-! ## When an access completes -/

theorem firstStop_eq_none {f : Long → Option Stop} {l : List Long} : firstStop f l = none ↔ ∀ a ∈ l, f a = none := by
  induction l with
  | nil => simp [firstStop]
  | cons a l ih =>
    unfold firstStop
    split
    · rename_i h; simp [h]
    · rename_i h; simp [h, ih]

theorem aligned_iff (sz : Size) (a : Long) : misaligned sz a = false ↔ Aligned sz a := by
  have : a.getLsbD 0 = decide (a.toNat % 2 = 1) := by simp [BitVec.getLsbD, Nat.testBit_zero]
  have h2 : a.toNat % 2 = 0 ∨ a.toNat % 2 = 1 := by omega
  cases sz <;> simp only [misaligned, Aligned, this] <;> rcases h2 with h | h <;> simp [h]

/-- A read stops exactly where the access is misaligned or a byte cannot be read. -/
theorem readStop_eq_none {s : State} {sz : Size} {a : Long} : readStop s sz a = none ↔ Readable s.cfg sz a := by
  unfold readStop Readable
  rw [← aligned_iff]
  cases h : misaligned sz a
  · simp only [Bool.false_eq_true, if_false, firstStop_eq_none, true_and]
    refine forall₂_congr fun b _ => ?_
    unfold readStopAt
    cases kindAt s.cfg b <;> simp
  · simp

theorem writeStop_of_ram {s : State} {sz : Size} {a : Long} (h : Ram s.cfg sz a) : writeStop s sz a = none := by
  unfold writeStop
  rw [(aligned_iff sz a).2 h.1]
  simp only [Bool.false_eq_true, if_false, firstStop_eq_none]
  intro b hb
  simp [writeStopAt, h.2 b hb]

theorem Ram.readable {c : Config} {sz : Size} {a : Long} (h : Ram c sz a) : Readable c sz a :=
  ⟨h.1, fun b hb => .inl (h.2 b hb)⟩

theorem readMem_readable {s : State} {sz : Size} {a : Long} (h : Readable s.cfg sz a) : readMem s sz a = .ok (s.load sz a) :=
  readMem_eq_ok.2 ⟨readStop_eq_none.2 h, rfl⟩

theorem writeMem_ram {s : State} {sz : Size} {a : Long} (h : Ram s.cfg sz a) (v : Long) :
    writeMem s sz a v = .ok (s.store sz a v) := writeMem_eq_ok.2 ⟨writeStop_of_ram h, rfl⟩

/-! ## Loads after stores -/

/-- The two bytes of a word, joined. -/
theorem join_word (v : Long) : (v.extractLsb' 8 8 ++ v.extractLsb' 0 8).setWidth 32 = trunc .w v := by
  apply BitVec.eq_of_getElem_eq
  intro i hi
  simp only [trunc, BitVec.getElem_setWidth, BitVec.getLsbD_setWidth, BitVec.getLsbD_append, BitVec.getLsbD_extractLsb']
  by_cases h8 : i < 8 
  · simp [h8, Size.bits, show i < 16 by omega]
  · by_cases h16 : i < 16
    · simp [h8, h16, Size.bits, show i - 8 < 8 by omega, show 8 + (i - 8) = i by omega]
    · simp [h8, h16, Size.bits, show ¬ i - 8 < 8 by omega]

/-- The four bytes of a long, joined. -/
theorem join_long (v : Long) :
    v.extractLsb' 24 8 ++ v.extractLsb' 16 8 ++ v.extractLsb' 8 8 ++ v.extractLsb' 0 8 = trunc .l v := by
  apply BitVec.eq_of_getElem_eq
  intro i hi
  simp only [trunc, BitVec.getElem_append, BitVec.getElem_setWidth, BitVec.getElem_extractLsb', BitVec.getLsbD_setWidth]
  by_cases h8 : i < 8 
  · simp [h8, hi]
  · by_cases h16 : i < 16
    · simp [h8, hi, show i - 8 < 8 by omega, show 8 + (i - 8) = i by omega]
    · by_cases h24 : i < 24
      · simp [h8, hi, show ¬ i - 8 < 8 by omega, show i - 8 - 8 < 8 by omega, show 16 + (i - 8 - 8) = i by omega]
      · simp [h8, hi, show ¬ i - 8 < 8 by omega, show ¬ i - 8 - 8 < 8 by omega, show 24 + (i - 8 - 8 - 8) = i by omega]

/-- A load depends on its own bytes alone. -/
theorem load_congr {s t : State} {sz : Size} {a : Long} (hc : t.cfg = s.cfg)
    (h : ∀ n ∈ bytesAt s.cfg sz a, memRead t.mem n = memRead s.mem n) : t.load sz a = s.load sz a := by
  cases sz <;> simp only [bytesAt, accessBytes, List.map, List.mem_cons, List.not_mem_nil, or_false, forall_eq_or_imp,
    forall_eq] at h <;> simp only [State.load, State.byteAt, hc]
  · rw [h]
  · rw [h.1, h.2]
  · rw [h.1, h.2.1, h.2.2.1, h.2.2.2]

/-- A load elsewhere reads what it read before. -/
theorem load_store_ne (s : State) {sz sz' : Size} {a b v : Long}
    (h : ∀ n ∈ bytesAt s.cfg sz' b, n ∉ bytesAt s.cfg sz a) : (s.store sz a v).load sz' b = s.load sz' b :=
  load_congr (by simp) fun n hn => memRead_store_ne s sz a v (h n hn)

theorem byteAt_storeByte_same {s : State} (hm : Memory.wf s.mem = true) {a : Long} (hk : kindAt s.cfg a = .ram) (b : Byte) :
    (s.storeByte a b).byteAt a = b := by
  unfold State.byteAt
  rw [storeByte_cfg]
  exact memRead_storeByte_same hm hk b

theorem byteAt_storeByte_ne (s : State) {a x : Long} (b : Byte) (h : physAddr s.cfg x ≠ physAddr s.cfg a) :
    (s.storeByte a b).byteAt x = s.byteAt x := by
  unfold State.byteAt
  rw [storeByte_cfg]
  exact memRead_storeByte_ne s a b h

/-- A load of what was stored gives the value at its size. -/
theorem load_store_same {s : State} (hs : Sound s) {sz : Size} {a : Long} (hr : Ram s.cfg sz a) (v : Long) :
    (s.store sz a v).load sz a = trunc sz v := by
  have ne : ∀ {i j : Nat}, i < 1024 → j < 1024 → i ≠ j →
      physAddr s.cfg (a + BitVec.ofNat 32 i) ≠ physAddr s.cfg (a + BitVec.ofNat 32 j) := physAddr_add_ne hs.1 a
  have n01 := ne (i := 0) (j := 1) (by omega) (by omega) (by omega)
  have n02 := ne (i := 0) (j := 2) (by omega) (by omega) (by omega)
  have n03 := ne (i := 0) (j := 3) (by omega) (by omega) (by omega)
  have n12 := ne (i := 1) (j := 2) (by omega) (by omega) (by omega)
  have n13 := ne (i := 1) (j := 3) (by omega) (by omega) (by omega)
  have n23 := ne (i := 2) (j := 3) (by omega) (by omega) (by omega)
  simp only [BitVec.add_zero] at n01 n02 n03 n12 n13 n23
  have hk := hr.2
  cases sz <;> simp only [accessBytes, List.mem_cons, List.not_mem_nil, or_false, forall_eq_or_imp, forall_eq] at hk
  · simp only [State.store, State.load]
    rw [byteAt_storeByte_same hs.2 hk]
    apply BitVec.eq_of_getLsbD_eq
    intro i hi
    simp [trunc]
  · simp only [State.store, State.load]
    rw [byteAt_storeByte_ne _ _ (by simpa [storeByte_cfg] using n01),
      byteAt_storeByte_same hs.2 hk.1, byteAt_storeByte_same (wf_storeByte hs.2 _ _) (by simpa [storeByte_cfg] using hk.2)]
    exact join_word v
  · simp only [State.store, State.load]
    rw [byteAt_storeByte_ne _ _ (by simpa [storeByte_cfg] using n03),
      byteAt_storeByte_ne _ _ (by simpa [storeByte_cfg] using n02),
      byteAt_storeByte_ne _ _ (by simpa [storeByte_cfg] using n01), byteAt_storeByte_same hs.2 hk.1,
      byteAt_storeByte_ne _ _ (by simpa [storeByte_cfg] using n13),
      byteAt_storeByte_ne _ _ (by simpa [storeByte_cfg] using n12),
      byteAt_storeByte_same (wf_storeByte hs.2 _ _) (by simpa [storeByte_cfg] using hk.2.1),
      byteAt_storeByte_ne _ _ (by simpa [storeByte_cfg] using n23),
      byteAt_storeByte_same (wf_storeByte (wf_storeByte hs.2 _ _) _ _) (by simpa [storeByte_cfg] using hk.2.2.1),
      byteAt_storeByte_same (wf_storeByte (wf_storeByte (wf_storeByte hs.2 _ _) _ _) _ _)
        (by simpa [storeByte_cfg] using hk.2.2.2)]
    exact join_long v

end Sys2Proof.Machine
end

