-- ==== Sys2Proof/Laws/Operations.lean ====
section
/-! SUPPORT. What each shared operation can do: if it answers a state, then what that state is and what it leaves alone. -/

namespace Sys2Proof.Machine

open Sys2Proof.Safety

/-! ## What every operation inside an instruction keeps -/

/-- The parameters, the platform's inputs, the prefetch and run state are as before, and memory stays canonical and within the
address space. -/
structure Moves (s t : State) : Prop where
  cfg : t.cfg = s.cfg
  stale : t.stale = s.stale
  run : t.run = s.run
  lastIpl : t.lastIpl = s.lastIpl
  inputs : t.inputs = s.inputs
  wf : Memory.wf s.mem = true → Memory.wf t.mem = true
  bound : (∀ e ∈ s.mem, e.1 < 2 ^ s.cfg.addrBits) → ∀ e ∈ t.mem, e.1 < 2 ^ t.cfg.addrBits

theorem Moves.refl (s : State) : Moves s s := ⟨rfl, rfl, rfl, rfl, rfl, id, id⟩

theorem Moves.trans {s t u : State} (h : Moves s t) (k : Moves t u) : Moves s u :=
  ⟨k.cfg.trans h.cfg, k.stale.trans h.stale, k.run.trans h.run, k.lastIpl.trans h.lastIpl, k.inputs.trans h.inputs,
    fun w => k.wf (h.wf w), fun b => k.bound (h.bound b)⟩

/-- A change outside memory and the fields `Moves` names. -/
theorem Moves.of_same {s t : State} (hc : t.cfg = s.cfg) (hs : t.stale = s.stale) (hr : t.run = s.run)
    (hl : t.lastIpl = s.lastIpl) (hi : t.inputs = s.inputs) (hm : t.mem = s.mem) : Moves s t :=
  ⟨hc, hs, hr, hl, hi, fun w => by rw [hm]; exact w, fun b => by rw [hm, hc]; exact b⟩

theorem Moves.setDreg (s : State) (r : Fin 8) (v : Long) : Moves s (s.setDreg r v) := .of_same rfl rfl rfl rfl rfl rfl
theorem Moves.setDregAt (s : State) (sz : Size) (r : Fin 8) (v : Long) : Moves s (s.setDregAt sz r v) :=
  .of_same rfl rfl rfl rfl rfl rfl
theorem Moves.setCcr (s : State) (c : Ccr) : Moves s (s.setCcr c) := .of_same rfl rfl rfl rfl rfl rfl
theorem Moves.setSr (s : State) (r : StatusReg) : Moves s (s.setSr r) := .of_same rfl rfl rfl rfl rfl rfl
theorem Moves.jump (s : State) (t : Long) : Moves s (s.jump t) := .of_same rfl rfl rfl rfl rfl rfl
theorem Moves.advance (s : State) (l : Long) : Moves s (s.advance l) := .of_same rfl rfl rfl rfl rfl rfl
theorem Moves.skipDraws (s : State) (k : Nat) : Moves s (s.skipDraws k) := .of_same rfl rfl rfl rfl rfl rfl
theorem Moves.setSp (s : State) (v : Long) : Moves s (s.setSp v) :=
  .of_same (by simp) (by simp) (by simp) (by simp) (by simp) (by simp)
theorem Moves.setAreg (s : State) (r : Fin 8) (v : Long) : Moves s (s.setAreg r v) :=
  .of_same (by simp) (by simp) (by simp) (by simp) (by simp) (by simp)
theorem Moves.setRreg (s : State) (k : Fin 16) (v : Long) : Moves s (s.setRreg k v) :=
  .of_same (by simp) (by simp) (by simp) (by simp) (by simp) (by simp)
theorem Moves.store (s : State) (sz : Size) (a v : Long) : Moves s (s.store sz a v) :=
  ⟨by simp, by simp, by simp, by simp, by simp, fun w => wf_store w sz a v,
    fun b => by rw [State.store_cfg]; exact bound_store b sz a v⟩

theorem Moves.writeMem {s t : State} {sz : Size} {a v : Long} (h : writeMem s sz a v = .ok t) : Moves s t := by
  rw [(writeMem_eq_ok.1 h).2]; exact .store s sz a v

/-! ## Operands -/

/-- Resolving an operand changes address registers only (40_addressing.md R121). -/
theorem resolve_state (e : Ea) (sz : Size) (ext : Long) (s : State) :
    (resolve e sz ext s).2 = s ∨ ∃ r v, eaSteps e r = true ∧ (resolve e sz ext s).2 = s.setAreg r v := by
  cases e
  case postInc r => exact .inr ⟨r, s.areg r + eaStep r sz, by simp [eaSteps, oneReg], rfl⟩
  case preDec r => exact .inr ⟨r, s.areg r - eaStep r sz, by simp [eaSteps, oneReg], rfl⟩
  all_goals exact .inl rfl

theorem resolve_moves (e : Ea) (sz : Size) (ext : Long) (s : State) : Moves s (resolve e sz ext s).2 := by
  rcases resolve_state e sz ext s with h | ⟨r, v, _, h⟩ <;> rw [h]
  · exact .refl s
  · exact .setAreg s r v

/-- Everything but the stepped address register is as before. -/
theorem resolve_fields (e : Ea) (sz : Size) (ext : Long) (s : State) :
    (resolve e sz ext s).2.d = s.d ∧ (resolve e sz ext s).2.mem = s.mem ∧ (resolve e sz ext s).2.sr = s.sr ∧
      (resolve e sz ext s).2.pc = s.pc ∧ (resolve e sz ext s).2.events = s.events ∧
      (resolve e sz ext s).2.draws = s.draws := by
  rcases resolve_state e sz ext s with h | ⟨r, v, _, h⟩ <;> rw [h] <;> simp

theorem resolve_areg (e : Ea) (sz : Size) (ext : Long) (s : State) (q : Fin 8) (hq : eaSteps e q = false) :
    (resolve e sz ext s).2.areg q = s.areg q := by
  rcases resolve_state e sz ext s with h | ⟨r, v, hr, h⟩ <;> rw [h]
  have : q ≠ r := fun e => by rw [e, hr] at hq; exact Bool.noConfusion hq
  exact State.areg_setAreg_ne s r q v this

/-- What reading an operand answers (40_addressing.md R122). -/
theorem readEa_eq_ok {e : Ea} {sz : Size} {ext : Long} {s t : State} {v : Long} :
    readEa e sz ext s = .ok (v, t) ↔ t = (resolve e sz ext s).2 ∧ readLoc (resolve e sz ext s).1 sz t = .ok v := by
  unfold readEa
  rcases hr : resolve e sz ext s with ⟨l, s1⟩
  simp only
  cases hl : readLoc l sz s1 with
  | error x =>
    constructor
    · intro h; simp at h
    · rintro ⟨rfl, h⟩; rw [hl] at h; simp at h
  | ok w =>
    constructor
    · intro h
      simp only [Except.ok.injEq, Prod.mk.injEq] at h
      exact ⟨h.2.symm, by rw [← h.2, ← h.1]; exact hl⟩
    · rintro ⟨rfl, h⟩
      rw [hl] at h
      simp only [Except.ok.injEq] at h
      rw [h]

/-- A location that is read holds its value, and can be read. -/
theorem readLoc_value {l : Loc} {sz : Size} {s : State} {v : Long} (h : readLoc l sz s = .ok v) : v = locValue sz s l := by
  cases l <;> simp only [readLoc, locValue, Except.ok.injEq] at h ⊢
  · exact h.symm
  · exact h.symm
  · exact (readMem_eq_ok.1 h).2
  · exact h.symm

theorem writeLoc_moves {l : Loc} {sz : Size} {s t : State} {v : Long} (h : writeLoc l sz v s = .ok t) : Moves s t := by
  cases l <;> simp only [writeLoc, Except.ok.injEq] at h
  · rw [← h]; exact .setDregAt _ _ _ _
  · rw [← h]; exact .setAreg _ _ _
  · exact .writeMem h
  · simp at h

/-- A write to a location changes neither SR nor the program counter. -/
theorem writeLoc_fields {l : Loc} {sz : Size} {s t : State} {v : Long} (h : writeLoc l sz v s = .ok t) :
    t.sr = s.sr ∧ t.pc = s.pc ∧ t.events = s.events ∧ t.draws = s.draws := by
  cases l <;> simp only [writeLoc, Except.ok.injEq] at h
  · rw [← h]; simp
  · rw [← h]; simp
  · rw [(writeMem_eq_ok.1 h).2]; simp
  · simp at h

/-- What changing an operand in place answers (40_addressing.md R124). -/
theorem modifyEa_eq_ok {e : Ea} {sz : Size} {ext : Long} {f : Long → Long × Ccr} {s t : State} :
    modifyEa e sz ext f s = .ok t ↔
      ∃ old u, readLoc (resolve e sz ext s).1 sz (resolve e sz ext s).2 = .ok old ∧
        writeLoc (resolve e sz ext s).1 sz (f old).1 (resolve e sz ext s).2 = .ok u ∧ t = u.setCcr (f old).2 := by
  unfold modifyEa
  rcases resolve e sz ext s with ⟨l, s1⟩
  simp only
  cases hl : readLoc l sz s1 with
  | error x => simp
  | ok old =>
    simp only [Except.ok.injEq]
    cases hw : writeLoc l sz (f old).1 s1 with
    | error x =>
      constructor
      · intro h; simp at h
      · rintro ⟨o, u, rfl, h, _⟩; rw [hw] at h; simp at h
    | ok u =>
      constructor
      · intro h
        simp only [Except.ok.injEq] at h
        exact ⟨old, u, rfl, hw, h.symm⟩
      · rintro ⟨o, u', rfl, h, ht⟩
        rw [hw] at h
        simp only [Except.ok.injEq] at h
        rw [ht, ← h]

theorem readEa_moves {e : Ea} {sz : Size} {ext : Long} {s t : State} {v : Long} (h : readEa e sz ext s = .ok (v, t)) :
    Moves s t := by
  rw [(readEa_eq_ok.1 h).1]; exact resolve_moves e sz ext s

theorem writeEa_moves {e : Ea} {sz : Size} {ext : Long} {s t : State} {v : Long} (h : writeEa e sz ext v s = .ok t) :
    Moves s t := (resolve_moves e sz ext s).trans (writeLoc_moves h)

theorem modifyEa_moves {e : Ea} {sz : Size} {ext : Long} {f : Long → Long × Ccr} {s t : State}
    (h : modifyEa e sz ext f s = .ok t) : Moves s t := by
  obtain ⟨old, u, _, hw, rfl⟩ := modifyEa_eq_ok.1 h
  exact (resolve_moves e sz ext s).trans ((writeLoc_moves hw).trans (.setCcr _ _))

/-- An address is answered for an operand in memory alone, and nothing changes (40_addressing.md R125). -/
theorem addrEa_eq_ok {e : Ea} {ext : Long} {s : State} {a : Long} :
    addrEa e ext s = .ok a ↔ (resolve e .l ext s).1 = .mem a := by
  unfold addrEa
  rcases resolve e .l ext s with ⟨l, s1⟩
  cases l <;> simp

/-! ## The stack -/

theorem push32_eq_ok {v : Long} {s t : State} :
    push32 v s = .ok t ↔ writeStop (s.setSp (s.sp - 4)) .l (s.sp - 4) = none ∧ t = (s.setSp (s.sp - 4)).store .l (s.sp - 4) v :=
  writeMem_eq_ok

theorem push32_moves {v : Long} {s t : State} (h : push32 v s = .ok t) : Moves s t := (Moves.setSp s _).trans (.writeMem h)

theorem pop32_eq_ok {s t : State} {v : Long} :
    pop32 s = .ok (v, t) ↔ readStop s .l s.sp = none ∧ v = s.load .l s.sp ∧ t = s.setSp (s.sp + 4) := by
  unfold pop32
  cases h : readMem s .l s.sp with
  | error x =>
    constructor
    · intro h'; simp [bind, Except.bind] at h'
    · rintro ⟨h1, _, _⟩; rw [readMem_eq_ok.2 ⟨h1, rfl⟩] at h; simp at h
  | ok w =>
    obtain ⟨h1, rfl⟩ := readMem_eq_ok.1 h
    simp [bind, Except.bind, h1, eq_comm]

theorem pop16_eq_ok {s t : State} {v : Long} :
    pop16 s = .ok (v, t) ↔ readStop s .w s.sp = none ∧ v = s.load .w s.sp ∧ t = s.setSp (s.sp + 2) := by
  unfold pop16
  cases h : readMem s .w s.sp with
  | error x =>
    constructor
    · intro h'; simp [bind, Except.bind] at h'
    · rintro ⟨h1, _, _⟩; rw [readMem_eq_ok.2 ⟨h1, rfl⟩] at h; simp at h
  | ok w =>
    obtain ⟨h1, rfl⟩ := readMem_eq_ok.1 h
    simp [bind, Except.bind, h1, eq_comm]

/-! ## Exceptions -/

/-- A write to memory changes memory alone. -/
theorem writeMem_fields {s t : State} {sz : Size} {a v : Long} (h : writeMem s sz a v = .ok t) :
    t.sr = s.sr ∧ t.d = s.d ∧ t.a = s.a ∧ t.usp = s.usp ∧ t.ssp = s.ssp ∧ t.pc = s.pc ∧ t.events = s.events ∧
      t.draws = s.draws := by
  rw [(writeMem_eq_ok.1 h).2]; simp

/-- The steps of taking an exception: the program counter and the old SR are pushed on the supervisor stack with S set and T
clear, then the vector is read (60_exceptions.md R340). -/
theorem exceptionEntry_eq_ok {v : BitVec 8} {pc : Long} {level : Option (BitVec 3)} {s t : State} :
    exceptionEntry v pc level s = .ok t ↔
      ∃ s2 s4 target, writeMem { s with sr := s.sr.forException level, ssp := s.ssp - 4 } .l (s.ssp - 4) pc = .ok s2 ∧
        writeMem { s2 with ssp := s2.ssp - 2 } .w (s2.ssp - 2) (s.sr.toWord.setWidth 32) = .ok s4 ∧
        readMem s4 .l (vectorAddr v) = .ok target ∧ t = s4.jump target := by
  unfold exceptionEntry
  simp only [bind, Except.bind]
  constructor
  · intro h
    split at h
    · simp at h
    · rename_i s2 h2
      split at h
      · simp at h
      · rename_i s4 h4
        split at h
        · simp at h
        · rename_i w hw
          simp only [Except.ok.injEq] at h
          exact ⟨s2, s4, w, h2, h4, hw, h.symm⟩
  · rintro ⟨s2, s4, w, h2, h4, hw, rfl⟩
    simp only [h2, h4, hw]

theorem exceptionEntry_moves {v : BitVec 8} {pc : Long} {level : Option (BitVec 3)} {s t : State}
    (h : exceptionEntry v pc level s = .ok t) : Moves s t := by
  obtain ⟨s2, s4, w, h2, h4, -, rfl⟩ := exceptionEntry_eq_ok.1 h
  have m2 := Moves.writeMem h2
  have m4 := Moves.writeMem h4
  have k2 : Moves s s2 :=
    Moves.trans (t := { s with sr := s.sr.forException level, ssp := s.ssp - 4 }) (.of_same rfl rfl rfl rfl rfl rfl) m2
  have k4 : Moves s2 s4 := Moves.trans (t := { s2 with ssp := s2.ssp - 2 }) (.of_same rfl rfl rfl rfl rfl rfl) m4
  exact (k2.trans k4).trans (.jump s4 w)

/-- The registers after taking an exception. -/
theorem exceptionEntry_registers {v : BitVec 8} {pc : Long} {level : Option (BitVec 3)} {s t : State}
    (h : exceptionEntry v pc level s = .ok t) :
    t.sr = s.sr.forException level ∧ t.d = s.d ∧ t.a = s.a ∧ t.usp = s.usp ∧ t.ssp = s.ssp - 4 - 2 ∧
      t.events = s.events ∧ t.draws = s.draws := by
  obtain ⟨s2, s4, w, h2, h4, -, rfl⟩ := exceptionEntry_eq_ok.1 h
  obtain ⟨a1, a2, a3, a4, a5, -, a7, a8⟩ := writeMem_fields h2
  obtain ⟨b1, b2, b3, b4, b5, -, b7, b8⟩ := writeMem_fields h4
  exact ⟨b1.trans a1, b2.trans a2, b3.trans a3, b4.trans a4, b5.trans (by simp only [a5]), b7.trans a7, b8.trans a8⟩

/-- What returning from an exception answers (47_control.md R269). -/
theorem returnFromException_eq_ok {s t : State} (h : returnFromException s = .ok t) :
    t = ({ s with ssp := s.ssp + 6, sr := StatusReg.ofWord ((s.load .w s.ssp).setWidth 16),
                  pc := s.load .l (s.ssp + 2) } : State) ∧
      readStop s .w s.ssp = none ∧ readStop s .l (s.ssp + 2) = none := by
  unfold returnFromException at h
  simp only [bind, Except.bind] at h
  split at h
  · simp at h
  · rename_i w hw
    split at h
    · simp at h
    · rename_i p hp
      simp only [Except.ok.injEq] at h
      obtain ⟨r1, e1⟩ := readMem_eq_ok.1 hw
      obtain ⟨r2, e2⟩ := readMem_eq_ok.1 hp
      refine ⟨?_, r1, r2⟩
      rw [← h, e1, e2]; rfl

/-! ## Ends of instructions -/

theorem advanceBy_eq_ok {len : Long} {r : Res State} {t : State} :
    advanceBy len r = .ok t ↔ ∃ u, r = .ok u ∧ t = u.advance len := by
  cases r <;> simp [advanceBy, eq_comm]

theorem finish_eq_next {r : Res State} {t : State} : finish r = .next t ↔ r = .ok t := by
  rcases r with (⟨f⟩ | ⟨r⟩) | s <;> simp [finish]

theorem advanceBy_moves {s : State} {len : Long} {r : Res State} {t : State} (h : advanceBy len r = .ok t)
    (hr : ∀ u, r = .ok u → Moves s u) : Moves s t := by
  obtain ⟨u, hu, rfl⟩ := advanceBy_eq_ok.1 h
  exact (hr u hu).trans (.advance u len)

/-- A privileged effect in supervisor mode, the privilege violation in user mode (60_exceptions.md R361). -/
theorem privileged_eq (s : State) (effect : Res State) :
    privileged s effect = if s.sr.s = true then effect else trapHere vecPrivilege s := rfl

/-! ## Lists of registers -/

theorem storeUp_moves {sz : Size} {ks : List (Fin 16)} {a : Long} {s t : State} (h : storeUp sz ks a s = .ok t) :
    Moves s t := by
  induction ks generalizing a s with
  | nil => simp only [storeUp, Except.ok.injEq] at h; rw [← h]; exact .refl s
  | cons k ks ih =>
    unfold storeUp at h
    split at h
    · simp at h
    · rename_i u hu; exact (Moves.writeMem hu).trans (ih h)

theorem storeDown_moves {sz : Size} {ks : List (Fin 16)} {a b : Long} {s t : State}
    (h : storeDown sz ks a s = .ok (b, t)) : Moves s t := by
  induction ks generalizing a s with
  | nil => simp only [storeDown, Except.ok.injEq, Prod.mk.injEq] at h; rw [← h.2]; exact .refl s
  | cons k ks ih =>
    unfold storeDown at h
    split at h
    · simp at h
    · rename_i u hu; exact (Moves.writeMem hu).trans (ih h)

theorem loadUp_moves {sz : Size} {ks : List (Fin 16)} {a b : Long} {s t : State} (h : loadUp sz ks a s = .ok (b, t)) :
    Moves s t := by
  induction ks generalizing a s with
  | nil => simp only [loadUp, Except.ok.injEq, Prod.mk.injEq] at h; rw [← h.2]; exact .refl s
  | cons k ks ih =>
    unfold loadUp at h
    split at h
    · simp at h
    · exact (Moves.setRreg s k _).trans (ih h)

theorem storeLanes_moves {bs : List Byte} {a : Long} {s t : State} (h : storeLanes bs a s = .ok t) : Moves s t := by
  induction bs generalizing a s with
  | nil => simp only [storeLanes, Except.ok.injEq] at h; rw [← h]; exact .refl s
  | cons b bs ih =>
    unfold storeLanes at h
    split at h
    · simp at h
    · rename_i u hu; exact (Moves.writeMem hu).trans (ih h)

/-- The extra access of MOVEM changes nothing (41_move.md R159). -/
theorem extraRead_eq_ok {p q : Long × State} (h : extraRead p = .ok q) : q = p := by
  unfold extraRead at h
  split at h
  · simp at h
  · simp only [Except.ok.injEq] at h; exact h.symm

/-! ## Shapes -/

theorem eaToDn_moves {op : AluOp} {sz : Size} {ea : Ea} {dn : Fin 8} {s t : State} (h : eaToDn op sz ea dn s = .ok t) :
    Moves s t := by
  unfold eaToDn at h
  split at h
  · simp at h
  · rename_i v u hu
    refine (readEa_moves hu).trans (advanceBy_moves h ?_)
    intro w hw
    simp only [Except.ok.injEq] at hw
    rw [← hw]
    exact (Moves.setDregAt _ _ _ _).trans (.setCcr _ _)

theorem dnToEa_moves {op : AluOp} {sz : Size} {dn : Fin 8} {ea : Ea} {s t : State} (h : dnToEa op sz dn ea s = .ok t) :
    Moves s t := advanceBy_moves h fun _ hu => modifyEa_moves hu

theorem immToEa_moves {op : AluOp} {sz : Size} {imm : Long} {ea : Ea} {s t : State} (h : immToEa op sz imm ea s = .ok t) :
    Moves s t := advanceBy_moves h fun _ hu => modifyEa_moves hu

theorem unaryEa_moves {op : UnaryOp} {sz : Size} {ea : Ea} {s t : State} (h : unaryEa op sz ea s = .ok t) : Moves s t :=
  advanceBy_moves h fun _ hu => modifyEa_moves hu

theorem bitEa_moves {op : AluOp} {own : Nat} {n : Long} {ea : Ea} {s t : State} (h : bitEa op own n ea s = .ok t) :
    Moves s t := advanceBy_moves h fun _ hu => modifyEa_moves hu

theorem shiftMem_moves {k : ShiftKind} {ea : Ea} {s t : State} (h : shiftMem k ea s = .ok t) : Moves s t :=
  advanceBy_moves h fun _ hu => modifyEa_moves hu

theorem quickToEa_moves {op : AluOp} {f : Long → Long → Long} {sz : Size} {q : Fin 8} {ea : Ea} {s t : State}
    (h : quickToEa op f sz q ea s = .ok t) : Moves s t := by
  unfold quickToEa at h
  split at h
  · refine advanceBy_moves h fun u hu => ?_
    simp only [Except.ok.injEq] at hu
    rw [← hu]; exact .setAreg _ _ _
  · exact advanceBy_moves h fun u hu => modifyEa_moves hu

theorem eaToAn_moves {f : Long → Long → Long} {sz : Size} {ea : Ea} {an : Fin 8} {s t : State}
    (h : eaToAn f sz ea an s = .ok t) : Moves s t := by
  unfold eaToAn at h
  split at h
  · simp at h
  · rename_i v u hu
    refine (readEa_moves hu).trans (advanceBy_moves h ?_)
    intro w hw
    simp only [Except.ok.injEq] at hw
    rw [← hw]
    exact .setAreg _ _ _

theorem testEa_moves {own : Nat} {sz : Size} {ea : Ea} {f : Long → Ccr → Ccr} {s t : State}
    (h : testEa own sz ea f s = .ok t) : Moves s t := by
  unfold testEa at h
  split at h
  · simp at h
  · rename_i v u hu
    refine (readEa_moves hu).trans (advanceBy_moves h ?_)
    intro w hw
    simp only [Except.ok.injEq] at hw
    rw [← hw]
    exact .setCcr _ _

theorem pairOp_moves {op : AluOp} {sz : Size} {m : PairMode} {ry rx : Fin 8} {s t : State}
    (h : pairOp op sz m ry rx s = .ok t) : Moves s t := by
  cases m <;> simp only [pairOp] at h
  · refine advanceBy_moves h fun u hu => ?_
    simp only [Except.ok.injEq] at hu
    rw [← hu]
    exact (Moves.setDregAt _ _ _ _).trans (.setCcr _ _)
  · split at h
    · simp at h
    · rename_i v u hu
      exact (readEa_moves hu).trans (advanceBy_moves h fun w hw => modifyEa_moves hw)

theorem bcdPair_moves {f : Byte → Byte → Bool → Byte × Bool} {m : PairMode} {ry rx : Fin 8} {s t : State}
    (h : bcdPair f m ry rx s = .ok t) : Moves s t := (Moves.skipDraws s _).trans (pairOp_moves h)

theorem shiftReg_moves {k : ShiftKind} {sz : Size} {c : ShiftCount} {dn : Fin 8} {s t : State}
    (h : shiftReg k sz c dn s = .ok t) : Moves s t := by
  unfold shiftReg at h
  refine advanceBy_moves h fun u hu => ?_
  simp only [Except.ok.injEq] at hu
  rw [← hu]
  exact (Moves.setDregAt _ _ _ _).trans (.setCcr _ _)

end Sys2Proof.Machine
end

