-- ==== Sys2Proof/Laws/Results.lean ====
section
/-! SUPPORT. What an operand's location holds after it is read, written or changed, and the frame of that. -/

namespace Sys2Proof.Machine

open Sys2Proof.Safety

/-! ## Registers and the frame -/

/-- Two states with the same pointers and the same S bit have the same stack pointer that is not active. -/
theorem otherSp_congr {s t : State} (h : t.sr.s = s.sr.s) (hu : t.usp = s.usp) (hs : t.ssp = s.ssp) : otherSp t = otherSp s := by
  unfold otherSp; rw [h, hu, hs]

theorem otherSp_setAreg (s : State) (r : Fin 8) (v : Long) : otherSp (s.setAreg r v) = otherSp s := by
  unfold otherSp State.setAreg State.setSp
  cases h : s.sr.s <;> split <;> simp [h]

/-- Address registers depend on four fields. -/
theorem areg_congr {s t : State} (ha : t.a = s.a) (hu : t.usp = s.usp) (hs : t.ssp = s.ssp) (h : t.sr.s = s.sr.s)
    (q : Fin 8) : t.areg q = s.areg q := by
  unfold State.areg State.sp; simp only [ha, hu, hs, h]

/-- Everything but registers, SR's flags, the program counter and memory is as before. -/
theorem sameControl_of_moves {s t : State} (m : Moves s t) (hs : t.sr = s.sr) (he : t.events = s.events) : SameControl s t :=
  ⟨by rw [hs], by rw [hs], by rw [hs], m.run, m.stale, m.lastIpl, m.inputs, he, m.cfg⟩

/-- Resolving an operand keeps everything but the address registers it steps. -/
theorem resolve_kept (e : Ea) (sz : Size) (ext : Long) (s : State) : Kept noReg (eaSteps e) [] s (resolve e sz ext s).2 := by
  obtain ⟨hd, hm, hs, -, he, -⟩ := resolve_fields e sz ext s
  refine ⟨fun r _ => ?_, fun r hr => resolve_areg e sz ext s r hr, ?_, fun n _ => by rw [hm],
    sameControl_of_moves (resolve_moves e sz ext s) hs he⟩
  · unfold State.dreg; rw [hd]
  · rcases resolve_state e sz ext s with h | ⟨r, v, _, h⟩ <;> rw [h]
    exact otherSp_setAreg s r v

/-! ## Locations -/

/-- A location that can be read gives its value. -/
theorem readLoc_readable {s : State} {sz : Size} {l : Loc} (h : LocReadable s.cfg sz l) :
    readLoc l sz s = .ok (locValue sz s l) := by
  cases l
  case mem a => exact readMem_readable h
  all_goals rfl

/-- A location that can be written can be read. -/
theorem writable_readable {c : Config} {sz : Size} {l : Loc} (h : Writable c sz l) : LocReadable c sz l := by
  cases l
  case mem a => exact Ram.readable h
  all_goals trivial

theorem trunc_getLsbD (sz : Size) (v : Long) (k : Nat) : (trunc sz v).getLsbD k = (decide (k < sz.bits) && v.getLsbD k) := by
  unfold trunc
  simp only [BitVec.getLsbD_setWidth]
  cases sz <;> simp only [Size.bits] <;> by_cases h : k < 32 <;> simp [h] <;> omega

theorem insertLow_getLsbD (sz : Size) (old v : Long) (k : Nat) :
    (insertLow sz old v).getLsbD k = if k < sz.bits then v.getLsbD k else old.getLsbD k := by
  cases sz <;> simp only [insertLow, Size.bits, BitVec.getLsbD_append, BitVec.getLsbD_extractLsb']
  · by_cases h : k < 8 
    · simp [h]
    · by_cases h2 : k < 32
      · simp [h, show k - 8 < 24 by omega, show 8 + (k - 8) = k by omega]
      · rw [BitVec.getLsbD_of_ge old k (by omega)]; simp [h, show ¬ k - 8 < 24 by omega]
  · by_cases h : k < 16
    · simp [h]
    · by_cases h2 : k < 32
      · simp [h, show k - 16 < 16 by omega, show 16 + (k - 16) = k by omega]
      · rw [BitVec.getLsbD_of_ge old k (by omega)]; simp [h, show ¬ k - 16 < 16 by omega]
  · by_cases h : k < 32
    · simp [h]
    · rw [BitVec.getLsbD_of_ge v k (by omega), BitVec.getLsbD_of_ge old k (by omega)]; simp

theorem trunc_insertLow (sz : Size) (old v : Long) : trunc sz (insertLow sz old v) = trunc sz v := by
  apply BitVec.eq_of_getLsbD_eq
  intro k _
  rw [trunc_getLsbD, trunc_getLsbD, insertLow_getLsbD]
  by_cases h : k < sz.bits <;> simp [h]

theorem upperKept_insertLow (sz : Size) (old v : Long) : UpperKept sz old (insertLow sz old v) := by
  intro k hk
  rw [insertLow_getLsbD, if_neg (by omega)]

theorem trunc_trunc (sz : Size) (v : Long) : trunc sz (trunc sz v) = trunc sz v := by
  apply BitVec.eq_of_getLsbD_eq
  intro k _
  rw [trunc_getLsbD, trunc_getLsbD]
  by_cases h : k < sz.bits <;> simp [h]

theorem natOf_trunc (sz : Size) (v : Long) : natOf sz (trunc sz v) = natOf sz v := by
  cases sz <;> simp [natOf, trunc, Size.bits]

theorem intOf_trunc (sz : Size) (v : Long) : intOf sz (trunc sz v) = intOf sz v := by unfold intOf; rw [natOf_trunc]

/-- What writing a location leaves: the value at the size, a data register's upper bits, and the frame. -/
theorem writeLoc_writable {s : State} {sz : Size} {l : Loc} (hs : Sound s) (h : Writable s.cfg sz l) (v : Long) :
    ∃ t, writeLoc l sz v s = .ok t ∧ locValue sz t l = trunc sz v ∧ UpperLoc sz s t l ∧ t.a = s.a ∧ t.usp = s.usp ∧
      t.ssp = s.ssp ∧ t.draws = s.draws ∧ Kept (locReg l) noReg (locBytes s.cfg sz l) s t := by
  cases l with
  | dreg r =>
    refine ⟨s.setDregAt sz r v, rfl, ?_, ?_, rfl, rfl, rfl, rfl, ?_, fun _ _ => rfl, rfl, fun _ _ => rfl,
      sameControl_of_moves (.setDregAt s sz r v) rfl rfl⟩
    · simp only [locValue, State.dregAt, State.setDregAt, State.dreg_setDreg_same, trunc_insertLow]
    · simp only [UpperLoc, State.setDregAt, State.dreg_setDreg_same]
      exact upperKept_insertLow sz _ v
    · intro q hq
      exact State.dreg_setDreg_ne s r q _ (by simpa [locReg, oneReg] using hq)
  | mem a =>
    refine ⟨s.store sz a v, writeMem_ram h v, load_store_same hs h v, trivial, by simp, by simp, by simp, by simp, ?_, ?_, ?_,
      fun n hn => memRead_store_ne s sz a v hn, sameControl_of_moves (.store s sz a v) (by simp) (by simp)⟩
    · intro q _; simp [State.dreg]
    · intro q _; exact areg_congr (by simp) (by simp) (by simp) (by simp) q
    · exact otherSp_congr (by simp) (by simp) (by simp)
  | areg r => exact h.elim
  | imm v => exact h.elim

/-! ## Frames compose -/

theorem sameControl_trans {s t u : State} (h : SameControl s t) (k : SameControl t u) : SameControl s u := by
  obtain ⟨a1, a2, a3, a4, a5, a6, a7, a8, a9⟩ := h
  obtain ⟨b1, b2, b3, b4, b5, b6, b7, b8, b9⟩ := k
  exact ⟨b1.trans a1, b2.trans a2, b3.trans a3, b4.trans a4, b5.trans a5, b6.trans a6, b7.trans a7, b8.trans a8, b9.trans a9⟩

theorem kept_trans {dd da dd' da' : Fin 8 → Bool} {bs bs' : List Nat} {s t u : State} (h : Kept dd da bs s t)
    (k : Kept dd' da' bs' t u) :
    Kept (fun q => dd q || dd' q) (fun q => da q || da' q) (bs ++ bs') s u := by
  obtain ⟨h1, h2, h3, h4, h5⟩ := h
  obtain ⟨k1, k2, k3, k4, k5⟩ := k
  refine ⟨fun r hr => ?_, fun r hr => ?_, k3.trans h3, fun n hn => ?_, sameControl_trans h5 k5⟩
  · simp only [Bool.or_eq_false_iff] at hr; exact (k1 r hr.2).trans (h1 r hr.1)
  · simp only [Bool.or_eq_false_iff] at hr; exact (k2 r hr.2).trans (h2 r hr.1)
  · simp only [List.mem_append, not_or] at hn; exact (k4 n hn.2).trans (h4 n hn.1)

/-- A frame may be widened. -/
theorem kept_mono {dd da dd' da' : Fin 8 → Bool} {bs bs' : List Nat} {s t : State} (h : Kept dd da bs s t)
    (hd : ∀ q, dd' q = false → dd q = false) (ha : ∀ q, da' q = false → da q = false) (hb : ∀ n, n ∉ bs' → n ∉ bs) :
    Kept dd' da' bs' s t :=
  ⟨fun r hr => h.1 r (hd r hr), fun r hr => h.2.1 r (ha r hr), h.2.2.1, fun n hn => h.2.2.2.1 n (hb n hn), h.2.2.2.2⟩

/-- Setting the condition codes and moving the program counter keep the frame. -/
theorem kept_finish {dd da : Fin 8 → Bool} {bs : List Nat} {s t : State} (h : Kept dd da bs s t) (c : Ccr) (len : Long) :
    Kept dd da bs s ((t.setCcr c).advance len) := h

/-- The length of an instruction's words, as the address after it. -/
theorem extWords_length_eq (sz : Size) (e : Ea) : (e.extWords sz).length = e.words sz := by
  cases e <;> try rfl
  cases sz <;> rfl

theorem nextPc_of_length {i : Instr} {s : State} {n : Nat} (h : (encode i).length = n) :
    nextPc i s = s.pc + BitVec.ofNat 32 (2 * n) := by unfold nextPc; rw [h]

/-- What changing an operand in place leaves (40_addressing.md R124), up to the next instruction. -/
theorem modifyEa_changed {s s1 : State} {e : Ea} {sz : Size} {ext : Long} {l : Loc} (hs : Sound s)
    (hr : resolve e sz ext s = (l, s1)) (hw : Writable s.cfg sz l) (f : Long → Long × Ccr) (i : Instr) (len : Long)
    (hl : nextPc i s = s.pc + len) :
    ∃ t, advanceBy len (modifyEa e sz ext f s) = .ok t ∧ locValue sz t l = trunc sz (f (locValue sz s1 l)).1 ∧
      t.sr.ccr = (f (locValue sz s1 l)).2 ∧ Changed i sz l (eaSteps e) s s1 t := by
  have h2 : (resolve e sz ext s).2 = s1 := by rw [hr]
  have hk := resolve_kept e sz ext s
  obtain ⟨hd, hm, hsr, hpc, he, hdr⟩ := resolve_fields e sz ext s
  have hmv := resolve_moves e sz ext s
  rw [h2] at hk hd hm hsr hpc he hdr hmv
  have hs1 : Sound s1 := ⟨by rw [hmv.cfg]; exact hs.1, hmv.wf hs.2⟩
  have hw1 : Writable s1.cfg sz l := by rw [hmv.cfg]; exact hw
  obtain ⟨u, hu, hv, hup, ha, husp, hssp, hdraws, hku⟩ := writeLoc_writable hs1 hw1 (f (locValue sz s1 l)).1
  refine ⟨(u.setCcr (f (locValue sz s1 l)).2).advance len, ?_, ?_, rfl, ?_, ?_, ?_, ?_⟩
  · have : modifyEa e sz ext f s = .ok (u.setCcr (f (locValue sz s1 l)).2) := by
      rw [modifyEa_eq_ok]
      refine ⟨locValue sz s1 l, u, ?_, ?_, rfl⟩
      · rw [hr]; exact readLoc_readable (writable_readable hw1)
      · rw [hr]; exact hu
    rw [this]; rfl
  · rw [← hv]; cases l <;> rfl
  · cases l
    case dreg r =>
      have e : s.dreg r = s1.dreg r := by unfold State.dreg; rw [hd]
      show UpperKept sz (s.dreg r) (u.dreg r)
      rw [e]; exact hup
    all_goals trivial
  · show u.pc + len = nextPc i s
    rw [hl, (writeLoc_fields hu).2.1, hpc]
  · intro q
    have hS : u.sr.s = s1.sr.s := by rw [(writeLoc_fields hu).1]
    exact areg_congr (t := (u.setCcr (f (locValue sz s1 l)).2).advance len) ha husp hssp hS q
  · have := kept_finish (kept_trans hk hku) (f (locValue sz s1 l)).2 len
    rw [hmv.cfg] at this
    exact kept_mono this (by simp [noReg]) (by intro q hq; simpa [noReg] using hq) (by intro n hn; simpa using hn)

/-- What reading an operand leaves, up to the next instruction, where only the flags change after it. -/
theorem readEa_ok {s s1 : State} {e : Ea} {sz : Size} {ext : Long} {l : Loc} (hr : resolve e sz ext s = (l, s1))
    (hl : LocReadable s.cfg sz l) : readEa e sz ext s = .ok (locValue sz s1 l, s1) := by
  have h2 : (resolve e sz ext s).2 = s1 := by rw [hr]
  have hmv := resolve_moves e sz ext s
  rw [h2] at hmv
  rw [readEa_eq_ok]
  refine ⟨h2.symm, ?_⟩
  rw [hr]
  exact readLoc_readable (by rw [hmv.cfg]; exact hl)

end Sys2Proof.Machine
end

