-- ==== Sys2Proof/Laws/Arithmetic.lean ====
section
/-! SUPPORT. The flag computations over numbers, and the lengths of instructions with an operand. -/

namespace Sys2Proof.Machine

open Sys2Proof.Safety

/-! ## Numbers -/

theorem natOf_lt (sz : Size) (v : Long) : natOf sz v < 2 ^ sz.bits := Nat.mod_lt _ (Nat.two_pow_pos _)

theorem uint_eq_natOf (sz : Size) (v : Long) : uint sz v = natOf sz v := by simp [uint, natOf]

theorem sint_eq_intOf (sz : Size) (v : Long) : sint sz v = intOf sz v := by
  have := natOf_lt sz v
  unfold sint intOf
  rw [BitVec.toInt_eq_toNat_cond, ← uint_eq_natOf, uint]
  cases sz <;> simp only [Size.bits] <;> split <;> split <;> omega

/-- The top bit is the sign. -/
theorem msb_eq_sign (sz : Size) (v : Long) : msb sz v = decide (intOf sz v < 0) := by
  rw [← sint_eq_intOf]
  unfold sint msb
  rw [← BitVec.msb_eq_toInt (x := v.setWidth sz.bits), BitVec.msb_eq_getLsbD_last, BitVec.getLsbD_setWidth]
  cases sz <;> simp

theorem natOf_ofNatAt (sz : Size) (n : Nat) : natOf sz (ofNatAt sz n) = n % 2 ^ sz.bits := by
  unfold natOf ofNatAt
  rw [BitVec.toNat_ofNat]
  cases sz <;> simp only [Size.bits] <;> omega

theorem ofNatAt_eq_zero (sz : Size) (n : Nat) : ofNatAt sz n = 0 ↔ n % 2 ^ sz.bits = 0 := by
  unfold ofNatAt
  rw [← BitVec.toNat_inj]
  simp only [BitVec.toNat_ofNat]
  cases sz
  · simp only [Size.bits]; simp; omega
  · simp only [Size.bits]; simp; omega
  · simp only [Size.bits]; simp

/-! ## Flags (00_scope.md R11) -/

theorem addFlags_rule (sz : Size) (a b : Long) (x : Bool) : AddRule sz a b x (addFlags sz a b x).r (addFlags sz a b x).ccr := by
  unfold AddRule addFlags Arith.ccr
  simp only [uint_eq_natOf, sint_eq_intOf, natOf_ofNatAt, msb_eq_sign]
  exact ⟨trivial, trivial, rfl, trivial⟩

theorem subFlags_rule (sz : Size) (a b : Long) (x : Bool) : SubRule sz a b x (subFlags sz a b x).r (subFlags sz a b x).ccr := by
  unfold SubRule subFlags Arith.ccr
  simp only [uint_eq_natOf, sint_eq_intOf, msb_eq_sign, ofIntAt, natOf_ofNatAt]
  refine ⟨?_, decide_eq_decide.2 (by omega), rfl, trivial⟩
  have h0 : (0 : Int) < 2 ^ sz.bits := by positivity
  have h1 := Int.emod_nonneg ((natOf sz b : Int) - natOf sz a - x.toNat) h0.ne'
  push_cast
  rw [Int.toNat_of_nonneg h1]
  exact Int.emod_eq_of_lt h1 (Int.emod_lt_of_pos _ h0)

theorem trunc_eq_zero (sz : Size) (v : Long) : trunc sz v = 0 ↔ natOf sz v = 0 := by
  rw [← BitVec.toNat_inj]
  have := v.isLt
  cases sz <;> simp [trunc, natOf, Size.bits] <;> omega

theorem logicCcr_rule (sz : Size) (r : Long) (old : Ccr) : LogicRule sz r old (logicCcr sz r old) :=
  ⟨msb_eq_sign sz r, decide_eq_decide.2 (trunc_eq_zero sz r), rfl, rfl, rfl⟩

/-! ## Lengths -/

theorem immWords_length_eq (sz : Size) (v : Long) : (immWords sz v).length = sz.immCount := by cases sz <;> rfl

/-- The address after an instruction with an operand in its opword, after its own words. -/
theorem nextPc_encEa {i : Instr} {l d b sc own : Nat} {ws : List Word} {sz : Size} {e : Ea} (hi : encode i = encEa l d b sc ws sz e)
    (h : ws.length = own) (s : State) : nextPc i s = s.pc + lengthOf own (e.words sz) := by
  unfold nextPc lengthOf
  rw [hi]
  simp only [encEa, List.length_cons, List.length_append, extWords_length_eq, h]
  congr 2
  omega

end Sys2Proof.Machine
end

