-- ==== Sys2Proof/Laws/Boundary.lean ====
section
/-! SUPPORT. What the operations of the instruction boundary, of the prefetch queue and of a model fault can do. -/

namespace Sys2Proof.Machine

/-! ## Model faults -/

@[simp] theorem Fault.left_withLeft (f : Fault) (t : State) : (f.withLeft t).left = t := by cases f <;> rfl

@[simp] theorem enterFaulted_next (s t : State) : enterFaulted s (.next t) = .next t := rfl

@[simp] theorem enterFaulted_fault (s : State) (f : Fault) :
    enterFaulted s (.fault f) = .fault (f.withLeft { f.left with run := .faulted, inputs := s.inputs.tail }) := rfl

@[simp] theorem enterFaulted_refused (s : State) (r : Refusal) : enterFaulted s (.refused r) = .refused r := rfl

theorem enterFaulted_eq_next {s t : State} {r : Result} : enterFaulted s r = .next t ↔ r = .next t := by
  cases r <;> simp

theorem enterFaulted_eq_fault {s : State} {f : Fault} {r : Result} :
    enterFaulted s r = .fault f ↔
      ∃ g, r = .fault g ∧ f = g.withLeft { g.left with run := .faulted, inputs := s.inputs.tail } := by
  cases r <;> simp [eq_comm]

/-! ## The prefetch queue -/

theorem mem_heldAt {s : State} {a : Long} {w : Word} :
    w ∈ s.heldAt a ↔ ∃ e ∈ s.stale, e.addr = physAddr s.cfg a ∧ e.word = w := by
  simp [State.heldAt, and_assoc]

theorem mem_keepStale {before after : List Host.Cell} {window : List Nat} {st : List HeldWord} {e : HeldWord} :
    e ∈ keepStale before after window st ↔
      e ∈ st ∧ (memWord before e.addr = memWord after e.addr ∨ e.addr ∈ window) := by
  simp [keepStale]

theorem mem_newStale {before after : List Host.Cell} {window : List Nat} {e : HeldWord} :
    e ∈ newStale before after window ↔
      e.addr ∈ window ∧ e.word = memWord before e.addr ∧ memWord before e.addr ≠ memWord after e.addr := by
  simp only [newStale, List.mem_map, List.mem_filter, bne_iff_ne]
  constructor
  · rintro ⟨n, ⟨h1, h2⟩, rfl⟩
    exact ⟨h1, rfl, h2⟩
  · rintro ⟨h1, h2, h3⟩
    exact ⟨e.addr, ⟨h1, h3⟩, by rw [← h2]⟩

/-- Where memory does not change, nothing that is held goes. -/
theorem keepStale_same (m : List Host.Cell) (window : List Nat) (st : List HeldWord) :
    keepStale m m window st = st := by simp [keepStale]

/-! ## Trace and interrupts -/

theorem traceIf_moves {t0 : Bool} {s t : State} (h : traceIf t0 s = .ok t) : Moves s t := by
  unfold traceIf at h
  split at h
  · exact exceptionEntry_moves h
  · cases h; exact .refl _

/-- A look at the interrupt input takes the input and notes its level, and enters the interrupt exception where the level is
accepted (60_exceptions.md R350, R351). -/
theorem serviceInterrupt_eq (s : State) :
    serviceInterrupt s =
      if accepts s (presented s.inputs).1 then
        interruptEntry (presented s.inputs).1 (presented s.inputs).2
          { s with inputs := s.inputs.tail, lastIpl := (presented s.inputs).1 }
      else .ok { s with inputs := s.inputs.tail, lastIpl := (presented s.inputs).1 } := rfl

theorem accepts_iff (s : State) (level : BitVec 3) :
    accepts s level = true ↔ s.sr.ipm.toNat < level.toNat ∨ (level = 7 ∧ s.lastIpl ≠ 7) := by
  simp [accepts]

end Sys2Proof.Machine
end

