-- ==== Sys2Proof/Laws/PerInstr.lean ====
section
/-! SUPPORT. Statements about every instruction as syntax, one lemma for each constructor of Instr. -/

namespace Sys2Proof.Laws

/-- An instruction is one to five words (30_encoding.md R83). -/
def EncodedLength.Statement (i : Instr) : Prop := 1 ≤ (encode i).length ∧ (encode i).length ≤ 5

theorem extWords_length (sz : Size) (e : Ea) : (e.extWords sz).length ≤ 2 := by
  cases e <;> cases sz <;> simp [Ea.extWords, immWords]

theorem immWords_length (sz : Size) (v : Long) : (immWords sz v).length ≤ 2 := by cases sz <;> simp [immWords]

theorem encEa_length (l d b s : Nat) (own : List Word) (sz : Size) (e : Ea) (h : own.length ≤ 2) :
    1 ≤ (encEa l d b s own sz e).length ∧ (encEa l d b s own sz e).length ≤ 5 := by
  have := extWords_length sz e
  simp only [encEa, List.length_cons, List.length_append]
  omega

theorem encShift_length (tt dir : Nat) (sz : Size) (c : ShiftCount) (r : Fin 8) :
    1 ≤ (encShift tt dir sz c r).length ∧ (encShift tt dir sz c r).length ≤ 5 := by simp [encShift]

theorem encBranch_length (c : Nat) (d : BranchDisp) : 1 ≤ (encBranch c d).length ∧ (encBranch c d).length ≤ 5 := by
  cases d <;> simp [encBranch]

theorem encMove_length (w : Word) (sz : Size) (src dst : Ea) :
    1 ≤ (w :: (src.extWords sz ++ dst.extWords sz)).length ∧ (w :: (src.extWords sz ++ dst.extWords sz)).length ≤ 5 := by
  have h1 := extWords_length sz src
  have h2 := extWords_length sz dst
  simp only [List.length_cons, List.length_append]
  omega

theorem EncodedLength.ori (sz : Size) (imm : Long) (ea : Ea) : EncodedLength.Statement (.ori sz imm ea) :=
  encEa_length _ _ _ _ _ _ _ (immWords_length _ _)
theorem EncodedLength.andi (sz : Size) (imm : Long) (ea : Ea) : EncodedLength.Statement (.andi sz imm ea) :=
  encEa_length _ _ _ _ _ _ _ (immWords_length _ _)
theorem EncodedLength.subi (sz : Size) (imm : Long) (ea : Ea) : EncodedLength.Statement (.subi sz imm ea) :=
  encEa_length _ _ _ _ _ _ _ (immWords_length _ _)
theorem EncodedLength.addi (sz : Size) (imm : Long) (ea : Ea) : EncodedLength.Statement (.addi sz imm ea) :=
  encEa_length _ _ _ _ _ _ _ (immWords_length _ _)
theorem EncodedLength.eori (sz : Size) (imm : Long) (ea : Ea) : EncodedLength.Statement (.eori sz imm ea) :=
  encEa_length _ _ _ _ _ _ _ (immWords_length _ _)
theorem EncodedLength.cmpi (sz : Size) (imm : Long) (ea : Ea) : EncodedLength.Statement (.cmpi sz imm ea) :=
  encEa_length _ _ _ _ _ _ _ (immWords_length _ _)
theorem EncodedLength.oriToCcr (imm : Byte) : EncodedLength.Statement (.oriToCcr imm) :=
  by simp [EncodedLength.Statement, encode]
theorem EncodedLength.oriToSr (imm : Word) : EncodedLength.Statement (.oriToSr imm) :=
  by simp [EncodedLength.Statement, encode]
theorem EncodedLength.andiToCcr (imm : Byte) : EncodedLength.Statement (.andiToCcr imm) :=
  by simp [EncodedLength.Statement, encode]
theorem EncodedLength.andiToSr (imm : Word) : EncodedLength.Statement (.andiToSr imm) :=
  by simp [EncodedLength.Statement, encode]
theorem EncodedLength.eoriToCcr (imm : Byte) : EncodedLength.Statement (.eoriToCcr imm) :=
  by simp [EncodedLength.Statement, encode]
theorem EncodedLength.eoriToSr (imm : Word) : EncodedLength.Statement (.eoriToSr imm) :=
  by simp [EncodedLength.Statement, encode]
theorem EncodedLength.btstImm (n : Byte) (ea : Ea) : EncodedLength.Statement (.btstImm n ea) :=
  encEa_length _ _ _ _ _ _ _ (by simp)
theorem EncodedLength.bchgImm (n : Byte) (ea : Ea) : EncodedLength.Statement (.bchgImm n ea) :=
  encEa_length _ _ _ _ _ _ _ (by simp)
theorem EncodedLength.bclrImm (n : Byte) (ea : Ea) : EncodedLength.Statement (.bclrImm n ea) :=
  encEa_length _ _ _ _ _ _ _ (by simp)
theorem EncodedLength.bsetImm (n : Byte) (ea : Ea) : EncodedLength.Statement (.bsetImm n ea) :=
  encEa_length _ _ _ _ _ _ _ (by simp)
theorem EncodedLength.btstReg (dn : Fin 8) (ea : Ea) : EncodedLength.Statement (.btstReg dn ea) :=
  encEa_length _ _ _ _ _ _ _ (by simp)
theorem EncodedLength.bchgReg (dn : Fin 8) (ea : Ea) : EncodedLength.Statement (.bchgReg dn ea) :=
  encEa_length _ _ _ _ _ _ _ (by simp)
theorem EncodedLength.bclrReg (dn : Fin 8) (ea : Ea) : EncodedLength.Statement (.bclrReg dn ea) :=
  encEa_length _ _ _ _ _ _ _ (by simp)
theorem EncodedLength.bsetReg (dn : Fin 8) (ea : Ea) : EncodedLength.Statement (.bsetReg dn ea) :=
  encEa_length _ _ _ _ _ _ _ (by simp)
theorem EncodedLength.movep (dir : MovepDir) (sz : Size) (dx : Fin 8) (ay : Fin 8) (d : Word) : EncodedLength.Statement (.movep dir sz dx ay d) :=
  by simp [EncodedLength.Statement, encode]
theorem EncodedLength.move (sz : Size) (src : Ea) (dst : Ea) : EncodedLength.Statement (.move sz src dst) :=
  encMove_length _ _ _ _
theorem EncodedLength.movea (sz : Size) (src : Ea) (an : Fin 8) : EncodedLength.Statement (.movea sz src an) :=
  encEa_length _ _ _ _ _ _ _ (by simp)
theorem EncodedLength.negx (sz : Size) (ea : Ea) : EncodedLength.Statement (.negx sz ea) :=
  encEa_length _ _ _ _ _ _ _ (by simp)
theorem EncodedLength.clr (sz : Size) (ea : Ea) : EncodedLength.Statement (.clr sz ea) :=
  encEa_length _ _ _ _ _ _ _ (by simp)
theorem EncodedLength.neg (sz : Size) (ea : Ea) : EncodedLength.Statement (.neg sz ea) :=
  encEa_length _ _ _ _ _ _ _ (by simp)
theorem EncodedLength.not (sz : Size) (ea : Ea) : EncodedLength.Statement (.not sz ea) :=
  encEa_length _ _ _ _ _ _ _ (by simp)
theorem EncodedLength.tst (sz : Size) (ea : Ea) : EncodedLength.Statement (.tst sz ea) :=
  encEa_length _ _ _ _ _ _ _ (by simp)
theorem EncodedLength.moveFromSr (ea : Ea) : EncodedLength.Statement (.moveFromSr ea) :=
  encEa_length _ _ _ _ _ _ _ (by simp)
theorem EncodedLength.moveToCcr (ea : Ea) : EncodedLength.Statement (.moveToCcr ea) :=
  encEa_length _ _ _ _ _ _ _ (by simp)
theorem EncodedLength.moveToSr (ea : Ea) : EncodedLength.Statement (.moveToSr ea) :=
  encEa_length _ _ _ _ _ _ _ (by simp)
theorem EncodedLength.chk (ea : Ea) (dn : Fin 8) : EncodedLength.Statement (.chk ea dn) :=
  encEa_length _ _ _ _ _ _ _ (by simp)
theorem EncodedLength.lea (ea : Ea) (an : Fin 8) : EncodedLength.Statement (.lea ea an) :=
  encEa_length _ _ _ _ _ _ _ (by simp)
theorem EncodedLength.nbcd (ea : Ea) : EncodedLength.Statement (.nbcd ea) :=
  encEa_length _ _ _ _ _ _ _ (by simp)
theorem EncodedLength.swap (dn : Fin 8) : EncodedLength.Statement (.swap dn) :=
  by simp [EncodedLength.Statement, encode]
theorem EncodedLength.pea (ea : Ea) : EncodedLength.Statement (.pea ea) :=
  encEa_length _ _ _ _ _ _ _ (by simp)
theorem EncodedLength.ext (sz : Size) (dn : Fin 8) : EncodedLength.Statement (.ext sz dn) :=
  by simp [EncodedLength.Statement, encode]
theorem EncodedLength.movemToMem (sz : Size) (mask : Word) (ea : Ea) : EncodedLength.Statement (.movemToMem sz mask ea) :=
  encEa_length _ _ _ _ _ _ _ (by simp)
theorem EncodedLength.movemToReg (sz : Size) (mask : Word) (ea : Ea) : EncodedLength.Statement (.movemToReg sz mask ea) :=
  encEa_length _ _ _ _ _ _ _ (by simp)
theorem EncodedLength.tas (ea : Ea) : EncodedLength.Statement (.tas ea) :=
  encEa_length _ _ _ _ _ _ _ (by simp)
theorem EncodedLength.illegal : EncodedLength.Statement (.illegal) :=
  by simp [EncodedLength.Statement, encode]
theorem EncodedLength.trap (v : Fin 16) : EncodedLength.Statement (.trap v) :=
  by simp [EncodedLength.Statement, encode]
theorem EncodedLength.link (an : Fin 8) (d : Word) : EncodedLength.Statement (.link an d) :=
  by simp [EncodedLength.Statement, encode]
theorem EncodedLength.unlk (an : Fin 8) : EncodedLength.Statement (.unlk an) :=
  by simp [EncodedLength.Statement, encode]
theorem EncodedLength.moveToUsp (an : Fin 8) : EncodedLength.Statement (.moveToUsp an) :=
  by simp [EncodedLength.Statement, encode]
theorem EncodedLength.moveFromUsp (an : Fin 8) : EncodedLength.Statement (.moveFromUsp an) :=
  by simp [EncodedLength.Statement, encode]
theorem EncodedLength.reset : EncodedLength.Statement (.reset) :=
  by simp [EncodedLength.Statement, encode]
theorem EncodedLength.nop : EncodedLength.Statement (.nop) :=
  by simp [EncodedLength.Statement, encode]
theorem EncodedLength.stop (imm : Word) : EncodedLength.Statement (.stop imm) :=
  by simp [EncodedLength.Statement, encode]
theorem EncodedLength.rte : EncodedLength.Statement (.rte) :=
  by simp [EncodedLength.Statement, encode]
theorem EncodedLength.rts : EncodedLength.Statement (.rts) :=
  by simp [EncodedLength.Statement, encode]
theorem EncodedLength.trapv : EncodedLength.Statement (.trapv) :=
  by simp [EncodedLength.Statement, encode]
theorem EncodedLength.rtr : EncodedLength.Statement (.rtr) :=
  by simp [EncodedLength.Statement, encode]
theorem EncodedLength.jsr (ea : Ea) : EncodedLength.Statement (.jsr ea) :=
  encEa_length _ _ _ _ _ _ _ (by simp)
theorem EncodedLength.jmp (ea : Ea) : EncodedLength.Statement (.jmp ea) :=
  encEa_length _ _ _ _ _ _ _ (by simp)
theorem EncodedLength.addq (sz : Size) (q : Fin 8) (ea : Ea) : EncodedLength.Statement (.addq sz q ea) :=
  encEa_length _ _ _ _ _ _ _ (by simp)
theorem EncodedLength.subq (sz : Size) (q : Fin 8) (ea : Ea) : EncodedLength.Statement (.subq sz q ea) :=
  encEa_length _ _ _ _ _ _ _ (by simp)
theorem EncodedLength.scc (cond : Cond) (ea : Ea) : EncodedLength.Statement (.scc cond ea) :=
  encEa_length _ _ _ _ _ _ _ (by simp)
theorem EncodedLength.dbcc (cond : Cond) (dn : Fin 8) (d : Word) : EncodedLength.Statement (.dbcc cond dn d) :=
  by simp [EncodedLength.Statement, encode]
theorem EncodedLength.bra (d : BranchDisp) : EncodedLength.Statement (.bra d) :=
  encBranch_length _ _
theorem EncodedLength.bsr (d : BranchDisp) : EncodedLength.Statement (.bsr d) :=
  encBranch_length _ _
theorem EncodedLength.bcc (cond : Cond) (d : BranchDisp) : EncodedLength.Statement (.bcc cond d) :=
  encBranch_length _ _
theorem EncodedLength.moveq (dn : Fin 8) (imm : Byte) : EncodedLength.Statement (.moveq dn imm) :=
  by simp [EncodedLength.Statement, encode]
theorem EncodedLength.orEaDn (sz : Size) (ea : Ea) (dn : Fin 8) : EncodedLength.Statement (.orEaDn sz ea dn) :=
  encEa_length _ _ _ _ _ _ _ (by simp)
theorem EncodedLength.orDnEa (sz : Size) (dn : Fin 8) (ea : Ea) : EncodedLength.Statement (.orDnEa sz dn ea) :=
  encEa_length _ _ _ _ _ _ _ (by simp)
theorem EncodedLength.divu (ea : Ea) (dn : Fin 8) : EncodedLength.Statement (.divu ea dn) :=
  encEa_length _ _ _ _ _ _ _ (by simp)
theorem EncodedLength.divs (ea : Ea) (dn : Fin 8) : EncodedLength.Statement (.divs ea dn) :=
  encEa_length _ _ _ _ _ _ _ (by simp)
theorem EncodedLength.sbcd (m : PairMode) (ry : Fin 8) (rx : Fin 8) : EncodedLength.Statement (.sbcd m ry rx) :=
  by simp [EncodedLength.Statement, encode]
theorem EncodedLength.subEaDn (sz : Size) (ea : Ea) (dn : Fin 8) : EncodedLength.Statement (.subEaDn sz ea dn) :=
  encEa_length _ _ _ _ _ _ _ (by simp)
theorem EncodedLength.subDnEa (sz : Size) (dn : Fin 8) (ea : Ea) : EncodedLength.Statement (.subDnEa sz dn ea) :=
  encEa_length _ _ _ _ _ _ _ (by simp)
theorem EncodedLength.suba (sz : Size) (ea : Ea) (an : Fin 8) : EncodedLength.Statement (.suba sz ea an) :=
  encEa_length _ _ _ _ _ _ _ (by simp)
theorem EncodedLength.subx (sz : Size) (m : PairMode) (ry : Fin 8) (rx : Fin 8) : EncodedLength.Statement (.subx sz m ry rx) :=
  by simp [EncodedLength.Statement, encode]
theorem EncodedLength.cmp (sz : Size) (ea : Ea) (dn : Fin 8) : EncodedLength.Statement (.cmp sz ea dn) :=
  encEa_length _ _ _ _ _ _ _ (by simp)
theorem EncodedLength.cmpa (sz : Size) (ea : Ea) (an : Fin 8) : EncodedLength.Statement (.cmpa sz ea an) :=
  encEa_length _ _ _ _ _ _ _ (by simp)
theorem EncodedLength.eor (sz : Size) (dn : Fin 8) (ea : Ea) : EncodedLength.Statement (.eor sz dn ea) :=
  encEa_length _ _ _ _ _ _ _ (by simp)
theorem EncodedLength.cmpm (sz : Size) (ry : Fin 8) (rx : Fin 8) : EncodedLength.Statement (.cmpm sz ry rx) :=
  by simp [EncodedLength.Statement, encode]
theorem EncodedLength.andEaDn (sz : Size) (ea : Ea) (dn : Fin 8) : EncodedLength.Statement (.andEaDn sz ea dn) :=
  encEa_length _ _ _ _ _ _ _ (by simp)
theorem EncodedLength.andDnEa (sz : Size) (dn : Fin 8) (ea : Ea) : EncodedLength.Statement (.andDnEa sz dn ea) :=
  encEa_length _ _ _ _ _ _ _ (by simp)
theorem EncodedLength.mulu (ea : Ea) (dn : Fin 8) : EncodedLength.Statement (.mulu ea dn) :=
  encEa_length _ _ _ _ _ _ _ (by simp)
theorem EncodedLength.muls (ea : Ea) (dn : Fin 8) : EncodedLength.Statement (.muls ea dn) :=
  encEa_length _ _ _ _ _ _ _ (by simp)
theorem EncodedLength.abcd (m : PairMode) (ry : Fin 8) (rx : Fin 8) : EncodedLength.Statement (.abcd m ry rx) :=
  by simp [EncodedLength.Statement, encode]
theorem EncodedLength.exgDD (rx : Fin 8) (ry : Fin 8) : EncodedLength.Statement (.exgDD rx ry) :=
  by simp [EncodedLength.Statement, encode]
theorem EncodedLength.exgAA (rx : Fin 8) (ry : Fin 8) : EncodedLength.Statement (.exgAA rx ry) :=
  by simp [EncodedLength.Statement, encode]
theorem EncodedLength.exgDA (rx : Fin 8) (ry : Fin 8) : EncodedLength.Statement (.exgDA rx ry) :=
  by simp [EncodedLength.Statement, encode]
theorem EncodedLength.addEaDn (sz : Size) (ea : Ea) (dn : Fin 8) : EncodedLength.Statement (.addEaDn sz ea dn) :=
  encEa_length _ _ _ _ _ _ _ (by simp)
theorem EncodedLength.addDnEa (sz : Size) (dn : Fin 8) (ea : Ea) : EncodedLength.Statement (.addDnEa sz dn ea) :=
  encEa_length _ _ _ _ _ _ _ (by simp)
theorem EncodedLength.adda (sz : Size) (ea : Ea) (an : Fin 8) : EncodedLength.Statement (.adda sz ea an) :=
  encEa_length _ _ _ _ _ _ _ (by simp)
theorem EncodedLength.addx (sz : Size) (m : PairMode) (ry : Fin 8) (rx : Fin 8) : EncodedLength.Statement (.addx sz m ry rx) :=
  by simp [EncodedLength.Statement, encode]
theorem EncodedLength.asr (sz : Size) (count : ShiftCount) (dn : Fin 8) : EncodedLength.Statement (.asr sz count dn) :=
  encShift_length _ _ _ _ _
theorem EncodedLength.asl (sz : Size) (count : ShiftCount) (dn : Fin 8) : EncodedLength.Statement (.asl sz count dn) :=
  encShift_length _ _ _ _ _
theorem EncodedLength.lsr (sz : Size) (count : ShiftCount) (dn : Fin 8) : EncodedLength.Statement (.lsr sz count dn) :=
  encShift_length _ _ _ _ _
theorem EncodedLength.lsl (sz : Size) (count : ShiftCount) (dn : Fin 8) : EncodedLength.Statement (.lsl sz count dn) :=
  encShift_length _ _ _ _ _
theorem EncodedLength.roxr (sz : Size) (count : ShiftCount) (dn : Fin 8) : EncodedLength.Statement (.roxr sz count dn) :=
  encShift_length _ _ _ _ _
theorem EncodedLength.roxl (sz : Size) (count : ShiftCount) (dn : Fin 8) : EncodedLength.Statement (.roxl sz count dn) :=
  encShift_length _ _ _ _ _
theorem EncodedLength.ror (sz : Size) (count : ShiftCount) (dn : Fin 8) : EncodedLength.Statement (.ror sz count dn) :=
  encShift_length _ _ _ _ _
theorem EncodedLength.rol (sz : Size) (count : ShiftCount) (dn : Fin 8) : EncodedLength.Statement (.rol sz count dn) :=
  encShift_length _ _ _ _ _
theorem EncodedLength.asrMem (ea : Ea) : EncodedLength.Statement (.asrMem ea) :=
  encEa_length _ _ _ _ _ _ _ (by simp)
theorem EncodedLength.aslMem (ea : Ea) : EncodedLength.Statement (.aslMem ea) :=
  encEa_length _ _ _ _ _ _ _ (by simp)
theorem EncodedLength.lsrMem (ea : Ea) : EncodedLength.Statement (.lsrMem ea) :=
  encEa_length _ _ _ _ _ _ _ (by simp)
theorem EncodedLength.lslMem (ea : Ea) : EncodedLength.Statement (.lslMem ea) :=
  encEa_length _ _ _ _ _ _ _ (by simp)
theorem EncodedLength.roxrMem (ea : Ea) : EncodedLength.Statement (.roxrMem ea) :=
  encEa_length _ _ _ _ _ _ _ (by simp)
theorem EncodedLength.roxlMem (ea : Ea) : EncodedLength.Statement (.roxlMem ea) :=
  encEa_length _ _ _ _ _ _ _ (by simp)
theorem EncodedLength.rorMem (ea : Ea) : EncodedLength.Statement (.rorMem ea) :=
  encEa_length _ _ _ _ _ _ _ (by simp)
theorem EncodedLength.rolMem (ea : Ea) : EncodedLength.Statement (.rolMem ea) :=
  encEa_length _ _ _ _ _ _ _ (by simp)
theorem EncodedLength.lineA (w : BitVec 12) : EncodedLength.Statement (.lineA w) :=
  by simp [EncodedLength.Statement, encode, encLine]
theorem EncodedLength.lineF (w : BitVec 12) : EncodedLength.Statement (.lineF w) :=
  by simp [EncodedLength.Statement, encode, encLine]

end Sys2Proof.Laws
end

