-- ==== Sys2Proof/Machine/Timing.lean ====
section
/-! DEFINITION. The cycle counts of 70_reset_and_hazards.md R385 to R397, as a function no step uses: they are informative (R385;
log 23). A count is a range, of one value but for the divisions; there is none where the spec gives none. -/

namespace Sys2Proof.Machine

/-- A smallest and a largest number of clock cycles. -/
abbrev Cycles := Nat × Nat

/-- One number of cycles. -/
def exactly (n : Nat) : Option Cycles := some (n, n)

/-- The source fetch part of a cell (70_reset_and_hazards.md R387, last sentence). -/
def fetchTime (sz : Size) : Ea → Nat
  | .dn _ => 0
  | .an _ => 0
  | .ind _ => if sz = .l then 8 else 4
  | .postInc _ => if sz = .l then 8 else 4
  | .preDec _ => if sz = .l then 10 else 6
  | .disp _ _ => if sz = .l then 12 else 8
  | .index _ _ => if sz = .l then 14 else 10
  | .absW _ => if sz = .l then 12 else 8
  | .absL _ => if sz = .l then 16 else 12
  | .pcDisp _ => if sz = .l then 12 else 8
  | .pcIndex _ => if sz = .l then 14 else 10
  | .imm _ => if sz = .l then 8 else 4

/-- The destination write part of a MOVE cell (70_reset_and_hazards.md R387, last sentence). -/
def moveWriteTime (sz : Size) : Ea → Nat
  | .dn _ => 0
  | .ind _ => if sz = .l then 8 else 4
  | .postInc _ => if sz = .l then 8 else 4
  | .preDec _ => if sz = .l then 8 else 4
  | .disp _ _ => if sz = .l then 12 else 8
  | .index _ _ => if sz = .l then 14 else 10
  | .absW _ => if sz = .l then 12 else 8
  | .absL _ => if sz = .l then 16 else 12
  | _ => 0

/-- A register operand. -/
def isRegister : Ea → Bool
  | .dn _ => true
  | .an _ => true
  | _ => false

/-- A cell of a table by the size of the operation: a register operand, or a base to which the source fetch is added. -/
def cell (sz : Size) (ea : Ea) (regW regL memW memL : Nat) : Option Cycles :=
  if isRegister ea then exactly (if sz = .l then regL else regW)
  else exactly ((if sz = .l then memL else memW) + fetchTime sz ea)

/-- The cell of an immediate source that is no base plus fetch (70_reset_and_hazards.md R389, R392, row `#$`). -/
def immediateOr (ea : Ea) (sz : Size) (immL : Nat) (other : Option Cycles) : Option Cycles :=
  if ea.isImm && sz == .l then exactly immL else other

/-- Read-modify-write of memory, and a register form (70_reset_and_hazards.md R389, R392, R397). -/
def modifyTime (sz : Size) (ea : Ea) (regW regL : Nat) : Option Cycles := cell sz ea regW regL 8 12

/-- The address part of MOVEM, over `(aX)` (70_reset_and_hazards.md R388). -/
def movemAddressTime : Ea → Nat
  | .disp _ _ => 4
  | .index _ _ => 6
  | .absW _ => 4
  | .absL _ => 8
  | .pcDisp _ => 4
  | .pcIndex _ => 6
  | _ => 0

/-- MOVEM's time for its registers (41_move.md R160). -/
def movemListTime (sz : Size) (mask : Word) : Nat := (maskBits mask).length * (if sz = .l then 8 else 4)

/-- LEA's column (70_reset_and_hazards.md R395). -/
def leaTime : Ea → Nat
  | .ind _ => 4
  | .index _ _ => 12
  | .absL _ => 12
  | .pcIndex _ => 12
  | _ => 8

/-- JMP's column (70_reset_and_hazards.md R395). -/
def jmpTime : Ea → Nat
  | .ind _ => 8
  | .index _ _ => 14
  | .absL _ => 12
  | .pcIndex _ => 14
  | _ => 10

/-- The number of ones among the low bits of a value. -/
def onesBelow : Nat → Nat → Nat
  | 0, _ => 0
  | k + 1, n => n % 2 + onesBelow k (n / 2)

/-- `n` of MULU: the ones of the source (70_reset_and_hazards.md R396). -/
def muluOnes (v : Long) : Nat := onesBelow 16 (uint .w v)

/-- `n` of MULS: the bit changes of the source with a zero below it (70_reset_and_hazards.md R396). -/
def mulsChanges (v : Long) : Nat := onesBelow 16 (uint .w (v ^^^ (v <<< 1)))

/-- A time that depends on the value of a word operand; none where it cannot be read. -/
def withSource (ea : Ea) (s : State) (f : Long → State → Option Cycles) : Option Cycles :=
  match readEa ea .w (extAt s 0) s with
  | .ok (v, s1) => f v s1
  | .error _ => none

/-- A range with the source fetch added. -/
def rangeWith (ea : Ea) (lo hi : Nat) : Option Cycles := some (lo + fetchTime .w ea, hi + fetchTime .w ea)

/-- DIVS: an overflow is detected early (70_reset_and_hazards.md R396). -/
def divsTime (ea : Ea) (dn : Fin 8) (s : State) : Option Cycles :=
  withSource ea s fun v s1 =>
    let m := sint .w v
    let q := (sint .l (s1.dreg dn)).tdiv m
    if m = 0 then none else if q < -32768 ∨ 32767 < q then rangeWith ea 16 18 else rangeWith ea 120 156

/-- DIVU: an overflow is detected early (70_reset_and_hazards.md R396). -/
def divuTime (ea : Ea) (dn : Fin 8) (s : State) : Option Cycles :=
  withSource ea s fun v s1 =>
    let m := uint .w v
    if m = 0 then none else if 65535 < uint .l (s1.dreg dn) / m then rangeWith ea 10 10 else rangeWith ea 76 136

/-- CHK: 44 where the trap is taken, else 10 (70_reset_and_hazards.md R396). -/
def chkTime (ea : Ea) (dn : Fin 8) (s : State) : Option Cycles :=
  withSource ea s fun w s1 =>
    let v := sint .w (s1.dreg dn)
    if v < 0 ∨ sint .w w < v then rangeWith ea 44 44 else rangeWith ea 10 10

/-- Bcc: taken 10, not taken 8 or 12 (70_reset_and_hazards.md R395). -/
def bccTime (c : Cond) (d : BranchDisp) (s : State) : Nat :=
  if condHolds s.sr.ccr c then 10 else if d.words = 0 then 8 else 12

/-- DBcc: taken 10, condition true 12, expired 14 (70_reset_and_hazards.md R395). -/
def dbccTime (c : Cond) (dn : Fin 8) (s : State) : Nat :=
  if condHolds s.sr.ccr c then 12 else if (s.dreg dn).setWidth 16 = (0 : Word) then 14 else 10

/-- A register shift: 6 + 2c, long 8 + 2c (70_reset_and_hazards.md R394). -/
def shiftTime (sz : Size) (count : ShiftCount) (s : State) : Option Cycles :=
  exactly ((if sz = .l then 8 else 6) + 2 * shiftCountOf s count)

/-- BTST has no time for PC-relative and immediate destinations (70_reset_and_hazards.md R393, last sentence). -/
def btstTime (ea : Ea) (reg mem : Nat) : Option Cycles :=
  if ea.isAlterable then cell (bitSize ea) ea reg reg mem mem else none

/-- The time of an executed instruction (70_reset_and_hazards.md R385); none for an exception in its place. -/
def instrCycles (i : Instr) (s : State) : Option Cycles :=
  match i with
  | .ori sz _ ea | .andi sz _ ea | .subi sz _ ea | .addi sz _ ea | .eori sz _ ea => cell sz ea 8 16 12 20
  | .cmpi sz _ ea => cell sz ea 8 14 8 12
  | .oriToCcr _ | .andiToCcr _ | .eoriToCcr _ => exactly 20
  | .oriToSr _ | .andiToSr _ | .eoriToSr _ => exactly 20
  | .btstImm _ ea => btstTime ea 10 8
  | .bchgImm _ ea | .bsetImm _ ea => cell (bitSize ea) ea 10 10 12 12
  | .bclrImm _ ea => cell (bitSize ea) ea 12 12 12 12
  | .btstReg _ ea => btstTime ea 6 4
  | .bchgReg _ ea | .bsetReg _ ea => cell (bitSize ea) ea 6 6 8 8
  | .bclrReg _ ea => cell (bitSize ea) ea 8 8 8 8
  | .movep _ sz _ _ _ => exactly (if sz = .l then 24 else 16)
  | .move sz src dst => exactly (4 + fetchTime sz src + moveWriteTime sz dst)
  | .movea sz src _ => exactly (4 + fetchTime sz src)
  | .negx sz ea | .clr sz ea | .neg sz ea | .not sz ea => modifyTime sz ea 4 6
  | .tst sz ea => cell sz ea 4 4 4 4
  | .moveFromSr ea => cell .w ea 6 6 8 8
  | .moveToCcr ea | .moveToSr ea => exactly (12 + fetchTime .w ea)
  | .chk ea dn => chkTime ea dn s
  | .lea ea _ => exactly (leaTime ea)
  | .nbcd ea => cell .b ea 6 6 8 8
  | .swap _ => exactly 4
  | .pea ea => exactly (8 + leaTime ea)
  | .ext _ _ => exactly 4
  | .movemToMem sz mask ea => exactly (8 + movemAddressTime ea + movemListTime sz mask)
  | .movemToReg sz mask ea => exactly (12 + movemAddressTime ea + movemListTime sz mask)
  | .tas ea => cell .b ea 4 4 10 10
  | .illegal => exactly 34
  | .trap _ => exactly 34
  | .link _ _ => exactly 16
  | .unlk _ => exactly 12
  | .moveToUsp _ | .moveFromUsp _ => exactly 4
  | .reset => exactly 132
  | .nop => exactly 4
  | .stop _ => exactly 4
  | .rte | .rtr => exactly 20
  | .rts => exactly 16
  | .trapv => exactly (if s.sr.ccr.v then 34 else 4)
  | .jsr ea => exactly (8 + jmpTime ea)
  | .jmp ea => exactly (jmpTime ea)
  | .addq sz _ ea | .subq sz _ ea => if ea.isAn then exactly 8 else modifyTime sz ea 4 8
  | .scc c ea => cell .b ea (if condHolds s.sr.ccr c then 6 else 4) 4 8 8
  | .dbcc c dn _ => exactly (dbccTime c dn s)
  | .bra _ => exactly 10
  | .bsr _ => exactly 18
  | .bcc c d => exactly (bccTime c d s)
  | .moveq _ _ => exactly 4
  | .orEaDn sz ea _ | .andEaDn sz ea _ => immediateOr ea sz 16 (cell sz ea 4 8 4 6)
  | .addEaDn sz ea _ | .subEaDn sz ea _ => immediateOr ea sz 16 (cell sz ea 4 8 4 4)
  | .orDnEa sz _ ea | .andDnEa sz _ ea | .addDnEa sz _ ea | .subDnEa sz _ ea | .eor sz _ ea => modifyTime sz ea 4 8
  | .divu ea dn => divuTime ea dn s
  | .divs ea dn => divsTime ea dn s
  | .sbcd m _ _ | .abcd m _ _ => exactly (if m = .dataReg then 6 else 18)
  | .adda sz ea _ | .suba sz ea _ => immediateOr ea sz 16 (cell sz ea 8 8 8 6)
  | .addx sz m _ _ | .subx sz m _ _ =>
    exactly (if m = .dataReg then (if sz = .l then 8 else 4) else if sz = .l then 30 else 18)
  | .cmp sz ea _ => cell sz ea 4 6 4 6
  | .cmpa sz ea _ => cell sz ea 6 6 6 6
  | .cmpm sz _ _ => exactly (if sz = .l then 20 else 12)
  | .mulu ea _ => withSource ea s fun v _ => rangeWith ea (38 + 2 * muluOnes v) (38 + 2 * muluOnes v)
  | .muls ea _ => withSource ea s fun v _ => rangeWith ea (38 + 2 * mulsChanges v) (38 + 2 * mulsChanges v)
  | .exgDD _ _ | .exgAA _ _ | .exgDA _ _ => exactly 6
  | .asr sz c _ | .asl sz c _ | .lsr sz c _ | .lsl sz c _ => shiftTime sz c s
  | .roxr sz c _ | .roxl sz c _ | .ror sz c _ | .rol sz c _ => shiftTime sz c s
  | .asrMem ea | .aslMem ea | .lsrMem ea | .lslMem ea => exactly (8 + fetchTime .w ea)
  | .roxrMem ea | .roxlMem ea | .rorMem ea | .rolMem ea => exactly (8 + fetchTime .w ea)
  | .lineA _ | .lineF _ => none

/-- The time of an instruction at a state; a privilege violation's is not in the spec (70_reset_and_hazards.md R385). -/
def cycles (i : Instr) (s : State) : Option Cycles :=
  if isPrivileged i && !executes i s then none else instrCycles i s

end Sys2Proof.Machine
end

