-- ==== Sys2Proof/Tests/Slice0.lean ====
section
/-! SUPPORT. Tests: ill-formed terms, words written out from the spec's encodings, single steps with the values of
95_test_vectors.md, and for each statement with hypotheses a state and operands that meet them. -/

open Sys2Proof Sys2Proof.Machine Sys2Proof.Safety

namespace Sys2Proof.Tests

-- Checked one after another: each test in a thread of its own would ask for more memory than a build may use.
set_option Elab.async false

/-! ## Ill-formed terms, one for each check -/

theorem test_wf_size_classes :
    Instr.wellFormed (.move .b (.an 0) (.dn 0)) = false ∧ Instr.wellFormed (.addq .b 1 (.an 0)) = false ∧
      Instr.wellFormed (.movea .b (.dn 0) 0) = false ∧ Instr.wellFormed (.ext .b 0) = false ∧
      Instr.wellFormed (.movep .toReg .b 0 0 0) = false ∧ Instr.wellFormed (.cmpa .b (.dn 0) 0) = false ∧
      Instr.wellFormed (.movemToMem .b 1 (.ind 0)) = false ∧ Instr.wellFormed (.addEaDn .b (.an 0) 0) = false := by decide +kernel

theorem test_wf_immediates_fit :
    Instr.wellFormed (.ori .b 0x100 (.dn 0)) = false ∧ Instr.wellFormed (.addi .w 0x10000 (.dn 0)) = false ∧
      Instr.wellFormed (.move .b (.imm 0x100) (.dn 0)) = false ∧ Instr.wellFormed (.divu (.imm 0x10000) 0) = false ∧
      Instr.wellFormed (.moveToSr (.imm 0x10000)) = false ∧ Instr.wellFormed (.btstReg 0 (.imm 0x100)) = false ∧
      Instr.wellFormed (.suba .w (.imm 0x10000) 0) = false := by decide +kernel

theorem test_wf_operand_classes :
    Instr.wellFormed (.ori .w 1 (.an 0)) = false ∧ Instr.wellFormed (.clr .w (.pcDisp 0)) = false ∧
      Instr.wellFormed (.tst .w (.imm 0)) = false ∧ Instr.wellFormed (.move .w (.dn 0) (.imm 0)) = false ∧
      Instr.wellFormed (.btstImm 0 (.imm 0)) = false ∧ Instr.wellFormed (.chk (.an 0) 0) = false ∧
      Instr.wellFormed (.lea (.postInc 0) 0) = false ∧ Instr.wellFormed (.jmp (.dn 0)) = false ∧
      Instr.wellFormed (.movemToMem .w 1 (.postInc 0)) = false ∧ Instr.wellFormed (.movemToReg .w 1 (.preDec 0)) = false ∧
      Instr.wellFormed (.subq .w 1 (.pcIndex { reg := 0, long := false, disp := 0 })) = false ∧
      Instr.wellFormed (.orDnEa .w 0 (.dn 1)) = false ∧ Instr.wellFormed (.aslMem (.dn 0)) = false ∧
      Instr.wellFormed (.andEaDn .w (.an 1) 0) = false := by decide +kernel

theorem test_wf_branches :
    Instr.wellFormed (.bra (.short 0)) = false ∧ Instr.wellFormed (.bcc .t (.short 2)) = false ∧
      Instr.wellFormed (.bcc .f (.word 2)) = false := by decide +kernel

/-! ## Decoding: every constructor, from words written out bit by bit by 30_encoding.md R93 -/

theorem test_decode_line0 :
    decode [0x0018, 0x0012] = .instr (.ori .b 0x12 (.postInc 0)) [] ∧
      decode [0x0240, 0x00FF] = .instr (.andi .w 0xFF (.dn 0)) [] ∧
      decode [0x0483, 0x0001, 0x0002] = .instr (.subi .l 0x10002 (.dn 3)) [] ∧
      decode [0x0680, 0x0001, 0x0000] = .instr (.addi .l 0x10000 (.dn 0)) [] ∧
      decode [0x0A62, 0xFF00] = .instr (.eori .w 0xFF00 (.preDec 2)) [] ∧
      decode [0x0C00, 0x0080] = .instr (.cmpi .b 0x80 (.dn 0)) [] ∧ decode [0x003C, 0x0004] = .instr (.oriToCcr 4) [] ∧
      decode [0x007C, 0xFFFF] = .instr (.oriToSr 0xFFFF) [] ∧ decode [0x023C, 0x00FE] = .instr (.andiToCcr 0xFE) [] ∧
      decode [0x027C, 0xDFFF] = .instr (.andiToSr 0xDFFF) [] ∧ decode [0x0A3C, 0x00FF] = .instr (.eoriToCcr 0xFF) [] ∧
      decode [0x0A7C, 0x2000] = .instr (.eoriToSr 0x2000) [] ∧ decode [0x0800, 0x0007] = .instr (.btstImm 7 (.dn 0)) [] ∧
      decode [0x083A, 0x0000, 0x0004] = .instr (.btstImm 0 (.pcDisp 4)) [] ∧
      decode [0x0840, 0x0000] = .instr (.bchgImm 0 (.dn 0)) [] ∧
      decode [0x08B8, 0x0005, 0x1234] = .instr (.bclrImm 5 (.absW 0x1234)) [] ∧
      decode [0x08D0, 0x0003] = .instr (.bsetImm 3 (.ind 0)) [] ∧ decode [0x0310] = .instr (.btstReg 1 (.ind 0)) [] ∧
      decode [0x0569, 0x0008] = .instr (.bchgReg 2 (.disp 1 8)) [] ∧ decode [0x0180] = .instr (.bclrReg 0 (.dn 0)) [] ∧
      decode [0x0FDB] = .instr (.bsetReg 7 (.postInc 3)) [] ∧
      decode [0x01C8, 0x0000] = .instr (.movep .toMem .l 0 0 0) [] ∧
      decode [0x0108, 0x0000] = .instr (.movep .toReg .w 0 0 0) [] := by decide +kernel

theorem test_decode_moves :
    decode [0x1038, 0x2000] = .instr (.move .b (.absW 0x2000) (.dn 0)) [] ∧
      decode [0x23C0, 0x0001, 0x0000] = .instr (.move .l (.dn 0) (.absL 0x10000)) [] ∧
      decode [0x33FC, 0x1234, 0x0000, 0x2000] = .instr (.move .w (.imm 0x1234) (.absL 0x2000)) [] ∧
      decode [0x23FC, 0x1234, 0x5678, 0x0000, 0x2000] = .instr (.move .l (.imm 0x12345678) (.absL 0x2000)) [] ∧
      decode [0x3430, 0x0804] = .instr (.move .w (.index 0 { reg := 0, long := true, disp := 4 }) (.dn 2)) [] ∧
      decode [0x343B, 0x10FE] = .instr (.move .w (.pcIndex { reg := 1, long := false, disp := 0xFE }) (.dn 2)) [] ∧
      decode [0x143C, 0xFF34] = .instr (.move .b (.imm 0x34) (.dn 2)) [] ∧
      decode [0x2E7C, 0x0000, 0x3000] = .instr (.movea .l (.imm 0x3000) 7) [] ∧
      decode [0x76FF] = .instr (.moveq 3 0xFF) [] := by decide +kernel

theorem test_decode_line4 :
    decode [0x4080] = .instr (.negx .l (.dn 0)) [] ∧ decode [0x4200] = .instr (.clr .b (.dn 0)) [] ∧
      decode [0x4440] = .instr (.neg .w (.dn 0)) [] ∧ decode [0x4640] = .instr (.not .w (.dn 0)) [] ∧
      decode [0x4A40] = .instr (.tst .w (.dn 0)) [] ∧ decode [0x40C0] = .instr (.moveFromSr (.dn 0)) [] ∧
      decode [0x44FC, 0x0004] = .instr (.moveToCcr (.imm 4)) [] ∧
      decode [0x46FC, 0x2000] = .instr (.moveToSr (.imm 0x2000)) [] ∧ decode [0x4181] = .instr (.chk (.dn 1) 0) [] ∧
      decode [0x41FA, 0x0010] = .instr (.lea (.pcDisp 0x10) 0) [] ∧
      decode [0x43F0, 0x1804] = .instr (.lea (.index 0 { reg := 1, long := true, disp := 4 }) 1) [] ∧
      decode [0x4800] = .instr (.nbcd (.dn 0)) [] ∧ decode [0x4840] = .instr (.swap 0) [] ∧
      decode [0x4850] = .instr (.pea (.ind 0)) [] ∧ decode [0x4880] = .instr (.ext .w 0) [] ∧
      decode [0x48C0] = .instr (.ext .l 0) [] ∧ decode [0x48E7, 0xC080] = .instr (.movemToMem .l 0xC080 (.preDec 7)) [] ∧
      decode [0x4C98, 0x0201] = .instr (.movemToReg .w 0x0201 (.postInc 0)) [] ∧
      decode [0x4AD0] = .instr (.tas (.ind 0)) [] ∧ decode [0x4AFC] = .instr .illegal [] := by decide +kernel

theorem test_decode_control :
    decode [0x4E4F] = .instr (.trap 15) [] ∧ decode [0x4E56, 0xFFF8] = .instr (.link 6 0xFFF8) [] ∧
      decode [0x4E5E] = .instr (.unlk 6) [] ∧ decode [0x4E60] = .instr (.moveToUsp 0) [] ∧
      decode [0x4E68] = .instr (.moveFromUsp 0) [] ∧ decode [0x4E70] = .instr .reset [] ∧
      decode [0x4E71] = .instr .nop [] ∧ decode [0x4E72, 0x2700] = .instr (.stop 0x2700) [] ∧
      decode [0x4E73] = .instr .rte [] ∧ decode [0x4E75] = .instr .rts [] ∧ decode [0x4E76] = .instr .trapv [] ∧
      decode [0x4E77] = .instr .rtr [] ∧ decode [0x4EB8, 0x4000] = .instr (.jsr (.absW 0x4000)) [] ∧
      decode [0x4ED0] = .instr (.jmp (.ind 0)) [] ∧ decode [0x5048] = .instr (.addq .w 0 (.an 0)) [] ∧
      decode [0x5380] = .instr (.subq .l 1 (.dn 0)) [] ∧ decode [0x57C0] = .instr (.scc .eq (.dn 0)) [] ∧
      decode [0x51C8, 0xFFFC] = .instr (.dbcc .f 0 0xFFFC) [] ∧ decode [0x60FE] = .instr (.bra (.short 0xFE)) [] ∧
      decode [0x6000, 0x0100] = .instr (.bra (.word 0x100)) [] ∧ decode [0x6106] = .instr (.bsr (.short 6)) [] ∧
      decode [0x6704] = .instr (.bcc .eq (.short 4)) [] ∧ decode [0x6600, 0xFFFA] = .instr (.bcc .ne (.word 0xFFFA)) [] := by
  decide +kernel

theorem test_decode_arithmetic :
    decode [0x8041] = .instr (.orEaDn .w (.dn 1) 0) [] ∧ decode [0x8150] = .instr (.orDnEa .w 0 (.ind 0)) [] ∧
      decode [0x80FC, 0x000A] = .instr (.divu (.imm 10) 0) [] ∧ decode [0x81C1] = .instr (.divs (.dn 1) 0) [] ∧
      decode [0x8101] = .instr (.sbcd .dataReg 1 0) [] ∧ decode [0x9041] = .instr (.subEaDn .w (.dn 1) 0) [] ∧
      decode [0x9312] = .instr (.subDnEa .b 1 (.ind 2)) [] ∧ decode [0x96C2] = .instr (.suba .w (.dn 2) 3) [] ∧
      decode [0x9101] = .instr (.subx .b .dataReg 1 0) [] ∧ decode [0xB041] = .instr (.cmp .w (.dn 1) 0) [] ∧
      decode [0xB1C9] = .instr (.cmpa .l (.an 1) 0) [] ∧ decode [0xB380] = .instr (.eor .l 1 (.dn 0)) [] ∧
      decode [0xB308] = .instr (.cmpm .b 0 1) [] ∧ decode [0xC041] = .instr (.andEaDn .w (.dn 1) 0) [] ∧
      decode [0xC9A5] = .instr (.andDnEa .l 4 (.preDec 5)) [] ∧ decode [0xC0C0] = .instr (.mulu (.dn 0) 0) [] ∧
      decode [0xC1C1] = .instr (.muls (.dn 1) 0) [] ∧ decode [0xC308] = .instr (.abcd .memPreDec 0 1) [] ∧
      decode [0xC141] = .instr (.exgDD 0 1) [] ∧ decode [0xC149] = .instr (.exgAA 0 1) [] ∧
      decode [0xC388] = .instr (.exgDA 1 0) [] ∧ decode [0xD058] = .instr (.addEaDn .w (.postInc 0) 0) [] ∧
      decode [0xD150] = .instr (.addDnEa .w 0 (.ind 0)) [] ∧ decode [0xD1C0] = .instr (.adda .l (.dn 0) 0) [] ∧
      decode [0xD189] = .instr (.addx .l .memPreDec 1 0) [] := by decide +kernel

theorem test_decode_shifts_and_lines :
    decode [0xE241] = .instr (.asr .w (.imm 1) 1) [] ∧ decode [0xE300] = .instr (.asl .b (.imm 1) 0) [] ∧
      decode [0xE088] = .instr (.lsr .l (.imm 0) 0) [] ∧ decode [0xE748] = .instr (.lsl .w (.imm 3) 0) [] ∧
      decode [0xE433] = .instr (.roxr .b (.reg 2) 3) [] ∧ decode [0xE197] = .instr (.roxl .l (.imm 0) 7) [] ∧
      decode [0xE85D] = .instr (.ror .w (.imm 4) 5) [] ∧ decode [0xE378] = .instr (.rol .w (.reg 1) 0) [] ∧
      decode [0xE0D9] = .instr (.asrMem (.postInc 1)) [] ∧ decode [0xE1D0] = .instr (.aslMem (.ind 0)) [] ∧
      decode [0xE2E2] = .instr (.lsrMem (.preDec 2)) [] ∧ decode [0xE3F8, 0x8000] = .instr (.lslMem (.absW 0x8000)) [] ∧
      decode [0xE4E8, 0x0002] = .instr (.roxrMem (.disp 0 2)) [] ∧ decode [0xE5D6] = .instr (.roxlMem (.ind 6)) [] ∧
      decode [0xE6D0] = .instr (.rorMem (.ind 0)) [] ∧
      decode [0xE7F9, 0x1234, 0x5678] = .instr (.rolMem (.absL 0x12345678)) [] ∧
      decode [0xA123] = .instr (.lineA 0x123) [] ∧ decode [0xFFFF] = .instr (.lineF 0xFFF) [] := by decide +kernel

/-- The opwords of 95_test_vectors.md section 2.1 that select no row. -/
theorem test_decode_illegal :
    ([0x4E74, 0x4E7A, 0x4E7B, 0x42C0, 0x49C0, 0x1008, 0x50FC, 0x4AFA, 0x0C3A, 0x7100, 0xC180, 0x4E7F].all
      fun w : Word => (decodeOpword w).isNone) = true := by decide +kernel

/-- The table's numbering of bits: the second word above the first. -/
theorem test_decode_table_word :
    decodeTableWord 32 0x00124E72 = some (.stop 0x12) ∧ decodeTableWord 16 0x4E72 = some (.stop 0) ∧
      decodeTableWord 16 0x4E74 = none := by decide +kernel

/-! ## Single steps: the vectors of 95_test_vectors.md, instruction at 0x1000 -/

/-- A state: D0, D1, A0, A1, the status register as a word, and values stored in memory. -/
def st (d0 d1 a0 a1 : Long) (sr : Word) (m : List (Size × Long × Long)) : State :=
  m.foldl (fun s c => s.store c.1 c.2.1 c.2.2)
    { State.reset with
        d := #v[d0, d1, 0, 0, 0, 0, 0, 0], a := #v[a0, a1, 0, 0, 0, 0, 0x11111111], usp := 0x3000, ssp := 0x8000,
        pc := 0x1000, sr := StatusReg.ofWord sr }

/-- What a next state shows. -/
def after {α : Type} (r : Result) (f : State → α) : Option α :=
  match r with
  | .next t => some (f t)
  | _ => none

/-- The address of the address error an outcome is, and what the state it leaves shows. -/
def oddAt {α : Type} (r : Result) (f : State → α) : Option (Long × α) :=
  match r with
  | .fault (.addressError a t) => some (a, f t)
  | _ => none

theorem fault_of_oddAt {α : Type} {r : Result} {f : State → α} {x : Long × α} (h : oddAt r f = some x) : ∃ g, r = .fault g := by
  cases r with
  | fault g => exact ⟨g, rfl⟩
  | next t => cases h
  | refused q => cases h

/-- D0 and the flags X N Z V C in bits 4 to 0. -/
def d0Flags (t : State) : Long × Byte := (t.dreg 0, t.sr.ccr.toByte)

/-- Data registers of an operation: source D1, destination D0, flags before. -/
def onD (i : Instr) (src dst : Long) (ccr : Word) : Option (Long × Byte) :=
  after (exec i (st dst src 0 0 (0x2700 ||| ccr) [])) d0Flags

-- sections 2.4 and 2.5
theorem test_add :
    onD (.addEaDn .b (.dn 1) 0) 0x01 0x7F 0 = some (0x80, 0x0A) ∧ onD (.addEaDn .b (.dn 1) 0) 0x01 0xFF 0 = some (0, 0x15) ∧
      onD (.addEaDn .w (.dn 1) 0) 0x8000 0xAAAA8000 0 = some (0xAAAA0000, 0x17) ∧
      onD (.addEaDn .l (.dn 1) 0) 0x7FFFFFFF 0x7FFFFFFF 0x1F = some (0xFFFFFFFE, 0x0A) := by decide +kernel

theorem test_add_memory :
    after (exec (.addDnEa .w 0 (.ind 0)) (st 1 0 0x2000 0 0x2700 [(.w, 0x2000, 0x7FFF)]))
      (fun t => (t.load .w 0x2000, t.sr.ccr.toByte, t.pc)) = some (0x8000, 0x0A, 0x1002) := by decide +kernel

theorem test_adda_suba :
    after (exec (.adda .w (.imm 0xFFFE) 0) (st 0 0 0x1000 0 0x271F [])) (fun t => (t.areg 0, t.sr.ccr.toByte, t.pc)) =
        some (0xFFE, 0x1F, 0x1004) ∧
      after (exec (.suba .w (.imm 1) 1) (st 0 0 0 0 0x2700 [])) (fun t => (t.areg 1, t.sr.ccr.toByte)) =
        some (0xFFFFFFFF, 0) := by decide +kernel

theorem test_addi_addq :
    onD (.addi .l 0x10000 (.dn 0)) 0 0xFFFF0000 0 = some (0, 0x15) ∧ onD (.addq .b 0 (.dn 0)) 0 0x78 0 = some (0x80, 0x0A) ∧
      after (exec (.addq .w 1 (.an 0)) (st 0 0 0xFFFF 0 0x2715 [])) (fun t => (t.areg 0, t.sr.ccr.toByte)) =
        some (0x10000, 0x15) := by decide +kernel

theorem test_addx :
    onD (.addx .b .dataReg 1 0) 0xFF 0 0x14 = some (0, 0x15) ∧ onD (.addx .l .dataReg 1 0) 0 0 0 = some (0, 0) ∧
      onD (.addx .w .dataReg 1 0) 0x7FFF 0 0x14 = some (0x8000, 0x0A) := by decide +kernel

/-- The source is decremented and read first, also where both operands name one register. -/
theorem test_addx_memory :
    after (exec (.addx .w .memPreDec 0 0) (st 0 0 0x2004 0 0x2710 [(.w, 0x2000, 0x0100), (.w, 0x2002, 0x0023)]))
      (fun t => (t.load .w 0x2000, t.load .w 0x2002, t.areg 0)) = some (0x0124, 0x0023, 0x2000) := by decide +kernel

theorem test_sub :
    onD (.subEaDn .b (.dn 1) 0) 1 0 0 = some (0xFF, 0x19) ∧ onD (.subEaDn .w (.dn 1) 0) 0x8000 0x7FFF 0 = some (0xFFFF, 0x1B) ∧
      onD (.subEaDn .l (.dn 1) 0) 1 0x80000000 0 = some (0x7FFFFFFF, 0x02) := by decide +kernel

theorem test_sub_forms :
    onD (.subi .b 1 (.dn 0)) 0 0x80 0 = some (0x7F, 0x02) ∧ onD (.subq .w 0 (.dn 0)) 0 7 0 = some (0xFFFF, 0x19) ∧
      after (exec (.subDnEa .b 0 (.ind 0)) (st 0xFF 0 0x2001 0 0x2700 [(.b, 0x2001, 0x7F)]))
        (fun t => (t.load .b 0x2001, t.sr.ccr.toByte)) = some (0x80, 0x1B) := by decide +kernel

theorem test_subx_negx :
    onD (.subx .b .dataReg 1 0) 0 0 0x14 = some (0xFF, 0x19) ∧ onD (.subx .w .dataReg 1 0) 1 0x8000 0x10 = some (0x7FFE, 0x02) ∧
      onD (.negx .b (.dn 0)) 0 0 0x04 = some (0, 0x04) ∧ onD (.negx .w (.dn 0)) 0 0x7FFF 0x14 = some (0x8000, 0x19) := by
  decide +kernel

theorem test_cmp :
    onD (.cmp .b (.dn 1) 0) 5 3 0x10 = some (3, 0x19) ∧ onD (.cmp .w (.dn 1) 0) 0x8000 1 0 = some (1, 0x0B) ∧
      onD (.cmpi .b 5 (.dn 0)) 0 5 0 = some (5, 0x04) ∧
      after (exec (.cmpa .w (.imm 0x8000) 0) (st 0 0 0xFFFF8000 0 0x271B [])) (fun t => t.sr.ccr.toByte) = some 0x14 := by
  decide +kernel

theorem test_cmpm :
    after (exec (.cmpm .w 0 0) (st 0 0 0x2000 0 0x2700 [(.w, 0x2000, 5), (.w, 0x2002, 3)]))
      (fun t => (t.areg 0, t.sr.ccr.toByte)) = some (0x2004, 0x09) := by decide +kernel

/-- What `test_decimal` (section 2.6) looks at: N and V are free. Instruction, D0, D1, flags before. -/
def shownDecimal (p : Instr × Long × Long × Word) : Option (Long × Bool × Bool × Bool) :=
  after (exec p.1 (st p.2.1 p.2.2.1 0 0 (0x2700 ||| p.2.2.2) []))
    (fun t => (t.dreg 0, t.sr.ccr.x, t.sr.ccr.z, t.sr.ccr.c))

theorem test_decimal :
    [(.abcd .dataReg 1 0, 0x12, 0x34, 0x14), (.abcd .dataReg 1 0, 0x99, 1, 0x04), (.sbcd .dataReg 1 0, 0x12, 0x34, 0x04),
        (.sbcd .dataReg 1 0, 0x34, 0x12, 0x14), (.nbcd (.dn 0), 0x25, 0, 0x04),
        (.nbcd (.dn 0), 0, 0, 0x04)].map shownDecimal =
      [some (0x47, false, false, false), some (0, true, true, true), some (0x78, true, false, true),
        some (0x21, false, false, false), some (0x75, true, false, true), some (0, false, true, false)] := by decide +kernel

theorem test_decimal_memory :
    after (exec (.abcd .memPreDec 0 1) (st 0 0 0x2002 0x2006 0x2704 [(.b, 0x2001, 0x99), (.b, 0x2005, 1)]))
      (fun t => (t.load .b 0x2005, t.areg 0, t.areg 1, t.sr.ccr.x)) = some (0, 0x2001, 0x2005, true) := by decide +kernel

-- section 2.7
theorem test_shift_left :
    onD (.asl .b (.reg 1) 0) 2 0xC0 0 = some (0, 0x17) ∧ onD (.asl .w (.imm 1) 0) 0 0xC000 0 = some (0x8000, 0x19) ∧
      onD (.asl .w (.reg 1) 0) 0x40 0x1234 0x10 = some (0x1234, 0x10) ∧ onD (.asl .b (.imm 0) 0) 0 1 0 = some (0, 0x17) ∧
      onD (.lsl .l (.reg 1) 0) 33 1 0x10 = some (0, 0x04) ∧ onD (.lsl .l (.reg 0) 0) 0 4 0 = some (0x40, 0) := by
  decide +kernel

theorem test_shift_right :
    onD (.asr .b (.reg 1) 0) 8 0x80 0 = some (0xFF, 0x19) ∧ onD (.asr .l (.reg 1) 0) 32 0x7FFFFFFF 0x10 = some (0, 0x04) ∧
      onD (.lsr .l (.imm 0) 0) 0 0x12345678 0x10 = some (0x123456, 0) ∧
      onD (.lsr .w (.reg 1) 0) 17 0x8000 0x10 = some (0, 0x04) := by decide +kernel

theorem test_rotate :
    onD (.rol .b (.imm 1) 0) 0 0x81 0x10 = some (0x03, 0x11) ∧ onD (.rol .w (.reg 1) 0) 16 0x8001 0 = some (0x8001, 0x09) ∧
      onD (.ror .w (.imm 4) 0) 0 0x1234 0x10 = some (0x4123, 0x10) ∧
      onD (.ror .l (.reg 1) 0) 63 1 0 = some (2, 0) := by decide +kernel

theorem test_rotate_extended :
    onD (.roxl .b (.reg 1) 0) 9 1 0x10 = some (1, 0x11) ∧ onD (.roxl .l (.imm 2) 0) 0 0x40000000 0x10 = some (2, 0x11) ∧
      onD (.roxr .w (.imm 2) 0) 0 1 0x10 = some (0xC000, 0x08) ∧ onD (.roxr .b (.reg 1) 0) 63 0xFF 0 = some (0xFF, 0x08) ∧
      onD (.roxr .w (.reg 1) 0) 0 0x8000 0x10 = some (0x8000, 0x18) := by decide +kernel

/-- What `test_shift_memory` looks at. -/
def shownShiftMemory (i : Instr) :=
  after (exec i (st 0 0 0x2000 0 0x2710 [(.w, 0x2000, 0x8001)]))
      (fun t => (t.load .w 0x2000, t.sr.ccr.toByte))

/-- The memory forms: one place on the word at 0x2000, with X set before; value and flags. -/
theorem test_shift_memory :
    shownShiftMemory (.aslMem (.ind 0)) = some (0x0002, 0x13) ∧ shownShiftMemory (.asrMem (.ind 0)) = some (0xC000, 0x19) ∧
      shownShiftMemory (.lslMem (.ind 0)) = some (0x0002, 0x11) ∧ shownShiftMemory (.lsrMem (.ind 0)) = some (0x4000, 0x11) ∧
      shownShiftMemory (.rolMem (.ind 0)) = some (0x0003, 0x11) ∧ shownShiftMemory (.rorMem (.ind 0)) = some (0xC000, 0x19) ∧
      shownShiftMemory (.roxlMem (.ind 0)) = some (0x0003, 0x11) ∧ shownShiftMemory (.roxrMem (.ind 0)) = some (0xC000, 0x19) := by decide +kernel

-- section 2.8
theorem test_move :
    onD (.move .w (.dn 1) (.dn 0)) 0x3333F000 0x11112222 0x13 = some (0x1111F000, 0x18) ∧
      onD (.move .l (.imm 0) (.dn 0)) 0 5 0 = some (0, 0x04) ∧
      after (exec (.move .w (.dn 0) (.ind 0)) (st 0xAAAA1234 0 0x2000 0 0x2700 []))
        (fun t => (t.byteAt 0x2000, t.byteAt 0x2001, t.pc)) = some (0x12, 0x34, 0x1002) := by decide +kernel

/-- Side effects of operands, section 2.2: the old register is stored, source and destination in order, SP steps by 2. -/
theorem test_move_operands :
    after (exec (.move .l (.an 0) (.preDec 0)) (st 0 0 0x2000 0 0x2700 [])) (fun t => (t.load .l 0x1FFC, t.areg 0)) =
        some (0x2000, 0x1FFC) ∧
      after (exec (.move .w (.postInc 0) (.postInc 0)) (st 0 0 0x2000 0 0x2700 [(.w, 0x2000, 7)]))
        (fun t => (t.load .w 0x2002, t.areg 0)) = some (7, 0x2004) ∧
      after (exec (.move .b (.dn 0) (.preDec 7)) (st 0xFF 0 0 0 0x2700 []))
        (fun t => (t.byteAt 0x7FFE, t.byteAt 0x7FFF, t.areg 7, t.usp)) = some (0xFF, 0, 0x7FFE, 0x3000) := by decide +kernel

theorem test_movea_moveq :
    after (exec (.movea .w (.imm 0x8000) 0) (st 0 0 0 0 0x271F [])) (fun t => (t.areg 0, t.sr.ccr.toByte)) =
        some (0xFFFF8000, 0x1F) ∧
      onD (.moveq 0 0xFF) 0 0 0x13 = some (0xFFFFFFFF, 0x18) := by decide +kernel

theorem test_move_ccr_sr :
    after (exec (.moveToCcr (.imm 0xFFE0)) (st 0 0 0 0 0x271F [])) (fun t => t.sr.toWord) = some 0x2700 ∧
      onD (.moveFromSr (.dn 0)) 0 0xFFFFFFFF 4 = some (0xFFFF2704, 4) ∧
      after (exec (.moveToSr (.imm 0xFFFF)) (st 0 0 0 0 0x2700 [])) (fun t => t.sr.toWord) = some 0xA71F := by decide +kernel

theorem test_move_usp :
    after (exec (.moveToUsp 0) (st 0 0 0x8000 0 0x2700 [])) (fun t => t.usp) = some 0x8000 ∧
      after (exec (.moveFromUsp 7) (st 0 0 0 0 0x2700 [])) (fun t => (t.ssp, t.usp)) = some (0x3000, 0x3000) := by
  decide +kernel

theorem test_movem_store :
    after (exec (.movemToMem .l 0xC080 (.preDec 7)) (st 1 2 3 0 0x2700 []))
        (fun t => (t.load .l 0x7FFC, t.load .l 0x7FF8, t.load .l 0x7FF4, t.areg 7)) = some (3, 2, 1, 0x7FF4) ∧
      after (exec (.movemToMem .l 0x0080 (.preDec 0)) (st 0 0 0x2000 0 0x2700 [])) (fun t => (t.load .l 0x1FFC, t.areg 0)) =
        some (0x2000, 0x1FFC) := by decide +kernel

theorem test_movem_load :
    after (exec (.movemToReg .w 0x0101 (.postInc 0)) (st 0 0 0x2000 0 0x2700 [(.w, 0x2000, 0x8001), (.w, 0x2002, 0x7FFF)]))
        (fun t => (t.dreg 0, t.areg 0, t.pc)) = some (0xFFFF8001, 0x2004, 0x1004) ∧
      after (exec (.movemToReg .l 0 (.ind 0)) (st 9 0 0x2000 0 0x2700 [])) (fun t => (t.dreg 0, t.areg 0)) =
        some (9, 0x2000) := by decide +kernel

theorem test_movep :
    after (exec (.movep .toMem .l 0 0 0) (st 0x12345678 0 0x4001 0 0x2700 []))
        (fun t => (t.byteAt 0x4001, t.byteAt 0x4002, t.byteAt 0x4003, t.byteAt 0x4005, t.byteAt 0x4007)) =
        some (0x12, 0, 0x34, 0x56, 0x78) ∧
      after (exec (.movep .toReg .w 0 0 0) (st 0xAAAAAAAA 0 0x4000 0 0x2700 [(.b, 0x4000, 0xDE), (.b, 0x4002, 0xAD)]))
        (fun t => t.dreg 0) = some 0xAAAADEAD := by decide +kernel

-- sections 2.9 and 2.10
theorem test_logic :
    onD (.andEaDn .w (.dn 1) 0) 0xF00F 0xFFFF00FF 0x13 = some (0xFFFF000F, 0x10) ∧
      onD (.orEaDn .b (.dn 1) 0) 1 0x80 0 = some (0x81, 0x08) ∧
      onD (.eor .w 1 (.dn 0)) 0xFFFF 0x1234FFFF 0 = some (0x12340000, 0x04) ∧
      onD (.andi .l 0xFFFF (.dn 0)) 0 0x12345678 0 = some (0x5678, 0) ∧ onD (.ori .w 0x8000 (.dn 0)) 0 0 0 = some (0x8000, 0x08) ∧
      onD (.eori .b 0xFF (.dn 0)) 0 0x0F 0 = some (0xF0, 0x08) := by decide +kernel

/-- What `test_logic_memory` looks at. -/
def shownLogicMemory (i : Instr) :=
  after (exec i (st 0xF0 0 0x2000 0 0x2700 [(.w, 0x2000, 0x0F30)]))
      (fun t => (t.load .w 0x2000, t.sr.ccr.toByte))

theorem test_logic_memory :
    shownLogicMemory (.orDnEa .w 0 (.ind 0)) = some (0x0FF0, 0) ∧ shownLogicMemory (.andDnEa .w 0 (.ind 0)) = some (0x0030, 0) := by decide +kernel

/-- What `test_logic_status` looks at. -/
def shownLogicStatus (i : Instr) (sr : Word) :=
  after (exec i (st 0 0 0 0 sr [])) (fun t => t.sr.toWord)

theorem test_logic_status :
    shownLogicStatus (.andiToCcr 0xFE) 0x271F = some 0x271E ∧ shownLogicStatus (.eoriToCcr 0xFF) 0x2715 = some 0x270A ∧
      shownLogicStatus (.oriToCcr 0xE4) 0x2700 = some 0x2704 ∧ shownLogicStatus (.andiToSr 0xDFFF) 0x2700 = some 0x0700 ∧
      shownLogicStatus (.oriToSr 0xFFFF) 0x2000 = some 0xA71F ∧ shownLogicStatus (.eoriToSr 0x2000) 0 = some 0x2000 := by decide +kernel

theorem test_bits_register :
    onD (.btstImm 39 (.dn 0)) 0 0x80 0x1F = some (0x80, 0x1B) ∧ onD (.btstReg 1 (.dn 0)) 0xFFFFFFE0 1 4 = some (1, 0) ∧
      onD (.bchgImm 0 (.dn 0)) 0 1 0 = some (0, 0) ∧ onD (.bclrReg 1 (.dn 0)) 31 0x80000001 0 = some (1, 0) ∧
      onD (.bsetImm 31 (.dn 0)) 0 0 0 = some (0x80000000, 4) := by decide +kernel

/-- What `test_bits_memory` looks at. -/
def shownBitsMemory (i : Instr) :=
  after (exec i (st 9 0 0x2001 0 0x2700 [(.b, 0x2001, 2)]))
      (fun t => (t.byteAt 0x2001, t.sr.ccr.z))

/-- On a memory byte of 0x02 with D0 = 9: bit 1. -/
theorem test_bits_memory :
    shownBitsMemory (.btstImm 9 (.ind 0)) = some (2, false) ∧ shownBitsMemory (.bsetImm 15 (.ind 0)) = some (0x82, true) ∧
      shownBitsMemory (.bsetReg 0 (.ind 0)) = some (2, false) ∧ shownBitsMemory (.bclrImm 9 (.ind 0)) = some (0, false) ∧
      shownBitsMemory (.bchgReg 0 (.ind 0)) = some (0, false) := by decide +kernel

theorem test_tas :
    onD (.tas (.dn 0)) 0 0x1234567F 0x13 = some (0x123456FF, 0x10) ∧
      after (exec (.tas (.ind 0)) (st 0 0 0x2001 0 0x2700 [])) (fun t => (t.byteAt 0x2001, t.sr.ccr.toByte)) =
        some (0x80, 0x04) := by decide +kernel

-- sections 2.11 and 2.12
theorem test_multiply :
    onD (.muls (.dn 1) 0) 0x8000 0x7FFF 0x13 = some (0xC0008000, 0x18) ∧
      onD (.mulu (.dn 1) 0) 0xFFFF 0x1234FFFF 0 = some (0xFFFE0001, 0x08) ∧
      onD (.muls (.dn 1) 0) 0 0xFFFFFFFF 0 = some (0, 0x04) := by decide +kernel

theorem test_divide :
    onD (.divs (.dn 1) 0) 0xFFFD 0xFFFFFFF9 0x1F = some (0xFFFF0002, 0x10) ∧
      onD (.divs (.dn 1) 0) 2 0xFFFFFFF9 0 = some (0xFFFFFFFD, 0x08) ∧
      onD (.divu (.dn 1) 0) 10 0x4D2 0 = some (0x4007B, 0) ∧ onD (.divu (.dn 1) 0) 0x8000 0x7FFFFFFF 0 = some (0x7FFFFFFF, 8) := by
  decide +kernel

/-- What `test_divide_overflow` looks at. -/
def shownDivideOverflow (i : Instr) (d m : Long) :=
  after (exec i (st d m 0 0 0x2711 []))
      (fun t => (t.dreg 0, t.sr.ccr.x, t.sr.ccr.v, t.sr.ccr.c))

theorem test_divide_overflow :
    shownDivideOverflow (.divu (.dn 1) 0) 0x20000 2 = some (0x20000, true, true, false) ∧
      shownDivideOverflow (.divs (.dn 1) 0) 0x80000000 0xFFFF = some (0x80000000, true, true, false) := by decide +kernel

/-- What `test_zero_divide_chk` looks at; the stacked flags are free, so what lies behind them in memory does not compute. -/
def shownZeroDivideChk (i : Instr) (d m : Long) :=
  after (exec i (st d m 0 0 0x0011 [(.l, 0x14, 0x01020304), (.l, 0x18, 0x05060708)]))
      (fun t => (t.pc, t.ssp, t.sr.s, t.sr.ccr.x))

theorem test_zero_divide_chk :
    [shownZeroDivideChk (.divu (.dn 1) 0) 1 0, shownZeroDivideChk (.divs (.imm 0) 0) 1 0,
        shownZeroDivideChk (.chk (.dn 1) 0) 0xB 0xA, shownZeroDivideChk (.chk (.dn 1) 0) 0x7FFF 0x7FFF] =
      [some (0x01020304, 0x7FFA, true, true), some (0x01020304, 0x7FFA, true, true),
        some (0x05060708, 0x7FFA, true, true), some (0x1002, 0x8000, false, true)] := by decide +kernel

-- section 2.13
theorem test_unary :
    onD (.clr .b (.dn 0)) 0 0x12345678 0x1B = some (0x12345600, 0x14) ∧ onD (.neg .b (.dn 0)) 0 0x80 0 = some (0x80, 0x1B) ∧
      onD (.not .w (.dn 0)) 0 0xFF 0x10 = some (0xFF00, 0x18) ∧ onD (.tst .b (.dn 0)) 0 0x18000 0x13 = some (0x18000, 0x14) := by
  decide +kernel

theorem test_register_moves :
    onD (.ext .w 0) 0 0x12345680 0 = some (0x1234FF80, 8) ∧ onD (.ext .l 0) 0 0x8000 0 = some (0xFFFF8000, 8) ∧
      onD (.swap 0) 0 0x18000 0 = some (0x80000001, 8) ∧ onD (.exgDD 0 1) 7 9 0x1F = some (7, 0x1F) ∧
      after (exec (.exgDA 0 0) (st 1 0 2 0 0x2700 [])) (fun t => (t.dreg 0, t.areg 0)) = some (2, 1) ∧
      after (exec (.exgAA 0 7) (st 1 0 2 0 0x2700 [])) (fun t => (t.areg 0, t.ssp)) = some (0x8000, 2) := by decide +kernel

-- section 2.14
/-- What `test_branches` looks at. -/
def shownBranches (i : Instr) (sr : Word) :=
  after (exec i (st 0 0 0 0 sr [])) (fun t => t.pc)

theorem test_branches :
    shownBranches (.bra (.short 0xFF)) 0 = some 0x1001 ∧ shownBranches (.bra (.word 0x100)) 0 = some 0x1102 ∧
      shownBranches (.bcc .ne (.word 0xFFFA)) 0 = some 0xFFC ∧ shownBranches (.bcc .ne (.word 0xFFFA)) 4 = some 0x1004 ∧
      shownBranches (.bcc .eq (.short 4)) 0 = some 0x1002 := by decide +kernel

/-- What `test_dbcc` looks at. -/
def shownDbcc (co : Cond) (d : Long) (sr : Word) :=
  after (exec (.dbcc co 0 0xFFFC) (st d 0 0 0 sr []))
      (fun t => (t.dreg 0, t.pc))

theorem test_dbcc :
    shownDbcc .f 0x10000 0 = some (0x1FFFF, 0x1004) ∧ shownDbcc .f 0x10002 0 = some (0x10001, 0xFFE) ∧ shownDbcc .eq 5 4 = some (5, 0x1004) := by
  decide +kernel

theorem test_scc :
    onD (.scc .eq (.dn 0)) 0 0x12345678 4 = some (0x123456FF, 4) ∧
      onD (.scc .f (.dn 0)) 0 0xFFFFFFFF 0 = some (0xFFFFFF00, 0) := by decide +kernel

/-- What `test_calls` looks at. -/
def shownCalls (i : Instr) :=
  after (exec i (st 0 0 0x2000 0 0x2700 [])) (fun t => (t.pc, t.sp, t.load .l 0x7FFC))

theorem test_calls :
    shownCalls (.bsr (.word 0x100)) = some (0x1102, 0x7FFC, 0x1004) ∧ shownCalls (.jsr (.absW 0x4000)) = some (0x4000, 0x7FFC, 0x1004) ∧
      shownCalls (.pea (.ind 7)) = some (0x1002, 0x7FFC, 0x8000) ∧ shownCalls (.jmp (.pcDisp 2)) = some (0x1004, 0x8000, 0) := by decide +kernel

theorem test_lea_link_unlk :
    after (exec (.lea (.disp 0 4) 0) (st 0 0 0x2000 0 0x2700 [])) (fun t => t.areg 0) = some 0x2004 ∧
      after (exec (.link 6 0xFFF8) (st 0 0 0 0 0x2700 [])) (fun t => (t.load .l 0x7FFC, t.areg 6, t.sp)) =
        some (0x11111111, 0x7FFC, 0x7FF4) ∧
      after (exec (.unlk 0) (st 0 0 0x7FFC 0 0x2700 [(.l, 0x7FFC, 0x1234)])) (fun t => (t.areg 0, t.sp)) =
        some (0x1234, 0x8000) := by decide +kernel

/-- The state of `test_returns`. -/
def shownReturns : State := st 0 0 0 0 0x2700 [(.w, 0x8000, 0xFF1F), (.l, 0x8002, 0x3000)]

theorem test_returns :
    after (exec .rtr shownReturns) (fun t => (t.pc, t.sp, t.sr.toWord)) = some (0x3000, 0x8006, 0x271F) ∧
      after (exec .rte shownReturns) (fun t => (t.pc, t.ssp, t.sr.toWord)) = some (0x3000, 0x8006, 0xA71F) ∧
      after (exec .rts shownReturns) (fun t => (t.pc, t.sp)) = some (0xFF1F0000, 0x8004) := by decide +kernel

-- section 2.15
/-- What `test_traps` looks at. -/
def shownTraps (i : Instr) (sr : Word) :=
  after (exec i (st 0 0 0 0 sr
        [(.l, 0x10, 0x100), (.l, 0x1C, 0x200), (.l, 0x28, 0x300), (.l, 0x2C, 0x400), (.l, 0xBC, 0x500)]))
      (fun t => (t.pc, t.ssp, t.load .l 0x7FFC, t.load .w 0x7FFA, t.sr.toWord))

theorem test_traps :
    [shownTraps (.trap 15) 0x0015, shownTraps .trapv 0x2702, shownTraps .trapv 0, shownTraps .illegal 0xA015,
        shownTraps (.lineA 0x123) 0x0015, shownTraps (.lineF 0x123) 0x0015] =
      [some (0x500, 0x7FFA, 0x1002, 0x0015, 0x2015), some (0x200, 0x7FFA, 0x1002, 0x2702, 0x2702),
        some (0x1002, 0x8000, 0, 0, 0), some (0x100, 0x7FFA, 0x1000, 0xA015, 0x2015),
        some (0x300, 0x7FFA, 0x1000, 0x0015, 0x2015), some (0x400, 0x7FFA, 0x1000, 0x0015, 0x2015)] := by decide +kernel

/-- Every privileged instruction in user mode: vector 8, its own address stacked, nothing else done. -/
theorem test_privilege :
    ([.moveToSr (.imm 0), .moveToUsp 0, .moveFromUsp 0, .andiToSr 0, .eoriToSr 0xFFFF, .oriToSr 0xFFFF, .rte, .reset,
      .stop 0x2000].all fun i : Instr =>
        after (exec i (st 0 0 5 0 0x0015 [(.l, 0x20, 0x1300)]))
          (fun t => (t.pc, t.ssp, t.load .l 0x7FFC, t.load .w 0x7FFA, t.sr.toWord, t.usp, t.areg 0, t.run, t.events)) ==
        some (0x1300, 0x7FFA, 0x1000, 0x0015, 0x2015, 0x3000, 5, .running, [])) = true := by decide +kernel

theorem test_stop_reset_nop :
    after (exec (.stop 0x2300) (st 0 0 0 0 0x2700 [])) (fun t => (t.sr.toWord, t.pc, t.run)) =
        some (0x2300, 0x1004, .stopped) ∧
      after (exec (.stop 0x0300) (st 0 0 0 0 0x2700 [(.l, 0x20, 0x1300)])) (fun t => (t.pc, t.load .l 0x7FFC, t.run)) =
        some (0x1300, 0x1000, .running) ∧
      after (exec .reset (st 0 0 0 0 0x2700 [])) (fun t => (t.events, t.pc)) = some ([.resetPeripherals], 0x1002) ∧
      after (exec .nop (st 0 0 0 0 0x2700 [])) (fun t => t.pc) = some 0x1002 := by decide +kernel

/-- Trace: NOP with T set, then vector 9 with the next address stacked. -/
theorem test_step_trace :
    after (step (st 0 0 0 0 0xA000 [(.w, 0x1000, 0x4E71), (.l, 0x24, 0x1400)]))
      (fun t => (t.pc, t.load .l 0x7FFC, t.load .w 0x7FFA, t.sr.toWord)) = some (0x1400, 0x1002, 0xA000, 0x2000) := by
  decide +kernel

/-- What `test_step_interrupt` looks at. -/
def shownStepInterrupt (sr : Word) (level : BitVec 3) :=
  after (step { st 0 0 0 0 sr [(.w, 0x1000, 0x4E71), (.l, 0x70, 0x1500), (.l, 0x7C, 0x1600)] with
          inputs := [.irq level .autovector] })
        (fun t => (t.pc, t.sr.toWord, t.load .l 0x7FFC, t.load .w 0x7FFA))

/-- Interrupts with autovectors: level 3 at mask 3 is not accepted, level 4 is; a new level 7 is, at mask 7. -/
theorem test_step_interrupt :
    shownStepInterrupt 0x2300 3 = some (0x1002, 0x2300, 0, 0) ∧ shownStepInterrupt 0x2300 4 = some (0x1500, 0x2400, 0x1002, 0x2300) ∧
      shownStepInterrupt 0x2700 7 = some (0x1600, 0x2700, 0x1002, 0x2700) := by decide +kernel

/-- An odd program counter and an odd word operand stop as address errors and leave a faulted processor, the operand's step done
(R34, R55, R56). -/
theorem test_step_address_errors :
    oddAt (step { st 0 0 0 0 0x2700 [] with pc := 0x1001 }) (fun t => (t.pc, t.run)) = some (0x1001, 0x1001, .faulted) ∧
      oddAt (step (st 0 0 0x2001 0 0x2700 [(.w, 0x1000, 0x3418)])) (fun t => (t.pc, t.areg 0, t.run)) =
        some (0x2001, 0x1000, 0x2003, .faulted) ∧
      after (step (st 0 0 0x2001 0 0x2700 [(.w, 0x1000, 0x1410)])) (fun t => t.pc) = some 0x1002 := by decide +kernel

/-- A faulted processor waits, and external reset starts it again (R380). -/
theorem test_faulted :
    after (step { st 1 1 1 1 0x2700 [(.w, 0x1000, 0x4E71)] with inputs := [.irq 7 .autovector], run := .faulted })
        (fun t => (t.pc, t.run, t.inputs)) = some (0x1000, .faulted, []) ∧
      after (step { st 1 1 1 1 0x001F [(.l, 0, 0x4000), (.l, 4, 0x1000)] with inputs := [.reset], run := .faulted })
        (fun t => (t.ssp, t.pc, t.sr.s, t.run)) = some (0x4000, 0x1000, true, .running) := by decide +kernel

/-- The step of an opword that selects no row is that of ILLEGAL, prefetch queue and all: the frame lies in the two words after the
instruction (R295, R69). -/
theorem test_illegal_alike :
    [(0x4AFC : Word), 0x4E7F].all (fun op =>
      after (step { st 0 0 0 0 0x2700 [(.w, 0x1000, op.setWidth 32), (.l, 0x1002, 0x11112222), (.l, 0x10, 0x1300)] with
          ssp := 0x1006 })
        (fun t => (t.pc, t.load .w 0x1000, t.load .l 0x1002, t.stale)) ==
      some (0x1300, 0x2700, 0x00001000, [{ addr := 0x1002, word := 0x1111 }, { addr := 0x1004, word := 0x2222 }])) = true := by
  decide +kernel

/-- The word 1111 at 0x1004, changed to 2222 and then to 3322 by two stores that have it in their windows: both older words may
still be held, no mixture of them (R69). -/
theorem test_prefetch_words :
    after (exec (.move .w (.imm 0x2222) (.absW 0x1004)) (st 0 0 0 0 0x2700 [(.w, 0x1004, 0x1111)])) (fun u =>
      after (afterInstr (.move .w (.imm 0x2222) (.absW 0x1004)) 2 (st 0 0 0 0 0x2700 [(.w, 0x1004, 0x1111)]) (.next u))
        (fun t => (noteStores t 0x1004 (t.store .b 0x1004 0x33)).heldAt 0x1004)) = some (some [0x2222, 0x1111]) := by
  decide +kernel

/-- Section 2.16; with nothing in memory, reset leaves the state after reset. -/
theorem test_reset_sequence :
    after (step { st 1 1 1 1 0x001F [(.l, 0, 0x4000), (.l, 4, 0x1000)] with inputs := [.reset], run := .stopped })
        (fun t => (t.ssp, t.pc, t.sr.s, t.sr.t, t.sr.ipm, t.run)) = some (0x4000, 0x1000, true, false, 7, .running) ∧
      resetSequence State.reset = .ok State.reset := by
  constructor
  · decide +kernel
  · rfl

/-- An instruction placed by `withFetchWord` runs as the first one after reset. -/
theorem test_withFetchWord :
    after (step (State.reset.withFetchWord 16 0x76FF)) (fun t => t.dreg 3) = some 0xFFFFFFFF ∧
      after (step (State.reset.withFetchWord 32 0x27004E72)) (fun t => t.run) = some .stopped := by decide +kernel

/-! ## A state and operands that meet the hypotheses of each statement -/

theorem kind_default (a : Long) : kindAt Config.default a = .ram := by
  have h : physAddr Config.default a < 2 ^ 24 := Nat.mod_lt _ (by decide)
  have e : (2 : Nat) ^ 24 = 16777216 := by decide
  simp only [kindAt, Config.default, regionKind, physAddr, e] at h ⊢
  simp [h]

theorem ram_default {sz : Size} {a : Long} (h : misaligned sz a = false) : Ram Config.default sz a :=
  ⟨(aligned_iff sz a).1 h, fun b _ => kind_default b⟩

theorem readable_default {sz : Size} {a : Long} (h : misaligned sz a = false) : Readable Config.default sz a :=
  Ram.readable (ram_default h)

/-- Supervisor mode, all flags set: D0 = 5, D1 = 7, A0 = 0x2000, A1 = 0x3000. -/
def w : State := st 5 7 0x2000 0x3000 0x271F []

/-- The same in user mode. -/
def wu : State := st 5 7 0x2000 0x3000 0x001F []

theorem addrBits_default : addrBitsOk Config.default := ⟨by decide, by decide⟩

theorem sound_w : Sound w := ⟨addrBits_default, by decide +kernel⟩
theorem sound_wu : Sound wu := ⟨addrBits_default, by decide +kernel⟩

theorem entryReady_default (v : BitVec 8) {s : State} (hc : s.cfg = Config.default) (hm : Memory.wf s.mem = true)
    (h4 : misaligned .l (s.ssp - 4) = false) (h6 : misaligned .w (s.ssp - 6) = false) : EntryReady v s := by
  refine ⟨⟨by rw [hc]; exact addrBits_default, hm⟩, by rw [hc]; exact ram_default h4, by rw [hc]; exact ram_default h6, ?_⟩
  rw [hc]
  refine readable_default ((aligned_iff _ _).2 (.inr ?_))
  have := v.isLt
  simp only [BitVec.toNat_ofNat]
  omega

theorem entryReady_w (v : BitVec 8) : EntryReady v w :=
  entryReady_default v rfl (by decide +kernel) (by decide +kernel) (by decide +kernel)
theorem entryReady_wu (v : BitVec 8) : EntryReady v wu :=
  entryReady_default v rfl (by decide +kernel) (by decide +kernel) (by decide +kernel)

/-- The longest instruction and the shortest are well formed. -/
theorem witness_DecodeEncode :
    Instr.wellFormed (.move .l (.imm 0xFFFFFFFF) (.absL 0xFFFFFFFF)) = true ∧ Instr.wellFormed .nop = true ∧
      Instr.wellFormed (.bra (.short 0xFF)) = true ∧ Instr.wellFormed (.lineF 0xFFF) = true := by decide

theorem witness_DecodedWellFormed :
    decode [0x23FC, 0x1234, 0x5678, 0x0000, 0x2000, 0x4E71] = .instr (.move .l (.imm 0x12345678) (.absL 0x2000)) [0x4E71] := by
  decide +kernel

/-- MOVE.L #$12345678,$2000.L at 0x1000. -/
def wLong : State :=
  st 5 7 0x2000 0x3000 0x2700
    [(.w, 0x1000, 0x23FC), (.w, 0x1002, 0x1234), (.w, 0x1004, 0x5678), (.w, 0x1006, 0), (.w, 0x1008, 0x2000)]

theorem witness_StepRunsDecoded :
    wLong.run = .running ∧ resetNext wLong.inputs = false ∧ wLong.stale = [] ∧
      [(0x23FC : Word), 0x1234, 0x5678, 0x0000, 0x2000].length ≤ 5 ∧
      decode [0x23FC, 0x1234, 0x5678, 0x0000, 0x2000] = .instr (.move .l (.imm 0x12345678) (.absL 0x2000)) [] ∧
      ∀ (j : Nat) (x : Word), [(0x23FC : Word), 0x1234, 0x5678, 0x0000, 0x2000][j]? = some x →
        Readable wLong.cfg .w (itemAt .w wLong.pc j) ∧ wLong.load .w (itemAt .w wLong.pc j) = x.setWidth 32 := by
  refine ⟨rfl, rfl, rfl, by decide, by decide +kernel, fun j x h => ?_⟩
  have hj : j < 5 := by
    by_contra hj
    rw [List.getElem?_eq_none (by simpa using hj)] at h
    cases h
  interval_cases j <;> (cases h; exact ⟨readable_default (by decide +kernel), by decide +kernel⟩)

/-- No request at all; a request of the mask's level; level 7 held since the last boundary. -/
theorem witness_QuietBoundaryKeepsState :
    [w, { wu with sr := StatusReg.ofWord 0x2300, inputs := [.irq 3 .autovector] },
        { w with inputs := [.irq 7 .spurious], lastIpl := 7 }].all (fun u =>
      (!w.sr.t || !executes .nop w) && !decide (u.sr.ipm.toNat < (presented u.inputs).1.toNat) &&
        !decide ((presented u.inputs).1 = 7 ∧ u.lastIpl ≠ 7)) = true := by decide +kernel

/-- A queue that holds an older word, and one that does not. -/
theorem witness_PrefetchOldOrNewWord_fetch :
    (∃ x, fetchWord wLong 0x1000 = .ok x) ∧
      ∃ x, fetchWord { wLong with stale := [{ addr := 0x1000, word := 0x4E71 }] } 0x1000 = .ok x := by
  refine ⟨⟨_, rfl⟩, ?_⟩
  have h : readStop { wLong with stale := [{ addr := 0x1000, word := 0x4E71 }] } .w 0x1000 = none := by decide +kernel
  unfold fetchWord
  rw [h]
  dsimp only
  split
  · exact ⟨_, rfl⟩
  · exact ⟨_, rfl⟩

/-- What the queue holds before: a word the next instruction does not change, one that it changes, one in its window. -/
def wHeld : State :=
  { wLong with
      stale := [{ addr := 0x1000, word := 0x4E71 }, { addr := 0x100E, word := 0x4E72 }, { addr := 0x100C, word := 0x4E73 }] }

/-- MOVE.L #imm,$100C.L stores into the second word of its window and the word after it. -/
theorem witness_PrefetchOldOrNewWord_stores :
    after (exec (.move .l (.imm 0x12345678) (.absL 0x100C)) wHeld) (fun u =>
      after (afterInstr (.move .l (.imm 0x12345678) (.absL 0x100C)) 10 wHeld (.next u)) (fun t => t.stale)) =
    some (some [{ addr := 0x100C, word := 0 }, { addr := 0x1000, word := 0x4E71 }, { addr := 0x100C, word := 0x4E73 }]) := by
  decide +kernel

/-- The opword 4E7F at 0x1000. -/
def wBad : State := st 5 7 0x2000 0x3000 0x2700 [(.w, 0x1000, 0x4E7F)]

theorem witness_IllegalOpwordTakesVector4 :
    wBad.run = .running ∧ wBad.stale = [] ∧ Readable wBad.cfg .w wBad.pc ∧
      decodeOpword ((wBad.load .w wBad.pc).setWidth 16) = none ∧ resetNext wBad.inputs = false ∧ wBad.inputs = [] ∧
      EntryReady vecIllegal wBad :=
  ⟨rfl, rfl, readable_default (by decide +kernel), by decide +kernel, rfl, rfl,
    entryReady_default _ rfl (by decide +kernel) (by decide +kernel) (by decide +kernel)⟩

/-- RAM below 0x1000 and nothing above. -/
def smallMap : Config := { Config.default with memoryMap := [{ base := 0, size := 0x1000, kind := .ram }] }

theorem witness_MisalignedStops :
    (w.run = .running ∧ resetNext w.inputs = false ∧ ({ w with pc := 0x1001 } : State).pc.toNat % 2 = 1) ∧
      (({ w with cfg := smallMap } : State).pc.toNat % 2 = 0 ∧ kindAt smallMap ({ w with cfg := smallMap } : State).pc = .unmapped) ∧
      (∃ s1, resolve (.disp 0 1) .w (extAt w 0) w = (.mem 0x2001, s1)) ∧
      ({ w with ssp := 0x7FFF } : State).sp.toNat % 2 = 1 ∧ ({ w with ssp := 0x7FFF } : State).ssp.toNat % 2 = 1 := by
  refine ⟨⟨rfl, rfl, by decide +kernel⟩, ⟨by decide +kernel, by decide +kernel⟩, ⟨_, rfl⟩, by decide +kernel, by decide +kernel⟩

/-- The step stores to memory. -/
theorem witness_StepKeepsInvariant : Inv wLong ∧ ∃ t, step wLong = .next t := by
  refine ⟨⟨by decide +kernel, by decide +kernel, by decide +kernel, by decide +kernel⟩, ?_⟩
  have h : (after (step wLong) fun _ => ()) = some () := by decide +kernel
  cases hs : step wLong with
  | next t => exact ⟨t, rfl⟩
  | fault f => rw [hs] at h; cases h
  | refused r => rw [hs] at h; cases h

/-- Even pointers, an odd stack pointer, an odd program counter; from the stopped state. A step that faults. A faulted processor
without a reset input. -/
theorem witness_ExternalResetSequence :
    (∃ f, step { w with pc := 0x1001 } = .fault f) ∧
    (({ w with run := .faulted } : State).run = .faulted ∧ resetNext ({ w with run := .faulted } : State).inputs = false) ∧
    [((0x4000 : Long), (0x1000 : Long), 0, 0), (0x4001, 0x1000, 1, 0), (0x4000, 0x1001, 0, 1)].all (fun p =>
      let s := { st 0 0 0 0 0x0015 [(.l, 0, p.1), (.l, 4, p.2.1)] with inputs := [.reset], run := .stopped }
      s.inputs == [.reset] && (readStop s .l 0).isNone && (readStop s .l 4).isNone &&
        (s.load .l 0).toNat % 2 == p.2.2.1 && (s.load .l 4).toNat % 2 == p.2.2.2) = true :=
  ⟨fault_of_oddAt (f := fun _ => ()) (x := (0x1001, ())) (by decide +kernel), ⟨rfl, rfl⟩, by decide +kernel⟩

/-- Vectors at both ends of the table. -/
theorem witness_ExceptionProcessing : EntryReady 0 wu ∧ EntryReady 255 wu := ⟨entryReady_wu _, entryReady_wu _⟩

theorem witness_EntryThenRte : EntryReady 255 wu ∧ ∃ t, exceptionEntry 255 0x1002 (some 7) wu = .ok t :=
  ⟨entryReady_wu _, _, rfl⟩

/-- With T set: NOP is executed, ILLEGAL is not; and an interrupt of level 7 comes at the same boundary. -/
theorem witness_TraceFollowsTracedInstruction :
    ({ w with sr := StatusReg.ofWord 0xA700 } : State).sr.t = true ∧ w.inputs = [] ∧
      executes .nop { w with sr := StatusReg.ofWord 0xA700 } = true ∧
      executes .illegal { w with sr := StatusReg.ofWord 0xA700 } = false ∧ EntryReady vecTrace w ∧
      VectorFor 7 .autovector 31 ∧
      ({ w with inputs := [.irq 7 .autovector] } : State).inputs = .irq 7 .autovector :: [] ∧ w.lastIpl ≠ 7 ∧
      ∃ e, exceptionEntry vecTrace 0x1000 none { w with inputs := [.irq 7 .autovector] } = .ok e ∧ EntryReady 31 e := by
  refine ⟨by decide, rfl, by decide, by decide, entryReady_w _, rfl, rfl, by decide, _, rfl, ?_⟩
  exact entryReady_default _ rfl (by decide +kernel) (by decide +kernel) (by decide +kernel)

theorem witness_PrivilegedInstructionsTrapInUserMode : isPrivileged (.stop 0x2000) = true ∧ wu.sr.s = false ∧ EntryReady vecPrivilege wu :=
  ⟨rfl, by decide +kernel, entryReady_wu _⟩

/-- A level just above the mask, and a new level 7 at mask 7; a vector number and a spurious answer. -/
theorem witness_InterruptAcceptedAtBoundary :
    w.sr.t = false ∧ VectorFor 4 (.vector 255) 255 ∧ VectorFor 7 .spurious 24 ∧
      ({ w with sr := StatusReg.ofWord 0x2300 } : State).sr.ipm.toNat < (4 : BitVec 3).toNat ∧
      EntryReady 255 { w with sr := StatusReg.ofWord 0x2300, inputs := [.irq 4 (.vector 255)] } ∧ w.sr.ipm = 7 ∧
      w.lastIpl ≠ 7 ∧ EntryReady 24 { w with inputs := [.irq 7 .spurious] } :=
  ⟨by decide +kernel, rfl, rfl, by decide,
    entryReady_default _ rfl (by decide +kernel) (by decide +kernel) (by decide +kernel), by decide +kernel,
    by decide +kernel, entryReady_default _ rfl (by decide +kernel) (by decide +kernel) (by decide +kernel)⟩

/-- Stopped with mask 3: level 3 is not accepted, level 4 is. -/
def wStop : State := { st 5 7 0x2000 0x3000 0x2300 [] with run := .stopped }

/-- No input; a level of the mask; a level above it; a level 7 held, and a new one, at mask 7; with a queue that holds a word. -/
theorem witness_StoppedUntilInterrupt :
    ([(3, 0, []), (3, 0, [.irq 3 .autovector]), (7, 7, [.irq 7 .autovector])].all fun p =>
      let s := { wStop with sr := { wStop.sr with ipm := p.1 }, lastIpl := p.2.1, inputs := p.2.2 }
      s.run == .stopped && !resetNext s.inputs && !decide (s.sr.ipm.toNat < (presented s.inputs).1.toNat) &&
        !((presented s.inputs).1 == 7 && s.lastIpl != 7)) = true ∧
    ([(3, 0, [.irq 4 .autovector]), (7, 6, [.irq 7 .autovector])].all fun p =>
      let s := { wStop with sr := { wStop.sr with ipm := p.1 }, lastIpl := p.2.1, inputs := p.2.2 }
      s.run == .stopped && !resetNext s.inputs &&
        (decide (s.sr.ipm.toNat < (presented s.inputs).1.toNat) || ((presented s.inputs).1 == 7 && s.lastIpl != 7))) = true ∧
    VectorFor 4 .autovector 28 ∧ VectorFor 7 .autovector 31 ∧ EntryReady 28 { wStop with inputs := [.irq 4 .autovector] } ∧
      EntryReady 31 { wStop with sr := { wStop.sr with ipm := 7 }, lastIpl := 6, inputs := [.irq 7 .autovector] } :=
  ⟨by decide +kernel, by decide +kernel, rfl, rfl,
    entryReady_default _ rfl (by decide +kernel) (by decide +kernel) (by decide +kernel),
    entryReady_default _ rfl (by decide +kernel) (by decide +kernel) (by decide +kernel)⟩

theorem witness_UserModeKeepsSystem : wu.sr.s = false ∧ ∃ t, exec (.moveq 0 1) wu = .next t ∧ t.sr.s = false :=
  ⟨by decide +kernel, _, rfl, by decide +kernel⟩

theorem witness_SupervisorModeEnteredAndLeft :
    (wu.sr.s = false ∧ ∃ t, exec (.trap 15) wu = .next t ∧ t.sr.s = true) ∧
      w.sr.s = true ∧ ∃ t, exec (.andiToSr 0xDFFF) w = .next t ∧ t.sr.s = false :=
  ⟨⟨by decide +kernel, _, rfl, rfl⟩, by decide +kernel, _, rfl, by decide +kernel⟩

/-- Also at the last address of the address space. -/
theorem witness_BigEndianAccess :
    Readable w.cfg .l 0xFFFFFE ∧ Sound w ∧ Ram w.cfg .l 0xFFFFFE ∧ Ram w.cfg .w 0x2000 ∧ Ram w.cfg .b 0x2001 :=
  ⟨readable_default (by decide), sound_w, ram_default (by decide), ram_default (by decide), ram_default (by decide)⟩

/-- One region of each kind, 256 bytes each, and nothing behind them. -/
def kinds : Config :=
  { Config.default with
      memoryMap :=
        [{ base := 0, size := 256, kind := .ram }, { base := 256, size := 256, kind := .rom },
          { base := 512, size := 256, kind := .quietRom }, { base := 768, size := 256, kind := .device }] }

theorem firstNotRam {c : Config} {sz : Size} {a b : Long} {k : MemKind} (pre post : List Long)
    (h : (k != .ram && kindAt c b == k && accessBytes sz a == pre ++ b :: post && pre.all fun x => kindAt c x == .ram) = true) :
    FirstNotRam c sz a k b := by
  simp only [Bool.and_eq_true, bne_iff_ne, beq_iff_eq, List.all_eq_true] at h
  exact ⟨h.1.1.1, h.1.1.2, pre, post, h.1.2, h.2⟩

/-- First bytes and later ones of each kind. -/
theorem witness_MisalignedAndUnmappedAccessesFault :
    (0xFFFFFFFF : Long).toNat % 2 = 1 ∧ (Aligned .w 1024 ∧ FirstNotRam kinds .w 1024 .unmapped 1024) ∧
      (Aligned .l 4094 ∧ FirstNotRam smallMap .l 4094 .unmapped 4096) ∧
      (Aligned .l 254 ∧ FirstNotRam kinds .l 254 .rom 256) ∧ (Aligned .l 768 ∧ FirstNotRam kinds .l 768 .device 768) ∧
      kindAt kinds 512 = .quietRom :=
  ⟨by decide, ⟨.inr (by decide), firstNotRam [] [1025] (by decide +kernel)⟩,
    ⟨.inr (by decide), firstNotRam [4094, 4095] [4097] (by decide +kernel)⟩,
    ⟨.inr (by decide), firstNotRam [254, 255] [257] (by decide +kernel)⟩,
    ⟨.inr (by decide), firstNotRam [] [769, 770, 771] (by decide +kernel)⟩, by decide⟩

theorem witness_RegisterFileAndStackPointers : (∃ k : Fin 16, k.val = (7 : Fin 8).val) ∧ ∃ k : Fin 16, k.val = 8 + (7 : Fin 8).val :=
  ⟨⟨7, rfl⟩, ⟨15, rfl⟩⟩

/-- Both ends of the encodings. -/
theorem witness_ConditionTable : (0 : Nat) < 8 ∧ (7 : Nat) < 8 := by decide

theorem witness_MoveCopiesAndSetsFlags :
    Instr.wellFormed (.move .w (.postInc 0) (.preDec 0)) = true ∧ Sound w ∧
      ∃ s1 s2, resolve (.postInc 0) .w (extAt w 0) w = (.mem 0x2000, s1) ∧ LocReadable w.cfg .w (.mem 0x2000) ∧
        resolve (.preDec 0) .w (extAt w 0) s1 = (.mem 0x2000, s2) ∧ Writable w.cfg .w (.mem 0x2000) :=
  ⟨by decide, sound_w, _, _, rfl, readable_default (by decide), rfl, ram_default (by decide)⟩

/-- An address register that is also the operand's. -/
theorem witness_AddressRegisterArithmetic :
    Instr.wellFormed (.movea .w (.postInc 0) 0) = true ∧
      ∃ s1, resolve (.postInc 0) .w (extAt w 0) w = (.mem 0x2000, s1) ∧ LocReadable w.cfg .w (.mem 0x2000) :=
  ⟨by decide, _, rfl, readable_default (by decide)⟩

theorem witness_CcrLoadedFromOperand :
    Instr.wellFormed (.moveToCcr (.imm 0xFFFF)) = true ∧
      ∃ s1, resolve (.imm 0xFFFF) .w (extAt w 0) w = (.imm 0xFFFF, s1) ∧ LocReadable w.cfg .w (.imm 0xFFFF) :=
  ⟨by decide, _, rfl, trivial⟩

theorem witness_SrLoadedInSupervisorMode :
    Instr.wellFormed (.moveToSr (.preDec 7)) = true ∧ w.sr.s = true ∧
      ∃ s1, resolve (.preDec 7) .w (extAt w 0) w = (.mem 0x7FFE, s1) ∧ LocReadable w.cfg .w (.mem 0x7FFE) :=
  ⟨by decide, by decide +kernel, _, rfl, readable_default (by decide)⟩

theorem witness_SrAndSccStored :
    Instr.wellFormed (.moveFromSr (.preDec 0)) = true ∧ Sound w ∧
      ∃ s1 s2, resolve (.preDec 0) .w (extAt w 0) w = (.mem 0x1FFE, s1) ∧
        resolve (.preDec 0) .b (extAt w 0) w = (.mem 0x1FFF, s2) ∧ Writable w.cfg .w (.mem 0x1FFE) ∧
        Writable w.cfg .b (.mem 0x1FFF) :=
  ⟨by decide, sound_w, _, _, rfl, rfl, ram_default (by decide), ram_default (by decide)⟩

theorem witness_UspMovesInSupervisorMode : w.sr.s = true := by decide +kernel

theorem ram_items (sz : Size) (a : Long) (h : a.toNat % 2 = 0) (j : Nat) : Ram w.cfg sz (itemAt sz a j) := by
  refine ram_default ((aligned_iff _ _).2 ?_)
  cases sz
  · exact .inl rfl
  all_goals
    right
    simp only [itemAt, Size.bytes, BitVec.toNat_add, BitVec.toNat_ofNat]
    omega

/-- All sixteen registers upwards; downwards from an address register in the list; an empty list. -/
theorem witness_MovemStoresListInOrder :
    Instr.wellFormed (.movemToMem .l 0xFFFF (.ind 0)) = true ∧ Ea.isPreDec (.ind 0) = false ∧ Sound w ∧
      (∃ s1, resolve (.ind 0) .l (extAt w 1) w = (.mem 0x2000, s1)) ∧
      (∀ j, j < (maskBits 0xFFFF).length → Ram w.cfg .l (itemAt .l 0x2000 j)) ∧
      (∀ j, j < (maskBits 0x0080).length →
        Ram w.cfg .w (itemAt .w (w.areg 0 - BitVec.ofNat 32 ((maskBits 0x0080).length * Size.bytes .w)) j)) ∧
      (maskBits 0).length = 0 :=
  ⟨by decide, rfl, sound_w, ⟨_, rfl⟩, fun j _ => ram_items _ _ (by decide) j, fun j _ => ram_items _ _ (by decide +kernel) j,
    by decide⟩

theorem readable_ram {c : Config} {sz : Size} {a : Long}
    (h : (!misaligned sz a && (accessBytes sz a).all fun b => kindAt c b == .ram) = true) : Readable c sz a := by
  simp only [Bool.and_eq_true, Bool.not_eq_true', List.all_eq_true, beq_iff_eq] at h
  exact ⟨(aligned_iff sz a).1 h.1, fun b hb => .inl (h.2 b hb)⟩

/-- Items that can be read, with a readable word after them; and, with nothing above 0x1000, items that end just below it. -/
theorem witness_MovemLoadsListInOrder :
    Instr.wellFormed (.movemToReg .w 0xFFFF (.pcDisp 0x100)) = true ∧ Ea.isPostInc (.pcDisp 0x100) = false ∧
      (∃ s1, resolve (.pcDisp 0x100) .l (extAt w 1) w = (.mem 0x1104, s1)) ∧
      (∀ j, Readable w.cfg .w (itemAt .w 0x1104 j)) ∧ (∀ j, Readable w.cfg .w (itemAt .w (w.areg 0) j)) ∧
      (maskBits 3).length = 2 ∧ Readable smallMap .w (itemAt .w 0xFFC 0) ∧ Readable smallMap .w (itemAt .w 0xFFC 1) ∧
      Aligned .w (itemAt .w 0xFFC 2) ∧ kindAt smallMap (itemAt .w 0xFFC 2) = .unmapped :=
  ⟨by decide, rfl, ⟨_, rfl⟩, fun j => Ram.readable (ram_items .w 0x1104 (by decide) j),
    fun j => Ram.readable (ram_items .w (w.areg 0) (by decide +kernel) j),
    by decide +kernel, readable_ram (by decide +kernel), readable_ram (by decide +kernel),
    (aligned_iff _ _).1 (by decide +kernel), by decide +kernel⟩

/-- The word after the last item is read: with nothing mapped there, MOVEM stops at its address, the items loaded (R159, R60). -/
theorem test_movem_extra_read :
    (match exec (.movemToReg .w 3 (.postInc 0)) { st 9 9 0xFFC 0 0x2700 [(.w, 0xFFC, 0x8001)] with cfg := smallMap } with
      | .fault (.busError a t) => some (a, t.dreg 0, t.areg 0)
      | _ => none) = some (0x1000, 0xFFFF8001, 0xFFC) := by decide +kernel

/-- Odd addresses do. -/
theorem witness_MovepEverySecondByte :
    Size.l ≠ .b ∧ Sound w ∧ ∀ j, Ram w.cfg .b (w.areg 0 + BitVec.ofInt 32 (1 : Word).toInt + BitVec.ofNat 32 (2 * j)) :=
  ⟨by decide, sound_w, fun _ => ram_default rfl⟩

theorem witness_ArithLogicToRegisterResults :
    Instr.wellFormed (.addEaDn .w (.postInc 0) 0) = true ∧ Instr.wellFormed (.andEaDn .w (.postInc 0) 0) = true ∧
      ∃ s1, resolve (.postInc 0) .w (extAt w 0) w = (.mem 0x2000, s1) ∧ LocReadable w.cfg .w (.mem 0x2000) :=
  ⟨by decide, by decide, _, rfl, readable_default (by decide)⟩

theorem witness_AddSubToOperandResults :
    Sound w ∧ Instr.wellFormed (.addDnEa .l 0 (.preDec 0)) = true ∧ Instr.wellFormed (.addi .l 0xFFFFFFFF (.preDec 0)) = true ∧
      ∃ s1 s2, resolve (.preDec 0) .l (extAt w 0) w = (.mem 0x1FFC, s1) ∧
        resolve (.preDec 0) .l (extAt w (Size.immCount .l)) w = (.mem 0x1FFC, s2) ∧ Writable w.cfg .l (.mem 0x1FFC) :=
  ⟨sound_w, by decide, by decide, _, _, rfl, rfl, ram_default (by decide)⟩

/-- A data register, and memory. -/
theorem witness_LogicToOperandResults :
    Sound w ∧ Instr.wellFormed (.andDnEa .w 0 (.postInc 0)) = true ∧ Instr.wellFormed (.eor .w 0 (.dn 0)) = true ∧
      Instr.wellFormed (.andi .w 0xFFFF (.dn 0)) = true ∧
      (∃ s1, resolve (.postInc 0) .w (extAt w 0) w = (.mem 0x2000, s1) ∧ Writable w.cfg .w (.mem 0x2000)) ∧
      ∃ s1 s2, resolve (.dn 0) .w (extAt w 0) w = (.dreg 0, s1) ∧
        resolve (.dn 0) .w (extAt w (Size.immCount .w)) w = (.dreg 0, s2) ∧ Writable w.cfg .w (.dreg 0) :=
  ⟨sound_w, by decide, by decide, by decide, ⟨_, rfl, ram_default (by decide)⟩, _, _, rfl, rfl, trivial⟩

/-- A byte on the stack pointer, which steps by two; both ends of the field. -/
theorem witness_QuickAddSubResults :
    Sound w ∧ Instr.wellFormed (.addq .b 0 (.postInc 7)) = true ∧ Instr.wellFormed (.addq .b 7 (.postInc 7)) = true ∧
      Ea.isAn (.postInc 7) = false ∧
      (∃ s1, resolve (.postInc 7) .b (extAt w 0) w = (.mem 0x8000, s1)) ∧ Writable w.cfg .b (.mem 0x8000) ∧ Size.w ≠ .b :=
  ⟨sound_w, by decide, by decide, rfl, ⟨_, rfl⟩, ram_default (by decide), by decide⟩

/-- Both forms; in memory with one register for both operands. -/
theorem witness_ExtendedAddSubStickyZero :
    Sound w ∧
      (∃ s1 s2, resolve (pairOperand .memPreDec 0) .w (extAt w 0) w = (.mem 0x1FFE, s1) ∧
        LocReadable w.cfg .w (.mem 0x1FFE) ∧ resolve (pairOperand .memPreDec 0) .w (extAt w 0) s1 = (.mem 0x1FFC, s2) ∧
        Writable w.cfg .w (.mem 0x1FFC)) ∧
      ∃ s1 s2, resolve (pairOperand .dataReg 0) .w (extAt w 0) w = (.dreg 0, s1) ∧ LocReadable w.cfg .w (.dreg 0) ∧
        resolve (pairOperand .dataReg 1) .w (extAt w 0) s1 = (.dreg 1, s2) ∧ Writable w.cfg .w (.dreg 1) :=
  ⟨sound_w, ⟨_, _, rfl, readable_default (by decide), rfl, ram_default (by decide)⟩, _, _, rfl, trivial, rfl, trivial⟩

theorem witness_CompareAndTestOnlyFlags :
    Instr.wellFormed (.cmp .w (.postInc 0) 0) = true ∧ Instr.wellFormed (.cmpa .w (.postInc 0) 0) = true ∧
      Instr.wellFormed (.cmpi .w 0xFFFF (.postInc 0)) = true ∧ Instr.wellFormed (.tst .w (.postInc 0)) = true ∧
      (∃ s1 s2, resolve (.postInc 0) .w (extAt w 0) w = (.mem 0x2000, s1) ∧ LocReadable w.cfg .w (.mem 0x2000) ∧
        resolve (.postInc 0) .w (extAt w (Size.immCount .w)) w = (.mem 0x2000, s2)) ∧
      ∃ s1 s2, resolve (.postInc 0) .w (extAt w 0) w = (.mem 0x2000, s1) ∧
        resolve (.postInc 0) .w (extAt w 0) s1 = (.mem 0x2002, s2) ∧ LocReadable w.cfg .w (.mem 0x2002) :=
  ⟨by decide, by decide, by decide, by decide, ⟨_, _, rfl, readable_default (by decide), rfl⟩, _, _, rfl, rfl,
    readable_default (by decide)⟩

theorem witness_UnaryResultsAndFlags :
    Instr.wellFormed (.clr .b (.postInc 7)) = true ∧ Sound w ∧
      ∃ s1, resolve (.postInc 7) .b (extAt w 0) w = (.mem 0x8000, s1) ∧ Writable w.cfg .b (.mem 0x8000) :=
  ⟨by decide, sound_w, _, rfl, ram_default (by decide)⟩

/-- A byte at an odd address. -/
theorem witness_BitTestOnlyZ :
    Instr.wellFormed (.btstReg 0 (.disp 0 1)) = true ∧ Instr.wellFormed (.btstImm 255 (.disp 0 1)) = true ∧
      ∃ s1 s2, resolve (.disp 0 1) (bitSize (.disp 0 1)) (extAt w 0) w = (.mem 0x2001, s1) ∧
        resolve (.disp 0 1) (bitSize (.disp 0 1)) (extAt w 1) w = (.mem 0x2001, s2) ∧ LocReadable w.cfg .b (.mem 0x2001) :=
  ⟨by decide, by decide, _, _, rfl, rfl, readable_default (by decide)⟩

/-- A data register, and a byte at an odd address. -/
theorem witness_BitChangeOneBit :
    Sound w ∧ Instr.wellFormed (.bchgReg 0 (.dn 1)) = true ∧ Instr.wellFormed (.bchgImm 255 (.disp 0 1)) = true ∧
      (∃ s1, resolve (.dn 1) (bitSize (.dn 1)) (extAt w 0) w = (.dreg 1, s1) ∧ Writable w.cfg .l (.dreg 1)) ∧
      ∃ s1, resolve (.disp 0 1) (bitSize (.disp 0 1)) (extAt w 1) w = (.mem 0x2001, s1) ∧ Writable w.cfg .b (.mem 0x2001) :=
  ⟨sound_w, by decide, by decide, ⟨_, rfl, trivial⟩, _, rfl, ram_default (by decide)⟩

theorem witness_ShiftStepRepeated :
    Instr.wellFormed (shiftMemInstr .roxl (.postInc 0)) = true ∧ Sound w ∧
      ∃ s1, resolve (.postInc 0) .w (extAt w 0) w = (.mem 0x2000, s1) ∧ Writable w.cfg .w (.mem 0x2000) :=
  ⟨by decide, sound_w, _, rfl, ram_default (by decide)⟩

/-- Counts of 1, 8 and 63. -/
theorem witness_ShiftClosedForms :
    1 ≤ countOf w (.imm 1) ∧ countOf w (.imm 0) = 8 ∧ 1 ≤ countOf { w with d := w.d.set 1 63 } (.reg 1) ∧
      countOf { w with d := w.d.set 1 63 } (.reg 1) = 63 := by decide +kernel

/-- Digits, at both ends. -/
theorem witness_DecimalResults :
    Sound w ∧ (decimal 0x99 ∧ decimal 0) ∧ Instr.wellFormed (.nbcd (.preDec 0)) = true ∧
      (∃ s1, resolve (.preDec 0) .b (extAt w 0) w = (.mem 0x1FFF, s1) ∧ Writable w.cfg .b (.mem 0x1FFF) ∧
        decimal (natOf .b (locValue .b s1 (.mem 0x1FFF)))) ∧
      ∃ s1 s2, resolve (pairOperand .memPreDec 0) .b (extAt w 0) w = (.mem 0x1FFF, s1) ∧
        LocReadable w.cfg .b (.mem 0x1FFF) ∧ resolve (pairOperand .memPreDec 1) .b (extAt w 0) s1 = (.mem 0x2FFF, s2) ∧
        Writable w.cfg .b (.mem 0x2FFF) ∧ decimal (natOf .b (locValue .b s2 (.mem 0x2FFF))) :=
  ⟨sound_w, by unfold decimal; decide, by decide, ⟨_, rfl, ram_default (by decide), by unfold decimal; decide +kernel⟩, _, _,
    rfl, readable_default (by decide), rfl, ram_default (by decide), by unfold decimal; decide +kernel⟩

/-- DBcc with its condition true and false, counting from 0 and from 5. -/
theorem witness_BranchAndJumpTargets :
    condHolds w.sr.ccr .t = true ∧ condHolds w.sr.ccr .f = false ∧ natOf .w (w.dreg 0) ≠ 0 ∧ natOf .w (w.dreg 2) = 0 ∧
      Instr.wellFormed (.jmp (.pcDisp 0xFFFE)) = true ∧
      ∃ s1, resolve (.pcDisp 0xFFFE) .l (extAt w 0) w = (.mem 0x1000, s1) :=
  ⟨by decide +kernel, rfl, by decide +kernel, by decide +kernel, by decide, _, rfl⟩

/-- The operand's register is the stack pointer. -/
theorem witness_PushesAndTargets :
    Sound w ∧ Ram w.cfg .l (w.sp - 4) ∧ Instr.wellFormed (.jsr (.ind 7)) = true ∧
      ∃ s1, resolve (.ind 7) .l (extAt w 0) w = (.mem 0x8000, s1) :=
  ⟨sound_w, ram_default (by decide +kernel), by decide, _, rfl⟩

theorem witness_LinkAndUnlkFrames : Sound wu ∧ Ram wu.cfg .l (wu.sp - 4) ∧ Readable wu.cfg .l (wu.areg 0) ∧ Readable wu.cfg .l (wu.areg 7) :=
  ⟨sound_wu, ram_default (by decide +kernel), readable_default (by decide +kernel), readable_default (by decide +kernel)⟩

theorem witness_ReturnsRestore :
    Readable wu.cfg .l wu.sp ∧ Readable wu.cfg .w wu.sp ∧ Readable wu.cfg .l (wu.sp + 2) ∧ w.sr.s = true ∧
      Readable w.cfg .w w.ssp ∧ Readable w.cfg .l (w.ssp + 2) :=
  ⟨readable_default (by decide +kernel), readable_default (by decide +kernel), readable_default (by decide +kernel),
    by decide +kernel, readable_default (by decide +kernel), readable_default (by decide +kernel)⟩

theorem witness_MultiplyProduct :
    Instr.wellFormed (.muls (.postInc 0) 0) = true ∧
      ∃ s1, resolve (.postInc 0) .w (extAt w 0) w = (.mem 0x2000, s1) ∧ LocReadable w.cfg .w (.mem 0x2000) :=
  ⟨by decide, _, rfl, readable_default (by decide)⟩

/-- Quotients 65535 and 65536 of DIVU. -/
theorem witness_DivideQuotientRemainder_unsigned :
    Instr.wellFormed (.divu (.imm 0xFFFF) 0) = true ∧
      (∃ s1, resolve (.imm 0xFFFF) .w (extAt w 0) w = (.imm 0xFFFF, s1) ∧ natOf .w (locValue .w s1 (.imm 0xFFFF)) = 65535) ∧
      LocReadable w.cfg .w (.imm 0xFFFF) ∧
      [(0xFFFEFFFF : Long), 0xFFFF0000].map (fun d => (({ w with d := w.d.set 0 d } : State).dreg 0).toNat / 65535) =
        [65535, 65536] :=
  ⟨by decide, ⟨_, rfl, by decide⟩, trivial, by decide +kernel⟩

/-- Quotients of DIVS at both ends of its range and just outside, with and without a remainder. -/
theorem witness_DivideQuotientRemainder_signed :
    ((65535 : Int) = 32767 * 2 + 1 ∧ |(1 : Int)| < |2| ∧ (0 < (1 : Int) → 0 < (65535 : Int))) ∧
      ((-65537 : Int) = -32768 * 2 + -1 ∧ |(-1 : Int)| < |2| ∧ ((-1 : Int) < 0 → (-65537 : Int) < 0)) ∧
      ((65536 : Int) = 32768 * 2 + 0 ∧ 32767 < (32768 : Int)) ∧ ((-65538 : Int) = -32769 * 2 + 0 ∧ (-32769 : Int) < -32768) ∧
      intOf .w (locValue .w w (.imm 2)) = 2 ∧
      [(65535 : Long), 0xFFFEFFFF, 65536, 0xFFFEFFFE].map (fun d => ({ w with d := w.d.set 0 d } : State).dreg 0 |>.toInt) =
        [65535, -65537, 65536, -65538] := by decide +kernel

theorem witness_ZeroDivideTrap :
    Instr.wellFormed (.divu (.postInc 0) 0) = true ∧
      ∃ s1, resolve (.postInc 0) .w (extAt wu 0) wu = (.mem 0x2000, s1) ∧ LocReadable wu.cfg .w (.mem 0x2000) ∧
        natOf .w (locValue .w s1 (.mem 0x2000)) = 0 ∧ EntryReady vecZeroDivide s1 :=
  ⟨by decide, _, rfl, readable_default (by decide), by decide +kernel,
    entryReady_default _ rfl (by decide +kernel) (by decide +kernel) (by decide +kernel)⟩

/-- D0 = 5 against 5, 4 and -1, and a negative register. -/
theorem witness_ChkTrapsOutsideBounds :
    Instr.wellFormed (.chk (.imm 5) 0) = true ∧
      (∃ s1, resolve (.imm 5) .w (extAt w 0) w = (.imm 5, s1) ∧ EntryReady vecChk s1) ∧ LocReadable w.cfg .w (.imm 5) ∧
      intOf .w (w.dreg 0) = 5 ∧ [(5 : Long), 4, 0xFFFF].map (fun b => intOf .w (locValue .w w (.imm b))) = [5, 4, -1] ∧
      intOf .w (({ w with d := w.d.set 0 0xFFFF } : State).dreg 0) < 0 :=
  ⟨by decide, ⟨_, rfl, entryReady_w _⟩, trivial, by decide +kernel, by decide +kernel, by decide +kernel⟩

theorem witness_TrapEntersVector : EntryReady (BitVec.ofNat 8 (32 + (15 : Fin 16).val)) wu := entryReady_wu _

theorem witness_TrapvIllegalAndLines :
    wu.sr.ccr.v = true ∧ (st 0 0 0 0 0 []).sr.ccr.v = false ∧ EntryReady 7 wu ∧ EntryReady 4 wu ∧ EntryReady 10 wu ∧
      EntryReady 11 wu :=
  ⟨by decide +kernel, by decide +kernel, entryReady_wu _, entryReady_wu _, entryReady_wu _, entryReady_wu _⟩

theorem witness_ResetEventAndStop :
    w.sr.s = true ∧ (0x2700 : Word).getLsbD 13 = true ∧ (0x0300 : Word).getLsbD 13 = false ∧
      w.cfg.stopClearsS = .privilegeViolation ∧ EntryReady vecPrivilege w :=
  ⟨by decide +kernel, by decide, by decide, rfl, entryReady_w _⟩

end Sys2Proof.Tests
end

section
/-! The state of 10_state.md: what reset leaves (R37), the banked stack pointer and the register numbers (R23, R24), and the bits
of the status register's word (R27, R32). -/

open Sys2Proof Sys2Proof.Machine Sys2Proof.Safety

namespace Sys2Proof.Machine

/-! ## Memory that lists nothing -/

theorem State.byteAt_of_mem_nil {s : State} (h : s.mem = []) (a : Long) : s.byteAt a = Config.emptyByte := by
  rw [State.byteAt, h, memRead]

theorem State.load_long_of_mem_nil {s : State} (h : s.mem = []) (a : Long) :
    s.load .l a = Config.emptyByte ++ Config.emptyByte ++ Config.emptyByte ++ Config.emptyByte := by
  simp only [State.load, State.byteAt_of_mem_nil h]

/-! ## The stack pointers -/

theorem State.areg_seven (s : State) : s.areg 7 = if s.sr.s then s.ssp else s.usp := rfl

theorem State.setAreg_seven (s : State) (v : Long) : s.setAreg 7 v = s.setSp v := rfl

theorem State.setSp_usp (s : State) (v : Long) : (s.setSp v).usp = if s.sr.s then s.usp else v := by
  unfold State.setSp; split <;> rfl

theorem State.setSp_ssp (s : State) (v : Long) : (s.setSp v).ssp = if s.sr.s then v else s.ssp := by
  unfold State.setSp; split <;> rfl

/-! ## The combined register numbers -/

theorem State.rreg_of_data {k : Fin 16} {r : Fin 8} (h : k.val = r.val) (s : State) : s.rreg k = s.dreg r := by
  have hk : k.val < 8 := h ▸ r.isLt
  have hr : Fin.ofNat 8 k.val = r := Fin.ext (by simp [h])
  rw [State.rreg, if_pos hk, hr]

theorem State.rreg_of_address {k : Fin 16} {r : Fin 8} (h : k.val = 8 + r.val) (s : State) : s.rreg k = s.areg r := by
  have hk : ¬ k.val < 8 := by omega
  have hr : Fin.ofNat 8 (k.val - 8) = r := Fin.ext (by simp [h])
  rw [State.rreg, if_neg hk, hr]

/-! ## The bits of the status register -/

/-- What bit `k` of CCR reads: a flag, or 0 where none is implemented (10_state.md R27, R32). -/
def Ccr.bit (c : Ccr) : Nat → Bool
  | 0 => c.c
  | 1 => c.v
  | 2 => c.z
  | 3 => c.n
  | 4 => c.x
  | _ => false

/-- What bit `k` of SR reads; below the system byte's fields stands CCR (10_state.md R27, R32). -/
def StatusReg.bit (r : StatusReg) : Nat → Bool
  | 8 => r.ipm.getLsbD 0
  | 9 => r.ipm.getLsbD 1
  | 10 => r.ipm.getLsbD 2
  | 13 => r.s
  | 15 => r.t
  | k => r.ccr.bit k

theorem Ccr.bit_of_eight_le (c : Ccr) {k : Nat} (h : 8 ≤ k) : c.bit k = false := by
  obtain ⟨j, rfl⟩ := Nat.exists_eq_add_of_le' h
  rfl

theorem StatusReg.bit_of_sixteen_le (r : StatusReg) {k : Nat} (h : 16 ≤ k) : r.bit k = false := by
  obtain ⟨j, rfl⟩ := Nat.exists_eq_add_of_le' h
  rfl

theorem Ccr.getLsbD_toByte (c : Ccr) (k : Nat) : c.toByte.getLsbD k = c.bit k := by
  by_cases hk : k < 8
  · rw [Ccr.toByte]
    iterate 5 rw [BitVec.getLsbD_append]
    interval_cases k <;> simp [Ccr.bit]
  · rw [c.bit_of_eight_le (by omega), BitVec.getLsbD_of_ge _ _ (by omega)]

theorem StatusReg.getLsbD_toWord (r : StatusReg) (k : Nat) : r.toWord.getLsbD k = r.bit k := by
  by_cases hlow : k < 8
  · have hccr : r.toWord.getLsbD k = r.ccr.toByte.getLsbD k := by
      rw [StatusReg.toWord, BitVec.getLsbD_append, if_pos hlow]
    rw [hccr, Ccr.getLsbD_toByte]
    interval_cases k <;> rfl
  by_cases hk : k < 16
  · rw [StatusReg.toWord]
    iterate 5 rw [BitVec.getLsbD_append]
    interval_cases k <;> simp [StatusReg.bit, Ccr.bit]
  · rw [r.bit_of_sixteen_le (by omega), BitVec.getLsbD_of_ge _ _ (by omega)]

/-! ## Loading the status register from bits -/

theorem getElem_threeBits (a b c : Bool) :
    let w : BitVec 3 := BitVec.ofBool a ++ BitVec.ofBool b ++ BitVec.ofBool c
    w[0] = c ∧ w[1] = b ∧ w[2] = a := by
  revert a b c
  decide

theorem extractLsb'_three {n : Nat} (w : BitVec n) (i : Nat) :
    w.extractLsb' i 3 = BitVec.ofBool (w.getLsbD (i + 2)) ++ BitVec.ofBool (w.getLsbD (i + 1)) ++ BitVec.ofBool (w.getLsbD i) := by
  refine BitVec.eq_of_getElem_eq fun k hk => ?_
  interval_cases k <;> simp [getElem_threeBits]

theorem Ccr.ofByte_eq_flagsOf (b : Byte) : Ccr.ofByte b = flagsOf b.getLsbD := rfl

theorem StatusReg.ofWord_eq_statusOf (w : Word) : StatusReg.ofWord w = statusOf w.getLsbD := by
  simp [StatusReg.ofWord, statusOf, flagsOf, Ccr.ofByte, extractLsb'_three]

theorem statusOf_bit (r : StatusReg) : statusOf r.bit = r := by
  have hm := extractLsb'_three r.ipm 0
  rw [BitVec.extractLsb'_eq_self] at hm
  rw [StatusReg.mk.injEq]
  exact ⟨rfl, rfl, hm.symm, rfl⟩

/-- Of the bits CCR is loaded from, those of `0x1F` are kept (10_state.md R32). -/
theorem bit_flagsOf (f : Nat → Bool) (k : Nat) : (flagsOf f).bit k = (f k && (0x1F : Byte).getLsbD k) := by
  by_cases hk : k < 8
  · interval_cases k <;> simp [flagsOf, Ccr.bit]
  · rw [Ccr.bit_of_eight_le _ (by omega), BitVec.getLsbD_of_ge _ _ (by omega), Bool.and_false]

/-- Of the bits SR is loaded from, those of `0xA71F` are kept (10_state.md R32). -/
theorem bit_statusOf (f : Nat → Bool) (k : Nat) : (statusOf f).bit k = (f k && (0xA71F : Word).getLsbD k) := by
  by_cases hk : k < 16
  · interval_cases k <;> simp [statusOf, flagsOf, StatusReg.bit, Ccr.bit, getElem_threeBits]
  · rw [StatusReg.bit_of_sixteen_le _ (by omega), BitVec.getLsbD_of_ge _ _ (by omega), Bool.and_false]

/-! ## The word and the byte as views of the register -/

@[simp] theorem StatusReg.ofWord_toWord (r : StatusReg) : StatusReg.ofWord r.toWord = r := by
  rw [StatusReg.ofWord_eq_statusOf, funext r.getLsbD_toWord, statusOf_bit]

@[simp] theorem StatusReg.toWord_ofWord (w : Word) : (StatusReg.ofWord w).toWord = w &&& 0xA71F := by
  refine BitVec.eq_of_getLsbD_eq fun k _ => ?_
  rw [StatusReg.getLsbD_toWord, StatusReg.ofWord_eq_statusOf, bit_statusOf, BitVec.getLsbD_and]

/-- Only the implemented bits of a word reach SR: a write to the others is ignored (10_state.md R32). -/
theorem StatusReg.ofWord_and_implemented (w : Word) : StatusReg.ofWord (w &&& 0xA71F) = StatusReg.ofWord w := by
  rw [← StatusReg.toWord_ofWord, StatusReg.ofWord_toWord]

@[simp] theorem Ccr.toByte_ofByte (b : Byte) : (Ccr.ofByte b).toByte = b &&& 0x1F := by
  refine BitVec.eq_of_getLsbD_eq fun k _ => ?_
  rw [Ccr.getLsbD_toByte, Ccr.ofByte_eq_flagsOf, bit_flagsOf, BitVec.getLsbD_and]

/-- Bits 14, 12, 11, 7, 6 and 5 read 0 (10_state.md R32). -/
theorem StatusReg.bit_unimplemented (r : StatusReg) : ∀ k ∈ [14, 12, 11, 7, 6, 5], r.bit k = false := by
  simp [StatusReg.bit, Ccr.bit]

end Sys2Proof.Machine

namespace Sys2Proof.Proofs

/-! ## The obligations -/

/-- Settles O10: nothing is listed in memory or held by the prefetch queue, and the processor runs. -/
theorem resetInvariant : Obligations.ResetInvariant := by
  refine ⟨reset_memory_wf, ?mem, ?stale, ?run⟩
  case mem => exact List.forall_mem_nil _
  case stale => exact List.forall_mem_nil _
  case run => exact fun hstopped => nomatch hstopped

/-- Settles O11: the longs at 0 and 4 are read from a memory that lists nothing (log 5). -/
theorem resetValues : Obligations.ResetValues := by
  have hmem : State.reset.mem = [] := rfl
  exact ⟨rfl, rfl, rfl, rfl, (State.load_long_of_mem_nil hmem 0).symm, (State.load_long_of_mem_nil hmem 4).symm, hmem⟩

/-- Settles O24, from what each register access reads after each register write. -/
theorem registerFileAndStackPointers : Obligations.RegisterFileAndStackPointers := by
  intro s v r q
  have husp : (s.setAreg 7 v).usp = if s.sr.s then s.usp else v := by rw [State.setAreg_seven, State.setSp_usp]
  have hssp : (s.setAreg 7 v).ssp = if s.sr.s then v else s.ssp := by rw [State.setAreg_seven, State.setSp_ssp]
  exact ⟨s.areg_seven, husp, hssp, s.areg_setAreg r q v, s.dreg_setDreg r q v,
    fun _ hk => s.rreg_of_data hk, fun _ hk => s.rreg_of_address hk⟩

/-- Settles O25: the word shows the register bit by bit, and a register is loaded from the implemented bits only. -/
theorem statusWordLayout : Obligations.StatusWordLayout := by
  refine ⟨fun r => ⟨r.ofWord_toWord, ?fields, ?zeros⟩,
    fun w => ⟨StatusReg.toWord_ofWord w, (StatusReg.ofWord_and_implemented w).symm⟩, Ccr.toByte_ofByte⟩
  case fields => rw [funext r.getLsbD_toWord, statusOf_bit]
  case zeros => simpa only [r.getLsbD_toWord] using r.bit_unimplemented

end Sys2Proof.Proofs
end

section
/-! What the meaning of an instruction can do, said once for every instruction: STOP aside, it is `Moves` (20_memory.md R50, R53,
R69); and what the boundary and the step can do. -/

open Sys2Proof Sys2Proof.Machine Sys2Proof.Safety

namespace Sys2Proof.Machine

/-! ## Operations and outcomes that keep what `Moves` says -/

/-- Where an operation answers a state, that state is `Moves` of the one it began at. -/
def Keeps (s : State) (r : Res State) : Prop := ∀ t, r = .ok t → Moves s t

/-- Where a meaning answers a next state, that state is `Moves` of the one it began at. -/
def NextKeeps (s : State) (r : Result) : Prop := ∀ t, r = .next t → Moves s t

theorem Keeps.ok {s t : State} (h : Moves s t) : Keeps s (.ok t) := by
  intro u hu
  cases hu
  exact h

theorem Keeps.error (s : State) (e : Stop) : Keeps s (.error e) := fun _ hu => nomatch hu

theorem Keeps.trans {s u : State} {r : Res State} (h : Moves s u) (k : Keeps u r) : Keeps s r :=
  fun t ht => h.trans (k t ht)

theorem Keeps.advanceBy {s : State} {r : Res State} (h : Keeps s r) (len : Long) : Keeps s (advanceBy len r) :=
  fun _ ht => advanceBy_moves ht h

theorem NextKeeps.finish {s : State} {r : Res State} (h : Keeps s r) : NextKeeps s (finish r) :=
  fun t ht => h t (finish_eq_next.1 ht)

theorem Keeps.advance_ok {s t : State} (h : Moves s t) (len : Long) :
    Keeps s (Sys2Proof.Machine.advanceBy len (.ok t)) := (Keeps.ok h).advanceBy len

/-! ## Changes outside memory -/

theorem Moves.set_usp (s : State) (v : Long) : Moves s { s with usp := v } := .of_same rfl rfl rfl rfl rfl rfl
theorem Moves.set_events (s : State) (l : List PlatformEvent) : Moves s { s with events := l } :=
  .of_same rfl rfl rfl rfl rfl rfl

/-! ## The stack and exceptions -/

theorem pop32_moves {s t : State} {v : Long} (h : pop32 s = .ok (v, t)) : Moves s t := by
  obtain ⟨-, -, rfl⟩ := pop32_eq_ok.1 h
  exact .setSp s _

theorem pop16_moves {s t : State} {v : Long} (h : pop16 s = .ok (v, t)) : Moves s t := by
  obtain ⟨-, -, rfl⟩ := pop16_eq_ok.1 h
  exact .setSp s _

theorem trapNext_keeps (v : BitVec 8) (len : Long) (s : State) : Keeps s (trapNext v len s) :=
  fun _ => exceptionEntry_moves

theorem trapHere_keeps (v : BitVec 8) (s : State) : Keeps s (trapHere v s) := fun _ => exceptionEntry_moves

theorem privileged_keeps {s : State} {effect : Res State} (h : Keeps s effect) : Keeps s (privileged s effect) := by
  rw [privileged_eq]
  split
  · exact h
  · exact trapHere_keeps vecPrivilege s

theorem returnFromException_keeps (s : State) : Keeps s (returnFromException s) := by
  intro t ht
  obtain ⟨rfl, -, -⟩ := returnFromException_eq_ok ht
  exact .of_same rfl rfl rfl rfl rfl rfl

theorem immToSr_keeps (f : Word → Word → Word) (imm : Word) (s : State) : Keeps s (immToSr f imm s) :=
  privileged_keeps (.advance_ok (.setSr s _) _)

theorem immToCcr_keeps (f : Byte → Byte → Byte) (imm : Byte) (s : State) : Keeps s (immToCcr f imm s) :=
  .advance_ok (.setCcr s _) _

/-! ## Multiply and divide -/

theorem mulEa_keeps (f : Long → Long → Long) (ea : Ea) (dn : Fin 8) (s : State) : Keeps s (mulEa f ea dn s) := by
  unfold mulEa
  split
  · exact .error s _
  · next v u hread => exact .advance_ok ((readEa_moves hread).trans ((Moves.setDreg u dn _).trans (.setCcr _ _))) _

theorem divideBy_keeps (zero : Bool) (q r lo hi : Int) (dn : Fin 8) (len : Long) (s : State) :
    Keeps s (divideBy zero q r lo hi dn len s) := by
  have flags (t : State) (c : Ccr) : Moves t ((t.setCcr c).skipDraws 3) := (Moves.setCcr t c).trans (.skipDraws _ 3)
  unfold divideBy
  split
  · exact .trans (flags s _) (trapNext_keeps _ _ _)
  · split
    · exact .advance_ok (flags s _) _
    · exact .advance_ok ((Moves.setDreg s dn _).trans (flags _ _)) _

/-! ## The meanings that are no single shape -/

theorem execDivs_keeps (ea : Ea) (dn : Fin 8) (s : State) : NextKeeps s (execDivs ea dn s) := by
  refine .finish ?_
  split
  · exact .error s _
  · next hread => exact .trans (readEa_moves hread) (divideBy_keeps _ _ _ _ _ _ _ _)

theorem execDivu_keeps (ea : Ea) (dn : Fin 8) (s : State) : NextKeeps s (execDivu ea dn s) := by
  refine .finish ?_
  split
  · exact .error s _
  · next hread => exact .trans (readEa_moves hread) (divideBy_keeps _ _ _ _ _ _ _ _)

theorem execChk_keeps (ea : Ea) (dn : Fin 8) (s : State) : NextKeeps s (execChk ea dn s) := by
  refine .finish ?_
  split
  · exact .error s _
  · next w u hread =>
    have flags (n : Bool) : Moves s ((u.setCcr (chkCcr u n)).skipDraws 4) :=
      (readEa_moves hread).trans ((Moves.setCcr u _).trans (.skipDraws _ 4))
    dsimp only
    split
    · exact .trans (flags true) (trapNext_keeps _ _ _)
    · split
      · exact .trans (flags false) (trapNext_keeps _ _ _)
      · exact .advance_ok (flags _) _

theorem execTrapv_keeps (s : State) : NextKeeps s (execTrapv s) := by
  refine .finish ?_
  split
  · exact trapNext_keeps _ _ s
  · exact .advance_ok (.refl s) _

theorem execCmp_keeps (sz : Size) (ea : Ea) (dn : Fin 8) (s : State) : NextKeeps s (execCmp sz ea dn s) := by
  refine .finish ?_
  split
  · exact .error s _
  · next u hread => exact .advance_ok ((readEa_moves hread).trans (.setCcr u _)) _

theorem execCmpa_keeps (sz : Size) (ea : Ea) (an : Fin 8) (s : State) : NextKeeps s (execCmpa sz ea an s) := by
  refine .finish ?_
  split
  · exact .error s _
  · next u hread => exact .advance_ok ((readEa_moves hread).trans (.setCcr u _)) _

theorem execCmpm_keeps (sz : Size) (ry rx : Fin 8) (s : State) : NextKeeps s (execCmpm sz ry rx s) := by
  refine .finish ?_
  split
  · exact .error s _
  · next hread => exact .trans (readEa_moves hread) fun _ => testEa_moves

theorem execMove_keeps (sz : Size) (src dst : Ea) (s : State) : NextKeeps s (execMove sz src dst s) := by
  refine .finish ?_
  split
  · exact .error s _
  · next hread =>
    split
    · exact .error s _
    · next u hwrite =>
      exact .advance_ok (((readEa_moves hread).trans (writeEa_moves hwrite)).trans (.setCcr u _)) _

theorem execMoveToSr_keeps (ea : Ea) (s : State) : NextKeeps s (execMoveToSr ea s) := by
  refine .finish (privileged_keeps ?_)
  split
  · exact .error s _
  · next u hread => exact .advance_ok ((readEa_moves hread).trans (.setSr u _)) _

theorem execMovemToMem_keeps (sz : Size) (mask : Word) (ea : Ea) (s : State) :
    NextKeeps s (execMovemToMem sz mask ea s) := by
  refine .finish (.advanceBy ?_ _)
  split
  · split
    · exact .error s _
    · next hstore => exact .ok ((storeDown_moves hstore).trans (.setAreg _ _ _))
  · split
    · exact .error s _
    · exact fun _ => storeUp_moves

/-- Loading registers, with MOVEM's extra access, is `Moves` (41_move.md R159). -/
theorem loadUp_extraRead_moves {sz : Size} {ks : List (Fin 16)} {a b : Long} {s t : State}
    (h : (loadUp sz ks a s).bind extraRead = .ok (b, t)) : Moves s t := by
  cases hload : loadUp sz ks a s with
  | error e => rw [hload] at h; cases h
  | ok p =>
    rw [hload] at h
    have hp : (b, t) = p := extraRead_eq_ok h
    subst hp
    exact loadUp_moves hload

theorem execMovemToReg_keeps (sz : Size) (mask : Word) (ea : Ea) (s : State) :
    NextKeeps s (execMovemToReg sz mask ea s) := by
  refine .finish (.advanceBy ?_ _)
  split
  · split
    · exact .error s _
    · next hload => exact .ok ((loadUp_extraRead_moves hload).trans (.setAreg _ _ _))
  · split
    · exact .error s _
    · split
      · exact .error s _
      · next hload => exact .ok (loadUp_extraRead_moves hload)

theorem execMovep_keeps (dir : MovepDir) (sz : Size) (dx ay : Fin 8) (d : Word) (s : State) :
    NextKeeps s (execMovep dir sz dx ay d s) := by
  refine .finish (.advanceBy ?_ _)
  cases dir with
  | toMem => exact fun _ => storeLanes_moves
  | toReg =>
    dsimp only
    split
    · exact .error s _
    · exact .ok (.setDregAt s sz dx _)

theorem execLea_keeps (ea : Ea) (an : Fin 8) (s : State) : NextKeeps s (execLea ea an s) := by
  refine .finish ?_
  split
  · exact .error s _
  · exact .advance_ok (.setAreg s an _) _

theorem execPea_keeps (ea : Ea) (s : State) : NextKeeps s (execPea ea s) := by
  refine .finish ?_
  split
  · exact .error s _
  · exact .advanceBy (fun _ => push32_moves) _

theorem execJmp_keeps (ea : Ea) (s : State) : NextKeeps s (execJmp ea s) := by
  refine .finish ?_
  split
  · exact .error s _
  · exact .ok (.jump s _)

theorem execJsr_keeps (ea : Ea) (s : State) : NextKeeps s (execJsr ea s) := by
  refine .finish ?_
  split
  · exact .error s _
  · split
    · exact .error s _
    · next u hpush => exact .ok ((push32_moves hpush).trans (.jump u _))

theorem execBsr_keeps (d : BranchDisp) (s : State) : NextKeeps s (execBsr d s) := by
  refine .finish ?_
  split
  · exact .error s _
  · next u hpush => exact .ok ((push32_moves hpush).trans (.jump u _))

theorem execBcc_keeps (cond : Cond) (d : BranchDisp) (s : State) : NextKeeps s (execBcc cond d s) := by
  refine .finish ?_
  split
  · exact .ok (.jump s _)
  · exact .advance_ok (.refl s) _

theorem execDbcc_keeps (cond : Cond) (dn : Fin 8) (d : Word) (s : State) : NextKeeps s (execDbcc cond dn d s) := by
  refine .finish ?_
  split
  · exact .advance_ok (.refl s) _
  · dsimp only
    split
    · exact .advance_ok (.setDregAt s .w dn _) _
    · exact .ok ((Moves.setDregAt s .w dn _).trans (.jump _ _))

theorem execLink_keeps (an : Fin 8) (d : Word) (s : State) : NextKeeps s (execLink an d s) := by
  refine .finish ?_
  split
  · exact .error s _
  · next u hwrite =>
    exact .advance_ok
      ((((Moves.setSp s _).trans (.writeMem hwrite)).trans (.setAreg u an _)).trans (.setSp _ _)) _

theorem execUnlk_keeps (an : Fin 8) (s : State) : NextKeeps s (execUnlk an s) := by
  refine .finish ?_
  split
  · exact .error s _
  · next u hpop => exact .advance_ok (((Moves.setSp s _).trans (pop32_moves hpop)).trans (.setAreg u an _)) _

theorem execRts_keeps (s : State) : NextKeeps s (execRts s) := by
  refine .finish ?_
  split
  · exact .error s _
  · next u hpop => exact .ok ((pop32_moves hpop).trans (.jump u _))

theorem execRtr_keeps (s : State) : NextKeeps s (execRtr s) := by
  refine .finish ?_
  split
  · exact .error s _
  · next u hccr =>
    split
    · exact .error s _
    · next t hpc =>
      exact .ok (((pop16_moves hccr).trans ((Moves.setCcr u _).trans (pop32_moves hpc))).trans (.jump t _))

/-! ## Every instruction -/

/-- What any instruction but STOP can do: registers, SR, the program counter, events, free values, and memory as `Moves` says. -/
theorem exec_moves {i : Instr} {s t : State} (hi : ∀ imm, i ≠ .stop imm) (h : exec i s = .next t) : Moves s t := by
  suffices hk : NextKeeps s (exec i s) from hk t h
  cases i
  case stop imm => exact absurd rfl (hi imm)
  case ori | andi | subi | addi | eori => exact NextKeeps.finish fun _ => immToEa_moves
  case oriToCcr | andiToCcr | eoriToCcr => exact NextKeeps.finish (immToCcr_keeps _ _ s)
  case oriToSr | andiToSr | eoriToSr => exact NextKeeps.finish (immToSr_keeps _ _ s)
  case cmpi | btstImm | btstReg | tst | moveToCcr => exact NextKeeps.finish fun _ => testEa_moves
  case bchgImm | bclrImm | bsetImm | bchgReg | bclrReg | bsetReg => exact NextKeeps.finish fun _ => bitEa_moves
  case negx | clr | neg | not | tas => exact NextKeeps.finish fun _ => unaryEa_moves
  case nbcd => exact NextKeeps.finish (.trans (.skipDraws s _) fun _ => unaryEa_moves)
  case orEaDn | andEaDn | addEaDn | subEaDn => exact NextKeeps.finish fun _ => eaToDn_moves
  case orDnEa | andDnEa | addDnEa | subDnEa | eor => exact NextKeeps.finish fun _ => dnToEa_moves
  case movea | adda | suba => exact NextKeeps.finish fun _ => eaToAn_moves
  case addq | subq => exact NextKeeps.finish fun _ => quickToEa_moves
  case addx | subx => exact NextKeeps.finish fun _ => pairOp_moves
  case abcd | sbcd => exact NextKeeps.finish fun _ => bcdPair_moves
  case asr | asl | lsr | lsl | roxr | roxl | ror | rol => exact NextKeeps.finish fun _ => shiftReg_moves
  case asrMem | aslMem | lsrMem | lslMem | roxrMem | roxlMem | rorMem | rolMem =>
    exact NextKeeps.finish fun _ => shiftMem_moves
  case moveFromSr | scc => exact NextKeeps.finish (.advanceBy (fun _ => modifyEa_moves) _)
  case mulu | muls => exact NextKeeps.finish (mulEa_keeps _ _ _ s)
  case illegal | lineA | lineF => exact NextKeeps.finish (trapHere_keeps _ s)
  case trap => exact NextKeeps.finish (trapNext_keeps _ _ s)
  case bra => exact NextKeeps.finish (.ok (.jump s _))
  case nop => exact NextKeeps.finish (.advance_ok (.refl s) _)
  case moveq | swap => exact NextKeeps.finish (.advance_ok ((Moves.setDreg s _ _).trans (.setCcr _ _)) _)
  case ext => exact NextKeeps.finish (.advance_ok ((Moves.setDregAt s _ _ _).trans (.setCcr _ _)) _)
  case exgDD => exact NextKeeps.finish (.advance_ok ((Moves.setDreg s _ _).trans (.setDreg _ _ _)) _)
  case exgAA => exact NextKeeps.finish (.advance_ok ((Moves.setAreg s _ _).trans (.setAreg _ _ _)) _)
  case exgDA => exact NextKeeps.finish (.advance_ok ((Moves.setDreg s _ _).trans (.setAreg _ _ _)) _)
  case moveToUsp => exact NextKeeps.finish (privileged_keeps (.advance_ok (.set_usp s _) _))
  case moveFromUsp => exact NextKeeps.finish (privileged_keeps (.advance_ok (.setAreg s _ _) _))
  case reset => exact NextKeeps.finish (privileged_keeps (.advance_ok (.set_events s _) _))
  case rte => exact NextKeeps.finish (privileged_keeps (returnFromException_keeps s))
  case movep dir sz dx ay d => exact execMovep_keeps dir sz dx ay d s
  case move sz src dst => exact execMove_keeps sz src dst s
  case moveToSr ea => exact execMoveToSr_keeps ea s
  case chk ea dn => exact execChk_keeps ea dn s
  case lea ea an => exact execLea_keeps ea an s
  case pea ea => exact execPea_keeps ea s
  case movemToMem sz mask ea => exact execMovemToMem_keeps sz mask ea s
  case movemToReg sz mask ea => exact execMovemToReg_keeps sz mask ea s
  case link an d => exact execLink_keeps an d s
  case unlk an => exact execUnlk_keeps an s
  case rts => exact execRts_keeps s
  case rtr => exact execRtr_keeps s
  case trapv => exact execTrapv_keeps s
  case jsr ea => exact execJsr_keeps ea s
  case jmp ea => exact execJmp_keeps ea s
  case dbcc cond dn d => exact execDbcc_keeps cond dn d s
  case bsr d => exact execBsr_keeps d s
  case bcc cond d => exact execBcc_keeps cond d s
  case divu ea dn => exact execDivu_keeps ea dn s
  case divs ea dn => exact execDivs_keeps ea dn s
  case cmp sz ea dn => exact execCmp_keeps sz ea dn s
  case cmpa sz ea an => exact execCmpa_keeps sz ea an s
  case cmpm sz ry rx => exact execCmpm_keeps sz ry rx s

/-- What STOP can do (48_muldiv_chk_system.md R299): the privilege violation, or load SR, go on and, without trace, stop. -/
theorem exec_stop_cases {imm : Word} {s t : State} (h : exec (.stop imm) s = .next t) :
    Moves s t ∨ stopViolates imm s = false ∧
      t = ({ s.setSr (StatusReg.ofWord imm) with run := if s.sr.t then s.run else .stopped } : State).advance
        (lengthOf 1 0) := by
  have hok := finish_eq_next.1 h
  split at hok
  · exact .inl (trapHere_keeps vecPrivilege s t hok)
  · next hviol =>
    cases hok
    exact .inr ⟨Bool.eq_false_iff.2 hviol, rfl⟩

end Sys2Proof.Machine
end

section
/-! What the boundary and a step can do, and the invariant that every step keeps (20_memory.md R50, 48_muldiv_chk_system.md R299,
60_exceptions.md R349). -/

open Sys2Proof Sys2Proof.Machine Sys2Proof.Safety

namespace Sys2Proof.Machine

/-! ## The boundary and the step -/

/-- The two things at a boundary, one after the other (60_exceptions.md R349). -/
theorem endInstruction_eq_ok {t0 : Bool} {s t : State} :
    endInstruction t0 s = .ok t ↔
      ∃ s1 s2, traceIf t0 s = .ok s1 ∧ serviceInterrupt s1 = .ok s2 ∧ t = noteEntry s s2 := by
  unfold endInstruction
  cases htrace : traceIf t0 s with
  | error e => simp
  | ok s1 => cases hservice : serviceInterrupt s1 <;> simp [hservice, eq_comm]

theorem stoppedStep_eq_ok {s t : State} :
    stoppedStep s = .ok t ↔ ∃ s1, serviceInterrupt s = .ok s1 ∧ t = noteEntry s s1 := by
  unfold stoppedStep
  cases hservice : serviceInterrupt s <;> simp [eq_comm]

theorem afterInstr_eq_next {i : Instr} {len : Long} {s t : State} {r : Result} :
    afterInstr i len s r = .next t ↔
      ∃ u, r = .next u ∧ endInstruction (s.sr.t && executes i s) (noteStores s (s.pc + len) u) = .ok t := by
  cases r <;> simp [afterInstr, enterFaulted_eq_next, finish_eq_next]

/-- A look at the interrupt input takes it, and then may be `Moves` from the processor running (60_exceptions.md R350, R355). -/
theorem serviceInterrupt_cases {s t : State} (h : serviceInterrupt s = .ok t) :
    t = { s with inputs := s.inputs.tail, lastIpl := (presented s.inputs).1 } ∨
      Moves { s with inputs := s.inputs.tail, lastIpl := (presented s.inputs).1, run := .running } t := by
  rw [serviceInterrupt_eq] at h
  split at h
  · exact .inr (exceptionEntry_moves h)
  · cases h
    exact .inl rfl

theorem serviceInterrupt_stale {s t : State} (h : serviceInterrupt s = .ok t) : t.stale = s.stale := by
  rcases serviceInterrupt_cases h with rfl | hmoves
  · rfl
  · exact hmoves.stale

/-- External reset reads memory, empties the prefetch queue and starts the processor (70_reset_and_hazards.md R380). -/
theorem resetSequence_fields {s t : State} (h : resetSequence s = .ok t) :
    t.mem = s.mem ∧ t.cfg = s.cfg ∧ t.stale = [] ∧ t.run = .running := by
  unfold resetSequence at h
  split at h
  · cases h
  · split at h
    · cases h
    · dsimp only at h
      split at h
      · cases h
      · split at h
        · cases h
        · cases h
          exact ⟨rfl, rfl, rfl, rfl⟩

/-- What a step that answers a next state did: external reset, the wait for it, a look at the input while stopped, or an
instruction and the boundary after it. -/
theorem step_cases {s t : State} (h : step s = .next t) :
    resetSequence s.dropInput = .ok t ∨ (s.run = .faulted ∧ t = s.dropInput) ∨ stoppedStep s = .ok t ∨
      ∃ i len u, s.run = .running ∧ exec i (afterFetch s) = .next u ∧
        endInstruction (s.sr.t && executes i s) (noteStores s (s.pc + len) u) = .ok t := by
  unfold step at h
  split at h
  · exact .inl (finish_eq_next.1 (enterFaulted_eq_next.1 h))
  · split at h
    · next hrun =>
      cases h
      exact .inr (.inl ⟨hrun, rfl⟩)
    · exact .inr (.inr (.inl (finish_eq_next.1 (enterFaulted_eq_next.1 h))))
    · next hrun =>
      split at h
      · cases finish_eq_next.1 (enterFaulted_eq_next.1 h)
      · obtain ⟨u, hexec, hend⟩ := afterInstr_eq_next.1 h
        exact .inr (.inr (.inr ⟨.illegal, 2, u, hrun, hexec, hend⟩))
      · next i len _ =>
        obtain ⟨u, hexec, hend⟩ := afterInstr_eq_next.1 h
        exact .inr (.inr (.inr ⟨i, len, u, hrun, hexec, hend⟩))

/-! ## The prefetch queue -/

/-- The two words after an instruction lie in the address space (20_memory.md R50). -/
theorem prefetchWindow_lt {s : State} {next : Long} {n : Nat} (h : n ∈ prefetchWindow s next) : n < 2 ^ s.cfg.addrBits := by
  simp only [prefetchWindow, List.mem_cons, List.not_mem_nil, or_false] at h
  rcases h with rfl | rfl <;> exact physAddr_lt _ _

/-- What the queue may hold after an instruction: changed words of its window as they were, and older words whose word did not
change or that lie in the window (20_memory.md R69; log 17). -/
theorem mem_noteStores {s u : State} {next : Long} {e : HeldWord} :
    e ∈ (noteStores s next u).stale ↔
      (e.addr ∈ prefetchWindow s next ∧ e.word = memWord s.mem e.addr ∧
        memWord s.mem e.addr ≠ memWord u.mem e.addr) ∨
      (e ∈ u.stale ∧ (memWord s.mem e.addr = memWord u.mem e.addr ∨ e.addr ∈ prefetchWindow s next)) := by
  simp only [noteStores, List.mem_append, mem_newStale, mem_keepStale]

/-- Exception processing outside an instruction only drops entries, those of words that it changed. -/
theorem mem_noteEntry {before s : State} {e : HeldWord} :
    e ∈ (noteEntry before s).stale ↔ e ∈ s.stale ∧ memWord before.mem e.addr = memWord s.mem e.addr := by
  simp only [noteEntry, mem_keepStale, List.not_mem_nil, or_false]

/-- The entries after a boundary are those of its start whose word the boundary's exceptions did not change. -/
theorem endInstruction_stale {t0 : Bool} {s t : State} (h : endInstruction t0 s = .ok t) (e : HeldWord) :
    e ∈ t.stale ↔ e ∈ s.stale ∧ memWord s.mem e.addr = memWord t.mem e.addr := by
  obtain ⟨s1, s2, htrace, hservice, rfl⟩ := endInstruction_eq_ok.1 h
  rw [mem_noteEntry, serviceInterrupt_stale hservice, (traceIf_moves htrace).stale]
  rfl

/-! ## Keeping the invariant -/

/-- The invariant goes on from `s` to `t`, and the parameters are as before. -/
def KeepsInv (s t : State) : Prop := (Inv s → Inv t) ∧ t.cfg = s.cfg

theorem KeepsInv.trans {s t u : State} (h : KeepsInv s t) (k : KeepsInv t u) : KeepsInv s u :=
  ⟨fun hs => k.1 (h.1 hs), k.2.trans h.2⟩

/-- What `Moves` says keeps the invariant's parts about memory and the prefetch queue; the part about STOP is to be shown. -/
theorem Moves.keepsInv {s t : State} (m : Moves s t)
    (hstop : Inv s → t.run = .stopped → t.cfg.stopClearsS = .privilegeViolation → t.sr.s = true) : KeepsInv s t := by
  refine ⟨fun hs => ?_, m.cfg⟩
  have ⟨hwf, hbound, hstale, _⟩ := hs
  refine ⟨m.wf hwf, m.bound hbound, ?_, hstop hs⟩
  rw [m.stale, m.cfg]
  exact hstale

/-- A running processor that keeps running is under no condition of STOP's. -/
theorem Moves.keepsInv_of_running {s t : State} (m : Moves s t) (hrun : s.run = .running) : KeepsInv s t :=
  m.keepsInv fun _ hstopped => by rw [m.run, hrun] at hstopped; cases hstopped

/-- The invariant does not speak of the inputs. -/
theorem keepsInv_takeInput (s : State) (level : BitVec 3) :
    KeepsInv s { s with inputs := s.inputs.tail, lastIpl := level } := ⟨id, rfl⟩

theorem keepsInv_dropInput (s : State) : KeepsInv s s.dropInput := ⟨id, rfl⟩

theorem keepsInv_wake (s : State) : KeepsInv s { s with run := .running } := by
  refine ⟨fun hs => ?_, rfl⟩
  obtain ⟨hwf, hbound, hstale, -⟩ := hs
  exact ⟨hwf, hbound, hstale, fun hstopped => nomatch hstopped⟩

theorem afterFetch_moves (s : State) : Moves s (afterFetch s) := by
  unfold afterFetch
  split
  · exact .refl s
  · exact .skipDraws s 1

/-- The one instruction that stops the processor leaves S set where the parameter does not let it be cleared
(48_muldiv_chk_system.md R299). -/
theorem exec_keepsInv {i : Instr} {s t : State} (hrun : s.run = .running) (h : exec i s = .next t) : KeepsInv s t := by
  by_cases hstop : ∃ imm, i = .stop imm
  · obtain ⟨imm, rfl⟩ := hstop
    rcases exec_stop_cases h with hmoves | ⟨hviol, rfl⟩
    · exact hmoves.keepsInv_of_running hrun
    · refine ⟨fun hs => ?_, rfl⟩
      obtain ⟨hwf, hbound, hstale, -⟩ := hs
      refine ⟨hwf, hbound, hstale, fun _ hparam => ?_⟩
      have hparam' : s.cfg.stopClearsS = .privilegeViolation := hparam
      simp only [stopViolates, hparam', beq_self_eq_true, Bool.and_true, Bool.or_eq_false_iff,
        Bool.not_eq_false'] at hviol
      exact hviol.2
  · exact (exec_moves (fun imm hi => hstop ⟨imm, hi⟩) h).keepsInv_of_running hrun

theorem noteStores_keepsInv {s u : State} (h : KeepsInv s u) (next : Long) : KeepsInv s (noteStores s next u) := by
  refine ⟨fun hs => ?_, h.2⟩
  obtain ⟨hwf, hbound, hstale, hstop⟩ := h.1 hs
  refine ⟨hwf, hbound, fun e he => ?_, hstop⟩
  rcases mem_noteStores.1 he with ⟨hwindow, -, -⟩ | ⟨hold, -⟩
  · have hlt := prefetchWindow_lt hwindow
    rwa [← h.2] at hlt
  · exact hstale e hold

theorem noteEntry_keepsInv (before s : State) : KeepsInv s (noteEntry before s) := by
  refine ⟨fun hs => ?_, rfl⟩
  obtain ⟨hwf, hbound, hstale, hstop⟩ := hs
  exact ⟨hwf, hbound, fun e he => hstale e (mem_noteEntry.1 he).1, hstop⟩

/-- Exception processing sets S (60_exceptions.md R340). -/
theorem exceptionEntry_keepsInv {v : BitVec 8} {pc : Long} {level : Option (BitVec 3)} {s t : State}
    (h : exceptionEntry v pc level s = .ok t) : KeepsInv s t := by
  refine (exceptionEntry_moves h).keepsInv fun _ _ _ => ?_
  rw [(exceptionEntry_registers h).1]
  rfl

theorem traceIf_keepsInv {t0 : Bool} {s t : State} (h : traceIf t0 s = .ok t) : KeepsInv s t := by
  unfold traceIf at h
  split at h
  · exact exceptionEntry_keepsInv h
  · cases h
    exact ⟨id, rfl⟩

theorem serviceInterrupt_keepsInv {s t : State} (h : serviceInterrupt s = .ok t) : KeepsInv s t := by
  have htake := keepsInv_takeInput s (presented s.inputs).1
  rcases serviceInterrupt_cases h with rfl | hmoves
  · exact htake
  · exact (htake.trans (keepsInv_wake _)).trans (hmoves.keepsInv_of_running rfl)

theorem endInstruction_keepsInv {t0 : Bool} {s t : State} (h : endInstruction t0 s = .ok t) : KeepsInv s t := by
  obtain ⟨s1, s2, htrace, hservice, rfl⟩ := endInstruction_eq_ok.1 h
  exact ((traceIf_keepsInv htrace).trans (serviceInterrupt_keepsInv hservice)).trans (noteEntry_keepsInv s s2)

theorem stoppedStep_keepsInv {s t : State} (h : stoppedStep s = .ok t) : KeepsInv s t := by
  obtain ⟨s1, hservice, rfl⟩ := stoppedStep_eq_ok.1 h
  exact (serviceInterrupt_keepsInv hservice).trans (noteEntry_keepsInv s s1)

theorem resetSequence_keepsInv {s t : State} (h : resetSequence s = .ok t) : KeepsInv s t := by
  obtain ⟨hmem, hcfg, hstale, hrun⟩ := resetSequence_fields h
  refine ⟨fun hs => ?_, hcfg⟩
  obtain ⟨hwf, hbound, -, -⟩ := hs
  refine ⟨by rw [hmem]; exact hwf, by rw [hmem, hcfg]; exact hbound, ?stale, ?stop⟩
  case stale => rw [hstale]; exact List.forall_mem_nil _
  case stop => rw [hrun]; exact fun hstopped => nomatch hstopped

theorem step_keepsInv {s t : State} (h : step s = .next t) : KeepsInv s t := by
  rcases step_cases h with hreset | ⟨-, rfl⟩ | hstopped | ⟨i, len, u, hrun, hexec, hend⟩
  · exact (keepsInv_dropInput s).trans (resetSequence_keepsInv hreset)
  · exact keepsInv_dropInput s
  · exact stoppedStep_keepsInv hstopped
  · have hfetch := afterFetch_moves s
    have hinstr := (hfetch.keepsInv_of_running hrun).trans (exec_keepsInv (hfetch.run.trans hrun) hexec)
    exact (noteStores_keepsInv hinstr (s.pc + len)).trans (endInstruction_keepsInv hend)

end Sys2Proof.Machine

namespace Sys2Proof.Proofs

/-- Settles O9, from what each kind of step keeps. -/
theorem stepKeepsInvariant : Obligations.StepKeepsInvariant := by
  intro s t hs hstep
  obtain ⟨hinv, hcfg⟩ := step_keepsInv hstep
  exact ⟨hinv hs, hcfg⟩

end Sys2Proof.Proofs
end

section
/-! Accesses to memory (20_memory.md R52, R53, R55, R60, R63): when one stops and with what, and which number is read, byte by
byte. -/

open Sys2Proof Sys2Proof.Machine Sys2Proof.Safety

namespace Sys2Proof.Machine

/-! ## When an access stops -/

theorem readMem_eq_error {s : State} {sz : Size} {a : Long} {e : Stop} :
    readMem s sz a = .error e ↔ readStop s sz a = some e := by
  unfold readMem
  cases readStop s sz a <;> simp

theorem writeMem_eq_error {s : State} {sz : Size} {a v : Long} {e : Stop} :
    writeMem s sz a v = .error e ↔ writeStop s sz a = some e := by
  unfold writeMem
  cases writeStop s sz a <;> simp

/-- A word or long at an odd address is misaligned (20_memory.md R55). -/
theorem misaligned_of_odd {sz : Size} {a : Long} (hsz : sz ≠ .b) (ha : a.toNat % 2 = 1) : misaligned sz a = true := by
  rw [← Bool.not_eq_false, aligned_iff]
  rintro (hb | heven)
  · exact hsz hb
  · omega

theorem readMem_odd (s : State) {sz : Size} {a : Long} (hsz : sz ≠ .b) (ha : a.toNat % 2 = 1) :
    readMem s sz a = .error (.fault (.addressError a s)) :=
  readMem_eq_error.2 (by rw [readStop, if_pos (misaligned_of_odd hsz ha)])

theorem writeMem_odd (s : State) {sz : Size} {a : Long} (v : Long) (hsz : sz ≠ .b) (ha : a.toNat % 2 = 1) :
    writeMem s sz a v = .error (.fault (.addressError a s)) :=
  writeMem_eq_error.2 (by rw [writeStop, if_pos (misaligned_of_odd hsz ha)])

theorem readStop_aligned {s : State} {sz : Size} {a : Long} (h : Aligned sz a) :
    readStop s sz a = firstStop (readStopAt s) (accessBytes sz a) := by
  rw [readStop, (aligned_iff sz a).2 h, if_neg Bool.false_ne_true]

theorem writeStop_aligned {s : State} {sz : Size} {a : Long} (h : Aligned sz a) :
    writeStop s sz a = firstStop (writeStopAt s) (accessBytes sz a) := by
  rw [writeStop, (aligned_iff sz a).2 h, if_neg Bool.false_ne_true]

/-- The first byte that stops an access is the one behind bytes that do not. -/
theorem firstStop_append_cons {f : Long → Option Stop} {pre post : List Long} {b : Long} {e : Stop}
    (hpre : ∀ x ∈ pre, f x = none) (hb : f b = some e) : firstStop f (pre ++ b :: post) = some e := by
  induction pre with
  | nil => simp only [List.nil_append, firstStop, hb]
  | cons x pre ih =>
    obtain ⟨hx, hrest⟩ := List.forall_mem_cons.1 hpre
    simp only [List.cons_append, firstStop, hx, ih hrest]

theorem readStopAt_ram {s : State} {a : Long} (h : kindAt s.cfg a = .ram) : readStopAt s a = none := by
  simp only [readStopAt, h]

theorem writeStopAt_ram {s : State} {a : Long} (h : kindAt s.cfg a = .ram) : writeStopAt s a = none := by
  simp only [writeStopAt, h]

/-- An aligned read stops with what its first byte that is not RAM stops with, if that byte does (log 35). -/
theorem readMem_firstNotRam {s : State} {sz : Size} {a b : Long} {k : MemKind} {e : Stop} (ha : Aligned sz a)
    (h : FirstNotRam s.cfg sz a k b) (hb : readStopAt s b = some e) : readMem s sz a = .error e := by
  obtain ⟨-, -, pre, post, hbytes, hpre⟩ := h
  refine readMem_eq_error.2 ?_
  rw [readStop_aligned ha, hbytes]
  exact firstStop_append_cons (fun x hx => readStopAt_ram (hpre x hx)) hb

/-- An aligned write stops with what its first byte that is not RAM stops with, if that byte does (log 35). -/
theorem writeMem_firstNotRam {s : State} {sz : Size} {a b : Long} {k : MemKind} {e : Stop} (ha : Aligned sz a)
    (h : FirstNotRam s.cfg sz a k b) (hb : writeStopAt s b = some e) (v : Long) : writeMem s sz a v = .error e := by
  obtain ⟨-, -, pre, post, hbytes, hpre⟩ := h
  refine writeMem_eq_error.2 ?_
  rw [writeStop_aligned ha, hbytes]
  exact firstStop_append_cons (fun x hx => writeStopAt_ram (hpre x hx)) hb

/-- No byte is an address error (20_memory.md R55). -/
theorem readStopAt_ne_addressError (s u : State) (a b : Long) : readStopAt s a ≠ some (.fault (.addressError b u)) := by
  unfold readStopAt
  cases kindAt s.cfg a <;> simp

theorem writeStopAt_ne_addressError (s u : State) (a b : Long) : writeStopAt s a ≠ some (.fault (.addressError b u)) := by
  unfold writeStopAt
  cases kindAt s.cfg a <;> simp

theorem firstStop_singleton (f : Long → Option Stop) (a : Long) : firstStop f [a] = f a := by
  simp only [firstStop]
  cases f a <;> rfl

theorem readStop_byte (s : State) (a : Long) : readStop s .b a = readStopAt s a :=
  (readStop_aligned (.inl rfl)).trans (firstStop_singleton _ a)

theorem writeStop_byte (s : State) (a : Long) : writeStop s .b a = writeStopAt s a :=
  (writeStop_aligned (.inl rfl)).trans (firstStop_singleton _ a)

theorem readMem_byte_ne_addressError (s u : State) (a b : Long) :
    readMem s .b a ≠ .error (.fault (.addressError b u)) := by
  rw [Ne, readMem_eq_error, readStop_byte]
  exact readStopAt_ne_addressError s u a b

theorem writeMem_byte_ne_addressError (s u : State) (a b v : Long) :
    writeMem s .b a v ≠ .error (.fault (.addressError b u)) := by
  rw [Ne, writeMem_eq_error, writeStop_byte]
  exact writeStopAt_ne_addressError s u a b

/-- A ROM that ignores writes takes the access and keeps its byte (20_memory.md R63, last sentence). -/
theorem writeMem_quietRom {s : State} {a : Long} (h : kindAt s.cfg a = .quietRom) (v : Long) :
    writeMem s .b a v = .ok s := by
  refine writeMem_eq_ok.2 ⟨?_, ?_⟩
  · rw [writeStop_byte, writeStopAt, h]
  · rw [State.store, State.storeByte, if_pos h]

/-! ## Which number is read -/

/-- A byte appended below a number. -/
theorem toNat_append_byte {n : Nat} (x : BitVec n) (y : Byte) : (x ++ y).toNat = x.toNat * 2 ^ 8 + y.toNat := by
  rw [BitVec.toNat_append, ← Nat.shiftLeft_add_eq_or_of_lt y.isLt, Nat.shiftLeft_eq]

/-- A word of memory is its first byte before its second (20_memory.md R52). -/
theorem load_word_toNat (s : State) (a : Long) :
    (s.load .w a).toNat = (s.byteAt a).toNat * 2 ^ 8 + (s.byteAt (a + 1)).toNat := by
  have h0 := (s.byteAt a).isLt
  have h1 := (s.byteAt (a + 1)).isLt
  simp only [State.load, BitVec.toNat_setWidth, toNat_append_byte]
  omega

/-- A long of memory is its bytes from the lowest address on (20_memory.md R52). -/
theorem load_long_toNat (s : State) (a : Long) :
    (s.load .l a).toNat = (s.byteAt a).toNat * 2 ^ 24 + (s.byteAt (a + 1)).toNat * 2 ^ 16 +
      (s.byteAt (a + 2)).toNat * 2 ^ 8 + (s.byteAt (a + 3)).toNat := by
  simp only [State.load, toNat_append_byte]
  omega

theorem load_byte_toNat (s : State) (a : Long) : (s.load .b a).toNat = (s.byteAt a).toNat := by
  have h := (s.byteAt a).isLt
  simp only [State.load, BitVec.toNat_setWidth]
  omega

theorem trunc_toNat (sz : Size) (v : Long) : (trunc sz v).toNat = natOf sz v := by
  have h := v.isLt
  cases sz <;> simp only [trunc, natOf, BitVec.toNat_setWidth, Size.bits] <;> omega

/-- The bytes of a stored word, the high byte at the lower address (20_memory.md R52). -/
theorem store_word_bytes {s : State} (hs : Sound s) {a : Long} (hr : Ram s.cfg .w a) (v : Long) :
    ((s.store .w a v).byteAt a).toNat = v.toNat / 2 ^ 8 % 2 ^ 8 ∧
      ((s.store .w a v).byteAt (a + 1)).toNat = v.toNat % 2 ^ 8 := by
  have hvalue := congrArg BitVec.toNat (load_store_same hs hr v)
  rw [load_word_toNat, trunc_toNat, natOf] at hvalue
  have h0 := ((s.store .w a v).byteAt a).isLt
  have h1 := ((s.store .w a v).byteAt (a + 1)).isLt
  simp only [Size.bits] at hvalue
  omega

/-- The bytes of a stored long, from the highest to the lowest (20_memory.md R52). -/
theorem store_long_bytes {s : State} (hs : Sound s) {a : Long} (hr : Ram s.cfg .l a) (v : Long) :
    ((s.store .l a v).byteAt a).toNat = v.toNat / 2 ^ 24 ∧
      ((s.store .l a v).byteAt (a + 1)).toNat = v.toNat / 2 ^ 16 % 2 ^ 8 ∧
      ((s.store .l a v).byteAt (a + 2)).toNat = v.toNat / 2 ^ 8 % 2 ^ 8 ∧
      ((s.store .l a v).byteAt (a + 3)).toNat = v.toNat % 2 ^ 8 := by
  have hvalue := congrArg BitVec.toNat (load_store_same hs hr v)
  rw [load_long_toNat, trunc_toNat, natOf] at hvalue
  have hv := v.isLt
  have h0 := ((s.store .l a v).byteAt a).isLt
  have h1 := ((s.store .l a v).byteAt (a + 1)).isLt
  have h2 := ((s.store .l a v).byteAt (a + 2)).isLt
  have h3 := ((s.store .l a v).byteAt (a + 3)).isLt
  simp only [Size.bits] at hvalue
  omega

/-- The low half of a stored long, read as a word (20_memory.md R53). -/
theorem store_long_low_word {s : State} (hs : Sound s) {a : Long} (hr : Ram s.cfg .l a) (v : Long) :
    ((s.store .l a v).load .w (a + 2)).toNat = v.toNat % 2 ^ 16 := by
  obtain ⟨-, -, h2, h3⟩ := store_long_bytes hs hr v
  have hnext : a + 2 + 1 = a + 3 := by rw [BitVec.add_assoc]; rfl
  rw [load_word_toNat, hnext, h2, h3]
  omega

/-- A store changes memory alone. -/
theorem store_eq_set_mem (s : State) (sz : Size) (a v : Long) :
    s.store sz a v = { s with mem := (s.store sz a v).mem } := by
  have storeByte_next {t : State} (x : Long) (b : Byte) (ht : ∃ m, t = { s with mem := m }) :
      ∃ m, t.storeByte x b = { s with mem := m } := by
    obtain ⟨m, rfl⟩ := ht
    unfold State.storeByte
    split
    · exact ⟨m, rfl⟩
    · exact ⟨_, rfl⟩
  have start : ∃ m, s = { s with mem := m } := ⟨s.mem, rfl⟩
  have all : ∃ m, s.store sz a v = { s with mem := m } := by
    cases sz with
    | b => exact storeByte_next _ _ start
    | w => exact storeByte_next _ _ (storeByte_next _ _ start)
    | l => exact storeByte_next _ _ (storeByte_next _ _ (storeByte_next _ _ (storeByte_next _ _ start)))
  obtain ⟨m, hm⟩ := all
  rw [hm]

end Sys2Proof.Machine

namespace Sys2Proof.Proofs

/-- Settles O21, from the number a load reads and the bytes a store leaves. -/
theorem bigEndianAccess : Obligations.BigEndianAccess := by
  refine ⟨fun s sz a hr => ⟨s.load sz a, readMem_readable hr, ?value⟩, fun s sz a v hs hr => ?_⟩
  case value =>
    cases sz with
    | b => exact load_byte_toNat s a
    | w => exact load_word_toNat s a
    | l => exact load_long_toNat s a
  refine ⟨s.store sz a v, writeMem_ram hr v, wf_store hs.2 sz a v, fun n hn => memRead_store_ne s sz a v hn,
    store_eq_set_mem s sz a v, ?same, ?word, ?long⟩
  case same => rw [load_store_same hs hr, natOf_trunc]
  case word =>
    rintro rfl
    exact store_word_bytes hs hr v
  case long =>
    rintro rfl
    obtain ⟨h0, h1, h2, h3⟩ := store_long_bytes hs hr v
    exact ⟨h0, h1, h2, h3, store_long_low_word hs hr v⟩

/-- Settles O22: alignment comes before the map, and the first byte that is not RAM says with what the access stops (log 35). -/
theorem misalignedAndUnmappedAccessesFault : Obligations.MisalignedAndUnmappedAccessesFault := by
  refine ⟨fun s sz a v hsz hodd => ⟨readMem_odd s hsz hodd, writeMem_odd s v hsz hodd⟩,
    fun s u a b v => ⟨readMem_byte_ne_addressError s u a b, writeMem_byte_ne_addressError s u a b v⟩,
    ?unmapped, ?rom, ?device, fun s a v hquiet => writeMem_quietRom hquiet v⟩
  case unmapped =>
    intro s sz a b v ha hfirst
    have hkind := hfirst.2.1
    exact ⟨readMem_firstNotRam ha hfirst (by rw [readStopAt, hkind]),
      writeMem_firstNotRam ha hfirst (by rw [writeStopAt, hkind]) v⟩
  case rom =>
    intro s sz a b v ha hfirst
    exact writeMem_firstNotRam ha hfirst (by rw [writeStopAt, hfirst.2.1]) v
  case device =>
    intro s sz a b v ha hfirst
    have hkind := hfirst.2.1
    exact ⟨readMem_firstNotRam ha hfirst (by rw [readStopAt, hkind]),
      writeMem_firstNotRam ha hfirst (by rw [writeStopAt, hkind]) v⟩

end Sys2Proof.Proofs
end

section
/-! The decoder reads an instruction's own words and no more (30_encoding.md R94): words after them change nothing but what is
left over. -/

open Sys2Proof Sys2Proof.Machine Sys2Proof.Safety

namespace Sys2Proof

/-! ## Readers of words -/

/-- A reader of words that completes on some words reads the same from them when more words follow, and leaves those over. -/
def ReadsPrefix {α : Type} (f : List Word → Option (α × List Word)) : Prop :=
  ∀ ws x rest more, f ws = some (x, rest) → f (ws ++ more) = some (x, rest ++ more)

theorem readsPrefix_some {α : Type} (x : α) : ReadsPrefix fun ws => some (x, ws) := by
  intro ws y rest more h
  cases h
  rfl

theorem ReadsPrefix.map {α β : Type} {f : List Word → Option (α × List Word)} (hf : ReadsPrefix f) (g : α → β) :
    ReadsPrefix fun ws => (f ws).map fun p => (g p.1, p.2) := by
  intro ws y rest more h
  obtain ⟨⟨x, left⟩, hread, heq⟩ := Option.map_eq_some_iff.1 h
  cases heq
  exact Option.map_eq_some_iff.2 ⟨(x, left ++ more), hf ws x left more hread, rfl⟩

theorem ReadsPrefix.bind {α β : Type} {f : List Word → Option (α × List Word)} (hf : ReadsPrefix f)
    {g : α → List Word → Option (β × List Word)} (hg : ∀ x, ReadsPrefix (g x)) :
    ReadsPrefix fun ws => (f ws).bind fun p => g p.1 p.2 := by
  intro ws y rest more h
  obtain ⟨⟨x, left⟩, hread, hthen⟩ := Option.bind_eq_some_iff.1 h
  exact Option.bind_eq_some_iff.2 ⟨(x, left ++ more), hf ws x left more hread, hg x left y rest more hthen⟩

theorem nextWord_readsPrefix : ReadsPrefix nextWord := by
  intro ws x rest more h
  cases ws with
  | nil => cases h
  | cons w ws => cases h; rfl

theorem nextLong_readsPrefix : ReadsPrefix nextLong := by
  intro ws x rest more h
  match ws, h with
  | hi :: lo :: ws, h => cases h; rfl

theorem nextImm_readsPrefix (sz : Size) : ReadsPrefix (nextImm sz) := by
  cases sz with
  | b => exact nextWord_readsPrefix.map fun w => (w.setWidth 8).setWidth 32
  | w => exact nextWord_readsPrefix.map fun w => w.setWidth 32
  | l => exact nextLong_readsPrefix

theorem fill_readsPrefix (e : Ea) (sz : Size) : ReadsPrefix (e.fill sz) := by
  cases e with
  | dn r => exact readsPrefix_some (Ea.dn r)
  | an r => exact readsPrefix_some (Ea.an r)
  | ind r => exact readsPrefix_some (Ea.ind r)
  | postInc r => exact readsPrefix_some (Ea.postInc r)
  | preDec r => exact readsPrefix_some (Ea.preDec r)
  | disp r d => exact nextWord_readsPrefix.map (Ea.disp r)
  | index r x => exact nextWord_readsPrefix.map fun w => Ea.index r (IndexExt.ofWord w)
  | absW a => exact nextWord_readsPrefix.map Ea.absW
  | absL a => exact nextLong_readsPrefix.map Ea.absL
  | pcDisp d => exact nextWord_readsPrefix.map Ea.pcDisp
  | pcIndex x => exact nextWord_readsPrefix.map fun w => Ea.pcIndex (IndexExt.ofWord w)
  | imm v => exact (nextImm_readsPrefix sz).map Ea.imm

/-! ## Rows -/

/-- The row that an opword selects, if any, reads its own words only. -/
def RowReadsPrefix (row : Option Tail) : Prop := ∀ tail, row = some tail → ReadsPrefix tail

@[simp] theorem rowReadsPrefix_none : RowReadsPrefix none := fun _ h => nomatch h

theorem rowReadsPrefix_some {tail : Tail} (h : ReadsPrefix tail) : RowReadsPrefix (some tail) := by
  intro tail' heq
  cases heq
  exact h

@[simp] theorem rowPlain_readsPrefix (i : Instr) : RowReadsPrefix (rowPlain i) :=
  rowReadsPrefix_some (readsPrefix_some i)

@[simp] theorem rowWord_readsPrefix (mk : Word → Instr) : RowReadsPrefix (rowWord mk) :=
  rowReadsPrefix_some (nextWord_readsPrefix.map mk)

@[simp] theorem rowEa_readsPrefix (cls : Ea → Bool) (sz : Size) (m r : Nat) (mk : Ea → Instr) :
    RowReadsPrefix (rowEa cls sz m r mk) := by
  unfold rowEa
  split
  · exact rowReadsPrefix_none
  · split
    · exact rowReadsPrefix_some ((fill_readsPrefix _ sz).map mk)
    · exact rowReadsPrefix_none

@[simp] theorem rowWordEa_readsPrefix (cls : Ea → Bool) (sz : Size) (m r : Nat) (mk : Word → Ea → Instr) :
    RowReadsPrefix (rowWordEa cls sz m r mk) := by
  unfold rowWordEa
  split
  · exact rowReadsPrefix_none
  · split
    · exact rowReadsPrefix_some (nextWord_readsPrefix.bind fun w => (fill_readsPrefix _ sz).map (mk w))
    · exact rowReadsPrefix_none

@[simp] theorem rowImmEa_readsPrefix (cls : Ea → Bool) (sz : Size) (m r : Nat) (mk : Long → Ea → Instr) :
    RowReadsPrefix (rowImmEa cls sz m r mk) := by
  unfold rowImmEa
  split
  · exact rowReadsPrefix_none
  · split
    · exact rowReadsPrefix_some ((nextImm_readsPrefix sz).bind fun v => (fill_readsPrefix _ sz).map (mk v))
    · exact rowReadsPrefix_none

@[simp] theorem rowMove_readsPrefix (sz : Size) (dm dr m r : Nat) : RowReadsPrefix (rowMove sz dm dr m r) := by
  unfold rowMove
  split
  · split
    · exact rowReadsPrefix_some
        ((fill_readsPrefix _ sz).bind fun src => (fill_readsPrefix _ sz).map (Instr.move sz src))
    · exact rowReadsPrefix_none
  · exact rowReadsPrefix_none

@[simp] theorem rowSzEa_readsPrefix (cls : Ea → Bool) (s m r : Nat) (mk : Size → Ea → Instr) :
    RowReadsPrefix (rowSzEa cls s m r mk) := by
  unfold rowSzEa
  split <;> simp

@[simp] theorem rowSzImmEa_readsPrefix (s m r : Nat) (mk : Size → Long → Ea → Instr) :
    RowReadsPrefix (rowSzImmEa s m r mk) := by
  unfold rowSzImmEa
  split <;> simp

@[simp] theorem rowImmOrStatus_readsPrefix (s m r : Nat) (mk : Size → Long → Ea → Instr) (toCcr : Byte → Instr)
    (toSr : Word → Instr) : RowReadsPrefix (rowImmOrStatus s m r mk toCcr toSr) := by
  unfold rowImmOrStatus
  split
  · split <;> simp
  · simp

@[simp] theorem rowBranch_readsPrefix (data8 : Nat) (mk : BranchDisp → Instr) : RowReadsPrefix (rowBranch data8 mk) := by
  unfold rowBranch
  split <;> simp

/-! ## Lines: every branch of a line is one of the rows above, or no row -/

@[simp] theorem decodeLine0_readsPrefix (d b s m r : Nat) : RowReadsPrefix (decodeLine0 d b s m r) := by
  unfold decodeLine0
  repeat' split
  all_goals simp

@[simp] theorem decodeMove_readsPrefix (sz : Size) (d b s m r : Nat) : RowReadsPrefix (decodeMove sz d b s m r) := by
  unfold decodeMove
  repeat' split
  all_goals simp

@[simp] theorem decodeLine4Control_readsPrefix (s m r : Nat) : RowReadsPrefix (decodeLine4Control s m r) := by
  unfold decodeLine4Control
  repeat' split
  all_goals simp

@[simp] theorem decodeLine4_readsPrefix (d b s m r : Nat) : RowReadsPrefix (decodeLine4 d b s m r) := by
  unfold decodeLine4
  repeat' split
  all_goals simp

@[simp] theorem decodeLine5_readsPrefix (d b s m r : Nat) : RowReadsPrefix (decodeLine5 d b s m r) := by
  unfold decodeLine5
  repeat' split
  all_goals simp

@[simp] theorem decodeLine6_readsPrefix (d b s m r : Nat) : RowReadsPrefix (decodeLine6 d b s m r) := by
  unfold decodeLine6
  split <;> simp

@[simp] theorem decodeLine7_readsPrefix (d b s m r : Nat) : RowReadsPrefix (decodeLine7 d b s m r) := by
  unfold decodeLine7
  split <;> simp

@[simp] theorem decodeLine8_readsPrefix (d b s m r : Nat) : RowReadsPrefix (decodeLine8 d b s m r) := by
  unfold decodeLine8
  repeat' split
  all_goals simp

@[simp] theorem decodeLine9_readsPrefix (d b s m r : Nat) : RowReadsPrefix (decodeLine9 d b s m r) := by
  unfold decodeLine9
  repeat' split
  all_goals simp

@[simp] theorem decodeLine11_readsPrefix (d b s m r : Nat) : RowReadsPrefix (decodeLine11 d b s m r) := by
  unfold decodeLine11
  repeat' split
  all_goals simp

@[simp] theorem decodeLine12_readsPrefix (d b s m r : Nat) : RowReadsPrefix (decodeLine12 d b s m r) := by
  unfold decodeLine12
  repeat' split
  all_goals simp

@[simp] theorem decodeLine13_readsPrefix (d b s m r : Nat) : RowReadsPrefix (decodeLine13 d b s m r) := by
  unfold decodeLine13
  repeat' split
  all_goals simp

@[simp] theorem decodeLine14_readsPrefix (d b s m r : Nat) : RowReadsPrefix (decodeLine14 d b s m r) := by
  unfold decodeLine14 decodeShiftMem decodeShiftReg
  repeat' split
  all_goals simp

theorem decodeOpword_readsPrefix (w : Word) : RowReadsPrefix (decodeOpword w) := by
  unfold decodeOpword decodeFields
  split <;> simp

/-- What it takes to decode an instruction: its opword selects a row, and the row reads the words after the opword. -/
theorem decode_cons_eq_instr {w : Word} {ws rest : List Word} {i : Instr} :
    decode (w :: ws) = .instr i rest ↔ ∃ tail, decodeOpword w = some tail ∧ tail ws = some (i, rest) := by
  cases hrow : decodeOpword w with
  | none => simp [decode, hrow]
  | some tail => cases hread : tail ws <;> simp [decode, hrow, hread, Prod.ext_iff]

/-- Words after an instruction do not change what is decoded (30_encoding.md R94). -/
theorem decode_append {ws rest : List Word} {i : Instr} (h : decode ws = .instr i rest) (more : List Word) :
    decode (ws ++ more) = .instr i (rest ++ more) := by
  cases ws with
  | nil => cases h
  | cons w ws =>
    obtain ⟨tail, hrow, hread⟩ := decode_cons_eq_instr.1 h
    exact decode_cons_eq_instr.2 ⟨tail, hrow, decodeOpword_readsPrefix w tail hrow ws i rest more hread⟩

end Sys2Proof
end

section
/-! Fetching an instruction (20_memory.md R54, R56, R57, R69; 30_encoding.md R94), and the statements about a step's fetch and the
prefetch queue. -/

open Sys2Proof Sys2Proof.Machine Sys2Proof.Safety

namespace Sys2Proof.Machine

/-! ## Items -/

theorem itemAt_zero (sz : Size) (a : Long) : itemAt sz a 0 = a := by
  simp [itemAt]

/-- The items after the first word are those two bytes on. -/
theorem itemAt_word_succ (a : Long) (j : Nat) : itemAt .w a (j + 1) = itemAt .w (a + 2) j := by
  have hsum : (2 : Long) + BitVec.ofNat 32 (j * 2) = BitVec.ofNat 32 ((j + 1) * 2) := by
    rw [Nat.add_mul, Nat.add_comm, BitVec.ofNat_add]
    rfl
  rw [itemAt, itemAt, BitVec.add_assoc, hsum]

/-! ## Fetching words -/

theorem load_word_eq_wordAt (s : State) (a : Long) : s.load .w a = (s.wordAt a).setWidth 32 := rfl

/-- The word that a load of a word reads, in its own width. -/
theorem wordAt_of_load {s : State} {a : Long} {w : Word} (h : s.load .w a = w.setWidth 32) : s.wordAt a = w := by
  have hlow := congrArg (BitVec.setWidth 16) (load_word_eq_wordAt s a ▸ h)
  simpa using hlow

/-- A fetch stops as a read of a word does (20_memory.md R56, R57). -/
theorem fetchWord_error {s : State} {a : Long} {e : Stop} (h : readStop s .w a = some e) : fetchWord s a = .error e := by
  simp only [fetchWord, h]

/-- Where the queue holds nothing, a fetch gives the word in memory. -/
theorem fetchWord_of_stale_nil {s : State} {a : Long} (hstale : s.stale = []) (hr : Readable s.cfg .w a) :
    fetchWord s a = .ok (s.wordAt a) := by
  have hheld : s.heldAt a = [] := by rw [State.heldAt, hstale]; rfl
  simp only [fetchWord, readStop_eq_none.2 hr, hheld]

/-- A fetched word is the one in memory or one that the queue holds for its address (20_memory.md R69; log 17). -/
theorem fetchWord_cases {s : State} {a : Long} {w : Word} (h : fetchWord s a = .ok w) :
    w = s.wordAt a ∨ w ∈ s.heldAt a := by
  unfold fetchWord at h
  split at h
  · cases h
  · split at h
    · cases h
      exact .inl rfl
    · next x xs hheld =>
      have hw := Except.ok.inj h
      have hlt : Config.prefetchPick s.draws a % (xs.length + 2) < (s.wordAt a :: x :: xs).length := Nat.mod_lt _ (by omega)
      rw [List.getD_eq_getElem _ _ hlt] at hw
      have hmem : w ∈ s.wordAt a :: x :: xs := hw ▸ List.getElem_mem hlt
      rw [hheld]
      exact List.mem_cons.1 hmem

/-- Words that lie readable at an address are the first ones fetched there, where the queue holds nothing. -/
theorem fetchWords_of_words {s : State} (hstale : s.stale = []) {ws : List Word} {n : Nat} {a : Long}
    (hlen : ws.length ≤ n)
    (hwords : ∀ (j : Nat) (w : Word), ws[j]? = some w →
      Readable s.cfg .w (itemAt .w a j) ∧ s.load .w (itemAt .w a j) = w.setWidth 32) :
    ∃ more, (fetchWords s n a).1 = ws ++ more := by
  induction ws generalizing n a with
  | nil => exact ⟨_, rfl⟩
  | cons w ws ih =>
    obtain ⟨m, rfl⟩ : ∃ m, n = m + 1 := Nat.exists_eq_succ_of_ne_zero (by rw [List.length_cons] at hlen; omega)
    obtain ⟨hread, hload⟩ := hwords 0 w rfl
    rw [itemAt_zero] at hread hload
    obtain ⟨more, hmore⟩ := ih (n := m) (a := a + 2) (by rw [List.length_cons] at hlen; omega) fun j x hx => by
      rw [← itemAt_word_succ]
      exact hwords (j + 1) x hx
    refine ⟨more, ?_⟩
    simp only [fetchWords, fetchWord_of_stale_nil hstale hread, wordAt_of_load hload, hmore, List.cons_append]

/-! ## Fetching an instruction -/

/-- An instruction whose words are the first ones fetched is the one fetched (30_encoding.md R94). -/
theorem fetchInstr_of_words {s : State} {ws more : List Word} {i : Instr} (hwords : (fetchWords s maxWords s.pc).1 = ws ++ more)
    (hdecode : decode ws = .instr i []) : fetchInstr s = .instr i (BitVec.ofNat 32 (2 * ws.length)) := by
  have happend := decode_append hdecode more
  unfold fetchInstr
  simp only [hwords, happend, List.nil_append, List.length_append, Nat.add_sub_cancel]

theorem fetchTruncated_nil (userMode : Bool) (e : Stop) : fetchTruncated userMode [] e = .stop e := by
  unfold fetchTruncated
  split <;> simp

/-- Where the opword cannot be fetched, that is why the fetch stops. -/
theorem fetchInstr_of_error {s : State} {e : Stop} (h : fetchWord s s.pc = .error e) : fetchInstr s = .stop e := by
  have hwords : fetchWords s maxWords s.pc = ([], some e) := by simp only [maxWords, fetchWords, h]
  unfold fetchInstr
  simp only [hwords, decode, fetchTruncated_nil]

theorem afterFetch_of_stale_nil {s : State} (h : s.stale = []) : afterFetch s = s := by
  simp only [afterFetch, h]

/-! ## The step of a running processor -/

theorem step_of_instr {s : State} {i : Instr} {len : Long} (hrun : s.run = .running) (hreset : resetNext s.inputs = false)
    (hfetch : fetchInstr s = .instr i len) : step s = afterInstr i len s (exec i (afterFetch s)) := by
  simp only [step, hreset, hrun, hfetch, Bool.false_eq_true, if_false]

theorem step_of_fetch_stop {s : State} {e : Stop} (hrun : s.run = .running) (hreset : resetNext s.inputs = false)
    (hfetch : fetchWord s s.pc = .error e) : step s = enterFaulted s (finish (.error e)) := by
  simp only [step, hreset, hrun, fetchInstr_of_error hfetch, Bool.false_eq_true, if_false]

/-! ## Operations that stop at their first access -/

/-- An operand whose location cannot be read cannot be read. -/
theorem readEa_error {e : Ea} {sz : Size} {ext : Long} {s s1 : State} {l : Loc} {x : Stop}
    (hres : resolve e sz ext s = (l, s1)) (hread : readLoc l sz s1 = .error x) : readEa e sz ext s = .error x := by
  simp only [readEa, hres, hread]

theorem testEa_error {own : Nat} {sz : Size} {e : Ea} {f : Long → Ccr → Ccr} {s : State} {x : Stop}
    (h : readEa e sz (extAt s own) s = .error x) : testEa own sz e f s = .error x := by
  simp only [testEa, h]

theorem pop32_error {s : State} {x : Stop} (h : readMem s .l s.sp = .error x) : pop32 s = .error x := by
  simp only [pop32, h, bind, Except.bind]

/-- Exception processing stops at its first push, where that stops, with S set and T clear (60_exceptions.md R340, R354). -/
theorem exceptionEntry_error {v : BitVec 8} {pc : Long} {level : Option (BitVec 3)} {s : State} {x : Stop}
    (h : writeMem { s with sr := s.sr.forException level, ssp := s.ssp - 4 } .l (s.ssp - 4) pc = .error x) :
    exceptionEntry v pc level s = .error x := by
  simp only [exceptionEntry, h, bind, Except.bind]

/-- Four bytes below an odd address is an odd address. -/
theorem sub_four_odd {a : Long} (h : a.toNat % 2 = 1) : (a - 4).toNat % 2 = 1 := by
  bv_omega

end Sys2Proof.Machine

namespace Sys2Proof.Proofs

/-- Settles O6: what a fetch can give, and what the stores of an instruction and then its boundary leave in the queue. -/
theorem prefetchOldOrNewWord : Obligations.PrefetchOldOrNewWord := by
  refine ⟨fun s a w hfetch => ?fetch, fun i len s u t hstep e => ?queue⟩
  case fetch =>
    rcases fetchWord_cases hfetch with hmem | hheld
    · exact .inl hmem
    · exact .inr (mem_heldAt.1 hheld)
  case queue =>
    obtain ⟨u', hu, hend⟩ := afterInstr_eq_next.1 hstep
    cases hu
    have hboundary := endInstruction_stale hend e
    rw [mem_noteStores] at hboundary
    have hmem : (noteStores s (s.pc + len) u).mem = u.mem := rfl
    rw [hmem] at hboundary
    rw [hboundary]
    constructor
    · rintro ⟨⟨hwindow, hword, hchanged⟩ | ⟨hold, hkept⟩, hentry⟩
      · exact ⟨hentry.symm, .inr ⟨hwindow, hword, by rwa [hword]⟩⟩
      · exact ⟨hentry.symm, .inl ⟨hold, hkept.imp_left Eq.symm⟩⟩
    · rintro ⟨hentry, ⟨hold, hkept⟩ | ⟨hwindow, hword, hchanged⟩⟩
      · exact ⟨.inr ⟨hold, hkept.imp_left Eq.symm⟩, hentry.symm⟩
      · exact ⟨.inl ⟨hwindow, hword, by rwa [hword] at hchanged⟩, hentry.symm⟩

/-- Settles O4: the words are the first ones fetched, and words after them do not change what is decoded. -/
theorem stepRunsDecoded : Obligations.StepRunsDecoded := by
  intro i ws s hrun hreset hstale hlen hdecode hwords
  obtain ⟨more, hfetched⟩ := fetchWords_of_words hstale hlen hwords
  have hfetch := fetchInstr_of_words (s := s) hfetched hdecode
  rw [step_of_instr hrun hreset hfetch, afterFetch_of_stale_nil hstale]

/-- Settles O8, the first access of the fetch, of TST, of RTS and of the exception entry being the one that stops. -/
theorem misalignedStops : Obligations.MisalignedStops := by
  refine ⟨fun s hrun hreset => ⟨fun hodd => ?oddPc, fun heven hkind => ?unmappedPc⟩, ?tst, ?rts, ?trap⟩
  case oddPc =>
    have hstop : readStop s .w s.pc = some (.fault (.addressError s.pc s)) :=
      readMem_eq_error.1 (readMem_odd s (by decide) hodd)
    rw [step_of_fetch_stop hrun hreset (fetchWord_error hstop)]
    rfl
  case unmappedPc =>
    have hfirst : FirstNotRam s.cfg .w s.pc .unmapped s.pc :=
      ⟨by decide, hkind, [], [s.pc + 1], rfl, List.forall_mem_nil _⟩
    have hstop : readStop s .w s.pc = some (.fault (.busError s.pc s)) :=
      readMem_eq_error.1 (readMem_firstNotRam (.inr heven) hfirst (by rw [readStopAt, hkind]))
    rw [step_of_fetch_stop hrun hreset (fetchWord_error hstop)]
    rfl
  case tst =>
    intro sz ea s s1 a hsz hres hodd
    have hread : readLoc (.mem a) sz s1 = .error (.fault (.addressError a s1)) := readMem_odd s1 hsz hodd
    exact congrArg finish (testEa_error (readEa_error hres hread))
  case rts =>
    intro s hodd
    have hpop : pop32 s = .error (.fault (.addressError s.sp s)) := pop32_error (readMem_odd s (by decide) hodd)
    simp only [exec, execRts, hpop, finish]
  case trap =>
    intro n s hodd
    have hpush := writeMem_odd { s with sr := s.sr.forException none, ssp := s.ssp - 4 } (s.pc + lengthOf 0 0)
      (sz := .l) (by decide) (sub_four_odd hodd)
    exact ⟨_, congrArg finish (exceptionEntry_error hpush), rfl, rfl, rfl, rfl⟩

end Sys2Proof.Proofs
end

section
/-! The twelve addressing modes (40_addressing.md R121, R126 to R138): the sign extensions as integers, the step of modes 3 and 4,
the index, and the statement about `resolve`. -/

open Sys2Proof Sys2Proof.Machine Sys2Proof.Safety

namespace Sys2Proof.Machine

/-! ## Sign extension, step and index -/

/-- A displacement or a short address, as an integer (00_scope.md R9 `sext_32`). -/
theorem signExtend_eq_ofInt {n : Nat} (d : BitVec n) : d.signExtend 32 = BitVec.ofInt 32 d.toInt := rfl

/-- An operand's sign extension, as an integer: for operands of address registers and for index registers. -/
theorem sext_eq_ofInt_intOf (sz : Size) (v : Long) : sext sz v = BitVec.ofInt 32 (intOf sz v) := by
  rw [← sint_eq_intOf]
  exact signExtend_eq_ofInt (v.setWidth sz.bits)

/-- R138: the size in bytes, and 2 for a byte at the stack pointer. -/
theorem eaStep_eq (r : Fin 8) (sz : Size) :
    eaStep r sz = if sz = .b ∧ r = 7 then 2 else BitVec.ofNat 32 sz.bytes := rfl

/-- R132: the register whole, or its low word as a signed number. -/
theorem indexValue_eq (s : State) (x : IndexExt) :
    indexValue s x = if x.long then s.rreg x.reg else BitVec.ofInt 32 (intOf .w (s.rreg x.reg)) := by
  rw [indexValue, sext_eq_ofInt_intOf]

end Sys2Proof.Machine

namespace Sys2Proof.Proofs

/-- Settles O23, a mode at a time: a mode that computes nothing is its case of `resolve`, the others are that case with the step, the
displacement or the index in the statement's terms. -/
theorem addressingModeLocations : Obligations.AddressingModeLocations := by
  intro sz ext s r d x w a v index step
  have hstep : eaStep r sz = step := eaStep_eq r sz
  have hindex : indexValue s x = index := indexValue_eq s x
  refine ⟨rfl, rfl, rfl, ?postInc, ?preDec, ?disp, ?index, ?absW, rfl, ?pcDisp, ?pcIndex, rfl⟩
  case postInc => rw [resolve, hstep]
  case preDec => rw [resolve, hstep]
  case disp => rw [resolve, signExtend_eq_ofInt]
  case index => rw [resolve, signExtend_eq_ofInt, hindex]
  case absW => rw [resolve, signExtend_eq_ofInt]
  case pcDisp => rw [resolve, signExtend_eq_ofInt]
  case pcIndex => rw [resolve, signExtend_eq_ofInt, hindex]

end Sys2Proof.Proofs
end

section
/-! Data movement between registers and operands (41_move.md, 49_unary_misc.md R315 to R317, 44_logic.md R212 to R221): the frame of
one update, what a resolved operand keeps, and the statements about moves, CCR, SR and USP. -/

open Sys2Proof Sys2Proof.Machine Sys2Proof.Safety

namespace Sys2Proof.Machine

/-! ## Frames -/

theorem kept_refl (s : State) : Kept noReg noReg [] s s :=
  ⟨fun _ _ => rfl, fun _ _ => rfl, rfl, fun _ _ => rfl, sameControl_of_moves (.refl s) rfl rfl⟩

theorem kept_setDreg (s : State) (r : Fin 8) (v : Long) : Kept (oneReg r) noReg [] s (s.setDreg r v) :=
  ⟨fun q hq => s.dreg_setDreg_ne r q v (by simpa [oneReg] using hq), fun _ _ => rfl, rfl, fun _ _ => rfl,
    sameControl_of_moves (.setDreg s r v) rfl rfl⟩

theorem kept_setAreg (s : State) (r : Fin 8) (v : Long) : Kept noReg (oneReg r) [] s (s.setAreg r v) :=
  ⟨fun q _ => s.dreg_setAreg r q v, fun q hq => s.areg_setAreg_ne r q v (by simpa [oneReg] using hq), otherSp_setAreg s r v,
    fun n _ => by rw [State.setAreg_mem], sameControl_of_moves (.setAreg s r v) (by simp) (by simp)⟩

section
variable {dd da : Fin 8 → Bool} {bs : List Nat} {s t : State}

theorem dreg_of_kept (h : Kept dd da bs s t) {r : Fin 8} (hr : dd r = false) : t.dreg r = s.dreg r := h.1 r hr

theorem areg_of_kept (h : Kept dd da bs s t) {r : Fin 8} (hr : da r = false) : t.areg r = s.areg r := h.2.1 r hr

theorem memKept_of_kept (h : Kept dd da bs s t) : MemKept bs s t := h.2.2.2.1

/-- A frame keeps SR where the condition codes are kept too. -/
theorem sr_of_kept (h : Kept dd da bs s t) (hccr : t.sr.ccr = s.sr.ccr) : t.sr = s.sr := by
  obtain ⟨-, -, -, -, ht, hs, hipm, -⟩ := h
  rw [StatusReg.mk.injEq]
  exact ⟨ht, hs, hipm, hccr⟩

end

/-- What an instruction changes besides its operand keeps SR where it keeps the condition codes. -/
theorem sr_of_changed {i : Instr} {sz : Size} {l : Loc} {da : Fin 8 → Bool} {s s1 t : State} (h : Changed i sz l da s s1 t)
    (hccr : t.sr.ccr = s.sr.ccr) : t.sr = s.sr := by
  obtain ⟨-, -, -, hkept⟩ := h
  exact sr_of_kept hkept hccr

theorem sound_of_moves {s t : State} (m : Moves s t) (h : Sound s) : Sound t :=
  ⟨m.cfg.symm ▸ h.1, m.wf h.2⟩

/-! ## Two registers exchanged (49_unary_misc.md R315) -/

theorem dreg_exchange (s : State) (rx ry : Fin 8) :
    ((s.setDreg rx (s.dreg ry)).setDreg ry (s.dreg rx)).dreg rx = s.dreg ry := by
  rw [State.dreg_setDreg]
  split
  · next heq => rw [heq]
  · exact s.dreg_setDreg_same rx _

theorem areg_exchange (s : State) (rx ry : Fin 8) :
    ((s.setAreg rx (s.areg ry)).setAreg ry (s.areg rx)).areg rx = s.areg ry := by
  rw [State.areg_setAreg]
  split
  · next heq => rw [heq]
  · exact s.areg_setAreg_same rx _

/-! ## What a resolved operand keeps -/

section
variable {e : Ea} {sz : Size} {ext : Long} {s s1 : State} {l : Loc}

theorem moves_of_resolve (h : resolve e sz ext s = (l, s1)) : Moves s s1 := by
  have := resolve_moves e sz ext s
  rwa [h] at this

theorem kept_of_resolve (h : resolve e sz ext s = (l, s1)) : Kept noReg (eaSteps e) [] s s1 := by
  have := resolve_kept e sz ext s
  rwa [h] at this

theorem pc_of_resolve (h : resolve e sz ext s = (l, s1)) : s1.pc = s.pc := by
  obtain ⟨-, -, -, hpc, -⟩ := resolve_fields e sz ext s
  rwa [h] at hpc

theorem sr_of_resolve (h : resolve e sz ext s = (l, s1)) : s1.sr = s.sr := by
  obtain ⟨-, -, hsr, -⟩ := resolve_fields e sz ext s
  rwa [h] at hsr

theorem dreg_of_resolve (h : resolve e sz ext s = (l, s1)) (r : Fin 8) : s1.dreg r = s.dreg r :=
  dreg_of_kept (kept_of_resolve h) rfl

end

/-! ## The status register from a word or byte -/

/-- SR loaded from the low word of a long takes the long's bits. -/
theorem ofWord_setWidth (v : Long) : StatusReg.ofWord (v.setWidth 16) = statusOf v.getLsbD := by
  rw [StatusReg.ofWord_eq_statusOf]
  simp [statusOf, flagsOf]

/-- CCR loaded from the low byte of a long takes the long's bits. -/
theorem ofByte_setWidth (v : Long) : Ccr.ofByte (v.setWidth 8) = flagsOf v.getLsbD := by
  rw [Ccr.ofByte_eq_flagsOf]
  simp [flagsOf]

/-- Only bits 4 to 0 reach the flags. -/
theorem flagsOf_congr {f g : Nat → Bool} (h : ∀ k, k < 5 → f k = g k) : flagsOf f = flagsOf g := by
  simp [flagsOf, h]

/-- The low byte of SR is CCR. -/
theorem getLsbD_toByte_eq_toWord (r : StatusReg) {k : Nat} (hk : k < 8) : r.ccr.toByte.getLsbD k = r.toWord.getLsbD k := by
  rw [Ccr.getLsbD_toByte, StatusReg.getLsbD_toWord]
  interval_cases k <;> rfl

/-- A logic operation of an immediate on SR, bit by bit, in supervisor mode (44_logic.md R213, R217, R221). -/
theorem immToSr_supervisor {f : Word → Word → Word} {g : Bool → Bool → Bool} {s : State} (hs : s.sr.s = true) (m : Word)
    (hf : ∀ k, (f s.sr.toWord m).getLsbD k = g (s.sr.toWord.getLsbD k) (m.getLsbD k)) :
    immToSr f m s = .ok { s with sr := statusOf fun k => g (s.sr.toWord.getLsbD k) (m.getLsbD k), pc := s.pc + 4 } := by
  rw [immToSr, privileged_eq, if_pos hs, StatusReg.ofWord_eq_statusOf, funext hf]
  rfl

/-- A logic operation of an immediate on CCR, bit by bit (44_logic.md R212, R216, R220). -/
theorem immToCcr_advanced {f : Byte → Byte → Byte} {g : Bool → Bool → Bool} (m : Byte) (s : State)
    (hf : ∀ k, (f s.sr.ccr.toByte m).getLsbD k = g (s.sr.ccr.toByte.getLsbD k) (m.getLsbD k)) {i : Instr}
    (hi : nextPc i s = s.pc + lengthOf 1 0) :
    ∃ t, finish (immToCcr f m s) = .next t ∧ t.sr.ccr = flagsOf (fun k => g (s.sr.toWord.getLsbD k) (m.getLsbD k)) ∧
      Advanced i noReg noReg [] s s t := by
  refine ⟨_, rfl, ?_, hi.symm, fun _ => rfl, kept_finish (kept_refl s) _ _⟩
  change Ccr.ofByte _ = _
  rw [Ccr.ofByte_eq_flagsOf]
  refine flagsOf_congr fun k hk => ?_
  rw [hf, getLsbD_toByte_eq_toWord _ (by omega)]

/-! ## Numbers of a size -/

theorem natOf_insertLow (sz : Size) (old v : Long) : natOf sz (insertLow sz old v) = natOf sz v := by
  rw [← natOf_trunc, trunc_insertLow, natOf_trunc]

theorem intOf_congr {sz : Size} {v w : Long} (h : natOf sz v = natOf sz w) : intOf sz v = intOf sz w := by
  rw [intOf, intOf, h]

theorem intOf_long (v : Long) : intOf .l v = v.toInt := by
  rw [← sint_eq_intOf, sint, BitVec.setWidth_eq]

theorem toInt_sext (sz : Size) (v : Long) : (sext sz v).toInt = intOf sz v := by
  have hbits : sz.bits ≤ 32 := by cases sz <;> decide
  rw [sext, BitVec.toInt_signExtend_of_le hbits, ← sint_eq_intOf, sint]

theorem intOf_byte_bounds (v : Long) : -2 ^ 7 ≤ intOf .b v ∧ intOf .b v < 2 ^ 7 := by
  rw [← sint_eq_intOf]
  exact ⟨BitVec.le_toInt (v.setWidth 8), BitVec.toInt_lt (x := v.setWidth 8)⟩

theorem extValue_word (v : Long) : extValue .w v = trunc .w (sext .b v) := rfl

theorem extValue_long (v : Long) : extValue .l v = sext .w v := rfl

/-- A byte's sign extension, taken as a word (49_unary_misc.md R316). -/
theorem intOf_word_sext_byte (v : Long) : intOf .w (sext .b v) = intOf .b v := by
  have hext := toInt_sext .b v
  have hbounds := intOf_byte_bounds v
  rw [intOf, natOf, ← hext]
  rw [← hext] at hbounds
  rw [BitVec.toInt_eq_toNat_cond] at hbounds ⊢
  simp only [Size.bits]
  split at hbounds <;> split <;> omega

theorem logicRule_congr {sz : Size} {v w : Long} {old f : Ccr} (h : natOf sz v = natOf sz w) (hv : LogicRule sz v old f) :
    LogicRule sz w old f := by
  rwa [LogicRule, ← intOf_congr h, ← h]

/-- The halves of a long exchanged, as numbers (49_unary_misc.md R317). -/
theorem swapHalves_toNat (v : Long) : (swapHalves v).toNat = v.toNat % 2 ^ 16 * 2 ^ 16 + v.toNat / 2 ^ 16 := by
  have hv := v.isLt
  have hlow : v.toNat / 2 ^ 16 % 2 ^ 16 < 2 ^ 16 := Nat.mod_lt _ (by decide)
  rw [swapHalves, BitVec.toNat_append, BitVec.extractLsb'_toNat, BitVec.extractLsb'_toNat, Nat.shiftRight_eq_div_pow,
    Nat.shiftRight_eq_div_pow, ← Nat.shiftLeft_add_eq_or_of_lt hlow, Nat.shiftLeft_eq]
  omega

/-! ## Moves to a register and to an operand -/

/-- What a one-word instruction leaves that writes a logic result to a data register (00_scope.md R11 `LogicFlags`). -/
theorem logicResult_advanced {i : Instr} {s t : State} {sz : Size} {dn : Fin 8} {r : Long} (hi : nextPc i s = s.pc + lengthOf 0 0)
    (ht : t = ((s.setDregAt sz dn r).setCcr (logicCcr sz r s.sr.ccr)).advance (lengthOf 0 0)) :
    natOf sz (t.dreg dn) = natOf sz r ∧ UpperKept sz (s.dreg dn) (t.dreg dn) ∧
      LogicRule sz (t.dreg dn) s.sr.ccr t.sr.ccr ∧ Advanced i (oneReg dn) noReg [] s s t := by
  have hreg : t.dreg dn = insertLow sz (s.dreg dn) r := by
    rw [ht, State.dreg_advance, State.dreg_setCcr, State.dreg_setDregAt_same]
  have hnat : natOf sz (t.dreg dn) = natOf sz r := by rw [hreg, natOf_insertLow]
  refine ⟨hnat, hreg ▸ upperKept_insertLow sz _ r, ?_, ?_⟩
  · rw [ht] at hnat ⊢
    exact logicRule_congr hnat.symm (logicCcr_rule sz r s.sr.ccr)
  · rw [ht]
    exact ⟨hi.symm, fun _ => rfl, kept_finish (kept_setDreg s dn _) _ _⟩

/-- What MOVEA, ADDA and SUBA leave (42_add_sub_cmp.md R171). -/
theorem eaToAn_result {i : Instr} {sz : Size} {ea : Ea} {an : Fin 8} {s s1 : State} {l : Loc}
    (hi : nextPc i s = s.pc + lengthOf 0 (ea.words sz)) (hres : resolve ea sz (extAt s 0) s = (l, s1))
    (hread : LocReadable s.cfg sz l) (f : Long → Long → Long) :
    ∃ t, finish (eaToAn f sz ea an s) = .next t ∧
      t.areg an = f (s1.areg an) (BitVec.ofInt 32 (intOf sz (locValue sz s1 l))) ∧ t.pc = nextPc i s ∧ t.sr = s.sr ∧
      (∀ q, q ≠ an → t.areg q = s1.areg q) ∧ Kept noReg (fun q => eaSteps ea q || oneReg an q) [] s t := by
  have hrun : eaToAn f sz ea an s =
      .ok ((s1.setAreg an (f (s1.areg an) (sext sz (locValue sz s1 l)))).advance (lengthOf 0 (ea.words sz))) := by
    rw [eaToAn, readEa_ok hres hread]
    rfl
  refine ⟨_, congrArg finish hrun, ?value, ?pc, ?sr, fun q hq => s1.areg_setAreg_ne an q _ hq, ?kept⟩
  case value => rw [State.areg_advance, State.areg_setAreg_same, sext_eq_ofInt_intOf]
  case pc => rw [State.advance_pc, State.setAreg_pc, pc_of_resolve hres, hi]
  case sr => rw [State.advance_sr, State.setAreg_sr, sr_of_resolve hres]
  case kept => exact kept_trans (kept_of_resolve hres) (kept_setAreg s1 an _)

/-- The address after MOVE, whose two operands may both have words (30_encoding.md R84). -/
theorem nextPc_move (sz : Size) (src dst : Ea) (s : State) :
    nextPc (.move sz src dst) s = s.pc + lengthOf 0 (src.words sz + dst.words sz) := by
  rw [nextPc, encode, List.length_cons, List.length_append, extWords_length_eq, extWords_length_eq, lengthOf]
  congr 2
  omega

end Sys2Proof.Machine

namespace Sys2Proof.Proofs

/-- Settles O31: SR is loaded from the bits of the value, and the rest of the state is as the operand left it. -/
theorem srLoadedInSupervisorMode : Obligations.SrLoadedInSupervisorMode := by
  refine ⟨fun ea s s1 l _ hs hres hread => ?move, fun m s hs => ⟨?andi, ?eori, ?ori⟩⟩
  case move =>
    have hlen : nextPc (.moveToSr ea) s = s1.pc + lengthOf 0 (ea.words .w) := by
      rw [pc_of_resolve hres]
      exact nextPc_encEa (i := .moveToSr ea) rfl rfl s
    simp only [exec, execMoveToSr, privileged_eq, hs, if_true, readEa_ok hres hread, ofWord_setWidth, hlen]
    rfl
  case andi => exact congrArg finish (immToSr_supervisor hs m fun k => BitVec.getLsbD_and)
  case eori => exact congrArg finish (immToSr_supervisor hs m fun k => BitVec.getLsbD_xor)
  case ori => exact congrArg finish (immToSr_supervisor hs m fun k => BitVec.getLsbD_or)

/-- Settles O33: A7 is SSP in supervisor mode, so writing it leaves USP. -/
theorem uspMovesInSupervisorMode : Obligations.UspMovesInSupervisorMode := by
  intro an s hs
  refine ⟨?toUsp, (s.setAreg an s.usp).advance 2, ?fromUsp, s.areg_setAreg_same an s.usp, ?usp, s.setAreg_sr an s.usp, ?pc,
    kept_setAreg s an s.usp⟩
  case toUsp =>
    simp only [exec, execMoveToUsp, privileged_eq, hs, if_true]
    rfl
  case fromUsp =>
    simp only [exec, execMoveFromUsp, privileged_eq, hs, if_true]
    rfl
  case usp =>
    change (s.setAreg an s.usp).usp = s.usp
    have hother := s.other_setAreg an s.usp
    simpa only [hs, if_true] using hother
  case pc =>
    have hpc := s.setAreg_pc an s.usp
    exact congrArg (· + 2) hpc

/-- Settles O30: the flags come from the operand's low bits, or from those of SR and the immediate combined. -/
theorem ccrLoadedFromOperand : Obligations.CcrLoadedFromOperand := by
  refine ⟨fun ea s s1 l _ hres hread => ?move, fun m s => ⟨?andi, ?eori, ?ori⟩⟩
  case move =>
    refine ⟨(s1.setCcr (flagsOf (locValue .w s1 l).getLsbD)).advance (lengthOf 0 (ea.words .w)), ?exec, rfl, ?pc,
      fun _ => rfl, kept_finish (kept_of_resolve hres) _ _⟩
    case exec =>
      simp only [exec, execMoveToCcr, testEa, readEa_ok hres hread, ofByte_setWidth]
      rfl
    case pc =>
      rw [nextPc_encEa (i := .moveToCcr ea) rfl rfl, ← pc_of_resolve hres]
      rfl
  case andi => exact immToCcr_advanced m s (fun _ => BitVec.getLsbD_and) rfl
  case eori => exact immToCcr_advanced m s (fun _ => BitVec.getLsbD_xor) rfl
  case ori => exact immToCcr_advanced m s (fun _ => BitVec.getLsbD_or) rfl

/-- Settles O32: SR, or the condition as a byte, replaces the operand, and the flags written are those that stood. -/
theorem srAndSccStored : Obligations.SrAndSccStored := by
  intro ea co s s1 s2 l m _ hsound hword hbyte
  refine ⟨fun hwrite => ?sr, fun hwrite => ?scc⟩
  case sr =>
    obtain ⟨t, ht, hvalue, hccr, hchanged⟩ := modifyEa_changed hsound hword hwrite
      (fun _ => (s.sr.toWord.setWidth 32, s.sr.ccr)) (.moveFromSr ea) _ (nextPc_encEa rfl rfl s)
    refine ⟨t, congrArg finish ht, ?_, sr_of_changed hchanged hccr, hchanged⟩
    have hlt := s.sr.toWord.isLt
    rw [hvalue, natOf_trunc, natOf, BitVec.toNat_setWidth]
    simp only [Size.bits]
    omega
  case scc =>
    obtain ⟨t, ht, hvalue, hccr, hchanged⟩ := modifyEa_changed hsound hbyte hwrite
      (fun _ => (if condHolds s.sr.ccr co then 0xFF else 0, s.sr.ccr)) (.scc co ea) _ (nextPc_encEa rfl rfl s)
    refine ⟨t, congrArg finish ht, ?_, sr_of_changed hchanged hccr, hchanged⟩
    rw [hvalue, natOf_trunc]
    cases condHolds s.sr.ccr co <;> rfl

/-- Settles O28: one shape, with three functions of the register and the extended source. -/
theorem addressRegisterArithmetic : Obligations.AddressRegisterArithmetic := by
  intro sz ea an s s1 l _ hres hread v rest
  have hlen {i : Instr} {ln d b sc : Nat} (hi : encode i = encEa ln d b sc [] sz ea) :
      nextPc i s = s.pc + lengthOf 0 (ea.words sz) := nextPc_encEa hi rfl s
  exact ⟨eaToAn_result (hlen rfl) hres hread fun _ x => x, eaToAn_result (hlen rfl) hres hread fun d x => d + x,
    eaToAn_result (hlen rfl) hres hread fun d x => d - x⟩

/-- Settles O29: three logic results in a data register, and three exchanges of two registers. -/
theorem registerMoveResults : Obligations.RegisterMoveResults := by
  refine ⟨fun dn imm s => ⟨?moveq, ?extWord, ?extLong, ?swap⟩, fun rx ry s => ⟨?dd, ?aa, ?da⟩⟩
  case moveq =>
    obtain ⟨-, -, hflags, hadv⟩ :=
      logicResult_advanced (i := .moveq dn imm) (sz := .l) (dn := dn) (r := imm.signExtend 32) rfl rfl
    refine ⟨_, rfl, ?_, hflags, hadv⟩
    exact (congrArg BitVec.toInt (s.dreg_setDreg_same dn _)).trans (BitVec.toInt_signExtend_of_le (by decide))
  case extWord =>
    obtain ⟨hvalue, hupper, hflags, hadv⟩ :=
      logicResult_advanced (i := .ext .w dn) (sz := .w) (dn := dn) (r := extValue .w (s.dreg dn)) rfl rfl
    refine ⟨_, rfl, ?_, hupper, hflags, hadv⟩
    rw [intOf_congr hvalue, extValue_word, intOf_trunc, intOf_word_sext_byte]
  case extLong =>
    obtain ⟨hvalue, -, hflags, hadv⟩ :=
      logicResult_advanced (i := .ext .l dn) (sz := .l) (dn := dn) (r := extValue .l (s.dreg dn)) rfl rfl
    refine ⟨_, rfl, ?_, hflags, hadv⟩
    rw [intOf_congr hvalue, extValue_long, intOf_long, toInt_sext]
  case swap =>
    obtain ⟨-, -, hflags, hadv⟩ :=
      logicResult_advanced (i := .swap dn) (sz := .l) (dn := dn) (r := swapHalves (s.dreg dn)) rfl rfl
    refine ⟨_, rfl, ?_, hflags, hadv⟩
    exact (congrArg BitVec.toNat (s.dreg_setDreg_same dn _)).trans (swapHalves_toNat _)
  case dd =>
    exact ⟨_, rfl, dreg_exchange s rx ry, State.dreg_setDreg_same _ ry _, rfl, rfl, fun _ => rfl,
      kept_trans (kept_setDreg s rx _) (kept_setDreg _ ry _)⟩
  case aa =>
    refine ⟨_, rfl, areg_exchange s rx ry, State.areg_setAreg_same _ ry _, ?sr, ?pc,
      kept_trans (kept_setAreg s rx _) (kept_setAreg _ ry _)⟩
    case sr => rw [State.advance_sr, State.setAreg_sr, State.setAreg_sr]
    case pc => rw [State.advance_pc, State.setAreg_pc, State.setAreg_pc]; rfl
  case da =>
    refine ⟨_, rfl, (State.dreg_setAreg _ ry rx _).trans (s.dreg_setDreg_same rx _), State.areg_setAreg_same _ ry _, ?sr, ?pc,
      ?kept⟩
    case sr => rw [State.advance_sr, State.setAreg_sr, State.setDreg_sr]
    case pc => rw [State.advance_pc, State.setAreg_pc]; rfl
    case kept =>
      refine kept_mono (kept_trans (kept_setDreg s rx (s.areg ry)) (kept_setAreg _ ry _)) ?_ ?_ ?_ <;> simp [noReg]

/-- Settles O27: the destination is resolved and written in the state that reading the source left. -/
theorem moveCopiesAndSetsFlags : Obligations.MoveCopiesAndSetsFlags := by
  intro sz src dst s s1 s2 ls ld _ hsound hsrc hread hdst hwrite
  have hmoves := (moves_of_resolve hsrc).trans (moves_of_resolve hdst)
  have hsound2 : Sound s2 := sound_of_moves hmoves hsound
  have hwrite2 : Writable s2.cfg sz ld := hmoves.cfg.symm ▸ hwrite
  obtain ⟨u, hu, hvalue, hupper, ha, husp, hssp, -, hkept⟩ := writeLoc_writable hsound2 hwrite2 (locValue sz s1 ls)
  obtain ⟨husr, hupc, -⟩ := writeLoc_fields hu
  let t := (u.setCcr (logicCcr sz (locValue sz s1 ls) s.sr.ccr)).advance (lengthOf 0 (src.words sz + dst.words sz))
  refine ⟨t, ?exec, ?value, logicCcr_rule sz _ _, ?upper, ?pc, ?areg, ?kept⟩
  case exec =>
    have hput : writeEa dst sz (extAt s (src.words sz)) (locValue sz s1 ls) s1 = .ok u := by rw [writeEa, hdst]; exact hu
    simp only [exec, execMove, readEa_ok hsrc hread, hput]
    rfl
  case value =>
    have hloc : locValue sz t ld = locValue sz u ld := by cases ld <;> rfl
    rw [hloc, hvalue, natOf_trunc]
  case upper =>
    cases ld with
    | dreg r =>
      have hold : s2.dreg r = s.dreg r := (dreg_of_resolve hdst r).trans (dreg_of_resolve hsrc r)
      change UpperKept sz (s.dreg r) (u.dreg r)
      rw [← hold]
      exact hupper
    | areg r => trivial
    | mem a => trivial
    | imm v => trivial
  case pc =>
    rw [nextPc_move, ← pc_of_resolve hsrc, ← pc_of_resolve hdst, ← hupc]
    rfl
  case areg => exact fun q => areg_congr (t := t) ha husp hssp (show u.sr.s = s2.sr.s by rw [husr]) q
  case kept =>
    have hall := kept_trans (kept_trans (kept_of_resolve hsrc) (kept_of_resolve hdst)) hkept
    rw [hmoves.cfg] at hall
    refine kept_mono (kept_finish hall _ _) ?_ ?_ ?_ <;> simp [noReg, bothSteps]

end Sys2Proof.Proofs
end

section
/-! Registers and bytes moved in sequence (41_move.md R158, R159, R161): what stores at places apart leave, what loads in a row
give, and the statements about MOVEM and MOVEP. -/

open Sys2Proof Sys2Proof.Machine Sys2Proof.Safety

namespace Sys2Proof.Machine

/-! ## Places -/

theorem accessBytes_eq_map (sz : Size) (a : Long) :
    accessBytes sz a = (List.range sz.bytes).map fun i => a + BitVec.ofNat 32 i := by
  cases sz <;> simp [accessBytes, List.range_succ]

theorem mem_bytesAt {c : Config} {sz : Size} {a : Long} {n : Nat} :
    n ∈ bytesAt c sz a ↔ ∃ i < sz.bytes, physAddr c (a + BitVec.ofNat 32 i) = n := by
  simp only [bytesAt, accessBytes_eq_map, List.mem_map, List.mem_range, exists_exists_and_eq_and]

/-- Accesses within 1024 bytes that do not overlap as numbers share no byte of memory. -/
theorem bytesAt_disjoint {c : Config} (h : addrBitsOk c) (sz : Size) (a : Long) {i j : Nat}
    (hapart : i + sz.bytes ≤ j ∨ j + sz.bytes ≤ i) (hi : i + sz.bytes ≤ 1024) (hj : j + sz.bytes ≤ 1024) :
    List.Disjoint (bytesAt c sz (a + BitVec.ofNat 32 i)) (bytesAt c sz (a + BitVec.ofNat 32 j)) := by
  intro n hin hjn
  obtain ⟨p, hp, rfl⟩ := mem_bytesAt.1 hin
  obtain ⟨q, hq, heq⟩ := mem_bytesAt.1 hjn
  rw [BitVec.add_assoc, BitVec.add_assoc, ← BitVec.ofNat_add, ← BitVec.ofNat_add] at heq
  exact physAddr_add_ne h a (by omega) (by omega) (by omega) heq

/-- Sixteen items share no byte with each other. -/
theorem itemAt_disjoint {c : Config} (h : addrBitsOk c) (sz : Size) (a : Long) {i j : Nat} (hij : i ≠ j) (hi : i < 16)
    (hj : j < 16) : List.Disjoint (bytesAt c sz (itemAt sz a i)) (bytesAt c sz (itemAt sz a j)) := by
  have hfit (k : Nat) (hk : k < 16) : k * sz.bytes + sz.bytes ≤ 1024 := by
    cases sz <;> simp only [Size.bytes] <;> omega
  have hapart : i * sz.bytes + sz.bytes ≤ j * sz.bytes ∨ j * sz.bytes + sz.bytes ≤ i * sz.bytes := by
    cases sz <;> simp only [Size.bytes] <;> omega
  exact bytesAt_disjoint h sz a hapart (hfit i hi) (hfit j hj)

/-- The items after the first are those one item on. -/
theorem itemAt_succ (sz : Size) (a : Long) (j : Nat) : itemAt sz a (j + 1) = itemAt sz (a + sizeStep sz) j := by
  rw [itemAt, itemAt, sizeStep, BitVec.add_assoc, ← BitVec.ofNat_add, Nat.add_mul, Nat.one_mul, Nat.add_comm]

theorem itemAt_succ_sub (sz : Size) (a : Long) (j : Nat) : itemAt sz a (j + 1) - sizeStep sz = itemAt sz a j := by
  rw [itemAt, itemAt, sizeStep, Nat.add_mul, Nat.one_mul, BitVec.ofNat_add, ← BitVec.add_assoc, BitVec.add_sub_cancel]

theorem bytesAt_subset_itemBytes (c : Config) (sz : Size) (a : Long) {j n : Nat} (hj : j < n) :
    bytesAt c sz (itemAt sz a j) ⊆ itemBytes c sz a n := fun _ hx =>
  List.mem_flatMap.2 ⟨j, List.mem_range.2 hj, hx⟩

/-- The bytes of MOVEP lie a word apart (41_move.md R161). -/
theorem lane_eq_itemAt (a : Long) (j : Nat) : a + BitVec.ofNat 32 (2 * j) = itemAt .w a j := by
  rw [itemAt, Nat.mul_comm]

/-! ## Stores in sequence -/

/-- Values stored in turn, each at its address. -/
def storeAll (sz : Size) (items : List (Long × Long)) (s : State) : State :=
  items.foldl (fun u p => u.store sz p.1 p.2) s

/-- The items of a list, the one at index `j` at `place j`. -/
def placed {α : Type} (place : Nat → Long) (value : α → Long) (xs : List α) : List (Long × Long) :=
  xs.mapIdx fun j x => (place j, value x)

theorem storeAll_cons (sz : Size) (p : Long × Long) (items : List (Long × Long)) (s : State) :
    storeAll sz (p :: items) s = storeAll sz items (s.store sz p.1 p.2) := rfl

theorem placed_cons {α : Type} (place : Nat → Long) (value : α → Long) (x : α) (xs : List α) :
    placed place value (x :: xs) = (place 0, value x) :: placed (fun j => place (j + 1)) value xs := List.mapIdx_cons

theorem mem_placed {α : Type} {place : Nat → Long} {value : α → Long} {xs : List α} {p : Long × Long} :
    p ∈ placed place value xs ↔ ∃ j x, xs[j]? = some x ∧ p = (place j, value x) := by
  simp only [placed, List.mem_mapIdx, List.getElem?_eq_some_iff]
  constructor
  · rintro ⟨j, hj, rfl⟩
    exact ⟨j, xs[j], ⟨hj, rfl⟩, rfl⟩
  · rintro ⟨j, x, ⟨hj, rfl⟩, rfl⟩
    exact ⟨j, hj, rfl⟩

/-- Stores change memory alone. -/
theorem storeAll_eq_set_mem (sz : Size) (items : List (Long × Long)) (s : State) :
    ∃ m, storeAll sz items s = { s with mem := m } := by
  induction items generalizing s with
  | nil => exact ⟨s.mem, rfl⟩
  | cons p items ih =>
    obtain ⟨m, hm⟩ := ih (s.store sz p.1 p.2)
    exact ⟨m, by rw [storeAll_cons, hm, store_eq_set_mem s]⟩

theorem storeAll_fields (sz : Size) (items : List (Long × Long)) (s : State) :
    (storeAll sz items s).sr = s.sr ∧ (storeAll sz items s).pc = s.pc := by
  obtain ⟨m, hm⟩ := storeAll_eq_set_mem sz items s
  rw [hm]
  exact ⟨rfl, rfl⟩

theorem storeAll_moves (sz : Size) (items : List (Long × Long)) (s : State) : Moves s (storeAll sz items s) := by
  induction items generalizing s with
  | nil => exact .refl s
  | cons p items ih => exact (Moves.store s sz p.1 p.2).trans (ih _)

/-- Stores leave registers, control and the bytes outside them alone. -/
theorem kept_storeAll {sz : Size} {items : List (Long × Long)} {s : State} {bytes : List Nat}
    (h : ∀ p ∈ items, bytesAt s.cfg sz p.1 ⊆ bytes) : Kept noReg noReg bytes s (storeAll sz items s) := by
  have field {β : Type} (f : State → β) (hf : ∀ m, f { s with mem := m } = f s) : f (storeAll sz items s) = f s := by
    obtain ⟨m, hset⟩ := storeAll_eq_set_mem sz items s
    rw [hset, hf]
  refine ⟨fun r _ => field (State.dreg · r) fun _ => rfl, fun r _ => field (State.areg · r) fun _ => rfl,
    field otherSp fun _ => rfl, ?mem,
    sameControl_of_moves (storeAll_moves sz items s) (field State.sr fun _ => rfl) (field State.events fun _ => rfl)⟩
  clear field
  induction items generalizing s with
  | nil => exact fun _ _ => rfl
  | cons p items ih =>
    obtain ⟨hp, hitems⟩ := List.forall_mem_cons.1 h
    intro n hn
    rw [storeAll_cons, ih (s := s.store sz p.1 p.2) (by simpa using hitems) n hn]
    exact memRead_store_ne s sz p.1 p.2 fun hin => hn (hp hin)

/-- Stores at places apart leave each value at its place. -/
theorem load_storeAll {sz : Size} {items : List (Long × Long)} {s : State} (hs : Sound s)
    (hram : ∀ p ∈ items, Ram s.cfg sz p.1)
    (hapart : items.Pairwise fun p q => List.Disjoint (bytesAt s.cfg sz p.1) (bytesAt s.cfg sz q.1)) {p : Long × Long}
    (hp : p ∈ items) : (storeAll sz items s).load sz p.1 = trunc sz p.2 := by
  induction items generalizing s with
  | nil => cases hp
  | cons q items ih =>
    obtain ⟨hq, hitems⟩ := List.forall_mem_cons.1 hram
    obtain ⟨hfirst, hrest⟩ := List.pairwise_cons.1 hapart
    have hcfg : (s.store sz q.1 q.2).cfg = s.cfg := s.store_cfg sz q.1 q.2
    rcases List.mem_cons.1 hp with rfl | hin
    · rw [storeAll_cons, ← load_store_same hs hq p.2]
      refine load_congr (storeAll_moves sz items _).cfg fun n hn => ?_
      refine memKept_of_kept (kept_storeAll (bytes := items.flatMap fun r => bytesAt s.cfg sz r.1) ?_) n ?_
      · rw [hcfg]
        exact fun r hr _ hx => List.mem_flatMap.2 ⟨r, hr, hx⟩
      · rw [hcfg] at hn
        rintro hin
        obtain ⟨r, hr, hx⟩ := List.mem_flatMap.1 hin
        exact hfirst r hr hn hx
    · exact ih (sound_of_moves (.store s sz q.1 q.2) hs) (by rwa [hcfg]) (by rwa [hcfg]) hin

/-- A list stored at places apart: each value at its place, and the rest as before. -/
theorem storeAll_placed {α : Type} {sz : Size} {place : Nat → Long} (value : α → Long) {xs : List α} {s : State}
    {bytes : List Nat} (hs : Sound s) (hram : ∀ j < xs.length, Ram s.cfg sz (place j))
    (hapart : ∀ i j, i < j → j < xs.length → List.Disjoint (bytesAt s.cfg sz (place i)) (bytesAt s.cfg sz (place j)))
    (hbytes : ∀ j < xs.length, bytesAt s.cfg sz (place j) ⊆ bytes) :
    let u := storeAll sz (placed place value xs) s
    (∀ j x, xs[j]? = some x → u.load sz (place j) = trunc sz (value x)) ∧ u.sr = s.sr ∧ u.pc = s.pc ∧
      Kept noReg noReg bytes s u := by
  have hplaces {q : Nat → Prop} (h : ∀ j < xs.length, q j) :
      ∀ p ∈ placed place value xs, ∃ j, q j ∧ p.1 = place j := by
    intro p hp
    obtain ⟨j, x, hx, rfl⟩ := mem_placed.1 hp
    exact ⟨j, h j (List.getElem?_eq_some_iff.1 hx).1, rfl⟩
  obtain ⟨hsr, hpc⟩ := storeAll_fields sz (placed place value xs) s
  refine ⟨fun j x hx => load_storeAll (p := (place j, value x)) hs ?ram ?apart (mem_placed.2 ⟨j, x, hx, rfl⟩), hsr, hpc,
    kept_storeAll ?bytes⟩
  case ram =>
    intro p hp
    obtain ⟨i, hi, hpi⟩ := hplaces hram p hp
    rwa [hpi]
  case bytes =>
    intro p hp
    obtain ⟨i, hi, hpi⟩ := hplaces hbytes p hp
    rwa [hpi]
  case apart =>
    rw [List.pairwise_iff_getElem]
    intro i j hi hj hij
    simp only [placed, List.length_mapIdx, List.getElem_mapIdx] at hi hj ⊢
    exact hapart i j hij hj

/-! ## The stores of MOVEM and MOVEP -/

theorem State.rreg_store (s : State) (sz : Size) (a v : Long) (k : Fin 16) : (s.store sz a v).rreg k = s.rreg k := by
  rw [store_eq_set_mem]
  rfl

theorem storeUp_eq_storeAll {sz : Size} {ks : List (Fin 16)} {a : Long} {s : State}
    (h : ∀ j < ks.length, Ram s.cfg sz (itemAt sz a j)) :
    storeUp sz ks a s = .ok (storeAll sz (placed (itemAt sz a) s.rreg ks) s) := by
  induction ks generalizing a s with
  | nil => rfl
  | cons k ks ih =>
    have hfirst : Ram s.cfg sz a := itemAt_zero sz a ▸ h 0 (by simp)
    have hrest : ∀ j < ks.length, Ram (s.store sz a (s.rreg k)).cfg sz (itemAt sz (a + sizeStep sz) j) := by
      intro j hj
      rw [State.store_cfg, ← itemAt_succ]
      exact h (j + 1) (Nat.succ_lt_succ hj)
    simp only [storeUp, writeMem_ram hfirst, ih hrest, placed_cons, storeAll_cons, itemAt_zero, funext (itemAt_succ sz a),
      funext (s.rreg_store sz a (s.rreg k))]

/-- Stored downwards, the first register lies at the highest place. -/
theorem storeDown_eq_storeAll {sz : Size} {ks : List (Fin 16)} {a : Long} {s : State}
    (h : ∀ j < ks.length, Ram s.cfg sz (itemAt sz a j)) :
    storeDown sz ks (itemAt sz a ks.length) s =
      .ok (a, storeAll sz (placed (fun j => itemAt sz a (ks.length - 1 - j)) (fun k => s.rreg (15 - k)) ks) s) := by
  induction ks generalizing s with
  | nil => rw [List.length_nil, itemAt_zero]; rfl
  | cons k ks ih =>
    have hfirst : Ram s.cfg sz (itemAt sz a ks.length) := h ks.length (by simp)
    have hrest : ∀ j < ks.length, Ram (s.store sz (itemAt sz a ks.length) (s.rreg (15 - k))).cfg sz (itemAt sz a j) := by
      intro j hj
      rw [State.store_cfg]
      exact h j (Nat.lt_succ_of_lt hj)
    have hplace : (fun j => itemAt sz a (ks.length + 1 - 1 - (j + 1))) = fun j => itemAt sz a (ks.length - 1 - j) := by
      funext j
      congr 1
      omega
    simp only [storeDown, List.length_cons, itemAt_succ_sub, writeMem_ram hfirst, ih hrest, placed_cons, storeAll_cons, hplace,
      State.rreg_store]
    rfl

theorem storeLanes_eq_storeAll {bs : List Byte} {a : Long} {s : State} (h : ∀ j < bs.length, Ram s.cfg .b (itemAt .w a j)) :
    storeLanes bs a s = .ok (storeAll .b (placed (itemAt .w a) (BitVec.setWidth 32) bs) s) := by
  induction bs generalizing a s with
  | nil => rfl
  | cons b bs ih =>
    have hfirst : Ram s.cfg .b a := itemAt_zero .w a ▸ h 0 (by simp)
    have hrest : ∀ j < bs.length, Ram (s.store .b a (b.setWidth 32)).cfg .b (itemAt .w (a + 2) j) := by
      intro j hj
      rw [State.store_cfg, ← itemAt_word_succ]
      exact h (j + 1) (Nat.succ_lt_succ hj)
    simp only [storeLanes, writeMem_ram hfirst, ih hrest, placed_cons, storeAll_cons, itemAt_zero, funext (itemAt_word_succ a)]

/-- Registers stored upwards from an address (41_move.md R158). -/
theorem storeUp_ram {sz : Size} {ks : List (Fin 16)} {a : Long} {s : State} (hs : Sound s) (hlen : ks.length ≤ 16)
    (h : ∀ j < ks.length, Ram s.cfg sz (itemAt sz a j)) :
    ∃ u, storeUp sz ks a s = .ok u ∧
      (∀ j k, ks[j]? = some k → natOf sz (u.load sz (itemAt sz a j)) = natOf sz (s.rreg k)) ∧
      u.sr = s.sr ∧ u.pc = s.pc ∧ Kept noReg noReg (itemBytes s.cfg sz a ks.length) s u := by
  obtain ⟨hload, hrest⟩ := storeAll_placed s.rreg (xs := ks) (place := itemAt sz a) hs h
    (fun i j hij hj => itemAt_disjoint hs.1 sz a (by omega) (by omega) (by omega))
    fun j hj => bytesAt_subset_itemBytes s.cfg sz a hj
  exact ⟨_, storeUp_eq_storeAll h, fun j k hk => by rw [hload j k hk, natOf_trunc], hrest⟩

/-- Registers stored downwards, to end at an address (41_move.md R158, `-(An)`). -/
theorem storeDown_ram {sz : Size} {ks : List (Fin 16)} {a : Long} {s : State} (hs : Sound s) (hlen : ks.length ≤ 16)
    (h : ∀ j < ks.length, Ram s.cfg sz (itemAt sz a j)) :
    ∃ u, storeDown sz ks (itemAt sz a ks.length) s = .ok (a, u) ∧
      (∀ j k, ks[j]? = some k → natOf sz (u.load sz (itemAt sz a (ks.length - 1 - j))) = natOf sz (s.rreg (15 - k))) ∧
      u.sr = s.sr ∧ u.pc = s.pc ∧ Kept noReg noReg (itemBytes s.cfg sz a ks.length) s u := by
  obtain ⟨hload, hrest⟩ := storeAll_placed (fun k => s.rreg (15 - k)) (xs := ks)
    (place := fun j => itemAt sz a (ks.length - 1 - j)) hs (fun j hj => h _ (by omega))
    (fun i j hij hj => itemAt_disjoint hs.1 sz a (by omega) (by omega) (by omega))
    fun j hj => bytesAt_subset_itemBytes s.cfg sz a (show ks.length - 1 - j < ks.length by omega)
  exact ⟨_, storeDown_eq_storeAll h, fun j k hk => by rw [hload j k hk, natOf_trunc], hrest⟩

/-- Bytes stored at every second address (41_move.md R161). -/
theorem storeLanes_ram {bs : List Byte} {a : Long} {s : State} (hs : Sound s) (hlen : bs.length ≤ 4)
    (h : ∀ j < bs.length, Ram s.cfg .b (itemAt .w a j)) :
    ∃ u, storeLanes bs a s = .ok u ∧ (∀ j b, bs[j]? = some b → u.byteAt (itemAt .w a j) = b) ∧ u.sr = s.sr ∧
      u.pc = s.pc ∧ Kept noReg noReg (laneBytes s.cfg a bs.length) s u := by
  have hapart (i j : Nat) (hij : i < j) (hj : j < bs.length) :
      List.Disjoint (bytesAt s.cfg .b (itemAt .w a i)) (bytesAt s.cfg .b (itemAt .w a j)) :=
    bytesAt_disjoint hs.1 .b a (.inl (by simp only [Size.bytes]; omega)) (by simp only [Size.bytes]; omega)
      (by simp only [Size.bytes]; omega)
  have hbytes (j : Nat) (hj : j < bs.length) : bytesAt s.cfg .b (itemAt .w a j) ⊆ laneBytes s.cfg a bs.length := by
    intro n hn
    obtain rfl := List.mem_singleton.1 hn
    exact List.mem_map.2 ⟨j, List.mem_range.2 hj, by rw [lane_eq_itemAt]⟩
  obtain ⟨hload, hrest⟩ := storeAll_placed (BitVec.setWidth 32) hs h hapart hbytes
  refine ⟨_, storeLanes_eq_storeAll h, fun j b hb => BitVec.eq_of_toNat_eq ?_, hrest⟩
  have hvalue := congrArg BitVec.toNat (hload j b hb)
  have hlt := b.isLt
  rw [load_byte_toNat, trunc_toNat, natOf, BitVec.toNat_setWidth] at hvalue
  simp only [Size.bits] at hvalue
  omega

/-! ## The register list of MOVEM -/

theorem mem_maskBits {mask : Word} {k : Fin 16} : k ∈ maskBits mask ↔ mask.getLsbD k.val = true := by
  have hall : ∀ k : Fin 16, k ∈ registerNumbers := by decide
  simp [maskBits, hall k]

theorem maskBits_nodup (mask : Word) : (maskBits mask).Nodup :=
  List.Nodup.filter _ (by decide : registerNumbers.Nodup)

theorem maskBits_length_le (mask : Word) : (maskBits mask).length ≤ 16 :=
  List.length_filter_le _ registerNumbers

/-! ## The combined registers -/

theorem State.rreg_setRreg (s : State) (k q : Fin 16) (v : Long) :
    (s.setRreg k v).rreg q = if q = k then v else s.rreg q := by
  have heq : Fin.ofNat 8 q.val = Fin.ofNat 8 k.val ↔ q.val % 8 = k.val % 8 := by simp [Fin.ext_iff]
  have heq' : Fin.ofNat 8 (q.val - 8) = Fin.ofNat 8 (k.val - 8) ↔ (q.val - 8) % 8 = (k.val - 8) % 8 := by simp [Fin.ext_iff]
  by_cases hk : k.val < 8 <;> by_cases hq : q.val < 8
  · simp only [State.setRreg, State.rreg, hk, hq, if_true, State.dreg_setDreg, heq, Fin.ext_iff]
    exact if_congr (by omega) rfl rfl
  · simp only [State.setRreg, State.rreg, hk, hq, if_true, if_false, State.areg_setDreg]
    exact (if_neg fun h : q = k => hq (h ▸ hk)).symm
  · simp only [State.setRreg, State.rreg, hk, hq, if_true, if_false, State.dreg_setAreg]
    exact (if_neg fun h : q = k => hk (h ▸ hq)).symm
  · simp only [State.setRreg, State.rreg, hk, hq, if_false, State.areg_setAreg, heq', Fin.ext_iff]
    exact if_congr (by omega) rfl rfl

/-- Writing an address register leaves every register of another number (10_state.md R24). -/
theorem State.rreg_setAreg_ne (s : State) (r : Fin 8) (v : Long) {k : Fin 16} (h : k.val ≠ 8 + r.val) :
    (s.setAreg r v).rreg k = s.rreg k := by
  by_cases hk : k.val < 8
  · simp only [State.rreg, hk, if_true, State.dreg_setAreg]
  · simp only [State.rreg, hk, if_false]
    refine State.areg_setAreg_ne s r _ v fun heq => h ?_
    rw [← heq, Fin.val_ofNat]
    omega

theorem State.otherSp_setRreg (s : State) (k : Fin 16) (v : Long) : otherSp (s.setRreg k v) = otherSp s := by
  unfold State.setRreg
  split
  · rfl
  · exact otherSp_setAreg s _ v

/-- Nothing but registers changed. -/
structure RegistersChanged (s t : State) : Prop where
  sr : t.sr = s.sr
  pc : t.pc = s.pc
  mem : t.mem = s.mem
  cfg : t.cfg = s.cfg
  kept : Kept (fun _ => true) (fun _ => true) [] s t

theorem RegistersChanged.refl (s : State) : RegistersChanged s s :=
  ⟨rfl, rfl, rfl, rfl, kept_mono (kept_refl s) (fun _ _ => rfl) (fun _ _ => rfl) fun _ => id⟩

theorem RegistersChanged.trans {s t u : State} (h : RegistersChanged s t) (k : RegistersChanged t u) :
    RegistersChanged s u :=
  ⟨k.sr.trans h.sr, k.pc.trans h.pc, k.mem.trans h.mem, k.cfg.trans h.cfg, kept_trans h.kept k.kept⟩

theorem registersChanged_setAreg (s : State) (r : Fin 8) (v : Long) : RegistersChanged s (s.setAreg r v) :=
  ⟨s.setAreg_sr r v, s.setAreg_pc r v, s.setAreg_mem r v, s.setAreg_cfg r v,
    kept_mono (kept_setAreg s r v) (fun _ h => nomatch h) (fun _ h => nomatch h) fun _ => id⟩

theorem registersChanged_setRreg (s : State) (k : Fin 16) (v : Long) : RegistersChanged s (s.setRreg k v) := by
  unfold State.setRreg
  split
  · exact ⟨rfl, rfl, rfl, rfl, kept_mono (kept_setDreg s _ v) (fun _ h => nomatch h) (fun _ h => nomatch h) fun _ => id⟩
  · exact registersChanged_setAreg s _ v

theorem RegistersChanged.load {s t : State} (h : RegistersChanged s t) (sz : Size) (a : Long) : t.load sz a = s.load sz a :=
  load_congr h.cfg fun _ _ => by rw [h.mem]

/-! ## The loads of MOVEM -/

/-- Registers loaded upwards: each listed one gets its item, and the others stay (41_move.md R159). -/
theorem loadUp_readable {sz : Size} {ks : List (Fin 16)} {a : Long} {s : State} (hnodup : ks.Nodup)
    (h : ∀ j < ks.length, Readable s.cfg sz (itemAt sz a j)) :
    ∃ t, loadUp sz ks a s = .ok (itemAt sz a ks.length, t) ∧
      (∀ j k, ks[j]? = some k → t.rreg k = sext sz (s.load sz (itemAt sz a j))) ∧ (∀ k ∉ ks, t.rreg k = s.rreg k) ∧
      RegistersChanged s t := by
  induction ks generalizing a s with
  | nil => exact ⟨s, by rw [List.length_nil, itemAt_zero]; rfl, nofun, fun _ _ => rfl, .refl s⟩
  | cons k ks ih =>
    obtain ⟨hk, hks⟩ := List.nodup_cons.1 hnodup
    let s' := s.setRreg k (sext sz (s.load sz a))
    have hchanged : RegistersChanged s s' := registersChanged_setRreg s k _
    have hfirst : Readable s.cfg sz a := itemAt_zero sz a ▸ h 0 (by simp)
    have hrest : ∀ j < ks.length, Readable s'.cfg sz (itemAt sz (a + sizeStep sz) j) := by
      intro j hj
      rw [hchanged.cfg, ← itemAt_succ]
      exact h (j + 1) (Nat.succ_lt_succ hj)
    obtain ⟨t, ht, hloaded, hothers, hchanged'⟩ := ih hks hrest
    refine ⟨t, ?run, fun j q hq => ?loaded, fun q hq => ?others, hchanged.trans hchanged'⟩
    case run =>
      simp only [loadUp, readMem_readable hfirst]
      rw [ht, List.length_cons, itemAt_succ]
    case loaded =>
      cases j with
      | zero =>
        cases hq
        rw [hothers _ hk, State.rreg_setRreg, if_pos rfl, itemAt_zero]
      | succ j =>
        rw [hloaded j q hq, hchanged.load, itemAt_succ]
    case others =>
      obtain ⟨hne, hnot⟩ := not_or.1 (mt List.mem_cons.2 hq)
      rw [hothers q hnot, State.rreg_setRreg, if_neg hne]

theorem extraRead_readable {a : Long} {s : State} (h : Readable s.cfg .w a) : extraRead (a, s) = .ok (a, s) := by
  simp only [extraRead, readMem_readable h]

theorem extraRead_unmapped {a : Long} {s : State} (ha : Aligned .w a) (h : kindAt s.cfg a = .unmapped) :
    extraRead (a, s) = .error (.fault (.busError a s)) := by
  have hfirst : FirstNotRam s.cfg .w a .unmapped a := ⟨by decide, h, [], [a + 1], rfl, List.forall_mem_nil _⟩
  simp only [extraRead, readMem_firstNotRam ha hfirst (by rw [readStopAt, h])]

/-- The whole list loaded, and then the extra access, which reads or stops (41_move.md R159, 20_memory.md R60, R63). -/
theorem loadUp_extraRead_cases {sz : Size} {mask : Word} {a : Long} {s : State}
    (h : ∀ j < (maskBits mask).length, Readable s.cfg sz (itemAt sz a j)) :
    ∃ t,
      (∀ (j : Nat) (k : Fin 16), (maskBits mask)[j]? = some k →
        (t.rreg k).toInt = intOf sz (s.load sz (itemAt sz a j))) ∧
      (∀ k : Fin 16, mask.getLsbD k.val = false → t.rreg k = s.rreg k) ∧ RegistersChanged s t ∧
      (Readable s.cfg .w (itemAt sz a (maskBits mask).length) →
        (loadUp sz (maskBits mask) a s).bind extraRead = .ok (itemAt sz a (maskBits mask).length, t)) ∧
      (Aligned .w (itemAt sz a (maskBits mask).length) → kindAt s.cfg (itemAt sz a (maskBits mask).length) = .unmapped →
        (loadUp sz (maskBits mask) a s).bind extraRead =
          .error (.fault (.busError (itemAt sz a (maskBits mask).length) t))) := by
  obtain ⟨t, ht, hloaded, hothers, hchanged⟩ := loadUp_readable (maskBits_nodup mask) h
  refine ⟨t, fun j k hk => ?_, fun k hk => hothers k ?_, hchanged, fun hread => ?_, fun halign hkind => ?_⟩
  · rw [hloaded j k hk, toInt_sext]
  · rw [mem_maskBits, hk]
    exact Bool.false_ne_true
  · rw [ht]
    exact extraRead_readable (hchanged.cfg.symm ▸ hread)
  · rw [ht]
    exact extraRead_unmapped halign (hchanged.cfg.symm ▸ hkind)

/-! ## The meanings of MOVEM -/

theorem nextPc_movemToMem (sz : Size) (mask : Word) (ea : Ea) (s : State) :
    nextPc (.movemToMem sz mask ea) s = s.pc + lengthOf 1 (ea.words sz) := nextPc_encEa (own := 1) rfl rfl s

theorem nextPc_movemToReg (sz : Size) (mask : Word) (ea : Ea) (s : State) :
    nextPc (.movemToReg sz mask ea) s = s.pc + lengthOf 1 (ea.words sz) := nextPc_encEa (own := 1) rfl rfl s

theorem exec_movemToMem_address {sz : Size} {mask : Word} {ea : Ea} {s : State} {a : Long} (hea : ea.isPreDec = false)
    (ha : addrEa ea (extAt s 1) s = .ok a) :
    exec (.movemToMem sz mask ea) s = finish (advanceBy (lengthOf 1 (ea.words sz)) (storeUp sz (maskBits mask) a s)) := by
  cases ea
  case preDec r => cases hea
  all_goals simp only [exec, execMovemToMem, ha]

theorem exec_movemToMem_preDec (sz : Size) (mask : Word) (r : Fin 8) (s : State) :
    exec (.movemToMem sz mask (.preDec r)) s = finish (advanceBy (lengthOf 1 0)
      ((storeDown sz (maskBits mask) (s.areg r) s).map fun p => p.2.setAreg r p.1)) := by
  simp only [exec, execMovemToMem]
  cases storeDown sz (maskBits mask) (s.areg r) s <;> rfl

theorem exec_movemToReg_address {sz : Size} {mask : Word} {ea : Ea} {s : State} {a : Long} (hea : ea.isPostInc = false)
    (ha : addrEa ea (extAt s 1) s = .ok a) :
    exec (.movemToReg sz mask ea) s = finish (advanceBy (lengthOf 1 (ea.words sz))
      (((loadUp sz (maskBits mask) a s).bind extraRead).map Prod.snd)) := by
  cases ea
  case postInc r => cases hea
  all_goals
    simp only [exec, execMovemToReg, ha]
    cases (loadUp sz (maskBits mask) a s).bind extraRead <;> rfl

theorem exec_movemToReg_postInc (sz : Size) (mask : Word) (r : Fin 8) (s : State) :
    exec (.movemToReg sz mask (.postInc r)) s = finish (advanceBy (lengthOf 1 0)
      (((loadUp sz (maskBits mask) (s.areg r) s).bind extraRead).map fun p => p.2.setAreg r p.1)) := by
  simp only [exec, execMovemToReg]
  cases (loadUp sz (maskBits mask) (s.areg r) s).bind extraRead <;> rfl

/-! ## The bytes of MOVEP -/

/-- Byte `j` from the lowest address is byte `n - 1 - j` of the value (41_move.md R161). -/
theorem movepBytes_eq_map {sz : Size} (hsz : sz ≠ .b) (v : Long) :
    movepBytes sz v = (List.range sz.bytes).map fun j => v.extractLsb' (8 * (sz.bytes - 1 - j)) 8 := by
  cases sz with
  | b => exact absurd rfl hsz
  | w => rfl
  | l => rfl

/-- Bytes read a word apart: each shifts those before it up (41_move.md R161). -/
theorem loadLanes_readable {n : Nat} {acc a : Long} {s : State} (h : ∀ j < n, Readable s.cfg .b (itemAt .w a j)) :
    ∃ v, loadLanes n acc a s = .ok v ∧ (∀ i, 8 * n + i < 32 → v.getLsbD (8 * n + i) = acc.getLsbD i) ∧
      ∀ j < n, ∀ i < 8, 8 * (n - 1 - j) + i < 32 →
        v.getLsbD (8 * (n - 1 - j) + i) = (s.byteAt (itemAt .w a j)).getLsbD i := by
  induction n generalizing acc a with
  | zero => exact ⟨acc, rfl, fun i _ => by rw [Nat.mul_zero, Nat.zero_add], nofun⟩
  | succ n ih =>
    have hfirst : Readable s.cfg .b a := itemAt_zero .w a ▸ h 0 (by simp)
    obtain ⟨v, hv, habove, hbytes⟩ := ih (acc := (acc <<< 8) ||| s.load .b a) (a := a + 2) fun j hj => by
      rw [← itemAt_word_succ]
      exact h (j + 1) (Nat.succ_lt_succ hj)
    refine ⟨v, ?run, fun i hi => ?above, fun j hj i hi hlt => ?bytes⟩
    case run => simp only [loadLanes, readMem_readable hfirst, hv]
    case above =>
      have hshift : 8 * (n + 1) + i = 8 * n + (8 + i) := by omega
      rw [hshift, habove _ (by omega)]
      simp [State.load, show 8 + i < 32 by omega, BitVec.getLsbD_eq_getElem (show i < 32 by omega)]
    case bytes =>
      cases j with
      | zero =>
        have hplace : 8 * (n + 1 - 1 - 0) + i = 8 * n + i := by omega
        rw [hplace] at hlt ⊢
        rw [habove i hlt, itemAt_zero]
        simp [State.load, hi, show i < 32 by omega]
      | succ j =>
        have hplace : n + 1 - 1 - (j + 1) = n - 1 - j := by omega
        rw [hplace] at hlt ⊢
        rw [hbytes j (by omega) i hi hlt, itemAt_word_succ]

/-- Eight bits of a number, from bit `m` on. -/
theorem div_mod_byte_eq {v : Long} {b : Byte} {m : Nat} (h : ∀ i < 8, v.getLsbD (m + i) = b.getLsbD i) :
    v.toNat / 2 ^ m % 2 ^ 8 = b.toNat := by
  have hbyte : v.extractLsb' m 8 = b := by
    refine BitVec.eq_of_getLsbD_eq fun i hi => ?_
    rw [BitVec.getLsbD_extractLsb', h i hi, decide_eq_true hi, Bool.true_and]
  rw [← hbyte, BitVec.extractLsb'_toNat, Nat.shiftRight_eq_div_pow]

end Sys2Proof.Machine

namespace Sys2Proof.Proofs

/-- Settles O34: the items are stored at places that share no byte, from the state's own registers. -/
theorem movemStoresListInOrder : Obligations.MovemStoresListInOrder := by
  refine ⟨fun sz mask ea s s1 a _ hea hsound hres hram => ?up, ?down⟩
  case up =>
    have haddr : addrEa ea (extAt s 1) s = .ok a := addrEa_eq_ok.2 (by rw [hres])
    obtain ⟨u, hrun, hvalues, hsr, hpc, hkept⟩ := storeUp_ram hsound (maskBits_length_le mask) hram
    refine ⟨u.advance (lengthOf 1 (ea.words sz)), ?run, hvalues, hsr, ?pc, fun _ => areg_of_kept hkept rfl, hkept⟩
    case run => rw [exec_movemToMem_address hea haddr, hrun]; rfl
    case pc => rw [State.advance_pc, hpc, nextPc_movemToMem]
  case down =>
    intro sz mask r s _ hsound n a hram
    have hstart : s.areg r = itemAt sz a n := (BitVec.sub_add_cancel _ _).symm
    obtain ⟨u, hrun, hvalues, hsr, hpc, hkept⟩ := storeDown_ram hsound (maskBits_length_le mask) hram
    refine ⟨(u.setAreg r a).advance (lengthOf 1 0), ?run, fun j k hk => ?value, u.areg_setAreg_same r a, ?sr, ?pc, ?kept⟩
    case run => rw [exec_movemToMem_preDec, hstart, hrun]; rfl
    case value =>
      exact (congrArg (natOf sz) ((registersChanged_setAreg u r a).load sz _)).trans (hvalues j k hk)
    case sr => rw [State.advance_sr, State.setAreg_sr, hsr]
    case pc =>
      rw [State.advance_pc, State.setAreg_pc, hpc]
      exact (nextPc_movemToMem sz mask (.preDec r) s).symm
    case kept =>
      exact kept_mono (kept_trans hkept (kept_setAreg u r a)) (fun _ _ => rfl) (fun q hq => by simpa [noReg] using hq)
        fun _ hn => by simpa using hn

/-- Settles O35: the loads, then the extra access; with `(An)+` the final address is written last. -/
theorem movemLoadsListInOrder : Obligations.MovemLoadsListInOrder := by
  refine ⟨?address, ?postInc⟩
  case address =>
    intro sz mask ea s s1 a _ hea hres n hread
    have haddr : addrEa ea (extAt s 1) s = .ok a := addrEa_eq_ok.2 (by rw [hres])
    obtain ⟨t, hloaded, hothers, hchanged, hextra, hstop⟩ := loadUp_extraRead_cases hread
    refine ⟨fun hmapped => ⟨t.advance (lengthOf 1 (ea.words sz)), ?run, hloaded, hothers, hchanged.sr, ?pc, hchanged.kept⟩,
      fun halign hkind => ⟨t, ?fault⟩⟩
    case run => rw [exec_movemToReg_address hea haddr, hextra hmapped]; rfl
    case pc => rw [State.advance_pc, hchanged.pc, nextPc_movemToReg]
    case fault => rw [exec_movemToReg_address hea haddr, hstop halign hkind]; rfl
  case postInc =>
    intro sz mask r s _ n hread
    obtain ⟨t, hloaded, hothers, hchanged, hextra, hstop⟩ := loadUp_extraRead_cases hread
    let u := t.setAreg r (itemAt sz (s.areg r) n)
    have hstepped : RegistersChanged s u := hchanged.trans (registersChanged_setAreg t r _)
    have hkeep {k : Fin 16} (hk : k.val ≠ 8 + r.val) : u.rreg k = t.rreg k := t.rreg_setAreg_ne r _ hk
    refine ⟨fun hmapped => ⟨u.advance (lengthOf 1 0), ?run, t.areg_setAreg_same r _, fun j k hj hk => ?loaded,
      fun k hk hne => (hkeep hne).trans (hothers k hk), hstepped.sr, ?pc, hstepped.kept⟩, fun halign hkind => ⟨t, ?fault⟩⟩
    case run => rw [exec_movemToReg_postInc, hextra hmapped]; rfl
    case loaded => exact (congrArg BitVec.toInt (hkeep hk)).trans (hloaded j k hj)
    case pc =>
      rw [State.advance_pc, hstepped.pc]
      exact (nextPc_movemToReg sz mask (.postInc r) s).symm
    case fault => rw [exec_movemToReg_postInc, hstop halign hkind]; rfl

/-- Settles O36: the bytes are stored at places that share none, and loaded each into its own eight bits. -/
theorem movepEverySecondByte : Obligations.MovepEverySecondByte := by
  intro sz dx ay d s hsz a n
  have hn : n ≤ 4 := by cases sz <;> decide
  have hlen : nextPc (.movep .toMem sz dx ay d) s = s.pc + lengthOf 1 0 := rfl
  refine ⟨fun hsound hram => ?toMem, fun hread => ?toReg⟩
  case toMem =>
    let bs := movepBytes sz (s.dreg dx)
    have hbs : bs = (List.range n).map fun j => (s.dreg dx).extractLsb' (8 * (n - 1 - j)) 8 := movepBytes_eq_map hsz _
    have hcount : bs.length = n := by rw [hbs, List.length_map, List.length_range]
    obtain ⟨u, hu, hbytes, hsr, hpc, hkept⟩ := storeLanes_ram (bs := bs) (a := a) hsound (hcount ▸ hn) fun j hj =>
      lane_eq_itemAt a j ▸ hram j (hcount ▸ hj)
    rw [hcount] at hkept
    refine ⟨u.advance (lengthOf 1 0), ?run, fun j hj => ?value, hsr, ?pc, fun _ => areg_of_kept hkept rfl, hkept⟩
    case run =>
      have hrun : storeLanes (movepBytes sz (s.dreg dx)) (s.areg ay + d.signExtend 32) s = .ok u := hu
      simp only [exec, execMovep, hrun]
      rfl
    case value =>
      have hbyte : bs[j]? = some ((s.dreg dx).extractLsb' (8 * (n - 1 - j)) 8) := by
        rw [hbs, List.getElem?_map, List.getElem?_range hj, Option.map_some]
      have hvalue := congrArg BitVec.toNat (hbytes j _ hbyte)
      rw [BitVec.extractLsb'_toNat, Nat.shiftRight_eq_div_pow, ← lane_eq_itemAt] at hvalue
      exact hvalue
    case pc => rw [State.advance_pc, hpc, hlen]
  case toReg =>
    obtain ⟨v, hv, -, hbytes⟩ := loadLanes_readable (n := n) (acc := 0) fun j hj => lane_eq_itemAt a j ▸ hread j hj
    refine ⟨(s.setDregAt sz dx v).advance (lengthOf 1 0), ?run, fun j hj => ?value, ?upper, rfl, hlen.symm, fun _ => rfl,
      kept_setDreg s dx _⟩
    case run =>
      have hrun : loadLanes sz.bytes 0 (s.areg ay + d.signExtend 32) s = .ok v := hv
      simp only [exec, execMovep, hrun]
      rfl
    case value =>
      have hbits : sz.bits = 8 * n := by cases sz <;> rfl
      refine div_mod_byte_eq fun i hi => ?_
      rw [State.dreg_advance, State.dreg_setDregAt_same, insertLow_getLsbD, if_pos (by omega), lane_eq_itemAt]
      exact hbytes j hj i hi (by omega)
    case upper =>
      rw [State.dreg_advance, State.dreg_setDregAt_same]
      exact upperKept_insertLow sz _ v

end Sys2Proof.Proofs
end

section
/-! Binary arithmetic (42_add_sub_cmp.md): what the operations of two operands compute of the values at a size, what each shape then
leaves, and the statements about ADD, SUB, CMP and their forms, AND and OR to a register (44_logic.md R210, R218) and TST
(49_unary_misc.md R318). -/

open Sys2Proof Sys2Proof.Machine Sys2Proof.Safety

namespace Sys2Proof.Machine

/-! ## Values that agree at a size -/

section
variable {sz : Size} {v w : Long}

theorem natOf_congr (h : trunc sz v = trunc sz w) : natOf sz v = natOf sz w := by
  rw [← natOf_trunc, h, natOf_trunc]

theorem getLsbD_congr (h : trunc sz v = trunc sz w) {k : Nat} (hk : k < sz.bits) : v.getLsbD k = w.getLsbD k := by
  have hbit := congrArg (fun u => u.getLsbD k) h
  simpa only [trunc_getLsbD, hk, decide_true, Bool.true_and] using hbit

end

/-- A number put in a size is zero where its value at the size is. -/
theorem ofNatAt_eq_zero_iff_natOf (sz : Size) (n : Nat) : ofNatAt sz n = 0 ↔ natOf sz (ofNatAt sz n) = 0 := by
  rw [ofNatAt_eq_zero, natOf_ofNatAt]

section
variable {sz : Size} {v w src dst r r' : Long} {x : Bool} {f old : Ccr}

theorem addRule_congr (hsrc : trunc sz v = trunc sz src) (hdst : trunc sz w = trunc sz dst) (hr : trunc sz r' = trunc sz r)
    (h : AddRule sz v w x r f) : AddRule sz src dst x r' f := by
  rwa [AddRule, natOf_congr hr, ← natOf_congr hsrc, ← natOf_congr hdst, intOf_congr (natOf_congr hr),
    ← intOf_congr (natOf_congr hsrc), ← intOf_congr (natOf_congr hdst)]

theorem subRule_congr (hsrc : trunc sz v = trunc sz src) (hdst : trunc sz w = trunc sz dst) (hr : trunc sz r' = trunc sz r)
    (h : SubRule sz v w x r f) : SubRule sz src dst x r' f := by
  rwa [SubRule, natOf_congr hr, ← natOf_congr hsrc, ← natOf_congr hdst, intOf_congr (natOf_congr hr),
    ← intOf_congr (natOf_congr hsrc), ← intOf_congr (natOf_congr hdst)]

theorem zeroRule_congr (hr : trunc sz r' = trunc sz r) (h : f.z = decide (natOf sz r = 0)) : ZeroRule sz r' f := by
  rwa [ZeroRule, natOf_congr hr]

/-- Z kept where the result is zero and cleared elsewhere (42_add_sub_cmp.md R174). -/
theorem stickyZero_of_result (hr : trunc sz r' = trunc sz r) (hzero : r = 0 ↔ natOf sz r = 0)
    (h : f.z = if r = 0 then old.z else false) : StickyZero sz r' old f := by
  rw [StickyZero, h, natOf_congr hr]
  by_cases hn : natOf sz r = 0
  · rw [if_pos (hzero.2 hn), decide_eq_true hn, Bool.and_true]
  · rw [if_neg (mt hzero.1 hn), decide_eq_false hn, Bool.and_false]

end

/-! ## What an operation computes -/

/-- A rule of 00_scope.md R11 for the flags: size, source, destination, X going in, result and flags. -/
abbrev FlagRule := Size → Long → Long → Bool → Long → Ccr → Prop

/-- What an operation says of source, destination, result and new flags, from the size and the old flags. -/
abbrev AluOutcome := Size → Ccr → Long → Long → Long → Ccr → Prop

/-- A flag rule without X going in, Z by the result, X as C (42_add_sub_cmp.md R170). -/
def PlainOutcome (rule : FlagRule) : AluOutcome := fun sz _ src dst r f =>
  rule sz src dst false r f ∧ ZeroRule sz r f ∧ f.x = f.c

/-- A flag rule with X going in, Z only cleared, X as C (42_add_sub_cmp.md R174). -/
def ExtendedOutcome (rule : FlagRule) : AluOutcome := fun sz old src dst r f =>
  rule sz src dst old.x r f ∧ StickyZero sz r old f ∧ f.x = f.c

/-- A result bit by bit, with the flags of a logic result (44_logic.md R210). -/
def LogicOutcome (g : Bool → Bool → Bool) : AluOutcome := fun sz old src dst r f =>
  BitwiseRule g sz src dst r ∧ LogicRule sz r old f

/-- An operation has an outcome, whatever stands above the size in the values it is given and in the place its result goes to. -/
def Yields (op : AluOp) (outcome : AluOutcome) : Prop :=
  ∀ {sz : Size} {v w src dst r : Long} (old : Ccr), trunc sz v = trunc sz src → trunc sz w = trunc sz dst →
    trunc sz r = trunc sz (op sz v w old).1 → outcome sz old src dst r (op sz v w old).2

theorem addOp_yields : Yields addOp (PlainOutcome AddRule) := fun _ hsrc hdst hr =>
  ⟨addRule_congr hsrc hdst hr (addFlags_rule _ _ _ _),
    zeroRule_congr hr (decide_eq_decide.2 (ofNatAt_eq_zero_iff_natOf _ _)), rfl⟩

theorem subOp_yields : Yields subOp (PlainOutcome SubRule) := fun _ hsrc hdst hr =>
  ⟨subRule_congr hsrc hdst hr (subFlags_rule _ _ _ _),
    zeroRule_congr hr (decide_eq_decide.2 (ofNatAt_eq_zero_iff_natOf _ _)), rfl⟩

theorem addxOp_yields : Yields addxOp (ExtendedOutcome AddRule) := fun old hsrc hdst hr =>
  ⟨addRule_congr hsrc hdst hr (addFlags_rule _ _ _ old.x),
    stickyZero_of_result hr (ofNatAt_eq_zero_iff_natOf _ _) rfl, rfl⟩

theorem subxOp_yields : Yields subxOp (ExtendedOutcome SubRule) := fun old hsrc hdst hr =>
  ⟨subRule_congr hsrc hdst hr (subFlags_rule _ _ _ old.x),
    stickyZero_of_result hr (ofNatAt_eq_zero_iff_natOf _ _) rfl, rfl⟩

/-- A bitwise operation of the long has its bits at every size. -/
theorem logicOutcome_of_getLsbD {g : Bool → Bool → Bool} {sz : Size} {v w src dst r r' : Long} (old : Ccr)
    (hsrc : trunc sz v = trunc sz src) (hdst : trunc sz w = trunc sz dst) (hr : trunc sz r' = trunc sz r)
    (hbits : ∀ k, r.getLsbD k = g (w.getLsbD k) (v.getLsbD k)) :
    LogicOutcome g sz old src dst r' (logicCcr sz r old) := by
  refine ⟨fun k hk => ?_, logicRule_congr (natOf_congr hr.symm) (logicCcr_rule sz r old)⟩
  rw [getLsbD_congr hr hk, hbits, getLsbD_congr hsrc hk, getLsbD_congr hdst hk]

theorem andOp_yields : Yields andOp (LogicOutcome fun d v => d && v) := fun old hsrc hdst hr =>
  logicOutcome_of_getLsbD old hsrc hdst hr fun _ => BitVec.getLsbD_and

theorem orOp_yields : Yields orOp (LogicOutcome fun d v => d || v) := fun old hsrc hdst hr =>
  logicOutcome_of_getLsbD old hsrc hdst hr fun _ => BitVec.getLsbD_or

/-- The result that a comparison describes and does not keep (42_add_sub_cmp.md R180). -/
theorem cmpCcr_rule {sz : Size} {v w src dst : Long} (hsrc : trunc sz v = trunc sz src) (hdst : trunc sz w = trunc sz dst)
    (old : Ccr) : ∃ r, SubRule sz src dst false r (cmpCcr sz v w old) ∧ ZeroRule sz r (cmpCcr sz v w old) :=
  ⟨(subFlags sz v w false).r, subRule_congr hsrc hdst rfl (subFlags_rule sz v w false),
    zeroRule_congr rfl (decide_eq_decide.2 (ofNatAt_eq_zero_iff_natOf _ _))⟩

/-! ## What a shape leaves -/

theorem nextPc_congr {s t : State} (h : t.pc = s.pc) (i : Instr) : nextPc i t = nextPc i s := by rw [nextPc, nextPc, h]

/-- Only flags change after the operands were resolved. -/
theorem advanced_setCcr {i : Instr} {da : Fin 8 → Bool} {s s1 : State} {len : Long} (hkept : Kept noReg da [] s s1)
    (hpc : s1.pc = s.pc) (hi : nextPc i s = s.pc + len) (c : Ccr) :
    Advanced i noReg da [] s s1 ((s1.setCcr c).advance len) := by
  refine ⟨?_, fun _ => rfl, kept_finish hkept c len⟩
  rw [hi, ← hpc]
  rfl

/-- A first operand resolved before the one that is changed: the frame holds from the state before both. -/
theorem changed_after_resolve {i : Instr} {e : Ea} {sz sz' : Size} {ext : Long} {l l' : Loc} {da : Fin 8 → Bool}
    {s s1 s2 t : State} (hres : resolve e sz ext s = (l, s1)) (h : Changed i sz' l' da s1 s2 t) :
    Changed i sz' l' (fun q => eaSteps e q || da q) s s2 t := by
  obtain ⟨hupper, hpc, hareg, hkept⟩ := h
  refine ⟨?upper, hpc.trans (nextPc_congr (pc_of_resolve hres) i), hareg, ?kept⟩
  case upper =>
    cases l' with
    | dreg r =>
      change UpperKept sz' (s.dreg r) (t.dreg r)
      rw [← dreg_of_resolve hres r]
      exact hupper
    | areg r => trivial
    | mem a => trivial
    | imm v => trivial
  case kept =>
    have hall := kept_trans (kept_of_resolve hres) hkept
    rw [(moves_of_resolve hres).cfg] at hall
    exact hall

section
variable {op : AluOp} {outcome : AluOutcome} {i : Instr} {sz : Size} {ea : Ea} {ext len v src : Long} {l : Loc} {s s1 : State}

/-- A data register takes the result (42_add_sub_cmp.md R170, first form). -/
theorem eaToDn_yields {dn : Fin 8} (hop : Yields op outcome) (hi : nextPc i s = s.pc + lengthOf 0 (ea.words sz))
    (hres : resolve ea sz (extAt s 0) s = (l, s1)) (hread : LocReadable s.cfg sz l) :
    ∃ t, finish (eaToDn op sz ea dn s) = .next t ∧
      outcome sz s.sr.ccr (locValue sz s1 l) (s.dreg dn) (t.dreg dn) t.sr.ccr ∧ UpperKept sz (s.dreg dn) (t.dreg dn) ∧
        Advanced i (oneReg dn) (eaSteps ea) [] s s1 t := by
  let p := op sz (locValue sz s1 l) (s1.dregAt sz dn) s.sr.ccr
  have hrun : eaToDn op sz ea dn s = .ok (((s1.setDregAt sz dn p.1).setCcr p.2).advance (lengthOf 0 (ea.words sz))) := by
    rw [eaToDn, readEa_ok hres hread]
    rfl
  have hold : s1.dreg dn = s.dreg dn := dreg_of_resolve hres dn
  have hreg : (s1.setDregAt sz dn p.1).dreg dn = insertLow sz (s.dreg dn) p.1 := by rw [State.dreg_setDregAt_same, hold]
  refine ⟨_, congrArg finish hrun, ?outcome, ?upper, ?pc, fun _ => rfl, ?kept⟩
  case outcome =>
    refine hop s.sr.ccr rfl ?_ ?_
    · rw [State.dregAt, trunc_trunc, hold]
    · rw [State.dreg_advance, State.dreg_setCcr, hreg, trunc_insertLow]
  case upper =>
    rw [State.dreg_advance, State.dreg_setCcr, hreg]
    exact upperKept_insertLow sz _ _
  case pc =>
    rw [hi, ← pc_of_resolve hres]
    rfl
  case kept =>
    refine kept_mono (kept_finish (kept_trans (kept_of_resolve hres) (kept_setDreg s1 dn _)) p.2 _) ?_ ?_ ?_ <;> simp [noReg]

/-- An operand changed in place takes the result (40_addressing.md R124). -/
theorem modifyEa_yields (hop : Yields op outcome) (hv : trunc sz v = trunc sz src) (old : Ccr)
    (hi : nextPc i s = s.pc + len) (hs : Sound s) (hres : resolve ea sz ext s = (l, s1)) (hw : Writable s.cfg sz l) :
    ∃ t, finish (advanceBy len (modifyEa ea sz ext (fun d => op sz v d old) s)) = .next t ∧
      outcome sz old src (locValue sz s1 l) (locValue sz t l) t.sr.ccr ∧ Changed i sz l (eaSteps ea) s s1 t := by
  obtain ⟨t, ht, hvalue, hccr, hchanged⟩ := modifyEa_changed hs hres hw (fun d => op sz v d old) i len hi
  refine ⟨t, congrArg finish ht, ?_, hchanged⟩
  rw [hccr]
  exact hop old hv rfl (by rw [hvalue, trunc_trunc])

/-- The forms of ADD and SUB that change an operand in place (42_add_sub_cmp.md R170, R172, R173). -/
theorem modifyEa_plain {rule : FlagRule} (hop : Yields op (PlainOutcome rule))
    (hexec : exec i s = finish (advanceBy len (modifyEa ea sz ext (fun d => op sz v d s.sr.ccr) s)))
    (hv : trunc sz v = trunc sz src) (hi : nextPc i s = s.pc + len) (hs : Sound s) (hres : resolve ea sz ext s = (l, s1))
    (hw : Writable s.cfg sz l) :
    ∃ t, exec i s = .next t ∧ rule sz src (locValue sz s1 l) false (locValue sz t l) t.sr.ccr ∧
      ZeroRule sz (locValue sz t l) t.sr.ccr ∧ t.sr.ccr.x = t.sr.ccr.c ∧ Changed i sz l (eaSteps ea) s s1 t := by
  obtain ⟨t, ht, ⟨hrule, hzero, hx⟩, hchanged⟩ := modifyEa_yields hop hv s.sr.ccr hi hs hres hw
  exact ⟨t, hexec.trans ht, hrule, hzero, hx, hchanged⟩

end

/-- The three-bit field as a long: 0 denotes 8 (42_add_sub_cmp.md R173). -/
theorem ofNat_quickValue (q : Fin 8) : BitVec.ofNat 32 (quickValue q) = if q = 0 then 8 else BitVec.ofNat 32 q.val := by
  simp only [quickValue, Fin.val_eq_zero_iff]
  split <;> rfl

/-- With an address register ADDQ and SUBQ work on 32 bits and leave the flags (42_add_sub_cmp.md R173, R178). -/
theorem quickToEa_an (op : AluOp) (f : Long → Long → Long) (sz : Size) {i : Instr} {q r : Fin 8} {s : State}
    (hi : nextPc i s = s.pc + lengthOf 0 0) :
    ∃ t, finish (quickToEa op f sz q (.an r) s) = .next t ∧
      t.areg r = f (s.areg r) (if q = 0 then 8 else BitVec.ofNat 32 q.val) ∧ t.sr = s.sr ∧ t.pc = nextPc i s ∧
      Kept noReg (oneReg r) [] s t := by
  refine ⟨_, rfl, ?value, s.setAreg_sr r _, ?pc, kept_setAreg s r _⟩
  case value => rw [State.areg_advance, State.areg_setAreg_same, ofNat_quickValue]
  case pc => rw [State.advance_pc, State.setAreg_pc, hi]

/-- With any other operand they change it in place. -/
theorem quickToEa_of_not_an {ea : Ea} (h : ea.isAn = false) (op : AluOp) (f : Long → Long → Long) (sz : Size) (q : Fin 8)
    (s : State) :
    quickToEa op f sz q ea s = advanceBy (lengthOf 0 (ea.words sz))
      (modifyEa ea sz (extAt s 0) (fun d => op sz (BitVec.ofNat 32 (quickValue q)) d s.sr.ccr) s) := by
  cases ea
  case an r => exact absurd h (by simp [Ea.isAn])
  all_goals rfl

/-- Both forms of ADDX and SUBX read one operand and then change another in place (42_add_sub_cmp.md R174). -/
theorem pairOp_of_resolve {m : PairMode} {sz : Size} {ry rx : Fin 8} {s s1 : State} {l : Loc} (op : AluOp)
    (hres : resolve (pairOperand m ry) sz (extAt s 0) s = (l, s1)) (hread : LocReadable s.cfg sz l) :
    pairOp op sz m ry rx s = advanceBy (lengthOf 0 0)
      (modifyEa (pairOperand m rx) sz (extAt s 0) (fun d => op sz (locValue sz s1 l) d s.sr.ccr) s1) := by
  cases m with
  | dataReg =>
    obtain ⟨rfl, rfl⟩ := Prod.mk.inj hres
    rfl
  | memPreDec =>
    have hok : readEa (.preDec ry) sz (extAt s 0) s = .ok (locValue sz s1 l, s1) := readEa_ok hres hread
    rw [pairOp, hok]
    rfl

theorem pairOp_yields {op : AluOp} {outcome : AluOutcome} {i : Instr} {sz : Size} {m : PairMode} {ry rx : Fin 8}
    {s s1 s2 : State} {ls ld : Loc} (hop : Yields op outcome) (hi : nextPc i s = s.pc + lengthOf 0 0) (hs : Sound s)
    (hsrc : resolve (pairOperand m ry) sz (extAt s 0) s = (ls, s1)) (hread : LocReadable s.cfg sz ls)
    (hdst : resolve (pairOperand m rx) sz (extAt s 0) s1 = (ld, s2)) (hw : Writable s.cfg sz ld) :
    ∃ t, finish (pairOp op sz m ry rx s) = .next t ∧
      outcome sz s.sr.ccr (locValue sz s1 ls) (locValue sz s2 ld) (locValue sz t ld) t.sr.ccr ∧
        Changed i sz ld (bothSteps (pairOperand m ry) (pairOperand m rx)) s s2 t := by
  have hmoves := moves_of_resolve hsrc
  have hi1 : nextPc i s1 = s1.pc + lengthOf 0 0 := by
    rw [nextPc_congr (pc_of_resolve hsrc), hi, pc_of_resolve hsrc]
  obtain ⟨t, ht, hout, hchanged⟩ := modifyEa_yields hop rfl s.sr.ccr hi1 (sound_of_moves hmoves hs) hdst
    (hmoves.cfg.symm ▸ hw)
  exact ⟨t, (congrArg finish (pairOp_of_resolve op hsrc hread)).trans ht, hout, changed_after_resolve hsrc hchanged⟩

/-- What reading an operand for its flags answers. -/
theorem testEa_of_resolve {own : Nat} {sz : Size} {ea : Ea} {s s1 : State} {l : Loc} (flags : Long → Ccr → Ccr)
    (hres : resolve ea sz (extAt s own) s = (l, s1)) (hread : LocReadable s.cfg sz l) :
    testEa own sz ea flags s =
      .ok ((s1.setCcr (flags (locValue sz s1 l) s.sr.ccr)).advance (lengthOf own (ea.words sz))) := by
  rw [testEa, readEa_ok hres hread]
  rfl

/-- The flags of a comparison, X kept, and nothing else but what the operands stepped (42_add_sub_cmp.md R180). -/
theorem compare_advanced {i : Instr} {sz : Size} {da : Fin 8 → Bool} {s s1 : State} {v w src dst len : Long}
    (hexec : exec i s = .next ((s1.setCcr (cmpCcr sz v w s.sr.ccr)).advance len)) (hsrc : trunc sz v = trunc sz src)
    (hdst : trunc sz w = trunc sz dst) (hkept : Kept noReg da [] s s1) (hpc : s1.pc = s.pc) (hi : nextPc i s = s.pc + len) :
    ∃ t r, exec i s = .next t ∧ SubRule sz src dst false r t.sr.ccr ∧ ZeroRule sz r t.sr.ccr ∧
      t.sr.ccr.x = s.sr.ccr.x ∧ Advanced i noReg da [] s s1 t := by
  obtain ⟨r, hrule, hzero⟩ := cmpCcr_rule hsrc hdst s.sr.ccr
  exact ⟨_, r, hexec, hrule, hzero, rfl, advanced_setCcr hkept hpc hi _⟩

end Sys2Proof.Machine

namespace Sys2Proof.Proofs

/-- Settles O38: one shape with four operations. -/
theorem arithLogicToRegisterResults : Obligations.ArithLogicToRegisterResults := by
  constructor
  case left =>
    intro sz ea dn s s1 l _ hres hread rest
    have plain {op : AluOp} {rule : FlagRule} {i : Instr} {ln b : Nat} (hop : Yields op (PlainOutcome rule))
        (hexec : exec i s = finish (eaToDn op sz ea dn s))
        (hi : encode i = encEa ln dn.val b sz.field [] sz ea) :
        ∃ t, exec i s = .next t ∧ rule sz (locValue sz s1 l) (s.dreg dn) false (t.dreg dn) t.sr.ccr ∧ rest i t := by
      obtain ⟨t, ht, ⟨hrule, hzero, hx⟩, hkept⟩ := eaToDn_yields hop (nextPc_encEa hi rfl s) hres hread
      exact ⟨t, hexec.trans ht, hrule, hzero, hx, hkept⟩
    exact ⟨plain addOp_yields rfl rfl, plain subOp_yields rfl rfl⟩
  case right =>
    intro sz ea dn s s1 l _ hres hread rest
    have bitwise {op : AluOp} {g : Bool → Bool → Bool} {i : Instr} {ln b : Nat} (hop : Yields op (LogicOutcome g))
        (hexec : exec i s = finish (eaToDn op sz ea dn s)) (hi : encode i = encEa ln dn.val b sz.field [] sz ea) :
        ∃ t, exec i s = .next t ∧ BitwiseRule g sz (locValue sz s1 l) (s.dreg dn) (t.dreg dn) ∧ rest i t := by
      obtain ⟨t, ht, ⟨hbits, hflags⟩, hkept⟩ := eaToDn_yields hop (nextPc_encEa hi rfl s) hres hread
      exact ⟨t, hexec.trans ht, hbits, hflags, hkept⟩
    exact ⟨bitwise andOp_yields rfl rfl, bitwise orOp_yields rfl rfl⟩

/-- Settles O39: the register's low bits or the immediate's, and an operand changed in place. -/
theorem addSubToOperandResults : Obligations.AddSubToOperandResults := by
  intro sz ea dn imm s s1 s2 l m hsound hl hm rest
  have register {op : AluOp} {rule : FlagRule} {i : Instr} {ln b : Nat} (hop : Yields op (PlainOutcome rule))
      (hexec : exec i s = finish (dnToEa op sz dn ea s))
      (hi : encode i = encEa ln dn.val b sz.field [] sz ea) (hw : Writable s.cfg sz l) :
      ∃ t, exec i s = .next t ∧ rule sz (s.dreg dn) (locValue sz s1 l) false (locValue sz t l) t.sr.ccr ∧ rest i l s1 t :=
    modifyEa_plain hop hexec (trunc_trunc sz (s.dreg dn)) (nextPc_encEa hi rfl s) hsound hl hw
  have immediate {op : AluOp} {rule : FlagRule} {i : Instr} {d : Nat} (hop : Yields op (PlainOutcome rule))
      (hexec : exec i s = finish (immToEa op sz imm ea s))
      (hi : encode i = encEa 0 d 0 sz.field (immWords sz imm) sz ea) (hw : Writable s.cfg sz m) :
      ∃ t, exec i s = .next t ∧ rule sz imm (locValue sz s2 m) false (locValue sz t m) t.sr.ccr ∧ rest i m s2 t :=
    modifyEa_plain hop hexec (trunc_trunc sz imm) (nextPc_encEa hi (immWords_length_eq sz imm) s) hsound hm hw
  exact ⟨fun _ hw => ⟨register addOp_yields rfl rfl hw, register subOp_yields rfl rfl hw⟩,
    fun _ hw => ⟨immediate addOp_yields rfl rfl hw, immediate subOp_yields rfl rfl hw⟩⟩

/-- Settles O40: the field's value goes to an operand changed in place, or whole to an address register. -/
theorem quickAddSubResults : Obligations.QuickAddSubResults := by
  intro sz q s hsound v
  have hv : trunc sz (BitVec.ofNat 32 (quickValue q)) = trunc sz v := congrArg (trunc sz) (ofNat_quickValue q)
  have hlen {i : Instr} {c : Nat} {ea : Ea} (hi : encode i = encEa 5 q.val c sz.field [] sz ea) :
      nextPc i s = s.pc + lengthOf 0 (ea.words sz) := nextPc_encEa hi rfl s
  refine ⟨fun ea s1 l _ hea hres hw => ?inPlace, fun r _ => ⟨?addAn, ?subAn⟩⟩
  case inPlace =>
    have quick {op : AluOp} {rule : FlagRule} {i : Instr} {f : Long → Long → Long}
        {c : Nat} (hop : Yields op (PlainOutcome rule)) (hexec : exec i s = finish (quickToEa op f sz q ea s))
        (hi : encode i = encEa 5 q.val c sz.field [] sz ea) :=
      modifyEa_plain hop (hexec.trans (congrArg finish (quickToEa_of_not_an hea op f sz q s))) hv (hlen hi) hsound hres hw
    exact ⟨quick addOp_yields rfl rfl, quick subOp_yields rfl rfl⟩
  case addAn => exact quickToEa_an addOp (fun d x => d + x) sz (hlen (ea := .an r) rfl)
  case subAn => exact quickToEa_an subOp (fun d x => d - x) sz (hlen (ea := .an r) rfl)

/-- Settles O41: the destination is resolved and changed in the state that reading the source left. -/
theorem extendedAddSubStickyZero : Obligations.ExtendedAddSubStickyZero := by
  intro sz m ry rx s s1 s2 ls ld hsound hsrc hread hdst hw rest
  have extended {op : AluOp} {rule : FlagRule} {i : Instr} (hop : Yields op (ExtendedOutcome rule))
      (hexec : exec i s = finish (pairOp op sz m ry rx s))
      (hi : nextPc i s = s.pc + lengthOf 0 0) :
      ∃ t, exec i s = .next t ∧
        rule sz (locValue sz s1 ls) (locValue sz s2 ld) s.sr.ccr.x (locValue sz t ld) t.sr.ccr ∧ rest i t := by
    obtain ⟨t, ht, ⟨hrule, hzero, hx⟩, hchanged⟩ := pairOp_yields hop hi hsound hsrc hread hdst hw
    exact ⟨t, hexec.trans ht, hrule, hzero, hx, hchanged⟩
  exact ⟨extended addxOp_yields rfl rfl, extended subxOp_yields rfl rfl⟩

/-- Settles O42: the operands are read, the flags are set, and the difference goes nowhere. -/
theorem compareAndTestOnlyFlags : Obligations.CompareAndTestOnlyFlags := by
  refine ⟨⟨fun sz ea n imm s s1 s2 l m hl hreadl hm hreadm => ⟨fun _ => ?cmp, fun _ => ?cmpa, fun _ => ?cmpi⟩,
      fun sz ry rx s s1 s2 ls ld hsrc hread hdst hreadd => ?cmpm⟩, fun sz ea s s1 l _ hres hread => ?tst⟩
  case cmp =>
    refine compare_advanced (w := s1.dregAt sz n) ?_ rfl ?_ (kept_of_resolve hl) (pc_of_resolve hl)
      (nextPc_encEa (i := .cmp sz ea n) rfl rfl s)
    · simp only [exec, execCmp, readEa_ok hl hreadl]
      rfl
    · rw [State.dregAt, trunc_trunc, dreg_of_resolve hl]
  case cmpa =>
    refine compare_advanced ?_ (congrArg (trunc .l) (sext_eq_ofInt_intOf sz _)) rfl (kept_of_resolve hl)
      (pc_of_resolve hl) (nextPc_encEa (i := .cmpa sz ea n) rfl rfl s)
    simp only [exec, execCmpa, readEa_ok hl hreadl]
    rfl
  case cmpi =>
    exact compare_advanced (congrArg finish (testEa_of_resolve _ hm hreadm)) (trunc_trunc sz imm) rfl
      (kept_of_resolve hm) (pc_of_resolve hm) (nextPc_encEa (i := .cmpi sz imm ea) rfl (immWords_length_eq sz imm) s)
  case cmpm =>
    have hreadd1 : LocReadable s1.cfg sz ld := (moves_of_resolve hsrc).cfg.symm ▸ hreadd
    have hdst1 : resolve (.postInc rx) sz (extAt s1 0) s1 = (ld, s2) := hdst
    have htest := testEa_of_resolve (fun d c => cmpCcr sz (locValue sz s1 ls) d c) hdst1 hreadd1
    rw [sr_of_resolve hsrc] at htest
    refine compare_advanced ?_ rfl rfl (kept_trans (kept_of_resolve hsrc) (kept_of_resolve hdst))
      ((pc_of_resolve hdst).trans (pc_of_resolve hsrc)) rfl
    simp only [exec, execCmpm, readEa_ok hsrc hread, htest]
    rfl
  case tst =>
    have hlen := nextPc_encEa (i := .tst sz ea) rfl rfl s
    exact ⟨_, congrArg finish (testEa_of_resolve (fun d c => logicCcr sz d c) hres hread), logicCcr_rule sz _ _,
      advanced_setCcr (kept_of_resolve hres) (pc_of_resolve hres) hlen _⟩

end Sys2Proof.Proofs
end

section
/-! Decimal arithmetic (43_bcd.md R200 to R202, 49_unary_misc.md R314): what the free values an instruction takes leave as it was,
the calculations on two digits over plain numbers, and the statement about ABCD, SBCD and NBCD. -/

open Sys2Proof Sys2Proof.Machine Sys2Proof.Safety

namespace Sys2Proof.Machine

/-! ## Free values taken before the operands -/

theorem State.setSp_skipDraws (s : State) (k : Nat) (v : Long) : (s.skipDraws k).setSp v = (s.setSp v).skipDraws k := by
  by_cases h : s.sr.s = true <;> simp [State.setSp, State.skipDraws, h]

theorem State.setAreg_skipDraws (s : State) (k : Nat) (r : Fin 8) (v : Long) :
    (s.skipDraws k).setAreg r v = (s.setAreg r v).skipDraws k := by
  unfold State.setAreg
  split
  · rfl
  · exact State.setSp_skipDraws s k v

/-- Free values have no part in where an operand lies. -/
theorem resolve_skipDraws {e : Ea} {sz : Size} {ext : Long} {s s1 : State} {l : Loc} (h : resolve e sz ext s = (l, s1))
    (k : Nat) : resolve e sz ext (s.skipDraws k) = (l, s1.skipDraws k) := by
  cases e
  case postInc r | preDec r =>
    obtain ⟨rfl, rfl⟩ := Prod.mk.inj h
    exact congrArg (Prod.mk _) (State.setAreg_skipDraws s k r _)
  all_goals
    obtain ⟨rfl, rfl⟩ := Prod.mk.inj h
    rfl

@[simp] theorem locValue_skipDraws (sz : Size) (s : State) (k : Nat) (l : Loc) :
    locValue sz (s.skipDraws k) l = locValue sz s l := by
  cases l <;> rfl

/-- The number of free values taken is outside the frame of an instruction. -/
theorem changed_of_skipDraws {i : Instr} {sz : Size} {l : Loc} {da : Fin 8 → Bool} {s s1 t : State} {k : Nat}
    (h : Changed i sz l da (s.skipDraws k) (s1.skipDraws k) t) : Changed i sz l da s s1 t := by
  cases l <;> exact h

/-! ## Two digits as a number -/

theorem isBcd_iff (b : Byte) : isBcd b = true ↔ decimal b.toNat := decide_eq_true_iff

theorem decOf_eq_decimalValue (b : Byte) : decOf b = decimalValue b.toNat := rfl

theorem toNat_setWidth_byte (v : Long) : (v.setWidth 8 : Byte).toNat = natOf .b v := BitVec.toNat_setWidth 8 v

theorem natOf_setWidth_long (b : Byte) : natOf .b (b.setWidth 32) = b.toNat := by
  simp only [natOf, BitVec.toNat_setWidth, Size.bits]
  omega

theorem decimalValue_le {b : Nat} (h : decimal b) : decimalValue b ≤ 99 := by
  unfold decimal at h
  unfold decimalValue
  omega

theorem bcdOf_toNat {k : Nat} (h : k < 100) : (bcdOf k).toNat = 16 * (k / 10) + k % 10 := by
  rw [bcdOf, BitVec.toNat_ofNat]
  omega

theorem decimal_bcdOf {k : Nat} (h : k < 100) : decimal (bcdOf k).toNat := by
  rw [bcdOf_toNat h, decimal]
  omega

theorem decimalValue_bcdOf {k : Nat} (h : k < 100) : decimalValue (bcdOf k).toNat = k := by
  rw [bcdOf_toNat h, decimalValue]
  omega

theorem natOf_byte_congr {sz : Size} {v w : Long} (h : trunc sz v = trunc sz w) : natOf .b v = natOf .b w := by
  have hsize := natOf_congr h
  cases sz <;> simp only [natOf, Size.bits] at hsize ⊢ <;> omega

/-- Z kept where the byte is zero and cleared elsewhere (43_bcd.md R200). -/
theorem ite_eq_zero_and_decide (z : Bool) (b : Byte) : (if b = 0 then z else false) = (z && decide (b.toNat = 0)) := by
  have hzero : b = 0 ↔ b.toNat = 0 := BitVec.toNat_inj.symm
  by_cases h : b.toNat = 0
  · rw [if_pos (hzero.2 h), decide_eq_true h, Bool.and_true]
  · rw [if_neg (mt hzero.1 h), decide_eq_false h, Bool.and_false]

/-! ## What a decimal calculation computes -/

/-- A total of source, destination and X going in, as a plain number. -/
abbrev DecimalTotal := Nat → Nat → Bool → Int

/-- `d + s + X` (43_bcd.md R201). -/
def sumTotal : DecimalTotal := fun src dst x => dst + src + x.toNat

/-- `d - s - X` (43_bcd.md R202). -/
def differenceTotal : DecimalTotal := fun src dst x => dst - src - x.toNat

theorem differenceTotal_zero (src : Nat) (x : Bool) : differenceTotal src 0 x = -(src : Int) - x.toNat := by
  rw [differenceTotal, Nat.cast_zero, zero_sub]

/-- On decimal digits a calculation gives the two low digits of its total, and whether the total has left their range. -/
def Calculates (f : Byte → Byte → Bool → Byte × Bool) (total : DecimalTotal) : Prop :=
  ∀ (s d : Byte) (x : Bool), decimal s.toNat → decimal d.toNat →
    let sum := total (decimalValue s.toNat) (decimalValue d.toNat) x
    f s d x = (bcdOf (sum % 100).toNat, decide (sum < 0 ∨ 100 ≤ sum))

theorem bcdAdd_calculates : Calculates bcdAdd sumTotal := by
  intro s d x _ _
  simp only [bcdAdd, decOf_eq_decimalValue, sumTotal]
  exact Prod.ext (congrArg bcdOf (by omega)) (decide_eq_decide.2 (by omega))

theorem bcdSub_calculates : Calculates bcdSub differenceTotal := by
  intro s d x _ hd
  have hle := decimalValue_le hd
  simp only [bcdSub, decOf_eq_decimalValue, differenceTotal]
  exact Prod.ext rfl (decide_eq_decide.2 (by omega))

section
variable {f : Byte → Byte → Bool → Byte × Bool} {total : DecimalTotal}

theorem bcdOp_of_decimal (f : Byte → Byte → Bool → Byte × Bool) (w : BcdDraws) {v d : Long} (old : Ccr)
    (hv : decimal (natOf .b v)) (hd : decimal (natOf .b d)) :
    bcdOp f w v d old =
      let p := f (v.setWidth 8) (d.setWidth 8) old.x
      (p.1.setWidth 32, { x := p.2, n := w.n, z := if p.1 = 0 then old.z else false, v := w.v, c := p.2 }) := by
  rw [← toNat_setWidth_byte, ← isBcd_iff] at hv hd
  simp only [bcdOp, hv, hd, Bool.and_self, if_true]

/-- With decimal digits the result and C, X and Z follow the total (43_bcd.md R200). -/
theorem bcdOp_rule (hf : Calculates f total) (w : BcdDraws) {v d r : Long} (old : Ccr) (hv : decimal (natOf .b v))
    (hd : decimal (natOf .b d)) (hr : natOf .b r = natOf .b (bcdOp f w v d old).1) :
    DecimalRule (total (decimalValue (natOf .b v)) (decimalValue (natOf .b d)) old.x) old (natOf .b r)
      (bcdOp f w v d old).2 := by
  have hcalc := hf (v.setWidth 8) (d.setWidth 8) old.x
  simp only [toNat_setWidth_byte] at hcalc
  rw [bcdOp_of_decimal f w old hv hd, hcalc hv hd] at hr ⊢
  generalize total (decimalValue (natOf .b v)) (decimalValue (natOf .b d)) old.x = sum at hr ⊢
  have hlt : (sum % 100).toNat < 100 := by omega
  rw [hr, natOf_setWidth_long]
  refine ⟨decimal_bcdOf hlt, ?_, rfl, rfl, ite_eq_zero_and_decide old.z _⟩
  rw [decimalValue_bcdOf hlt]
  omega

/-- What a decimal calculation says of its operands, where both have decimal digits. -/
def DecimalOutcome (total : DecimalTotal) : AluOutcome := fun _ old src dst r flags =>
  decimal (natOf .b src) → decimal (natOf .b dst) →
    DecimalRule (total (decimalValue (natOf .b src)) (decimalValue (natOf .b dst)) old.x) old (natOf .b r) flags

theorem bcdOp_yields (hf : Calculates f total) (w : BcdDraws) :
    Yields (fun _ v d c => bcdOp f w v d c) (DecimalOutcome total) := by
  intro sz v d src dst r old hsrc hdst hr
  rw [DecimalOutcome, ← natOf_byte_congr hsrc, ← natOf_byte_congr hdst]
  exact fun hv hd => bcdOp_rule hf w old hv hd (natOf_byte_congr hr)

/-- ABCD and SBCD: a pair operation in the state that has taken its free values. -/
theorem bcdPair_yields {m : PairMode} {ry rx : Fin 8} {i : Instr} {s s1 s2 : State} {ls ld : Loc} (hf : Calculates f total)
    (hi : nextPc i s = s.pc + lengthOf 0 0) (hs : Sound s)
    (hsrc : resolve (pairOperand m ry) .b (extAt s 0) s = (ls, s1)) (hread : LocReadable s.cfg .b ls)
    (hdst : resolve (pairOperand m rx) .b (extAt s 0) s1 = (ld, s2)) (hw : Writable s.cfg .b ld) :
    ∃ t, finish (bcdPair f m ry rx s) = .next t ∧
      DecimalOutcome total .b s.sr.ccr (locValue .b s1 ls) (locValue .b s2 ld) (locValue .b t ld) t.sr.ccr ∧
        Changed i .b ld (bothSteps (pairOperand m ry) (pairOperand m rx)) s s2 t := by
  obtain ⟨t, ht, hout, hchanged⟩ := pairOp_yields (s := s.skipDraws bcdDrawCount) (bcdOp_yields hf s.bcdDraws) hi hs
    (resolve_skipDraws hsrc _) hread (resolve_skipDraws hdst _) hw
  rw [locValue_skipDraws, locValue_skipDraws] at hout
  exact ⟨t, ht, hout, changed_of_skipDraws hchanged⟩

end

end Sys2Proof.Machine

namespace Sys2Proof.Proofs

/-- Settles O49: NBCD is the difference with destination 0, its operand the source. -/
theorem decimalResults : Obligations.DecimalResults := by
  constructor
  case left =>
    intro m ry rx s s1 s2 ls ld hsound hsrc hread hdst hw
    exact ⟨bcdPair_yields bcdAdd_calculates rfl hsound hsrc hread hdst hw,
      bcdPair_yields bcdSub_calculates rfl hsound hsrc hread hdst hw⟩
  case right =>
    intro ea s s1 l _ hsound hres hw
    have hlen := nextPc_encEa (i := .nbcd ea) rfl rfl s
    obtain ⟨t, ht, hvalue, hccr, hchanged⟩ := modifyEa_changed (s := s.skipDraws bcdDrawCount) hsound
      (resolve_skipDraws hres _) hw (fun d => bcdOp bcdSub s.bcdDraws d 0 s.sr.ccr) (.nbcd ea) _ hlen
    rw [locValue_skipDraws] at hvalue hccr
    refine ⟨t, congrArg finish ht, fun hdigits => ?_, changed_of_skipDraws hchanged⟩
    have hrule := bcdOp_rule (d := 0) bcdSub_calculates s.bcdDraws s.sr.ccr hdigits ⟨by decide, by decide⟩
      ((congrArg (natOf .b) hvalue).trans (natOf_trunc .b _))
    rwa [show decimalValue (natOf .b 0) = 0 from rfl, differenceTotal_zero, ← hccr] at hrule

end Sys2Proof.Proofs
end

section
/-! Logic to an operand (44_logic.md R210, R211, R214, R215, R218, R219): what the shapes with a register or an immediate as source
and an operand changed in place leave, and the statement about AND, OR and EOR to an operand, ANDI, ORI and EORI. -/

open Sys2Proof Sys2Proof.Machine Sys2Proof.Safety

namespace Sys2Proof.Machine

theorem eorOp_yields : Yields eorOp (LogicOutcome fun d v => d ^^ v) := fun old hsrc hdst hr =>
  logicOutcome_of_getLsbD old hsrc hdst hr fun _ => BitVec.getLsbD_xor

section
variable {op : AluOp} {outcome : AluOutcome} {i : Instr} {sz : Size} {ea : Ea} {l : Loc} {s s1 : State}

/-- A data register is the source of an operand changed in place, at the operation's size (44_logic.md R210, second form). -/
theorem dnToEa_yields {dn : Fin 8} {ln b : Nat} (hop : Yields op outcome)
    (hi : encode i = encEa ln dn.val b sz.field [] sz ea) (hs : Sound s)
    (hres : resolve ea sz (extAt s 0) s = (l, s1)) (hw : Writable s.cfg sz l) :
    ∃ t, finish (dnToEa op sz dn ea s) = .next t ∧
      outcome sz s.sr.ccr (s.dreg dn) (locValue sz s1 l) (locValue sz t l) t.sr.ccr ∧ Changed i sz l (eaSteps ea) s s1 t :=
  modifyEa_yields hop (trunc_trunc sz (s.dreg dn)) s.sr.ccr (nextPc_encEa hi rfl s) hs hres hw

/-- An immediate is the source of an operand changed in place, its words before the operand's (44_logic.md R211). -/
theorem immToEa_yields {imm : Long} {d : Nat} (hop : Yields op outcome)
    (hi : encode i = encEa 0 d 0 sz.field (immWords sz imm) sz ea) (hs : Sound s)
    (hres : resolve ea sz (extAt s sz.immCount) s = (l, s1)) (hw : Writable s.cfg sz l) :
    ∃ t, finish (immToEa op sz imm ea s) = .next t ∧
      outcome sz s.sr.ccr imm (locValue sz s1 l) (locValue sz t l) t.sr.ccr ∧ Changed i sz l (eaSteps ea) s s1 t :=
  modifyEa_yields hop (trunc_trunc sz imm) s.sr.ccr (nextPc_encEa hi (immWords_length_eq sz imm) s) hs hres hw

end

end Sys2Proof.Machine

namespace Sys2Proof.Proofs

/-- Settles O44: two shapes, the register's and the immediate's, each with three bitwise operations. -/
theorem logicToOperandResults : Obligations.LogicToOperandResults := by
  intro sz ea dn imm s s1 s2 l m hsound hl hm rest
  have register {op : AluOp} {g : Bool → Bool → Bool} {i : Instr} {ln b : Nat} (hop : Yields op (LogicOutcome g))
      (hexec : exec i s = finish (dnToEa op sz dn ea s)) (hi : encode i = encEa ln dn.val b sz.field [] sz ea)
      (hw : Writable s.cfg sz l) :
      ∃ t, exec i s = .next t ∧ BitwiseRule g sz (s.dreg dn) (locValue sz s1 l) (locValue sz t l) ∧ rest i l s1 t := by
    obtain ⟨t, ht, ⟨hbits, hflags⟩, hchanged⟩ := dnToEa_yields hop hi hsound hl hw
    exact ⟨t, hexec.trans ht, hbits, hflags, hchanged⟩
  have immediate {op : AluOp} {g : Bool → Bool → Bool} {i : Instr} {d : Nat} (hop : Yields op (LogicOutcome g))
      (hexec : exec i s = finish (immToEa op sz imm ea s))
      (hi : encode i = encEa 0 d 0 sz.field (immWords sz imm) sz ea) (hw : Writable s.cfg sz m) :
      ∃ t, exec i s = .next t ∧ BitwiseRule g sz imm (locValue sz s2 m) (locValue sz t m) ∧ rest i m s2 t := by
    obtain ⟨t, ht, ⟨hbits, hflags⟩, hchanged⟩ := immToEa_yields hop hi hsound hm hw
    exact ⟨t, hexec.trans ht, hbits, hflags, hchanged⟩
  refine ⟨fun _ hw => ⟨?andDnEa, ?orDnEa⟩, fun _ hw => ?eor, fun _ hw => ⟨?andi, ?ori, ?eori⟩⟩
  case andDnEa => exact register andOp_yields rfl rfl hw
  case orDnEa => exact register orOp_yields rfl rfl hw
  case eor => exact register eorOp_yields rfl rfl hw
  case andi => exact immediate andOp_yields rfl rfl hw
  case ori => exact immediate orOp_yields rfl rfl hw
  case eori => exact immediate eorOp_yields rfl rfl hw

end Sys2Proof.Proofs
end

section
/-! Bits (45_bit_tas.md R230 to R234): the bit number at a size, what the operations that change one bit compute, what the shape that
tests a bit and the shape that changes one leave, and the statements about BTST and about BCHG, BCLR and BSET. -/

open Sys2Proof Sys2Proof.Machine Sys2Proof.Safety

namespace Sys2Proof.Machine

/-! ## The bit number -/

/-- A bit number counts modulo the operand's width, so what stands above that width in its register does not matter. -/
theorem bitIndex_congr {sz : Size} {v w : Long} (h : trunc sz v = trunc sz w) : bitIndex sz v = bitIndex sz w := by
  have hdvd : sz.bits ∣ 2 ^ sz.bits := by cases sz <;> decide
  have hmod (u : Long) : natOf sz u % sz.bits = bitIndex sz u := Nat.mod_mod_of_dvd u.toNat hdvd
  rw [← hmod v, natOf_congr h, hmod w]

theorem bitIndex_lt (sz : Size) (n : Long) : bitIndex sz n < sz.bits := Nat.mod_lt _ (by cases sz <;> decide)

theorem bitIndex_setWidth (sz : Size) (n : Byte) : bitIndex sz (n.setWidth 32) = n.toNat % sz.bits := by
  rw [bitIndex, BitVec.toNat_setWidth_of_le (by decide)]

theorem bits_le_long (sz : Size) : sz.bits ≤ 32 := by cases sz <;> decide

/-- The mask of a bit instruction has the bit it names and no other. -/
theorem getLsbD_bitMask {sz : Size} (n : Long) {k : Nat} (hk : k < sz.bits) :
    (BitVec.ofNat 32 (2 ^ bitIndex sz n)).getLsbD k = decide (k = bitIndex sz n) := by
  rw [BitVec.getLsbD_ofNat, decide_eq_true (hk.trans_le (bits_le_long sz)), Bool.true_and, Nat.testBit_two_pow]
  exact decide_eq_decide.2 eq_comm

/-! ## What an operation computes -/

/-- The bit that the source names replaced in the destination, Z from that bit before (45_bit_tas.md R230). -/
def BitOutcome (f : Bool → Bool) : AluOutcome := fun sz old src dst r flags =>
  OneBitRule f sz (bitIndex sz src) dst r ∧ flags = bitCcr sz src dst old

/-- An operation that combines every bit with the mask's has a bit outcome, where a clear bit of the mask keeps the bit and a set
one replaces it. -/
theorem bitOutcome_of_getLsbD {f : Bool → Bool} (g : Bool → Bool → Bool) {sz : Size} {v w src dst r r' : Long} (old : Ccr)
    (hsrc : trunc sz v = trunc sz src) (hdst : trunc sz w = trunc sz dst) (hr : trunc sz r' = trunc sz r)
    (hbits : ∀ k < sz.bits, r.getLsbD k = g (w.getLsbD k) ((BitVec.ofNat 32 (2 ^ bitIndex sz v)).getLsbD k))
    (hclear : ∀ b, g b false = b) (hset : ∀ b, g b true = f b) : BitOutcome f sz old src dst r' (bitCcr sz v w old) := by
  refine ⟨fun k hk => ?bit, ?flags⟩
  case bit =>
    rw [getLsbD_congr hr hk, hbits k hk, getLsbD_bitMask v hk, getLsbD_congr hdst hk, ← bitIndex_congr hsrc]
    by_cases hidx : k = bitIndex sz v
    · rw [if_pos hidx, decide_eq_true hidx, hset]
    · rw [if_neg hidx, decide_eq_false hidx, hclear]
  case flags =>
    rw [bitCcr, bitCcr, bitIndex_congr hsrc, getLsbD_congr hdst (bitIndex_lt sz src)]

theorem bchgOp_yields : Yields bchgOp (BitOutcome fun b => !b) := fun old hsrc hdst hr =>
  bitOutcome_of_getLsbD xor old hsrc hdst hr (fun _ _ => BitVec.getLsbD_xor) Bool.xor_false Bool.xor_true

theorem bclrOp_yields : Yields bclrOp (BitOutcome fun _ => false) := fun {sz v w _ _ _} old hsrc hdst hr => by
  refine bitOutcome_of_getLsbD (r := w &&& ~~~(BitVec.ofNat 32 (2 ^ bitIndex sz v))) (fun b m => b && !m) old hsrc hdst hr
    (fun k hk => ?_) Bool.and_true Bool.and_false
  rw [BitVec.getLsbD_and, BitVec.getLsbD_not, decide_eq_true (hk.trans_le (bits_le_long sz)), Bool.true_and]

theorem bsetOp_yields : Yields bsetOp (BitOutcome fun _ => true) := fun old hsrc hdst hr =>
  bitOutcome_of_getLsbD or old hsrc hdst hr (fun _ _ => BitVec.getLsbD_or) Bool.or_false Bool.or_true

/-! ## What a shape leaves -/

/-- An operand of a bit instruction has as many extension words at either width. -/
theorem words_bitSize (ea : Ea) : ea.words (bitSize ea) = ea.words .b := by cases ea <;> rfl

section
variable {i : Instr} {ea : Ea} {d b sc own idx : Nat} {ws : List Word} {n : Long} {l : Loc} {s s1 : State}

theorem nextPc_bit (hi : encode i = encEa 0 d b sc ws .b ea) (hown : ws.length = own) (s : State) :
    nextPc i s = s.pc + lengthOf own (ea.words (bitSize ea)) := by
  rw [words_bitSize, nextPc_encEa hi hown]

/-- BTST reads its operand, sets Z, and leaves the rest (45_bit_tas.md R231). -/
theorem bitTest_advanced
    (hexec : exec i s = finish (testEa own (bitSize ea) ea (fun d c => bitCcr (bitSize ea) n d c) s))
    (hi : encode i = encEa 0 d b sc ws .b ea) (hown : ws.length = own) (hidx : bitIndex (bitSize ea) n = idx)
    (hres : resolve ea (bitSize ea) (extAt s own) s = (l, s1)) (hread : LocReadable s.cfg (bitSize ea) l) :
    ∃ t, exec i s = .next t ∧ t.sr.ccr = { s.sr.ccr with z := !(locValue (bitSize ea) s1 l).getLsbD idx } ∧
      Advanced i noReg (eaSteps ea) [] s s1 t := by
  subst hidx
  exact ⟨_, hexec.trans (congrArg finish (testEa_of_resolve _ hres hread)), rfl,
    advanced_setCcr (kept_of_resolve hres) (pc_of_resolve hres) (nextPc_bit hi hown s) _⟩

/-- The other three change one bit of their operand in place (45_bit_tas.md R232 to R234). -/
theorem bitEa_changed {op : AluOp} {f : Bool → Bool} (hop : Yields op (BitOutcome f))
    (hexec : exec i s = finish (bitEa op own n ea s)) (hi : encode i = encEa 0 d b sc ws .b ea) (hown : ws.length = own)
    (hidx : bitIndex (bitSize ea) n = idx) (hs : Sound s) (hres : resolve ea (bitSize ea) (extAt s own) s = (l, s1))
    (hw : Writable s.cfg (bitSize ea) l) :
    ∃ t, exec i s = .next t ∧ OneBitRule f (bitSize ea) idx (locValue (bitSize ea) s1 l) (locValue (bitSize ea) t l) ∧
      t.sr.ccr = { s.sr.ccr with z := !(locValue (bitSize ea) s1 l).getLsbD idx } ∧
        Changed i (bitSize ea) l (eaSteps ea) s s1 t := by
  subst hidx
  obtain ⟨t, ht, ⟨hbit, hflags⟩, hchanged⟩ := modifyEa_yields hop rfl s.sr.ccr (nextPc_bit hi hown s) hs hres hw
  exact ⟨t, hexec.trans ht, hbit, hflags, hchanged⟩

end

end Sys2Proof.Machine

namespace Sys2Proof.Proofs

/-- Settles O45: one shape, with the bit number in a register or an immediate. -/
theorem bitTestOnlyZ : Obligations.BitTestOnlyZ := by
  intro n dn ea s s1 s2 l m sz hl hm
  refine ⟨fun _ hread => ?register, fun _ hread => ?immediate⟩
  case register => exact bitTest_advanced rfl rfl rfl rfl hl hread
  case immediate => exact bitTest_advanced rfl rfl rfl (bitIndex_setWidth sz n) hm hread

/-- Settles O46: one shape, with the bit number in a register or an immediate and three operations each. -/
theorem bitChangeOneBit : Obligations.BitChangeOneBit := by
  constructor
  case left =>
    intro dn ea s s1 l sz idx _ hs hres hw rest
    exact ⟨bitEa_changed bchgOp_yields rfl rfl rfl rfl hs hres hw,
      bitEa_changed bclrOp_yields rfl rfl rfl rfl hs hres hw,
      bitEa_changed bsetOp_yields rfl rfl rfl rfl hs hres hw⟩
  case right =>
    intro n ea s s1 l sz idx _ hs hres hw rest
    have hidx := bitIndex_setWidth sz n
    exact ⟨bitEa_changed bchgOp_yields rfl rfl rfl hidx hs hres hw,
      bitEa_changed bclrOp_yields rfl rfl rfl hidx hs hres hw,
      bitEa_changed bsetOp_yields rfl rfl rfl hidx hs hres hw⟩

end Sys2Proof.Proofs
end

section
/-! Shifts and rotates (46_shift_rotate.md R240 to R250): the one-bit steps and their repetition as plain numbers, what the
register and the memory form leave, and the statement about all eight. -/

open Sys2Proof Sys2Proof.Machine Sys2Proof.Safety

namespace Sys2Proof.Machine

/-! ## One place, as numbers -/

theorem bits_pos (sz : Size) : 0 < sz.bits := by cases sz <;> decide

theorem natOf_of_lt {sz : Size} {d : Long} (h : d.toNat < 2 ^ sz.bits) : natOf sz d = d.toNat := Nat.mod_eq_of_lt h

/-- What is shifted left stays even within its width. -/
theorem double_mod_two_pow {n : Nat} (hn : 0 < n) (d : Nat) : 2 * d % 2 ^ n = 2 * (d % 2 ^ (n - 1)) := by
  rw [← Nat.two_pow_pred_mul_two hn, Nat.mul_comm _ 2, Nat.mul_mod_mul_left]

theorem getLsbD_zero_eq_odd (d : Long) : d.getLsbD 0 = decide (d.toNat % 2 = 1) := by
  rw [BitVec.getLsbD, Nat.testBit_zero]

theorem intOf_neg_iff (sz : Size) (v : Long) : intOf sz v < 0 ↔ 2 ^ (sz.bits - 1) ≤ natOf sz v := by
  have hlt := natOf_lt sz v
  have hcast : ((2 ^ sz.bits : Nat) : Int) = 2 ^ sz.bits := Nat.cast_pow 2 sz.bits
  rw [intOf]
  split <;> omega

theorem msb_eq_half_le {sz : Size} {d : Long} (h : d.toNat < 2 ^ sz.bits) :
    msb sz d = decide (2 ^ (sz.bits - 1) ≤ d.toNat) := by
  rw [msb_eq_sign, ← natOf_of_lt h]
  exact decide_eq_decide.2 (intOf_neg_iff sz d)

/-- The bit that enters on the left stands below an even number. -/
theorem shiftLeft1_toNat (sz : Size) (d : Long) (i : Bool) :
    (shiftLeft1 sz d i).toNat = 2 * d.toNat % 2 ^ sz.bits + i.toNat := by
  have hi : i.toNat < 2 ^ 1 := i.toNat_lt
  have hshift : (trunc sz (d <<< 1)).toNat = 2 * d.toNat % 2 ^ sz.bits := by
    rw [trunc_toNat, natOf, BitVec.toNat_shiftLeft, Nat.shiftLeft_eq]
    cases sz <;> simp only [Size.bits] <;> omega
  have hin : (BitVec.ofNat 32 i.toNat).toNat = i.toNat := by cases i <;> rfl
  rw [shiftLeft1, BitVec.toNat_or, hshift, hin, double_mod_two_pow (bits_pos sz)]
  exact (Nat.two_pow_add_eq_or_of_lt hi _).symm

/-- The bit that enters on the right stands above what is left. -/
theorem shiftRight1_toNat {sz : Size} {d : Long} (h : d.toNat < 2 ^ sz.bits) (i : Bool) :
    (shiftRight1 sz d i).toNat = d.toNat / 2 + i.toNat * 2 ^ (sz.bits - 1) := by
  have hlow : d.toNat / 2 < 2 ^ (sz.bits - 1) := by
    have hhalf := Nat.two_pow_pred_mul_two (bits_pos sz)
    omega
  have hin : (BitVec.ofNat 32 (i.toNat * 2 ^ (sz.bits - 1))).toNat = 2 ^ (sz.bits - 1) * i.toNat := by
    cases sz <;> cases i <;> rfl
  rw [shiftRight1, BitVec.toNat_or, BitVec.toNat_ushiftRight, Nat.shiftRight_eq_div_pow, pow_one, hin, Nat.or_comm,
    ← Nat.two_pow_add_eq_or_of_lt hlow, Nat.add_comm, Nat.mul_comm]

/-! ## The steps, as numbers -/

/-- What a shift carries along, as plain numbers. -/
def ShiftAcc.numbers (a : ShiftAcc) : ShiftNumbers := { d := a.d.toNat, x := a.x, c := a.c, v := a.v }

/-- A step keeps to its width. -/
theorem shiftNumbersStep_lt (k : ShiftKind) {n : Nat} (hn : 0 < n) {a : ShiftNumbers} (h : a.d < 2 ^ n) :
    (shiftNumbersStep k n a).d < 2 ^ n := by
  have hhalf := Nat.two_pow_pred_mul_two hn
  have hleft (i : Bool) : 2 * a.d % 2 ^ n + i.toNat < 2 ^ n := by
    have hi := i.toNat_le
    have hmod := Nat.mod_lt a.d (Nat.two_pow_pos (n - 1))
    rw [double_mod_two_pow hn]
    omega
  have hright (i : Bool) : a.d / 2 + i.toNat * 2 ^ (n - 1) < 2 ^ n := by
    cases i <;> simp only [Bool.toNat_true, Bool.toNat_false] <;> omega
  cases k
  case asl | lsl | rol | roxl => exact hleft _
  case asr | lsr | ror | roxr => exact hright _

theorem shiftStep_numbers (k : ShiftKind) {sz : Size} {a : ShiftAcc} (h : a.d.toNat < 2 ^ sz.bits) :
    (shiftStep k sz a).numbers = shiftNumbersStep k sz.bits a.numbers := by
  have hleft := shiftLeft1_toNat sz a.d
  have hright := shiftRight1_toNat h
  have htop := msb_eq_half_le h
  have hlow := getLsbD_zero_eq_odd a.d
  cases k
  case asl =>
    have hshifted := msb_eq_half_le (sz := sz) (d := shiftLeft1 sz a.d false)
      ((hleft false).trans_lt (Nat.mod_lt _ (Nat.two_pow_pos _)))
    simp only [shiftStep, ShiftAcc.numbers, hshifted, hleft, htop, bne_comm]
    rfl
  case lsl | rol | roxl =>
    simp only [shiftStep, ShiftAcc.numbers, hleft, htop]
    rfl
  case asr | lsr | ror | roxr =>
    simp only [shiftStep, ShiftAcc.numbers, hright, htop, hlow]
    rfl

theorem shiftLoop_numbers (k : ShiftKind) {sz : Size} (count : Nat) {a : ShiftAcc} (h : a.d.toNat < 2 ^ sz.bits) :
    (shiftLoop k sz count a).numbers = shiftNumbers k sz.bits count a.numbers ∧
      (shiftLoop k sz count a).d.toNat < 2 ^ sz.bits := by
  induction count generalizing a with
  | zero => exact ⟨rfl, h⟩
  | succ j ih =>
    have hstep := shiftStep_numbers k h
    have hlt : (shiftStep k sz a).d.toNat < 2 ^ sz.bits := by
      have hnext := shiftNumbersStep_lt k (bits_pos sz) (a := a.numbers) h
      rwa [← hstep] at hnext
    rw [shiftLoop, shiftNumbers, ← hstep]
    exact ih hlt

theorem zeroCountC_eq (k : ShiftKind) (p : RoxZeroCountC) (x : Bool) : zeroCountC k p x = zeroCountCarry k p x := by
  cases k <;> cases p <;> rfl

/-- The frame of R250 follows the rule over numbers, wherever its result is put at the size. -/
theorem shiftOp_rule (k : ShiftKind) (p : RoxZeroCountC) {sz : Size} (count : Nat) {d dst r : Long} (old : Ccr)
    (hd : d.toNat = natOf sz dst) (hr : natOf sz r = natOf sz (shiftOp k p sz count d old).1) :
    ShiftRule k p sz count dst old r (shiftOp k p sz count d old).2 := by
  obtain ⟨hloop, hlt⟩ := shiftLoop_numbers k count (sz := sz)
    (a := { d := d, x := old.x, c := zeroCountC k p old.x, v := false }) (hd ▸ natOf_lt sz dst)
  have hvalue := natOf_of_lt hlt
  have hzero : (shiftOp k p sz count d old).1 = 0 ↔ natOf sz r = 0 := by
    rw [hr, shiftOp, hvalue]
    exact BitVec.toNat_inj.symm
  rw [ShiftAcc.numbers, ShiftAcc.numbers, hd] at hloop
  rw [ShiftRule, ← zeroCountC_eq, ← hloop, intOf_congr hr]
  exact ⟨hr.trans hvalue, rfl, rfl, rfl, msb_eq_sign sz _, decide_eq_decide.2 hzero⟩

/-! ## What the two forms leave -/

theorem load_toNat_lt (s : State) (sz : Size) (a : Long) : (s.load sz a).toNat < 2 ^ sz.bits := by
  cases sz with
  | b => exact load_byte_toNat s a ▸ (s.byteAt a).isLt
  | w =>
    rw [load_word_eq_wordAt, BitVec.toNat_setWidth_of_le (by decide)]
    exact (s.wordAt a).isLt
  | l => exact (s.load .l a).isLt

/-- A location holds nothing above the size it is read at. -/
theorem locValue_toNat (sz : Size) (s : State) (l : Loc) : (locValue sz s l).toNat = natOf sz (locValue sz s l) := by
  have htrunc (v : Long) : (trunc sz v).toNat = natOf sz (trunc sz v) := by rw [trunc_toNat, natOf_trunc]
  cases l with
  | dreg r => exact htrunc (s.dreg r)
  | areg r => exact htrunc (s.areg r)
  | mem a => exact (natOf_of_lt (load_toNat_lt s sz a)).symm
  | imm v => exact htrunc v

theorem shiftCountOf_eq (s : State) (c : ShiftCount) : shiftCountOf s c = countOf s c := by cases c <;> rfl

theorem exec_shiftInstr (k : ShiftKind) (sz : Size) (c : ShiftCount) (dn : Fin 8) (s : State) :
    exec (shiftInstr k sz c dn) s = finish (shiftReg k sz c dn s) := by cases k <;> rfl

theorem nextPc_shiftInstr (k : ShiftKind) (sz : Size) (c : ShiftCount) (dn : Fin 8) (s : State) :
    nextPc (shiftInstr k sz c dn) s = s.pc + lengthOf 0 0 := by cases k <;> rfl

theorem exec_shiftMemInstr (k : ShiftKind) (ea : Ea) (s : State) :
    exec (shiftMemInstr k ea) s = finish (shiftMem k ea s) := by cases k <;> rfl

theorem encode_shiftMemInstr (k : ShiftKind) (ea : Ea) :
    ∃ tt dir, encode (shiftMemInstr k ea) = encEa 14 tt dir 3 [] .w ea := by cases k <;> exact ⟨_, _, rfl⟩

/-- The register form changes the low bits of its register and the flags (46_shift_rotate.md R250). -/
theorem shiftInstr_rule (k : ShiftKind) (sz : Size) (c : ShiftCount) (dn : Fin 8) (s : State) :
    ∃ t, exec (shiftInstr k sz c dn) s = .next t ∧
      ShiftRule k s.cfg.roxZeroCountC sz (countOf s c) (s.dreg dn) s.sr.ccr (t.dreg dn) t.sr.ccr ∧
      UpperKept sz (s.dreg dn) (t.dreg dn) ∧ Advanced (shiftInstr k sz c dn) (oneReg dn) noReg [] s s t := by
  rw [← shiftCountOf_eq]
  let p := shiftOp k s.cfg.roxZeroCountC sz (shiftCountOf s c) (s.dregAt sz dn) s.sr.ccr
  let t := ((s.setDregAt sz dn p.1).setCcr p.2).advance (lengthOf 0 0)
  have hreg : t.dreg dn = insertLow sz (s.dreg dn) p.1 := s.dreg_setDregAt_same sz dn p.1
  refine ⟨t, exec_shiftInstr k sz c dn s, ?rule, ?upper, (nextPc_shiftInstr k sz c dn s).symm, fun _ => rfl,
    kept_finish (kept_setDreg s dn _) _ _⟩
  case rule =>
    refine shiftOp_rule k _ _ s.sr.ccr (trunc_toNat sz (s.dreg dn)) ?_
    rw [hreg, natOf_insertLow]
  case upper =>
    rw [hreg]
    exact upperKept_insertLow sz _ _

/-- The memory form changes its word in place and the flags (46_shift_rotate.md R250). -/
theorem shiftMemInstr_rule (k : ShiftKind) {ea : Ea} {s s1 : State} {l : Loc} (hs : Sound s)
    (hres : resolve ea .w (extAt s 0) s = (l, s1)) (hw : Writable s.cfg .w l) :
    ∃ t, exec (shiftMemInstr k ea) s = .next t ∧
      ShiftRule k s.cfg.roxZeroCountC .w 1 (locValue .w s1 l) s.sr.ccr (locValue .w t l) t.sr.ccr ∧
      Changed (shiftMemInstr k ea) .w l (eaSteps ea) s s1 t := by
  obtain ⟨tt, dir, hi⟩ := encode_shiftMemInstr k ea
  obtain ⟨t, ht, hvalue, hccr, hchanged⟩ := modifyEa_changed hs hres hw
    (fun d => shiftOp k s.cfg.roxZeroCountC .w 1 d s.sr.ccr) (shiftMemInstr k ea) _ (nextPc_encEa hi rfl s)
  refine ⟨t, (exec_shiftMemInstr k ea s).trans (congrArg finish ht), ?_, hchanged⟩
  rw [hccr]
  refine shiftOp_rule k _ 1 s.sr.ccr (locValue_toNat .w s1 l) ?_
  rw [hvalue, natOf_trunc]

end Sys2Proof.Machine

namespace Sys2Proof.Proofs

/-- Settles O47: the register form, and the memory form with the count 1. -/
theorem shiftStepRepeated : Obligations.ShiftStepRepeated :=
  ⟨shiftInstr_rule, fun k _ _ _ _ _ hs hres hw => shiftMemInstr_rule k hs hres hw⟩

end Sys2Proof.Proofs
end

section
/-! The closed forms of ASL, ASR, LSL and LSR for a count of at least one (46_shift_rotate.md R251): first for the repeated step
over plain numbers, then for the register form, and the statement about them. -/

open Sys2Proof Sys2Proof.Machine Sys2Proof.Safety

namespace Sys2Proof.Machine

/-! ## The last step -/

/-- A count of `j + 1` ends with one step after `j` others. -/
theorem shiftNumbers_succ (k : ShiftKind) (n j : Nat) (a : ShiftNumbers) :
    shiftNumbers k n (j + 1) a = shiftNumbersStep k n (shiftNumbers k n j a) := by
  induction j generalizing a with
  | zero => rfl
  | succ j ih => rw [shiftNumbers, ih, shiftNumbers]

theorem shiftNumbers_lt (k : ShiftKind) {n : Nat} (hn : 0 < n) {a : ShiftNumbers} (h : a.d < 2 ^ n) (j : Nat) :
    (shiftNumbers k n j a).d < 2 ^ n := by
  induction j with
  | zero => exact h
  | succ j ih =>
    rw [shiftNumbers_succ]
    exact shiftNumbersStep_lt k hn ih

/-- V after a step that is not ASL's is clear (46_shift_rotate.md R243 to R249). -/
theorem shiftNumbersStep_v {k : ShiftKind} (hk : k ≠ .asl) (n : Nat) (a : ShiftNumbers) :
    (shiftNumbersStep k n a).v = false := by
  cases k
  case asl => exact absurd rfl hk
  all_goals rfl

/-! ## The top bit -/

theorem div_half_lt_two {n d : Nat} (hn : 0 < n) (h : d < 2 ^ n) : d / 2 ^ (n - 1) < 2 := by
  rwa [Nat.div_lt_iff_lt_mul (Nat.two_pow_pos _), Nat.mul_comm, Nat.two_pow_pred_mul_two hn]

theorem half_le_eq_testBit {n d : Nat} (hn : 0 < n) (h : d < 2 ^ n) : decide (2 ^ (n - 1) ≤ d) = d.testBit (n - 1) := by
  have hlt := div_half_lt_two hn h
  rw [Nat.testBit_eq_decide_div_mod_eq]
  refine decide_eq_decide.2 ?_
  rw [← Nat.one_le_div_iff (Nat.two_pow_pos _)]
  generalize d / 2 ^ (n - 1) = q at hlt
  omega

/-- After `j` places to the left the top bit is the operand's bit `j` places below it, and clear when there is none. -/
theorem half_le_shifted {n : Nat} (hn : 0 < n) (d j : Nat) :
    decide (2 ^ (n - 1) ≤ d * 2 ^ j % 2 ^ n) = (decide (j + 1 ≤ n) && decide (d / 2 ^ (n - (j + 1)) % 2 = 1)) := by
  have htop : n - 1 < n := by omega
  have hplace : n - 1 - j = n - (j + 1) := by omega
  have hin : n - 1 ≥ j ↔ j + 1 ≤ n := by omega
  rw [half_le_eq_testBit hn (Nat.mod_lt _ (Nat.two_pow_pos n)), Nat.testBit_mod_two_pow, Nat.testBit_mul_two_pow,
    Nat.testBit_eq_decide_div_mod_eq, decide_eq_true htop, Bool.true_and, hplace, decide_eq_decide.2 hin]

/-! ## To the left -/

section
variable {k : ShiftKind} {n : Nat} {a : ShiftNumbers}

/-- ASL and LSL differ in V alone (46_shift_rotate.md R244). -/
theorem shiftNumbersStep_left (hk : k = .asl ∨ k = .lsl) (n : Nat) (a : ShiftNumbers) :
    (shiftNumbersStep k n a).d = 2 * a.d % 2 ^ n ∧ (shiftNumbersStep k n a).c = decide (2 ^ (n - 1) ≤ a.d) ∧
      (shiftNumbersStep k n a).x = (shiftNumbersStep k n a).c := by
  rcases hk with rfl | rfl <;> exact ⟨rfl, rfl, rfl⟩

theorem shiftNumbers_left_d (hk : k = .asl ∨ k = .lsl) (h : a.d < 2 ^ n) (j : Nat) :
    (shiftNumbers k n j a).d = a.d * 2 ^ j % 2 ^ n := by
  induction j with
  | zero => rw [shiftNumbers, pow_zero, Nat.mul_one, Nat.mod_eq_of_lt h]
  | succ j ih =>
    obtain ⟨hd, -, -⟩ := shiftNumbersStep_left hk n (shiftNumbers k n j a)
    rw [shiftNumbers_succ, hd, ih, Nat.mul_mod_mod, pow_succ', Nat.mul_left_comm]

/-- The last bit out on the left goes to C and to X. -/
theorem shiftNumbers_left_carry (hk : k = .asl ∨ k = .lsl) (hn : 0 < n) (h : a.d < 2 ^ n) (j : Nat) :
    (shiftNumbers k n (j + 1) a).c = (decide (j + 1 ≤ n) && decide (a.d / 2 ^ (n - (j + 1)) % 2 = 1)) ∧
      (shiftNumbers k n (j + 1) a).x = (shiftNumbers k n (j + 1) a).c := by
  obtain ⟨-, hc, hx⟩ := shiftNumbersStep_left hk n (shiftNumbers k n j a)
  rw [shiftNumbers_succ]
  exact ⟨by rw [hc, shiftNumbers_left_d hk h, half_le_shifted hn], hx⟩

/-- V of ASL stays clear in a step that keeps the top bit. -/
theorem shiftNumbers_asl_v_succ (hn : 0 < n) (h : a.d < 2 ^ n) (j : Nat) :
    (shiftNumbers .asl n (j + 1) a).v = false ↔ (shiftNumbers .asl n j a).v = false ∧
      (j + 1 ≤ n ∧ a.d / 2 ^ (n - (j + 1)) % 2 = 1 ↔ j + 2 ≤ n ∧ a.d / 2 ^ (n - (j + 2)) % 2 = 1) := by
  have htop (i : Nat) : decide (2 ^ (n - 1) ≤ (shiftNumbers .asl n i a).d) =
      decide (i + 1 ≤ n ∧ a.d / 2 ^ (n - (i + 1)) % 2 = 1) := by
    rw [shiftNumbers_left_d (.inl rfl) h, half_le_shifted hn, Bool.decide_and]
  have hv : (shiftNumbers .asl n (j + 1) a).v = ((shiftNumbers .asl n j a).v ||
      (decide (2 ^ (n - 1) ≤ (shiftNumbers .asl n j a).d) != decide (2 ^ (n - 1) ≤ (shiftNumbers .asl n (j + 1) a).d))) := by
    rw [shiftNumbers_succ]
    rfl
  rw [hv, htop, htop, Bool.or_eq_false_iff, bne_eq_false_iff_eq, decide_eq_decide]

/-- The top `j + 1` bits of the operand were all equal, or, with every bit shifted out, it was zero (46_shift_rotate.md R242). -/
theorem shiftNumbers_asl_v (hn : 0 < n) (h : a.d < 2 ^ n) (hv : a.v = false) (j : Nat) :
    (shiftNumbers .asl n j a).v = false ↔
      (j < n ∧ (a.d / 2 ^ (n - 1 - j) = 0 ∨ a.d / 2 ^ (n - 1 - j) = 2 ^ (j + 1) - 1)) ∨ (n ≤ j ∧ a.d = 0) := by
  induction j with
  | zero =>
    have hlt := div_half_lt_two hn h
    rw [shiftNumbers, Nat.sub_zero]
    generalize a.d / 2 ^ (n - 1) = q at hlt
    exact iff_of_true hv (.inl ⟨hn, by omega⟩)
  | succ j ih =>
    have hpos := Nat.two_pow_pos j
    rw [shiftNumbers_asl_v_succ hn h, ih, Nat.pow_succ' (n := j + 1), Nat.pow_succ' (n := j)]
    generalize 2 ^ j = p at hpos
    rcases Nat.lt_trichotomy (j + 1) n with hlt | rfl | hgt
    · -- One more bit of the operand is among those compared.
      have hbefore : n - 1 - j = n - (j + 2) + 1 := by omega
      have htop : n - (j + 1) = n - (j + 2) + 1 := by omega
      have hafter : n - 1 - (j + 1) = n - (j + 2) := by omega
      rw [hbefore, htop, hafter, Nat.pow_succ, ← Nat.div_div_eq_div_mul]
      generalize a.d / 2 ^ (n - (j + 2)) = q
      omega
    · -- The operand is out, and the first zero follows its last bit.
      rw [Nat.add_sub_cancel, Nat.sub_self, Nat.sub_self, pow_zero, Nat.div_one]
      omega
    · -- Only zeros are left.
      omega

end

/-! ## To the right -/

/-- The signed value of a number of a width. -/
def signedOf (n d : Nat) : Int := if d < 2 ^ (n - 1) then (d : Int) else (d : Int) - 2 ^ n

theorem signedOf_natOf (sz : Size) (v : Long) : signedOf sz.bits (natOf sz v) = intOf sz v := rfl

section
variable {n : Nat} {a : ShiftNumbers}

theorem shiftNumbers_lsr_d (j : Nat) : (shiftNumbers .lsr n j a).d = a.d / 2 ^ j := by
  induction j with
  | zero => rw [shiftNumbers, pow_zero, Nat.div_one]
  | succ j ih =>
    have hd : (shiftNumbersStep .lsr n (shiftNumbers .lsr n j a)).d = (shiftNumbers .lsr n j a).d / 2 + 0 * 2 ^ (n - 1) := rfl
    rw [shiftNumbers_succ, hd, ih, Nat.div_div_eq_div_mul, ← pow_succ, Nat.zero_mul, Nat.add_zero]

/-- The top bit replicated halves the signed value, rounding down. -/
theorem signedOf_asr (hn : 0 < n) (h : a.d < 2 ^ n) : signedOf n (shiftNumbersStep .asr n a).d = signedOf n a.d / 2 := by
  have hhalf := Nat.two_pow_pred_mul_two hn
  have hcast : ((2 ^ n : Nat) : Int) = 2 ^ n := Nat.cast_pow 2 n
  have hd : (shiftNumbersStep .asr n a).d = a.d / 2 + (decide (2 ^ (n - 1) ≤ a.d)).toNat * 2 ^ (n - 1) := rfl
  rw [hd, signedOf, signedOf, ← hcast]
  by_cases hneg : 2 ^ (n - 1) ≤ a.d
  · rw [decide_eq_true hneg, Bool.toNat_true, Nat.one_mul, if_neg (by omega), if_neg (by omega)]
    omega
  · rw [decide_eq_false hneg, Bool.toNat_false, Nat.zero_mul, if_pos (by omega), if_pos (by omega)]
    omega

/-- A width's power is even, so the signed value and its number have the same low bit. -/
theorem signedOf_mod_two (hn : 0 < n) (d : Nat) : signedOf n d % 2 = 1 ↔ d % 2 = 1 := by
  have hhalf := Nat.two_pow_pred_mul_two hn
  have hcast : ((2 ^ n : Nat) : Int) = 2 ^ n := Nat.cast_pow 2 n
  rw [signedOf, ← hcast]
  split <;> omega

theorem shiftNumbers_asr_d (hn : 0 < n) (h : a.d < 2 ^ n) (j : Nat) :
    signedOf n (shiftNumbers .asr n j a).d = signedOf n a.d / 2 ^ j := by
  induction j with
  | zero => rw [shiftNumbers, pow_zero, Int.ediv_one]
  | succ j ih =>
    rw [shiftNumbers_succ, signedOf_asr hn (shiftNumbers_lt .asr hn h j), ih, Int.ediv_ediv_of_nonneg (by positivity), pow_succ]

/-- The last bit out on the right goes to C and to X. -/
theorem shiftNumbers_lsr_carry (j : Nat) : (shiftNumbers .lsr n (j + 1) a).c = decide (a.d / 2 ^ j % 2 = 1) ∧
    (shiftNumbers .lsr n (j + 1) a).x = (shiftNumbers .lsr n (j + 1) a).c := by
  rw [shiftNumbers_succ, ← shiftNumbers_lsr_d]
  exact ⟨rfl, rfl⟩

theorem shiftNumbers_asr_carry (hn : 0 < n) (h : a.d < 2 ^ n) (j : Nat) :
    (shiftNumbers .asr n (j + 1) a).c = decide (signedOf n a.d / 2 ^ j % 2 = 1) ∧
      (shiftNumbers .asr n (j + 1) a).x = (shiftNumbers .asr n (j + 1) a).c := by
  rw [shiftNumbers_succ, ← shiftNumbers_asr_d hn h, decide_eq_decide.2 (signedOf_mod_two hn _)]
  exact ⟨rfl, rfl⟩

end

/-! ## From the rule over numbers -/

section
variable {k : ShiftKind} {p : RoxZeroCountC} {sz : Size} {count : Nat} {dst r : Long} {old f : Ccr}

/-- A shift is a repeated step that starts from the operand with V clear. -/
theorem shiftRule_start (h : ShiftRule k p sz count dst old r f) :
    ∃ a : ShiftNumbers, a.d = natOf sz dst ∧ a.v = false ∧ a.d < 2 ^ sz.bits ∧
      natOf sz r = (shiftNumbers k sz.bits count a).d ∧ f.x = (shiftNumbers k sz.bits count a).x ∧
      f.c = (shiftNumbers k sz.bits count a).c ∧ f.v = (shiftNumbers k sz.bits count a).v := by
  obtain ⟨hd, hx, hc, hv, -⟩ := h
  exact ⟨_, rfl, rfl, natOf_lt sz dst, hd, hx, hc, hv⟩

theorem shiftRule_v (hk : k ≠ .asl) (h : ShiftRule k p sz count dst old r f) : f.v = false := by
  obtain ⟨a, -, hclear, -, -, -, -, hv⟩ := shiftRule_start h
  cases count with
  | zero => exact hv.trans hclear
  | succ j => rw [hv, shiftNumbers_succ, shiftNumbersStep_v hk]

theorem shiftRule_left (hk : k = .asl ∨ k = .lsl) (hcount : 1 ≤ count) (h : ShiftRule k p sz count dst old r f) :
    natOf sz r = natOf sz dst * 2 ^ count % 2 ^ sz.bits ∧
      f.c = (decide (count ≤ sz.bits) && decide (natOf sz dst / 2 ^ (sz.bits - count) % 2 = 1)) ∧ f.x = f.c := by
  obtain ⟨j, rfl⟩ := Nat.exists_eq_add_of_le' hcount
  obtain ⟨a, ha, -, hlt, hd, hx, hc, -⟩ := shiftRule_start h
  obtain ⟨hlast, hxc⟩ := shiftNumbers_left_carry hk (bits_pos sz) hlt j
  rw [hd, hx, hc, hxc, shiftNumbers_left_d hk hlt, hlast, ha]
  exact ⟨rfl, rfl, rfl⟩

theorem shiftRule_asl_v (h : ShiftRule .asl p sz count dst old r f) :
    f.v = false ↔
      (count < sz.bits ∧ (natOf sz dst / 2 ^ (sz.bits - 1 - count) = 0 ∨
        natOf sz dst / 2 ^ (sz.bits - 1 - count) = 2 ^ (count + 1) - 1)) ∨ (sz.bits ≤ count ∧ natOf sz dst = 0) := by
  obtain ⟨a, ha, hclear, hlt, -, -, -, hv⟩ := shiftRule_start h
  rw [hv, ← ha]
  exact shiftNumbers_asl_v (bits_pos sz) hlt hclear count

theorem shiftRule_lsr (hcount : 1 ≤ count) (h : ShiftRule .lsr p sz count dst old r f) :
    natOf sz r = natOf sz dst / 2 ^ count ∧ f.c = decide (natOf sz dst / 2 ^ (count - 1) % 2 = 1) ∧ f.x = f.c := by
  obtain ⟨j, rfl⟩ := Nat.exists_eq_add_of_le' hcount
  obtain ⟨a, ha, -, -, hd, hx, hc, -⟩ := shiftRule_start h
  obtain ⟨hlast, hxc⟩ := shiftNumbers_lsr_carry (n := sz.bits) (a := a) j
  rw [hd, hx, hc, hxc, shiftNumbers_lsr_d, hlast, ha]
  exact ⟨rfl, rfl, rfl⟩

theorem shiftRule_asr (hcount : 1 ≤ count) (h : ShiftRule .asr p sz count dst old r f) :
    intOf sz r = intOf sz dst / 2 ^ count ∧ f.c = decide (intOf sz dst / 2 ^ (count - 1) % 2 = 1) ∧ f.x = f.c := by
  obtain ⟨j, rfl⟩ := Nat.exists_eq_add_of_le' hcount
  obtain ⟨a, ha, -, hlt, hd, hx, hc, -⟩ := shiftRule_start h
  obtain ⟨hlast, hxc⟩ := shiftNumbers_asr_carry (bits_pos sz) hlt j
  rw [← signedOf_natOf, ← signedOf_natOf, hd, hx, hc, hxc, shiftNumbers_asr_d (bits_pos sz) hlt, hlast, ha]
  exact ⟨rfl, rfl, rfl⟩

end

end Sys2Proof.Machine

namespace Sys2Proof.Proofs

/-- Settles O48: the closed forms of the repeated step, for what the register form leaves. -/
theorem shiftClosedForms : Obligations.ShiftClosedForms := by
  intro sz c dn s hcount n k d
  refine ⟨?lsl, ?asl, ?lsr, ?asr⟩
  case lsl =>
    obtain ⟨t, ht, hrule, -⟩ := shiftInstr_rule .lsl sz c dn s
    obtain ⟨hvalue, hc, hx⟩ := shiftRule_left (.inr rfl) hcount hrule
    exact ⟨t, ht, hvalue, hc, hx, shiftRule_v (by decide) hrule⟩
  case asl =>
    obtain ⟨t, ht, hrule, -⟩ := shiftInstr_rule .asl sz c dn s
    obtain ⟨hvalue, hc, hx⟩ := shiftRule_left (.inl rfl) hcount hrule
    exact ⟨t, ht, hvalue, hc, hx, shiftRule_asl_v hrule⟩
  case lsr =>
    obtain ⟨t, ht, hrule, -⟩ := shiftInstr_rule .lsr sz c dn s
    obtain ⟨hvalue, hc, hx⟩ := shiftRule_lsr hcount hrule
    exact ⟨t, ht, hvalue, hc, hx, shiftRule_v (by decide) hrule⟩
  case asr =>
    obtain ⟨t, ht, hrule, -⟩ := shiftInstr_rule .asr sz c dn s
    obtain ⟨hvalue, hc, hx⟩ := shiftRule_asr hcount hrule
    exact ⟨t, ht, hvalue, hc, hx, shiftRule_v (by decide) hrule⟩

end Sys2Proof.Proofs
end

section
/-! Program control (47_control.md R261 to R274, R276): targets of branches, what a push and a pop leave, and the statements about
branches, jumps, subroutine calls, stack frames, returns and conditions. -/

open Sys2Proof Sys2Proof.Machine Sys2Proof.Safety

namespace Sys2Proof.Machine

/-! ## Conditions -/

/-- X takes no part in a condition (47_control.md R276). -/
theorem condHolds_set_x (f : Ccr) (x : Bool) (co : Cond) : condHolds { f with x := x } co = condHolds f co := by
  cases co <;> rfl

/-- An odd encoding is the negation of the even one below it (47_control.md R276). -/
theorem condHolds_ofField_odd (f : Ccr) {k : Nat} (hk : k < 8) :
    condHolds f (Cond.ofField (2 * k + 1)) = !condHolds f (Cond.ofField (2 * k)) := by
  interval_cases k <;> simp only [Cond.ofField, condHolds, Bool.not_not, Bool.not_true]

/-! ## Targets and lengths -/

theorem branchTarget_eq (s : State) (d : BranchDisp) : branchTarget s d = s.pc + 2 + BitVec.ofInt 32 (dispInt d) := by
  cases d <;> rfl

theorem nextPc_encBranch {i : Instr} {c : Nat} {d : BranchDisp} (hi : encode i = encBranch c d) (s : State) :
    nextPc i s = s.pc + lengthOf 0 d.words := by
  rw [nextPc, hi]
  cases d <;> rfl

theorem addrEa_of_resolve {ea : Ea} {ext : Long} {s s1 : State} {a : Long} (h : resolve ea .l ext s = (.mem a, s1)) :
    addrEa ea ext s = .ok a :=
  addrEa_eq_ok.2 (by rw [h])

/-! ## The counter of DBcc -/

theorem toNat_setWidth_word (v : Long) : (v.setWidth 16 : Word).toNat = natOf .w v := BitVec.toNat_setWidth 16 v

theorem natOf_setWidth_word (w : Word) : natOf .w (w.setWidth 32) = w.toNat := by
  rw [← toNat_setWidth_word, BitVec.setWidth_setWidth_of_le _ (by decide), BitVec.setWidth_eq]

/-- The counter, one lower modulo 2^16 (47_control.md R274). -/
theorem toNat_counter (v : Long) : ((v.setWidth 16 : Word) - 1).toNat = (natOf .w v + 65535) % 65536 := by
  rw [← toNat_setWidth_word]
  bv_omega

/-- The counter passes zero exactly where it was zero (47_control.md R274). -/
theorem counter_passes_zero_iff (v : Long) : (v.setWidth 16 : Word) - 1 = 0xFFFF ↔ natOf .w v = 0 := by
  rw [← toNat_setWidth_word]
  bv_omega

/-! ## The active stack pointer -/

theorem sp_setAreg (s : State) (r : Fin 8) (v : Long) : (s.setAreg r v).sp = if r = 7 then v else s.sp := by
  have hseven : (s.setAreg r v).sp = if 7 = r then v else s.sp := s.areg_setAreg r 7 v
  simpa only [eq_comm] using hseven

theorem sp_store (s : State) (sz : Size) (a v : Long) : (s.store sz a v).sp = s.sp := s.areg_store sz a v 7

theorem areg_setSp_ne (s : State) (v : Long) {q : Fin 8} (hq : q ≠ 7) : (s.setSp v).areg q = s.areg q :=
  s.areg_setAreg_ne 7 q v hq

theorem load_setAreg (s : State) (r : Fin 8) (v : Long) (sz : Size) (a : Long) : (s.setAreg r v).load sz a = s.load sz a :=
  (registersChanged_setAreg s r v).load sz a

theorem load_setSp (s : State) (v : Long) (sz : Size) (a : Long) : (s.setSp v).load sz a = s.load sz a :=
  load_setAreg s 7 v sz a

theorem kept_setSp (s : State) (v : Long) : Kept noReg (oneReg 7) [] s (s.setSp v) := kept_setAreg s 7 v

theorem kept_store (s : State) (sz : Size) (a v : Long) : Kept noReg noReg (bytesAt s.cfg sz a) s (s.store sz a v) :=
  kept_storeAll (items := [(a, v)]) (by simp)

/-! ## Pushing and popping -/

/-- What a push on the active stack leaves, wherever control goes after it (00_scope.md R10 `Push32`). -/
def Pushed (s : State) (v : Long) (t : State) : Prop :=
  t.load .l (s.sp - 4) = v ∧ t.sp = s.sp - 4 ∧ t.sr = s.sr ∧ Kept noReg (oneReg 7) (bytesAt s.cfg .l (s.sp - 4)) s t

theorem Pushed.jump {s t : State} {v : Long} (h : Pushed s v t) (target : Long) : Pushed s v (t.jump target) := h

theorem push32_ram {s : State} (hs : Sound s) (hram : Ram s.cfg .l (s.sp - 4)) (v : Long) :
    ∃ t, push32 v s = .ok t ∧ Pushed s v t ∧ t.pc = s.pc := by
  let below := s.setSp (s.sp - 4)
  have hcfg : below.cfg = s.cfg := s.setSp_cfg _
  have hbelow : Sound below := sound_of_moves (.setSp s _) hs
  have hslot : Ram below.cfg .l (s.sp - 4) := hcfg ▸ hram
  refine ⟨below.store .l (s.sp - 4) v, writeMem_ram hslot v, ⟨?value, ?sp, ?sr, ?kept⟩, ?pc⟩
  case value => rw [load_store_same hbelow hslot, trunc, BitVec.setWidth_eq, BitVec.setWidth_eq]
  case sp => exact (sp_store below .l _ v).trans (s.sp_setSp _)
  case sr => rw [State.store_sr, State.setSp_sr]
  case kept =>
    have hall := kept_trans (kept_setSp s (s.sp - 4)) (kept_store below .l (s.sp - 4) v)
    rw [hcfg] at hall
    exact kept_mono hall (fun _ _ => rfl) (by simp [noReg]) (by simp)
  case pc => rw [State.store_pc, State.setSp_pc]

theorem pop32_readable {s : State} (h : Readable s.cfg .l s.sp) : pop32 s = .ok (s.load .l s.sp, s.setSp (s.sp + 4)) :=
  pop32_eq_ok.2 ⟨readStop_eq_none.2 h, rfl, rfl⟩

theorem pop16_readable {s : State} (h : Readable s.cfg .w s.sp) : pop16 s = .ok (s.load .w s.sp, s.setSp (s.sp + 2)) :=
  pop16_eq_ok.2 ⟨readStop_eq_none.2 h, rfl, rfl⟩

/-- The return from an exception, its frame readable (47_control.md R269). -/
theorem returnFromException_readable {s : State} (hsr : Readable s.cfg .w s.ssp) (hpc : Readable s.cfg .l (s.ssp + 2)) :
    returnFromException s =
      .ok { s with sr := statusOf (s.load .w s.ssp).getLsbD, pc := s.load .l (s.ssp + 2), ssp := s.ssp + 6 } := by
  rw [returnFromException, readMem_readable hsr, readMem_readable hpc]
  simp only [bind, Except.bind, ofWord_setWidth]
  rfl

end Sys2Proof.Machine

namespace Sys2Proof.Proofs

/-- Settles O50: a branch or a jump changes the program counter alone, LEA one address register besides; DBcc, its condition false,
writes the counter and then leaves or branches. -/
theorem branchAndJumpTargets : Obligations.BranchAndJumpTargets := by
  refine ⟨⟨fun d s => ?bra, fun co d s => ?bcc, fun co dn d s => ⟨fun hco => ?dbccTrue, fun hco => ?dbccFalse⟩⟩,
    fun ea an s s1 a _ hres => ⟨?jmp, ?lea⟩⟩
  case bra =>
    rw [← branchTarget_eq]
    rfl
  case bcc =>
    rw [← branchTarget_eq, nextPc_encBranch (c := co.field) rfl]
    simp only [exec, execBcc]
    split <;> rfl
  case dbccTrue =>
    simp only [exec, execDbcc, hco, if_true]
    rfl
  case dbccFalse =>
    let counter : Word := (s.dreg dn).setWidth 16 - 1
    let counted := s.setDregAt .w dn (counter.setWidth 32)
    let target := if natOf .w (s.dreg dn) = 0 then s.pc + 4 else s.pc + 2 + BitVec.ofInt 32 d.toInt
    have hdn : counted.dreg dn = insertLow .w (s.dreg dn) (counter.setWidth 32) := s.dreg_setDregAt_same .w dn _
    refine ⟨counted.jump target, ?exec, ?value, ?upper, rfl, rfl, kept_setDreg s dn _⟩
    case exec =>
      simp only [exec, execDbcc, hco, counter_passes_zero_iff, Bool.false_eq_true, if_false]
      by_cases hzero : natOf .w (s.dreg dn) = 0
      · simp only [target, if_pos hzero]
        rfl
      · simp only [target, if_neg hzero]
        rfl
    case value => rw [State.dreg_jump, hdn, natOf_insertLow, natOf_setWidth_word, toNat_counter]
    case upper => exact hdn ▸ upperKept_insertLow .w _ _
  case jmp =>
    simp only [exec, execJmp, addrEa_of_resolve hres]
    rfl
  case lea =>
    refine ⟨(s.setAreg an a).advance (lengthOf 0 (ea.words .l)), ?exec, s.areg_setAreg_same an a, s.setAreg_sr an a, ?pc,
      kept_setAreg s an a⟩
    case exec =>
      simp only [exec, execLea, addrEa_of_resolve hres]
      rfl
    case pc => rw [nextPc_encEa (i := .lea ea an) (own := 0) rfl rfl, State.advance_pc, State.setAreg_pc]

/-- Settles O51: three pushes of a value that was computed before the push. -/
theorem pushesAndTargets : Obligations.PushesAndTargets := by
  intro s hs hram _
  have hpush (v : Long) : ∃ u, push32 v s = .ok u ∧ Pushed s v u ∧ u.pc = s.pc := push32_ram hs hram v
  refine ⟨fun d => ?bsr, fun ea s1 a _ hres => ⟨?jsr, ?pea⟩⟩
  case bsr =>
    obtain ⟨u, hu, hpushed, -⟩ := hpush (nextPc (.bsr d) s)
    refine ⟨u.jump (branchTarget s d), ?_, branchTarget_eq s d, hpushed.jump _⟩
    rw [nextPc_encBranch (c := 1) rfl] at hu
    simp only [exec, execBsr, hu]
    rfl
  case jsr =>
    obtain ⟨u, hu, hpushed, -⟩ := hpush (nextPc (.jsr ea) s)
    refine ⟨u.jump a, ?_, rfl, hpushed.jump a⟩
    rw [nextPc_encEa (i := .jsr ea) (own := 0) rfl rfl] at hu
    simp only [exec, execJsr, addrEa_of_resolve hres, hu]
    rfl
  case pea =>
    obtain ⟨u, hu, hpushed, hpc⟩ := hpush a
    refine ⟨u.advance (lengthOf 0 (ea.words .l)), ?_, ?_, hpushed.jump _⟩
    · simp only [exec, execPea, addrEa_of_resolve hres, hu]
      rfl
    · rw [nextPc_encEa (i := .pea ea) (own := 0) rfl rfl, State.advance_pc, hpc]

/-- Settles O52: LINK is a push of the register as it stands with the stack pointer already lowered, UNLK a pop from the register's
address; the register is written after the one, and last of all in the other. -/
theorem linkAndUnlkFrames : Obligations.LinkAndUnlkFrames := by
  refine ⟨fun an d s hs hram => ?link, fun an s hread => ?unlk⟩
  case link =>
    obtain ⟨u, hu, ⟨hvalue, husp, husr, hkept⟩, hupc⟩ := push32_ram hs hram ((s.setSp (s.sp - 4)).areg an)
    let linked := u.setAreg an u.sp
    have hsp : linked.sp = s.sp - 4 := by rw [sp_setAreg, husp, ite_self]
    refine ⟨(linked.setSp (linked.sp + d.signExtend 32)).advance (lengthOf 1 0), ?exec, ?value, ?sp, ?areg, ?sr, ?pc, ?kept⟩
    case exec =>
      rw [push32] at hu
      simp only [exec, execLink, State.sp_setSp, hu]
      rfl
    case value =>
      change ((linked.setSp _).load .l _) = _
      rw [load_setSp, load_setAreg, hvalue]
      exact s.areg_setAreg 7 an _
    case sp =>
      change (linked.setSp _).sp = _
      rw [State.sp_setSp, hsp, signExtend_eq_ofInt]
    case areg =>
      intro han
      rw [State.areg_advance, areg_setSp_ne _ _ han, State.areg_setAreg_same, husp]
    case sr => rw [State.advance_sr, State.setSp_sr, State.setAreg_sr, husr]
    case pc => rw [State.advance_pc, State.setSp_pc, State.setAreg_pc, hupc]; rfl
    case kept =>
      have hall := kept_trans (kept_trans hkept (kept_setAreg u an u.sp)) (kept_setSp linked (linked.sp + d.signExtend 32))
      exact kept_mono (kept_finish hall _ _) (fun _ _ => rfl) (by simp +contextual) (by simp)
  case unlk =>
    let low := s.setSp (s.areg an)
    let popped := low.setSp (s.areg an + 4)
    have hpop : pop32 low = .ok (s.load .l (s.areg an), popped) := by
      have hlow : low.sp = s.areg an := s.sp_setSp _
      have hcfg : low.cfg = s.cfg := s.setSp_cfg _
      rw [pop32_readable (by rwa [hlow, hcfg]), hlow, load_setSp]
    refine ⟨(popped.setAreg an (s.load .l (s.areg an))).advance (lengthOf 0 0), ?exec, State.areg_setAreg_same popped an _, ?sp,
      ?sr, ?pc, ?kept⟩
    case exec =>
      simp only [exec, execUnlk, low, hpop]
      rfl
    case sp =>
      intro han
      change (popped.setAreg an _).sp = _
      rw [sp_setAreg, if_neg han, State.sp_setSp]
    case sr => rw [State.advance_sr, State.setAreg_sr, State.setSp_sr, State.setSp_sr]
    case pc => rw [State.advance_pc, State.setAreg_pc, State.setSp_pc, State.setSp_pc]; rfl
    case kept =>
      have hall := kept_trans (kept_trans (kept_setSp s (s.areg an)) (kept_setSp low (s.areg an + 4)))
        (kept_setAreg popped an (s.load .l (s.areg an)))
      exact kept_mono (kept_finish hall _ _) (fun _ _ => rfl) (by simp +contextual) (by simp)

/-- Settles O53: RTS and RTR pop in turn, each from the state the pop before it left; RTE reads both parts of its frame from the
state it starts in. -/
theorem returnsRestore : Obligations.ReturnsRestore := by
  refine ⟨fun s => ⟨fun hread => ?rts, fun hword hlong => ?rtr⟩, fun s hs hword hlong => ?rte⟩
  case rts =>
    refine ⟨(s.setSp (s.sp + 4)).jump (s.load .l s.sp), ?_, rfl, s.sp_setSp _, s.setSp_sr _, kept_setSp s _⟩
    simp only [exec, execRts, pop32_readable hread]
    rfl
  case rtr =>
    let flagged := (s.setSp (s.sp + 2)).setCcr (flagsOf (s.load .w s.sp).getLsbD)
    have hsp : flagged.sp = s.sp + 2 := s.sp_setSp _
    have hcfg : flagged.cfg = s.cfg := s.setSp_cfg _
    have hpop : pop32 flagged = .ok (s.load .l (s.sp + 2), flagged.setSp (s.sp + 6)) := by
      have hload : flagged.load .l (s.sp + 2) = s.load .l (s.sp + 2) := load_setSp s (s.sp + 2) .l (s.sp + 2)
      have hsix : s.sp + 2 + 4 = s.sp + 6 := BitVec.add_assoc _ 2 4
      rw [pop32_readable (by rwa [hsp, hcfg]), hsp, hload, hsix]
    refine ⟨(flagged.setSp (s.sp + 6)).jump (s.load .l (s.sp + 2)), ?exec, rfl, flagged.sp_setSp _, ?ccr, ?kept⟩
    case exec =>
      simp only [exec, execRtr, pop16_readable hword, ofByte_setWidth, flagged, hpop]
      rfl
    case ccr => exact congrArg StatusReg.ccr (flagged.setSp_sr (s.sp + 6))
    case kept =>
      have hfirst : Kept noReg (oneReg 7) [] s flagged := kept_setSp s (s.sp + 2)
      exact kept_mono (kept_trans hfirst (kept_setSp flagged (s.sp + 6))) (fun _ _ => rfl) (by simp) (by simp)
  case rte =>
    simp only [exec, execRte, privileged_eq, hs, if_true, returnFromException_readable hword hlong]
    rfl

/-- Settles O26: the table, a condition at a time, by the values of the flags it reads. -/
theorem conditionTable : Obligations.ConditionTable := by
  intro f
  refine ⟨rfl, rfl, ?hi, ?ls, ?cc, ?cs, ?ne, ?eq, ?vc, ?vs, ?pl, ?mi, ?ge, ?lt, ?gt, ?le,
    fun _ hk => condHolds_ofField_odd f hk, condHolds_set_x f⟩
  all_goals simp only [Cond.ofField, condHolds]
  case hi | ls => cases f.c <;> cases f.z <;> rfl
  case cc | cs => cases f.c <;> rfl
  case ne | eq => cases f.z <;> rfl
  case vc | vs => cases f.v <;> rfl
  case pl | mi => cases f.n <;> rfl
  case ge | lt => cases f.n <;> cases f.v <;> rfl
  case gt | le => cases f.n <;> cases f.v <;> cases f.z <;> rfl

end Sys2Proof.Proofs
end

section
/-! How supervisor mode is entered and left (60_exceptions.md R340, R361 to R364): what keeps the mode, and in user mode the system
byte, SSP and the events too; that any instruction but those that load SR either does so or traps; and the statements about the
two modes. -/

open Sys2Proof Sys2Proof.Machine Sys2Proof.Safety

namespace Sys2Proof.Machine

/-! ## Changes that keep the mode -/

/-- The mode is kept, and in user mode so are the system byte, SSP and the events (60_exceptions.md R363). -/
structure SameMode (s t : State) : Prop where
  mode : t.sr.s = s.sr.s
  user : s.sr.s = false → t.sr.t = s.sr.t ∧ t.sr.ipm = s.sr.ipm ∧ t.ssp = s.ssp ∧ t.events = s.events

theorem SameMode.trans {s t u : State} (h : SameMode s t) (k : SameMode t u) : SameMode s u := by
  refine ⟨k.mode.trans h.mode, fun hs => ?_⟩
  obtain ⟨ht, hipm, hssp, hevents⟩ := h.user hs
  obtain ⟨kt, kipm, kssp, kevents⟩ := k.user (h.mode.trans hs)
  exact ⟨kt.trans ht, kipm.trans hipm, kssp.trans hssp, kevents.trans hevents⟩

/-- In user mode SSP is the pointer that is not active, so what keeps the frame of an instruction keeps the mode. -/
theorem SameMode.of_kept {dd da : Fin 8 → Bool} {bs : List Nat} {s t : State} (h : Kept dd da bs s t) : SameMode s t := by
  obtain ⟨-, -, hother, -, ht, hmode, hipm, -, -, -, -, hevents, -⟩ := h
  refine ⟨hmode, fun hs => ⟨ht, hipm, ?_, hevents⟩⟩
  simpa only [otherSp, hmode, hs, Bool.false_eq_true, if_false] using hother

/-- Of supervisor mode nothing is asked but that it stays. -/
theorem SameMode.of_supervisor {s t : State} (hs : s.sr.s = true) (ht : t.sr.s = true) : SameMode s t :=
  ⟨ht.trans hs.symm, fun huser => by rw [hs] at huser; cases huser⟩

theorem SameMode.refl (s : State) : SameMode s s := .of_kept (kept_refl s)

theorem SameMode.setDreg (s : State) (r : Fin 8) (v : Long) : SameMode s (s.setDreg r v) := .of_kept (kept_setDreg s r v)

theorem SameMode.setDregAt (s : State) (sz : Size) (r : Fin 8) (v : Long) : SameMode s (s.setDregAt sz r v) := .setDreg s r _

theorem SameMode.setAreg (s : State) (r : Fin 8) (v : Long) : SameMode s (s.setAreg r v) := .of_kept (kept_setAreg s r v)

theorem SameMode.setSp (s : State) (v : Long) : SameMode s (s.setSp v) := .of_kept (kept_setSp s v)

theorem SameMode.setRreg (s : State) (k : Fin 16) (v : Long) : SameMode s (s.setRreg k v) :=
  .of_kept (registersChanged_setRreg s k v).kept

theorem SameMode.setCcr (s : State) (c : Ccr) : SameMode s (s.setCcr c) := ⟨rfl, fun _ => ⟨rfl, rfl, rfl, rfl⟩⟩

theorem SameMode.skipDraws (s : State) (k : Nat) : SameMode s (s.skipDraws k) := ⟨rfl, fun _ => ⟨rfl, rfl, rfl, rfl⟩⟩

theorem SameMode.jump (s : State) (target : Long) : SameMode s (s.jump target) := ⟨rfl, fun _ => ⟨rfl, rfl, rfl, rfl⟩⟩

theorem SameMode.writeMem {s t : State} {sz : Size} {a v : Long} (h : writeMem s sz a v = .ok t) : SameMode s t := by
  obtain ⟨-, rfl⟩ := writeMem_eq_ok.1 h
  exact .of_kept (kept_store s sz a v)

/-! ## Operations that keep the mode -/

/-- Where an operation answers a state, the mode is kept. -/
def Calm (s : State) (r : Res State) : Prop := ∀ t, r = .ok t → SameMode s t

theorem Calm.ok {s t : State} (h : SameMode s t) : Calm s (.ok t) := by
  intro u hu
  cases hu
  exact h

theorem Calm.error (s : State) (e : Stop) : Calm s (.error e) := fun _ hu => nomatch hu

theorem Calm.trans {s u : State} {r : Res State} (h : SameMode s u) (k : Calm u r) : Calm s r :=
  fun t ht => h.trans (k t ht)

theorem Calm.advanceBy {s : State} {r : Res State} (h : Calm s r) (len : Long) : Calm s (advanceBy len r) := by
  intro t ht
  obtain ⟨u, hu, rfl⟩ := advanceBy_eq_ok.1 ht
  exact (h u hu).trans (.jump u _)

theorem Calm.advance_ok {s t : State} (h : SameMode s t) (len : Long) :
    Calm s (Sys2Proof.Machine.advanceBy len (.ok t)) := (Calm.ok h).advanceBy len

/-! ## Operands and the stack -/

theorem resolve_sameMode (e : Ea) (sz : Size) (ext : Long) (s : State) : SameMode s (resolve e sz ext s).2 :=
  .of_kept (resolve_kept e sz ext s)

theorem readEa_sameMode {e : Ea} {sz : Size} {ext : Long} {s t : State} {v : Long} (h : readEa e sz ext s = .ok (v, t)) :
    SameMode s t := by
  obtain ⟨rfl, -⟩ := readEa_eq_ok.1 h
  exact resolve_sameMode e sz ext s

theorem writeLoc_calm (l : Loc) (sz : Size) (v : Long) (s : State) : Calm s (writeLoc l sz v s) := by
  cases l with
  | dreg r => exact .ok (.setDregAt s sz r v)
  | areg r => exact .ok (.setAreg s r _)
  | mem a => exact fun _ => .writeMem
  | imm w => exact .error s _

theorem writeEa_sameMode {e : Ea} {sz : Size} {ext : Long} {s t : State} {v : Long} (h : writeEa e sz ext v s = .ok t) :
    SameMode s t := (resolve_sameMode e sz ext s).trans (writeLoc_calm _ sz v _ t h)

theorem modifyEa_calm (e : Ea) (sz : Size) (ext : Long) (f : Long → Long × Ccr) (s : State) :
    Calm s (modifyEa e sz ext f s) := by
  intro t ht
  obtain ⟨old, u, -, hwrite, rfl⟩ := modifyEa_eq_ok.1 ht
  exact ((resolve_sameMode e sz ext s).trans (writeLoc_calm _ sz _ _ u hwrite)).trans (.setCcr u _)

theorem push32_sameMode {v : Long} {s t : State} (h : push32 v s = .ok t) : SameMode s t :=
  (SameMode.setSp s _).trans (.writeMem h)

theorem pop32_sameMode {s t : State} {v : Long} (h : pop32 s = .ok (v, t)) : SameMode s t := by
  obtain ⟨-, -, rfl⟩ := pop32_eq_ok.1 h
  exact .setSp s _

theorem pop16_sameMode {s t : State} {v : Long} (h : pop16 s = .ok (v, t)) : SameMode s t := by
  obtain ⟨-, -, rfl⟩ := pop16_eq_ok.1 h
  exact .setSp s _

/-! ## Lists of registers and of bytes -/

theorem storeUp_calm (sz : Size) (ks : List (Fin 16)) (a : Long) (s : State) : Calm s (storeUp sz ks a s) := by
  induction ks generalizing a s with
  | nil => exact .ok (.refl s)
  | cons k ks ih =>
    unfold storeUp
    split
    · exact .error s _
    · next u hwrite => exact .trans (.writeMem hwrite) (ih _ u)

theorem storeDown_sameMode {sz : Size} {ks : List (Fin 16)} {a b : Long} {s t : State}
    (h : storeDown sz ks a s = .ok (b, t)) : SameMode s t := by
  induction ks generalizing a s with
  | nil =>
    cases h
    exact .refl _
  | cons k ks ih =>
    unfold storeDown at h
    split at h
    · cases h
    · next hwrite => exact (SameMode.writeMem hwrite).trans (ih h)

theorem loadUp_sameMode {sz : Size} {ks : List (Fin 16)} {a b : Long} {s t : State} (h : loadUp sz ks a s = .ok (b, t)) :
    SameMode s t := by
  induction ks generalizing a s with
  | nil =>
    cases h
    exact .refl _
  | cons k ks ih =>
    unfold loadUp at h
    split at h
    · cases h
    · exact (SameMode.setRreg s k _).trans (ih h)

/-- The extra access of MOVEM changes nothing (41_move.md R159). -/
theorem loadUp_extraRead_sameMode {sz : Size} {ks : List (Fin 16)} {a b : Long} {s t : State}
    (h : (loadUp sz ks a s).bind extraRead = .ok (b, t)) : SameMode s t := by
  cases hload : loadUp sz ks a s with
  | error e =>
    rw [hload] at h
    cases h
  | ok p =>
    rw [hload] at h
    obtain rfl := extraRead_eq_ok h
    exact loadUp_sameMode hload

theorem storeLanes_calm (bs : List Byte) (a : Long) (s : State) : Calm s (storeLanes bs a s) := by
  induction bs generalizing a s with
  | nil => exact .ok (.refl s)
  | cons b bs ih =>
    unfold storeLanes
    split
    · exact .error s _
    · next u hwrite => exact .trans (.writeMem hwrite) (ih _ u)

/-! ## Shapes -/

theorem eaToDn_calm (op : AluOp) (sz : Size) (ea : Ea) (dn : Fin 8) (s : State) : Calm s (eaToDn op sz ea dn s) := by
  unfold eaToDn
  split
  · exact .error s _
  · next v u hread =>
    exact .advance_ok (((readEa_sameMode hread).trans (.setDregAt u sz dn _)).trans (.setCcr _ _)) _

theorem eaToAn_calm (f : Long → Long → Long) (sz : Size) (ea : Ea) (an : Fin 8) (s : State) :
    Calm s (eaToAn f sz ea an s) := by
  unfold eaToAn
  split
  · exact .error s _
  · next v u hread => exact .advance_ok ((readEa_sameMode hread).trans (.setAreg u an _)) _

theorem quickToEa_calm (op : AluOp) (f : Long → Long → Long) (sz : Size) (q : Fin 8) (ea : Ea) (s : State) :
    Calm s (quickToEa op f sz q ea s) := by
  unfold quickToEa
  split
  · exact .advance_ok (.setAreg s _ _) _
  · exact (modifyEa_calm _ _ _ _ s).advanceBy _

theorem pairOp_calm (op : AluOp) (sz : Size) (m : PairMode) (ry rx : Fin 8) (s : State) :
    Calm s (pairOp op sz m ry rx s) := by
  cases m with
  | dataReg => exact .advance_ok ((SameMode.setDregAt s sz rx _).trans (.setCcr _ _)) _
  | memPreDec =>
    unfold pairOp
    split
    · contradiction
    · split
      · exact .error s _
      · next hread => exact .trans (readEa_sameMode hread) ((modifyEa_calm _ _ _ _ _).advanceBy _)

theorem testEa_calm (own : Nat) (sz : Size) (ea : Ea) (flags : Long → Ccr → Ccr) (s : State) :
    Calm s (testEa own sz ea flags s) := by
  unfold testEa
  split
  · exact .error s _
  · next v u hread => exact .advance_ok ((readEa_sameMode hread).trans (.setCcr u _)) _

theorem mulEa_calm (f : Long → Long → Long) (ea : Ea) (dn : Fin 8) (s : State) : Calm s (mulEa f ea dn s) := by
  unfold mulEa
  split
  · exact .error s _
  · next v u hread => exact .advance_ok (((readEa_sameMode hread).trans (.setDreg u dn _)).trans (.setCcr _ _)) _

/-! ## Traps -/

/-- The vectors an instruction can raise: 4 to 8, 10, 11 and 32 to 47 (60_exceptions.md R331). -/
def RaisedVector (v : Nat) : Prop := 4 ≤ v ∧ v ≤ 8 ∨ v = 10 ∨ v = 11 ∨ 32 ≤ v ∧ v ≤ 47

/-- An instruction of `s` took one of its exceptions to get to `t`, after changes that kept the mode. -/
def Trapped (s t : State) : Prop :=
  ∃ v pc u, SameMode s u ∧ RaisedVector v.toNat ∧ exceptionEntry v pc none u = .ok t

/-- Where an operation answers a state, the mode is kept or an exception was taken. -/
def Confined (s : State) (r : Res State) : Prop := ∀ t, r = .ok t → SameMode s t ∨ Trapped s t

/-- Where a meaning answers a next state, the mode is kept or an exception was taken. -/
def NextConfined (s : State) (r : Result) : Prop := ∀ t, r = .next t → SameMode s t ∨ Trapped s t

theorem Calm.confined {s : State} {r : Res State} (h : Calm s r) : Confined s r := fun t ht => .inl (h t ht)

theorem Confined.trans {s u : State} {r : Res State} (h : SameMode s u) (k : Confined u r) : Confined s r := by
  intro t ht
  rcases k t ht with hsame | ⟨v, pc, w, hw, hv, hentry⟩
  · exact .inl (h.trans hsame)
  · exact .inr ⟨v, pc, w, h.trans hw, hv, hentry⟩

theorem NextConfined.finish {s : State} {r : Res State} (h : Confined s r) : NextConfined s (finish r) :=
  fun t ht => h t (finish_eq_next.1 ht)

theorem NextConfined.of_calm {s : State} {r : Res State} (h : Calm s r) : NextConfined s (Sys2Proof.Machine.finish r) :=
  .finish h.confined

theorem trapNext_confined {v : BitVec 8} (hv : RaisedVector v.toNat) (len : Long) (s : State) :
    Confined s (trapNext v len s) := fun _ ht => .inr ⟨v, _, s, .refl s, hv, ht⟩

theorem trapHere_confined {v : BitVec 8} (hv : RaisedVector v.toNat) (s : State) : Confined s (trapHere v s) :=
  fun _ ht => .inr ⟨v, _, s, .refl s, hv, ht⟩

theorem vecIllegal_raised : RaisedVector vecIllegal.toNat := .inl ⟨by decide, by decide⟩
theorem vecZeroDivide_raised : RaisedVector vecZeroDivide.toNat := .inl ⟨by decide, by decide⟩
theorem vecChk_raised : RaisedVector vecChk.toNat := .inl ⟨by decide, by decide⟩
theorem vecTrapV_raised : RaisedVector vecTrapV.toNat := .inl ⟨by decide, by decide⟩
theorem vecPrivilege_raised : RaisedVector vecPrivilege.toNat := .inl ⟨by decide, by decide⟩
theorem vecLineA_raised : RaisedVector vecLineA.toNat := .inr (.inl rfl)
theorem vecLineF_raised : RaisedVector vecLineF.toNat := .inr (.inr (.inl rfl))

/-- The vector of TRAP in the statements' terms (60_exceptions.md R345). -/
theorem vecTrap_eq (n : Fin 16) : vecTrap n = BitVec.ofNat 8 (32 + n.val) := (BitVec.ofNat_add 32 n.val).symm

theorem vecTrap_raised (n : Fin 16) : RaisedVector (vecTrap n).toNat := by
  have hn := n.isLt
  rw [vecTrap_eq, BitVec.toNat_ofNat]
  exact .inr (.inr (.inr ⟨by omega, by omega⟩))

/-- A privileged instruction in user mode takes the privilege violation; STOP's own test says the same (60_exceptions.md R361). -/
theorem exec_privileged_user {i : Instr} {s : State} (hi : isPrivileged i = true) (hs : s.sr.s = false) :
    exec i s = finish (trapHere vecPrivilege s) := by
  have huser (effect : Res State) : privileged s effect = trapHere vecPrivilege s := by
    simp only [privileged_eq, hs, Bool.false_eq_true, if_false]
  cases i
  case moveToSr | moveToUsp | moveFromUsp | andiToSr | eoriToSr | oriToSr | rte | reset => exact congrArg finish (huser _)
  case stop imm => simp only [exec, execStop, stopViolates, hs, Bool.not_false, Bool.true_or, if_true]
  all_goals cases hi

/-! ## The meanings that are no single shape -/

theorem divideBy_confined (zero : Bool) (q r lo hi : Int) (dn : Fin 8) (len : Long) (s : State) :
    Confined s (divideBy zero q r lo hi dn len s) := by
  have flags (t : State) (c : Ccr) : SameMode t ((t.setCcr c).skipDraws 3) := (SameMode.setCcr t c).trans (.skipDraws _ 3)
  unfold divideBy
  split
  · exact .trans (flags s _) (trapNext_confined vecZeroDivide_raised _ _)
  · split
    · exact (Calm.advance_ok (flags s _) _).confined
    · exact (Calm.advance_ok ((SameMode.setDreg s dn _).trans (flags _ _)) _).confined

theorem execDivs_confined (ea : Ea) (dn : Fin 8) (s : State) : NextConfined s (execDivs ea dn s) := by
  refine .finish ?_
  split
  · exact (Calm.error s _).confined
  · next hread => exact .trans (readEa_sameMode hread) (divideBy_confined _ _ _ _ _ _ _ _)

theorem execDivu_confined (ea : Ea) (dn : Fin 8) (s : State) : NextConfined s (execDivu ea dn s) := by
  refine .finish ?_
  split
  · exact (Calm.error s _).confined
  · next hread => exact .trans (readEa_sameMode hread) (divideBy_confined _ _ _ _ _ _ _ _)

theorem execChk_confined (ea : Ea) (dn : Fin 8) (s : State) : NextConfined s (execChk ea dn s) := by
  refine .finish ?_
  split
  · exact (Calm.error s _).confined
  · next w u hread =>
    have flags (n : Bool) : SameMode s ((u.setCcr (chkCcr u n)).skipDraws 4) :=
      (readEa_sameMode hread).trans ((SameMode.setCcr u _).trans (.skipDraws _ 4))
    dsimp only
    split
    · exact .trans (flags true) (trapNext_confined vecChk_raised _ _)
    · split
      · exact .trans (flags false) (trapNext_confined vecChk_raised _ _)
      · exact (Calm.advance_ok (flags _) _).confined

theorem execTrapv_confined (s : State) : NextConfined s (execTrapv s) := by
  refine .finish ?_
  split
  · exact trapNext_confined vecTrapV_raised _ s
  · exact (Calm.advance_ok (.refl s) _).confined

theorem execCmp_confined (sz : Size) (ea : Ea) (dn : Fin 8) (s : State) : NextConfined s (execCmp sz ea dn s) := by
  refine .of_calm ?_
  split
  · exact .error s _
  · next u hread => exact .advance_ok ((readEa_sameMode hread).trans (.setCcr u _)) _

theorem execCmpa_confined (sz : Size) (ea : Ea) (an : Fin 8) (s : State) : NextConfined s (execCmpa sz ea an s) := by
  refine .of_calm ?_
  split
  · exact .error s _
  · next u hread => exact .advance_ok ((readEa_sameMode hread).trans (.setCcr u _)) _

theorem execCmpm_confined (sz : Size) (ry rx : Fin 8) (s : State) : NextConfined s (execCmpm sz ry rx s) := by
  refine .of_calm ?_
  split
  · exact .error s _
  · next hread => exact .trans (readEa_sameMode hread) (testEa_calm _ _ _ _ _)

theorem execMove_confined (sz : Size) (src dst : Ea) (s : State) : NextConfined s (execMove sz src dst s) := by
  refine .of_calm ?_
  split
  · exact .error s _
  · next hread =>
    split
    · exact .error s _
    · next u hwrite =>
      exact .advance_ok (((readEa_sameMode hread).trans (writeEa_sameMode hwrite)).trans (.setCcr u _)) _

theorem execMovemToMem_confined (sz : Size) (mask : Word) (ea : Ea) (s : State) :
    NextConfined s (execMovemToMem sz mask ea s) := by
  refine .of_calm (.advanceBy ?_ _)
  split
  · split
    · exact .error s _
    · next hstore => exact .ok ((storeDown_sameMode hstore).trans (.setAreg _ _ _))
  · split
    · exact .error s _
    · exact storeUp_calm _ _ _ s

theorem execMovemToReg_confined (sz : Size) (mask : Word) (ea : Ea) (s : State) :
    NextConfined s (execMovemToReg sz mask ea s) := by
  refine .of_calm (.advanceBy ?_ _)
  split
  · split
    · exact .error s _
    · next hload => exact .ok ((loadUp_extraRead_sameMode hload).trans (.setAreg _ _ _))
  · split
    · exact .error s _
    · split
      · exact .error s _
      · next hload => exact .ok (loadUp_extraRead_sameMode hload)

theorem execMovep_confined (dir : MovepDir) (sz : Size) (dx ay : Fin 8) (d : Word) (s : State) :
    NextConfined s (execMovep dir sz dx ay d s) := by
  refine .of_calm (.advanceBy ?_ _)
  cases dir with
  | toMem => exact storeLanes_calm _ _ s
  | toReg =>
    dsimp only
    split
    · exact .error s _
    · exact .ok (.setDregAt s sz dx _)

theorem execLea_confined (ea : Ea) (an : Fin 8) (s : State) : NextConfined s (execLea ea an s) := by
  refine .of_calm ?_
  split
  · exact .error s _
  · exact .advance_ok (.setAreg s an _) _

theorem execPea_confined (ea : Ea) (s : State) : NextConfined s (execPea ea s) := by
  refine .of_calm ?_
  split
  · exact .error s _
  · exact .advanceBy (fun _ => push32_sameMode) _

theorem execJmp_confined (ea : Ea) (s : State) : NextConfined s (execJmp ea s) := by
  refine .of_calm ?_
  split
  · exact .error s _
  · exact .ok (.jump s _)

theorem execJsr_confined (ea : Ea) (s : State) : NextConfined s (execJsr ea s) := by
  refine .of_calm ?_
  split
  · exact .error s _
  · split
    · exact .error s _
    · next u hpush => exact .ok ((push32_sameMode hpush).trans (.jump u _))

theorem execBsr_confined (d : BranchDisp) (s : State) : NextConfined s (execBsr d s) := by
  refine .of_calm ?_
  split
  · exact .error s _
  · next u hpush => exact .ok ((push32_sameMode hpush).trans (.jump u _))

theorem execBcc_confined (cond : Cond) (d : BranchDisp) (s : State) : NextConfined s (execBcc cond d s) := by
  refine .of_calm ?_
  split
  · exact .ok (.jump s _)
  · exact .advance_ok (.refl s) _

theorem execDbcc_confined (cond : Cond) (dn : Fin 8) (d : Word) (s : State) : NextConfined s (execDbcc cond dn d s) := by
  refine .of_calm ?_
  split
  · exact .advance_ok (.refl s) _
  · dsimp only
    split
    · exact .advance_ok (.setDregAt s .w dn _) _
    · exact .ok ((SameMode.setDregAt s .w dn _).trans (.jump _ _))

theorem execLink_confined (an : Fin 8) (d : Word) (s : State) : NextConfined s (execLink an d s) := by
  refine .of_calm ?_
  split
  · exact .error s _
  · next u hwrite =>
    exact .advance_ok
      ((((SameMode.setSp s _).trans (.writeMem hwrite)).trans (.setAreg u an _)).trans (.setSp _ _)) _

theorem execUnlk_confined (an : Fin 8) (s : State) : NextConfined s (execUnlk an s) := by
  refine .of_calm ?_
  split
  · exact .error s _
  · next u hpop => exact .advance_ok (((SameMode.setSp s _).trans (pop32_sameMode hpop)).trans (.setAreg u an _)) _

theorem execRts_confined (s : State) : NextConfined s (execRts s) := by
  refine .of_calm ?_
  split
  · exact .error s _
  · next u hpop => exact .ok ((pop32_sameMode hpop).trans (.jump u _))

theorem execRtr_confined (s : State) : NextConfined s (execRtr s) := by
  refine .of_calm ?_
  split
  · exact .error s _
  · next u hccr =>
    split
    · exact .error s _
    · next t hpc =>
      exact .ok (((pop16_sameMode hccr).trans ((SameMode.setCcr u _).trans (pop32_sameMode hpc))).trans (.jump t _))

/-! ## Privileged effects that keep supervisor mode -/

theorem privileged_confined {s : State} {effect : Res State} (h : s.sr.s = true → Calm s effect) :
    Confined s (privileged s effect) := by
  rw [privileged_eq]
  split
  · next hs => exact (h hs).confined
  · exact trapHere_confined vecPrivilege_raised s

/-- ORI to SR can only set bits (44_logic.md R221). -/
theorem ofWord_or_supervisor {r : StatusReg} (hr : r.s = true) (w : Word) : (StatusReg.ofWord (r.toWord ||| w)).s = true := by
  have hbit : r.toWord.getLsbD 13 = true := (r.getLsbD_toWord 13).trans hr
  change (r.toWord ||| w).getLsbD 13 = true
  rw [BitVec.getLsbD_or, hbit, Bool.true_or]

/-! ## Every instruction -/

/-- The instructions that load SR so that S may be cleared (60_exceptions.md R362). -/
def LoadsMode (i : Instr) : Prop :=
  i = .rte ∨ (∃ e, i = .moveToSr e) ∨ (∃ w, i = .andiToSr w) ∨ (∃ w, i = .eoriToSr w) ∨ ∃ w, i = .stop w

/-- Any instruction that may not clear S keeps the mode or takes an exception. -/
theorem exec_confined {i : Instr} {s : State} (hi : ¬ LoadsMode i) : NextConfined s (exec i s) := by
  cases i
  case rte => exact absurd (.inl rfl) hi
  case moveToSr e => exact absurd (.inr (.inl ⟨e, rfl⟩)) hi
  case andiToSr w => exact absurd (.inr (.inr (.inl ⟨w, rfl⟩))) hi
  case eoriToSr w => exact absurd (.inr (.inr (.inr (.inl ⟨w, rfl⟩)))) hi
  case stop w => exact absurd (.inr (.inr (.inr (.inr ⟨w, rfl⟩)))) hi
  case oriToSr w =>
    exact .finish (privileged_confined fun hs => .advance_ok (.of_supervisor hs (ofWord_or_supervisor hs w)) _)
  case moveToUsp | reset => exact .finish (privileged_confined fun hs => .advance_ok (.of_supervisor hs (by exact hs)) _)
  case moveFromUsp => exact .finish (privileged_confined fun _ => .advance_ok (.setAreg s _ _) _)
  case ori | andi | subi | addi | eori | orDnEa | andDnEa | addDnEa | subDnEa | eor | moveFromSr | scc |
      bchgImm | bclrImm | bsetImm | bchgReg | bclrReg | bsetReg | negx | clr | neg | not | tas |
      asrMem | aslMem | lsrMem | lslMem | roxrMem | roxlMem | rorMem | rolMem =>
    exact .of_calm ((modifyEa_calm _ _ _ _ s).advanceBy _)
  case nbcd => exact .of_calm (.trans (.skipDraws s _) ((modifyEa_calm _ _ _ _ _).advanceBy _))
  case oriToCcr | andiToCcr | eoriToCcr => exact .of_calm (.advance_ok (.setCcr s _) _)
  case cmpi | btstImm | btstReg | tst | moveToCcr => exact .of_calm (testEa_calm _ _ _ _ s)
  case orEaDn | andEaDn | addEaDn | subEaDn => exact .of_calm (eaToDn_calm _ _ _ _ s)
  case movea | adda | suba => exact .of_calm (eaToAn_calm _ _ _ _ s)
  case addq | subq => exact .of_calm (quickToEa_calm _ _ _ _ _ s)
  case addx | subx => exact .of_calm (pairOp_calm _ _ _ _ _ s)
  case abcd | sbcd => exact .of_calm (.trans (.skipDraws s _) (pairOp_calm _ _ _ _ _ _))
  case asr | asl | lsr | lsl | roxr | roxl | ror | rol | ext =>
    exact .of_calm (.advance_ok ((SameMode.setDregAt s _ _ _).trans (.setCcr _ _)) _)
  case moveq | swap => exact .of_calm (.advance_ok ((SameMode.setDreg s _ _).trans (.setCcr _ _)) _)
  case mulu | muls => exact .of_calm (mulEa_calm _ _ _ s)
  case illegal => exact .finish (trapHere_confined vecIllegal_raised s)
  case lineA => exact .finish (trapHere_confined vecLineA_raised s)
  case lineF => exact .finish (trapHere_confined vecLineF_raised s)
  case trap n => exact .finish (trapNext_confined (vecTrap_raised n) _ s)
  case bra => exact .of_calm (.ok (.jump s _))
  case nop => exact .of_calm (.advance_ok (.refl s) _)
  case exgDD => exact .of_calm (.advance_ok ((SameMode.setDreg s _ _).trans (.setDreg _ _ _)) _)
  case exgAA => exact .of_calm (.advance_ok ((SameMode.setAreg s _ _).trans (.setAreg _ _ _)) _)
  case exgDA => exact .of_calm (.advance_ok ((SameMode.setDreg s _ _).trans (.setAreg _ _ _)) _)
  case movep dir sz dx ay d => exact execMovep_confined dir sz dx ay d s
  case move sz src dst => exact execMove_confined sz src dst s
  case chk ea dn => exact execChk_confined ea dn s
  case lea ea an => exact execLea_confined ea an s
  case pea ea => exact execPea_confined ea s
  case movemToMem sz mask ea => exact execMovemToMem_confined sz mask ea s
  case movemToReg sz mask ea => exact execMovemToReg_confined sz mask ea s
  case link an d => exact execLink_confined an d s
  case unlk an => exact execUnlk_confined an s
  case rts => exact execRts_confined s
  case rtr => exact execRtr_confined s
  case trapv => exact execTrapv_confined s
  case jsr ea => exact execJsr_confined ea s
  case jmp ea => exact execJmp_confined ea s
  case dbcc cond dn d => exact execDbcc_confined cond dn d s
  case bsr d => exact execBsr_confined d s
  case bcc cond d => exact execBcc_confined cond d s
  case divu ea dn => exact execDivu_confined ea dn s
  case divs ea dn => exact execDivs_confined ea dn s
  case cmp sz ea dn => exact execCmp_confined sz ea dn s
  case cmpa sz ea an => exact execCmpa_confined sz ea an s
  case cmpm sz ry rx => exact execCmpm_confined sz ry rx s

/-- The instructions that may clear S are privileged (60_exceptions.md R361). -/
theorem isPrivileged_of_loadsMode {i : Instr} (h : LoadsMode i) : isPrivileged i = true := by
  rcases h with rfl | ⟨e, rfl⟩ | ⟨w, rfl⟩ | ⟨w, rfl⟩ | ⟨w, rfl⟩ <;> rfl

/-- In user mode every instruction keeps the mode or takes an exception. -/
theorem exec_user_confined {i : Instr} {s : State} (hs : s.sr.s = false) : NextConfined s (exec i s) := by
  by_cases hi : LoadsMode i
  · rw [exec_privileged_user (isPrivileged_of_loadsMode hi) hs]
    exact .finish (trapHere_confined vecPrivilege_raised s)
  · exact exec_confined hi

/-! ## What an exception leaves of the mode -/

/-- The program counter comes from the vector, as memory stands after the frame is pushed (60_exceptions.md R340). -/
theorem exceptionEntry_pc {v : BitVec 8} {pc : Long} {level : Option (BitVec 3)} {s t : State}
    (h : exceptionEntry v pc level s = .ok t) : t.pc = t.load .l (vectorAddr v) := by
  obtain ⟨s2, s4, target, -, -, hread, rfl⟩ := exceptionEntry_eq_ok.1 h
  exact (readMem_eq_ok.1 hread).2

/-- The address of a vector in the statements' terms (60_exceptions.md R331). -/
theorem vectorAddr_eq (v : BitVec 8) : vectorAddr v = BitVec.ofNat 32 (4 * v.toNat) := by
  have hv := v.isLt
  rw [vectorAddr]
  bv_omega

theorem exceptionEntry_supervisor {v : BitVec 8} {pc : Long} {level : Option (BitVec 3)} {s t : State}
    (h : exceptionEntry v pc level s = .ok t) : t.sr.s = true := by
  obtain ⟨hsr, -⟩ := exceptionEntry_registers h
  rw [hsr]
  rfl

theorem Trapped.supervisor {s t : State} (h : Trapped s t) : t.sr.s = true := by
  obtain ⟨v, pc, u, -, -, hentry⟩ := h
  exact exceptionEntry_supervisor hentry

/-- STOP leaves supervisor mode only where the parameter lets it (48_muldiv_chk_system.md R299). -/
theorem exec_stop_leaves {w : Word} {s t : State} (h : exec (.stop w) s = .next t) (ht : t.sr.s = false) :
    s.cfg.stopClearsS = .stopInUserMode := by
  have hok := finish_eq_next.1 h
  split at hok
  · have hsuper := exceptionEntry_supervisor hok
    rw [ht] at hsuper
    cases hsuper
  · next hviol =>
    cases hok
    have hbit : w.getLsbD 13 = false := ht
    cases hparam : s.cfg.stopClearsS with
    | privilegeViolation => exact absurd (by rw [stopViolates, hbit, hparam]; exact Bool.or_true _) hviol
    | stopInUserMode => rfl

end Sys2Proof.Machine

namespace Sys2Proof.Proofs

/-- Settles O20: of what an instruction can do, only an exception changes user mode and only loading SR changes supervisor mode. -/
theorem supervisorModeEnteredAndLeft : Obligations.SupervisorModeEnteredAndLeft := by
  refine ⟨fun i s t hs hexec ht => ?entered, fun i s t hs hexec ht => ?left⟩
  case entered =>
    rcases exec_user_confined hs t hexec with hsame | ⟨v, pc, u, hsame, hv, hentry⟩
    · have hmode := hsame.mode
      rw [hs, ht] at hmode
      cases hmode
    · obtain ⟨-, hipm, hussp, -⟩ := hsame.user hs
      obtain ⟨hsr, -, -, -, hssp, -⟩ := exceptionEntry_registers hentry
      refine ⟨?ssp, by rw [hsr]; rfl, by rw [hsr]; exact hipm, v.toNat, hv, ?pc⟩
      case ssp =>
        rw [hssp, hussp]
        exact BitVec.sub_sub _ 4 2
      case pc => rw [exceptionEntry_pc hentry, vectorAddr_eq]
  case left =>
    by_cases hloads : LoadsMode i
    · rcases hloads with hrte | hmove | handi | heori | ⟨w, rfl⟩
      · exact .inl hrte
      · exact .inr (.inl hmove)
      · exact .inr (.inr (.inl handi))
      · exact .inr (.inr (.inr (.inl heori)))
      · exact .inr (.inr (.inr (.inr ⟨w, rfl, exec_stop_leaves hexec ht⟩)))
    · have hstays : t.sr.s = true := by
        rcases exec_confined hloads t hexec with hsame | htrapped
        · exact hsame.mode.trans hs
        · exact htrapped.supervisor
      rw [ht] at hstays
      cases hstays

/-- Settles O19: an instruction that ends in user mode took no exception, and the run state and the inputs are STOP's and the
boundary's alone. -/
theorem userModeKeepsSystem : Obligations.UserModeKeepsSystem := by
  intro i s t hs hexec ht
  have hmoves : Moves s t := by
    by_cases hstop : ∃ w, i = .stop w
    · obtain ⟨w, rfl⟩ := hstop
      rw [exec_privileged_user rfl hs] at hexec
      exact trapHere_keeps vecPrivilege s t (finish_eq_next.1 hexec)
    · exact exec_moves (fun w hw => hstop ⟨w, hw⟩) hexec
  rcases exec_user_confined hs t hexec with hsame | htrapped
  · obtain ⟨htrace, hipm, hssp, hevents⟩ := hsame.user hs
    exact ⟨htrace, hipm, hssp, hmoves.run, hevents, hmoves.inputs⟩
  · have hsuper := htrapped.supervisor
    rw [ht] at hsuper
    cases hsuper

end Sys2Proof.Proofs
end

section
/-! Exceptions as instructions take them (60_exceptions.md R336 to R348, R361): what taking an exception leaves where the frame can
be pushed and the vector read, the return that undoes it, and the statements about TRAP, TRAPV, ILLEGAL, the two lines, privilege,
RESET, STOP and NOP. -/

open Sys2Proof Sys2Proof.Machine Sys2Proof.Safety

namespace Sys2Proof.Machine

/-! ## The frame on the supervisor stack -/

theorem trunc_long (v : Long) : trunc .l v = v := by rw [trunc, BitVec.setWidth_eq, BitVec.setWidth_eq]

theorem trunc_word_setWidth (w : Word) : trunc .w (w.setWidth 32) = w.setWidth 32 := by
  rw [trunc, BitVec.setWidth_setWidth_of_le w (show Size.w.bits ≤ 32 by decide), BitVec.setWidth_eq]

/-- The two parts of a frame share no byte of memory (60_exceptions.md R340). -/
theorem frame_disjoint {c : Config} (h : addrBitsOk c) (a : Long) :
    List.Disjoint (bytesAt c .l (a - 4)) (bytesAt c .w (a - 6)) := by
  intro n hlong hword
  obtain ⟨i, hi, rfl⟩ := mem_bytesAt.1 hlong
  obtain ⟨j, hj, heq⟩ := mem_bytesAt.1 hword
  simp only [Size.bytes] at hi hj
  have hstart : a - 4 + BitVec.ofNat 32 i = a - 6 + BitVec.ofNat 32 (2 + i) := by
    rw [BitVec.ofNat_add]
    bv_omega
  rw [hstart] at heq
  exact physAddr_add_ne h (a - 6) (by omega) (by omega) (by omega) heq

/-- A load reads memory through the parameters and nothing else. -/
theorem load_of_mem {s t : State} (hmem : t.mem = s.mem) (hcfg : t.cfg = s.cfg) (sz : Size) (a : Long) :
    t.load sz a = s.load sz a := load_congr hcfg fun _ _ => by rw [hmem]

/-- A long stored at `s`, and then a word below it at `u`, whatever registers changed between: each lies in its part of the frame,
and the rest of memory is as before. -/
theorem frame_stored {s u t : State} {a pc : Long} {sr : Word} (hs : Sound s) (hlong : Ram s.cfg .l (a - 4))
    (hword : Ram s.cfg .w (a - 6)) (humem : u.mem = (s.store .l (a - 4) pc).mem) (hucfg : u.cfg = s.cfg)
    (htmem : t.mem = (u.store .w (a - 6) (sr.setWidth 32)).mem) (htcfg : t.cfg = s.cfg) :
    t.load .l (a - 4) = pc ∧ t.load .w (a - 6) = sr.setWidth 32 ∧
      MemKept (bytesAt s.cfg .l (a - 4) ++ bytesAt s.cfg .w (a - 6)) s t := by
  have hu : Sound u := ⟨hucfg.symm ▸ hs.1, humem ▸ wf_store hs.2 _ _ _⟩
  have hload (sz : Size) (b : Long) : t.load sz b = (u.store .w (a - 6) (sr.setWidth 32)).load sz b :=
    load_of_mem htmem (by rw [htcfg, State.store_cfg, hucfg]) sz b
  refine ⟨?pc, ?sr, fun n hn => ?kept⟩
  case pc =>
    have hpushed : u.load .l (a - 4) = (s.store .l (a - 4) pc).load .l (a - 4) :=
      load_of_mem humem (by rw [hucfg, State.store_cfg]) _ _
    rw [hload, load_store_ne, hpushed, load_store_same hs hlong, trunc_long]
    rw [hucfg]
    exact fun n hn hin => frame_disjoint hs.1 a hn hin
  case sr => rw [hload, load_store_same hu (hucfg.symm ▸ hword), trunc_word_setWidth]
  case kept =>
    obtain ⟨hnlong, hnword⟩ := not_or.1 (mt List.mem_append.2 hn)
    have hnword2 : n ∉ bytesAt u.cfg .w (a - 6) := hucfg.symm ▸ hnword
    rw [htmem, memRead_store_ne _ _ _ _ hnword2, humem, memRead_store_ne _ _ _ _ hnlong]

/-- The frame an exception pushes where the supervisor stack is RAM (60_exceptions.md R340). -/
theorem exceptionEntry_frame {v : BitVec 8} {pc : Long} {level : Option (BitVec 3)} {s t : State} (hs : Sound s)
    (hlong : Ram s.cfg .l (s.ssp - 4)) (hword : Ram s.cfg .w (s.ssp - 6)) (h : exceptionEntry v pc level s = .ok t) :
    t.load .l (s.ssp - 4) = pc ∧ t.load .w (s.ssp - 6) = s.sr.toWord.setWidth 32 ∧ MemKept (frameBytes s) s t := by
  obtain ⟨s2, s4, target, h2, h4, -, rfl⟩ := exceptionEntry_eq_ok.1 h
  obtain ⟨-, -, -, -, hssp, -⟩ := writeMem_fields h2
  have hmem2 := congrArg State.mem (writeMem_eq_ok.1 h2).2
  have hmem4 := congrArg State.mem (writeMem_eq_ok.1 h4).2
  have hsix : s2.ssp - 2 = s.ssp - 6 := by rw [hssp]; exact BitVec.sub_sub _ 4 2
  have hcfg2 : s2.cfg = s.cfg := (Moves.writeMem h2).cfg
  have hcfg4 : s4.cfg = s.cfg := (Moves.writeMem h4).cfg.trans hcfg2
  rw [hsix] at hmem4
  exact frame_stored (s := { s with sr := s.sr.forException level, ssp := s.ssp - 4 }) (u := { s2 with ssp := s.ssp - 6 })
    (t := s4.jump target) hs hlong hword hmem2 hcfg2 hmem4 hcfg4

/-- Exception processing completes where it is ready to (60_exceptions.md R340). -/
theorem exceptionEntry_completes {v : BitVec 8} {s : State} (h : EntryReady v s) (pc : Long) (level : Option (BitVec 3)) :
    ∃ t, exceptionEntry v pc level s = .ok t := by
  obtain ⟨-, hlong, hword, hvector⟩ := h
  obtain ⟨s2, h2⟩ : ∃ u, writeMem { s with sr := s.sr.forException level, ssp := s.ssp - 4 } .l (s.ssp - 4) pc = .ok u :=
    ⟨_, writeMem_ram (s := { s with sr := s.sr.forException level, ssp := s.ssp - 4 }) hlong pc⟩
  obtain ⟨-, -, -, -, hssp, -⟩ := writeMem_fields h2
  have hsix : s2.ssp - 2 = s.ssp - 6 := by rw [hssp]; exact BitVec.sub_sub _ 4 2
  have hcfg2 : s2.cfg = s.cfg := (Moves.writeMem h2).cfg
  have hword2 : Ram s2.cfg .w (s2.ssp - 2) := by rwa [hsix, hcfg2]
  obtain ⟨s4, h4⟩ : ∃ u, writeMem { s2 with ssp := s2.ssp - 2 } .w (s2.ssp - 2) (s.sr.toWord.setWidth 32) = .ok u :=
    ⟨_, writeMem_ram (s := { s2 with ssp := s2.ssp - 2 }) hword2 _⟩
  have hcfg4 : s4.cfg = s.cfg := (Moves.writeMem h4).cfg.trans hcfg2
  have hvector4 : Readable s4.cfg .l (vectorAddr v) := by rwa [hcfg4, vectorAddr_eq]
  exact ⟨_, exceptionEntry_eq_ok.2 ⟨s2, s4, _, h2, h4, readMem_readable hvector4, rfl⟩⟩

/-- What exception processing leaves where its frame lies in RAM (60_exceptions.md R340). -/
theorem exceptionEntry_entered {v : BitVec 8} {pc : Long} {level : Option (BitVec 3)} {s t : State} (hready : EntryReady v s)
    (h : exceptionEntry v pc level s = .ok t) : Entered v pc (level.getD s.sr.ipm) s t := by
  obtain ⟨hs, hlong, hword, -⟩ := hready
  obtain ⟨hsr, hd, ha, husp, hssp, hevents, -⟩ := exceptionEntry_registers h
  obtain ⟨hpc, hpushed, hkept⟩ := exceptionEntry_frame hs hlong hword h
  have hmoves := exceptionEntry_moves h
  have hsix : t.ssp = s.ssp - 6 := hssp.trans (BitVec.sub_sub _ 4 2)
  have hfour : t.ssp + 2 = s.ssp - 4 := by rw [hssp, BitVec.sub_add_cancel]
  exact ⟨hsr, hsix, husp, hfour ▸ hpc, hsix ▸ hpushed, vectorAddr_eq v ▸ exceptionEntry_pc h, hd, ha, hkept, hmoves.run,
    hmoves.stale, hmoves.lastIpl, hmoves.inputs, hevents, hmoves.cfg⟩

theorem exceptionEntry_ready {v : BitVec 8} {s : State} (h : EntryReady v s) (pc : Long) (level : Option (BitVec 3)) :
    ∃ t, exceptionEntry v pc level s = .ok t ∧ Entered v pc (level.getD s.sr.ipm) s t := by
  obtain ⟨t, ht⟩ := exceptionEntry_completes h pc level
  exact ⟨t, ht, exceptionEntry_entered h ht⟩

/-! ## Instructions that take an exception -/

/-- An instruction that does nothing but take an exception completes where the entry is ready. -/
theorem exec_entered {i : Instr} {v : BitVec 8} {pc : Long} {s : State} (hexec : exec i s = finish (exceptionEntry v pc none s))
    (hready : EntryReady v s) : ∃ t, exec i s = .next t ∧ Entered v pc s.sr.ipm s t := by
  obtain ⟨t, hentry, hentered⟩ := exceptionEntry_ready hready pc none
  exact ⟨t, by rw [hexec, hentry]; rfl, hentered⟩

theorem execTrap_eq (n : Fin 16) (s : State) :
    exec (.trap n) s = finish (exceptionEntry (BitVec.ofNat 8 (32 + n.val)) (s.pc + 2) none s) := by
  rw [← vecTrap_eq]
  rfl

/-- STOP that may not stop takes the privilege violation, in supervisor mode too (48_muldiv_chk_system.md R299). -/
theorem execStop_violating {w : Word} {s : State} (h : stopViolates w s = true) :
    exec (.stop w) s = finish (exceptionEntry vecPrivilege s.pc none s) := by
  change finish (if stopViolates w s then _ else _) = _
  rw [if_pos h]
  rfl

/-- STOP that may stop loads SR and stops, but with T set (48_muldiv_chk_system.md R299). -/
theorem execStop_stopping {w : Word} {s : State} (h : stopViolates w s = false) :
    exec (.stop w) s =
      .next { s with sr := statusOf w.getLsbD, pc := s.pc + 4, run := if s.sr.t then s.run else .stopped } := by
  change finish (if stopViolates w s then _ else _) = _
  rw [if_neg (by rw [h]; exact Bool.false_ne_true), StatusReg.ofWord_eq_statusOf]
  rfl

theorem stopViolates_iff {w : Word} {s : State} :
    stopViolates w s = true ↔ s.sr.s = false ∨ (w.getLsbD 13 = false ∧ s.cfg.stopClearsS = .privilegeViolation) := by
  simp [stopViolates]

/-! ## Privileged instructions, and instructions that count as not executed -/

theorem isPrivileged_iff (i : Instr) :
    isPrivileged i = true ↔
      (∃ e, i = .moveToSr e) ∨ (∃ r, i = .moveToUsp r) ∨ (∃ r, i = .moveFromUsp r) ∨ (∃ w, i = .andiToSr w) ∨
        (∃ w, i = .eoriToSr w) ∨ (∃ w, i = .oriToSr w) ∨ i = .rte ∨ i = .reset ∨ ∃ w, i = .stop w := by
  constructor
  · intro hi
    cases i
    case moveToSr | moveToUsp | moveFromUsp | andiToSr | eoriToSr | oriToSr | rte | reset | stop => simp
    all_goals cases hi
  · rintro (⟨_, rfl⟩ | ⟨_, rfl⟩ | ⟨_, rfl⟩ | ⟨_, rfl⟩ | ⟨_, rfl⟩ | ⟨_, rfl⟩ | rfl | rfl | ⟨_, rfl⟩) <;> rfl

/-- An instruction that is not privileged is executed, but for ILLEGAL and the two lines (60_exceptions.md R352). -/
theorem executes_unprivileged {i : Instr} {s : State} (hi : isPrivileged i = false) (h : executes i s = false) :
    i = .illegal ∨ (∃ w, i = .lineA w) ∨ ∃ w, i = .lineF w := by
  cases i
  case illegal | lineA | lineF => simp
  case moveToSr | moveToUsp | moveFromUsp | andiToSr | eoriToSr | oriToSr | rte | reset | stop => cases hi
  all_goals cases h

theorem executes_stop (w : Word) (s : State) : executes (.stop w) s = !stopViolates w s := rfl

theorem executes_privileged_of_ne_stop {i : Instr} (hi : isPrivileged i = true) (hstop : ∀ w, i ≠ .stop w) (s : State) :
    executes i s = s.sr.s := by
  cases i
  case moveToSr | moveToUsp | moveFromUsp | andiToSr | eoriToSr | oriToSr | rte | reset => rfl
  case stop w => exact absurd rfl (hstop w)
  all_goals cases hi

/-- A privileged instruction is executed in supervisor mode only, and STOP not always there (60_exceptions.md R352). -/
theorem executes_privileged {i : Instr} {s : State} (hi : isPrivileged i = true) :
    executes i s = false ↔
      s.sr.s = false ∨ ∃ w, i = .stop w ∧ w.getLsbD 13 = false ∧ s.cfg.stopClearsS = .privilegeViolation := by
  by_cases hstop : ∃ w, i = .stop w
  · obtain ⟨w, rfl⟩ := hstop
    simp only [executes_stop, Bool.not_eq_false', stopViolates_iff, Instr.stop.injEq, exists_eq_left']
  · have hne (w : Word) : i ≠ .stop w := fun hw => hstop ⟨w, hw⟩
    rw [executes_privileged_of_ne_stop hi hne]
    exact ⟨.inl, fun h => h.resolve_right fun ⟨w, hw, _⟩ => hne w hw⟩

theorem executes_eq_false_iff (i : Instr) (s : State) :
    executes i s = false ↔
      i = .illegal ∨ (∃ w, i = .lineA w) ∨ (∃ w, i = .lineF w) ∨ (isPrivileged i = true ∧ s.sr.s = false) ∨
        ∃ w, i = .stop w ∧ w.getLsbD 13 = false ∧ s.cfg.stopClearsS = .privilegeViolation := by
  constructor
  · intro h
    cases hi : isPrivileged i with
    | false =>
      rcases executes_unprivileged hi h with hillegal | hlineA | hlineF
      · exact .inl hillegal
      · exact .inr (.inl hlineA)
      · exact .inr (.inr (.inl hlineF))
    | true => exact .inr (.inr (.inr ((executes_privileged hi).1 h |>.imp (⟨rfl, ·⟩) id)))
  · rintro (rfl | ⟨w, rfl⟩ | ⟨w, rfl⟩ | ⟨hi, huser⟩ | ⟨w, rfl, hclear, hparam⟩)
    · rfl
    · rfl
    · rfl
    · exact (executes_privileged hi).2 (.inl huser)
    · exact (executes_privileged rfl).2 (.inr ⟨w, rfl, hclear, hparam⟩)

end Sys2Proof.Machine

namespace Sys2Proof.Proofs

/-- Settles O13: the two pushes and the read of the vector answer, and the frame is found where it was pushed. -/
theorem exceptionProcessing : Obligations.ExceptionProcessing := fun _ pc level _ hready =>
  exceptionEntry_ready hready pc level

/-- Settles O14: RTE pops the status word and the address the entry pushed, which give back SR, the program counter and SSP. -/
theorem entryThenRte : Obligations.EntryThenRte := by
  intro v pc level s t hready hentry
  obtain ⟨-, hlong, hword, -⟩ := id hready
  obtain ⟨-, hssp, husp, hpc, hsr, -, hd, ha, hkept, -, -, -, -, -, hcfg⟩ := exceptionEntry_entered hready hentry
  have hfour : s.ssp - 6 + 2 = s.ssp - 4 := by bv_omega
  have hreadSr : Readable t.cfg .w t.ssp := by rw [hcfg, hssp]; exact Ram.readable hword
  have hreadPc : Readable t.cfg .l (t.ssp + 2) := by rw [hcfg, hssp, hfour]; exact Ram.readable hlong
  have hrte : exec .rte t =
      .next { t with sr := statusOf (t.load .w t.ssp).getLsbD, pc := t.load .l (t.ssp + 2), ssp := t.ssp + 6 } :=
    returnsRestore.2 t (exceptionEntry_supervisor hentry) hreadSr hreadPc
  refine ⟨_, hrte, ?sr, hpc, ?ssp, husp, hd, ha, hkept⟩
  case sr =>
    have hround : (s.sr.toWord.setWidth 32).setWidth 16 = s.sr.toWord := by simp
    change statusOf (t.load .w t.ssp).getLsbD = s.sr
    rw [hsr, ← ofWord_setWidth, hround, StatusReg.ofWord_toWord]
  case ssp =>
    change t.ssp + 6 = s.ssp
    rw [hssp, BitVec.sub_add_cancel]

/-- Settles O16: which instructions are privileged and which count as not executed is read off the two tables; in user mode every
privileged one is its privilege violation and nothing else. -/
theorem privilegedInstructionsTrapInUserMode : Obligations.PrivilegedInstructionsTrapInUserMode :=
  ⟨fun i s => ⟨isPrivileged_iff i, executes_eq_false_iff i s⟩,
    fun _ _ hi hs hready => exec_entered (exec_privileged_user hi hs) hready⟩

/-- Settles O58: TRAP is an exception entry in either mode. -/
theorem trapEntersVector : Obligations.TrapEntersVector := fun n s hready => exec_entered (execTrap_eq n s) hready

/-- Settles O59: TRAPV by V; ILLEGAL and the two lines are exception entries at their own address. -/
theorem trapvIllegalAndLines : Obligations.TrapvIllegalAndLines := by
  intro s w
  have htrapv : exec .trapv s =
      finish (if s.sr.ccr.v = true then exceptionEntry 7 (s.pc + 2) none s else .ok { s with pc := s.pc + 2 }) := rfl
  refine ⟨fun hv => ?_, fun hv => exec_entered ?_, exec_entered rfl, exec_entered rfl, exec_entered rfl⟩
  · rw [htrapv, hv]
    rfl
  · rw [htrapv, if_pos hv]

/-- Settles O60: RESET only puts out its event; STOP by whether its operand may clear S. -/
theorem resetEventAndStop : Obligations.ResetEventAndStop := by
  intro w s hs
  refine ⟨?reset, fun hallowed => ?stopping, fun hclear hparam => ?violating⟩
  case reset =>
    change finish (privileged s _) = _
    rw [privileged_eq, if_pos hs]
    rfl
  case stopping =>
    refine execStop_stopping (Bool.eq_false_iff.2 fun hviolates => ?_)
    rcases stopViolates_iff.1 hviolates with huser | ⟨hclear, hparam⟩
    · rw [hs] at huser
      cases huser
    · rcases hallowed with hset | hstop
      · rw [hclear] at hset
        cases hset
      · rw [hparam] at hstop
        cases hstop
  case violating => exact exec_entered (execStop_violating (stopViolates_iff.2 (.inr ⟨hclear, hparam⟩)))

/-- Settles O37: the one opword of NOP, and a meaning that only advances. -/
theorem nopChangesOnlyPc : Obligations.NopChangesOnlyPc := ⟨fun _ => rfl, fun _ => rfl⟩

end Sys2Proof.Proofs
end

section
/-! The instruction boundary, the stopped and the faulted processor, and external reset (60_exceptions.md R349 to R355,
70_reset_and_hazards.md R380). The prefetch list is the one field that the statements here leave open: an exception entry neither
reads nor changes it, so what is known of an entry from one list holds from any other. -/

open Sys2Proof Sys2Proof.Machine Sys2Proof.Safety

namespace Sys2Proof.Machine

/-! ## The prefetch list apart -/

theorem store_set_stale (s : State) (st : List HeldWord) (sz : Size) (a v : Long) :
    ({ s with stale := st } : State).store sz a v = { s.store sz a v with stale := st } := by
  have hbyte (u : State) (b : Long) (x : Byte) :
      ({ u with stale := st } : State).storeByte b x = { u.storeByte b x with stale := st } := by
    unfold State.storeByte
    split <;> rfl
  cases sz <;> simp only [State.store, hbyte]

/-- Whether a write may be done depends on the parameters and the address alone. -/
theorem writeStop_none_congr {s t : State} {sz : Size} {a : Long} (hcfg : t.cfg = s.cfg) (h : writeStop s sz a = none) :
    writeStop t sz a = none := by
  have hbyte (b : Long) (hb : writeStopAt s b = none) : writeStopAt t b = none := by
    unfold writeStopAt at hb ⊢
    rw [hcfg]
    cases hkind : kindAt s.cfg b <;> simp [hkind] at hb ⊢
  unfold writeStop at h ⊢
  split at h
  · cases h
  · next hmis =>
    rw [if_neg hmis, firstStop_eq_none]
    exact fun b hb => hbyte b (firstStop_eq_none.1 h b hb)

theorem writeMem_set_stale {s t : State} {sz : Size} {a v : Long} (st : List HeldWord) (h : writeMem s sz a v = .ok t) :
    writeMem { s with stale := st } sz a v = .ok { t with stale := st } := by
  obtain ⟨hstop, rfl⟩ := writeMem_eq_ok.1 h
  exact writeMem_eq_ok.2 ⟨writeStop_none_congr (s := s) rfl hstop, (store_set_stale s st sz a v).symm⟩

/-- An exception entry does not look at the prefetch list. -/
theorem exceptionEntry_set_stale {v : BitVec 8} {pc : Long} {level : Option (BitVec 3)} {s t : State} (st : List HeldWord)
    (h : exceptionEntry v pc level s = .ok t) :
    exceptionEntry v pc level { s with stale := st } = .ok { t with stale := st } := by
  obtain ⟨s2, s4, target, h2, h4, hread, rfl⟩ := exceptionEntry_eq_ok.1 h
  obtain ⟨hstop, rfl⟩ := readMem_eq_ok.1 hread
  have hread' : readMem { s4 with stale := st } .l (vectorAddr v) = .ok (s4.load .l (vectorAddr v)) :=
    readMem_readable (s := { s4 with stale := st }) ((readStop_eq_none (s := s4)).1 hstop)
  exact exceptionEntry_eq_ok.2 ⟨_, _, _, writeMem_set_stale st h2, writeMem_set_stale st h4, hread', rfl⟩

/-- What an entry leaves, but for the prefetch list, does not depend on that list. -/
theorem entered_of_set_stale {v : BitVec 8} {pc : Long} {m : BitVec 3} {st : List HeldWord} {s t : State}
    (h : Entered v pc m { s with stale := st } t) : Entered v pc m s { t with stale := s.stale } := by
  obtain ⟨hsr, hssp, husp, hstacked, hpushed, hpc, hd, ha, hkept, hrun, -, hipl, hinputs, hevents, hcfg⟩ := h
  exact ⟨hsr, hssp, husp, hstacked, hpushed, hpc, hd, ha, hkept, hrun, rfl, hipl, hinputs, hevents, hcfg⟩

/-! ## One look at the interrupt input -/

/-- An input that is not accepted is only noted (60_exceptions.md R350). -/
theorem serviceInterrupt_quiet {s : State} (hmask : ¬ (s.sr.ipm.toNat < (presented s.inputs).1.toNat))
    (hseven : ¬ ((presented s.inputs).1 = 7 ∧ s.lastIpl ≠ 7)) :
    serviceInterrupt s = .ok { s with inputs := s.inputs.tail, lastIpl := (presented s.inputs).1 } := by
  have hrefused : ¬ accepts s (presented s.inputs).1 = true := fun h =>
    ((accepts_iff s _).1 h).elim hmask hseven
  rw [serviceInterrupt_eq, if_neg hrefused]

/-- With no input left there is no request. -/
theorem serviceInterrupt_idle {s : State} (h : s.inputs = []) : serviceInterrupt s = .ok { s with lastIpl := 0 } := by
  have hnone : (presented s.inputs).1 = 0 := by rw [h]; rfl
  have hmask : ¬ (s.sr.ipm.toNat < (presented s.inputs).1.toNat) := by rw [hnone]; exact Nat.not_lt_zero _
  have hseven : ¬ ((presented s.inputs).1 = 7 ∧ s.lastIpl ≠ 7) := by rw [hnone]; simp
  rw [serviceInterrupt_quiet hmask hseven, hnone, h, List.tail_nil, ← h]

/-- The vector an acknowledge gives (60_exceptions.md R351, R347). -/
theorem iackVector_of_vectorFor {level : BitVec 3} {answer : IackAnswer} {v : BitVec 8} (h : VectorFor level answer v) :
    iackVector level answer = v := by
  cases answer with
  | vector n => exact h.symm
  | spurious => exact h.symm
  | autovector =>
    have hv : v.toNat = 24 + level.toNat := h
    change 24 + level.setWidth 8 = v
    bv_omega

/-- An accepted interrupt enters its exception (60_exceptions.md R351), and a stopped processor runs again (R355). -/
theorem serviceInterrupt_accepted {s : State} {level : BitVec 3} {answer : IackAnswer} {v : BitVec 8}
    (hpresented : presented s.inputs = (level, answer)) (hv : VectorFor level answer v)
    (haccept : s.sr.ipm.toNat < level.toNat ∨ (level = 7 ∧ s.lastIpl ≠ 7)) (hready : EntryReady v s) :
    ∃ t, serviceInterrupt s = .ok t ∧
      Entered v s.pc level { s with run := .running, inputs := s.inputs.tail, lastIpl := level } t := by
  obtain ⟨t, hentry, hentered⟩ :=
    exceptionEntry_ready (s := { s with run := .running, inputs := s.inputs.tail, lastIpl := level }) hready s.pc (some level)
  refine ⟨t, ?_, hentered⟩
  rw [serviceInterrupt_eq, hpresented, if_pos ((accepts_iff s level).2 haccept), interruptEntry, iackVector_of_vectorFor hv]
  exact hentry

/-! ## The boundary after an instruction -/

/-- Without a trace, the boundary is the look at the interrupt input. -/
theorem afterInstr_untraced {i : Instr} {len : Long} {s u t : State} (htrace : s.sr.t = false ∨ executes i s = false)
    (hservice : serviceInterrupt (noteStores s (s.pc + len) u) = .ok t) :
    afterInstr i len s (.next u) = .next (noteEntry (noteStores s (s.pc + len) u) t) := by
  have hoff : (s.sr.t && executes i s) = false := by
    rcases htrace with h | h <;> simp [h]
  exact afterInstr_eq_next.2 ⟨u, rfl, endInstruction_eq_ok.2 ⟨_, t, by rw [hoff]; rfl, hservice, rfl⟩⟩

/-- With a trace, the look at the interrupt input comes after the trace exception (60_exceptions.md R349, R352). -/
theorem afterInstr_traced {i : Instr} {len : Long} {s u e t : State} (ht : s.sr.t = true) (hexecutes : executes i s = true)
    (hentry : exceptionEntry vecTrace u.pc none (noteStores s (s.pc + len) u) = .ok e) (hservice : serviceInterrupt e = .ok t) :
    afterInstr i len s (.next u) = .next (noteEntry (noteStores s (s.pc + len) u) t) := by
  refine afterInstr_eq_next.2 ⟨u, rfl, endInstruction_eq_ok.2 ⟨e, t, ?_, hservice, rfl⟩⟩
  rw [ht, hexecutes]
  exact hentry

/-- A boundary with no trace and no input changes nothing but the level seen and the prefetch list. -/
theorem afterInstr_idle {i : Instr} {len : Long} {s u : State} (htrace : s.sr.t = false ∨ executes i s = false)
    (hinputs : u.inputs = []) :
    ∃ t, afterInstr i len s (.next u) = .next t ∧ t = { u with lastIpl := 0, stale := t.stale } :=
  ⟨_, afterInstr_untraced htrace (serviceInterrupt_idle hinputs), rfl⟩

theorem enterFaulted_fault_left {s : State} {r : Result} {f : Fault} (h : enterFaulted s r = .fault f) :
    f.left.run = .faulted ∧ f.left.inputs = s.inputs.tail := by
  obtain ⟨g, -, rfl⟩ := enterFaulted_eq_fault.1 h
  simp only [Fault.left_withLeft, and_self]

theorem afterInstr_fault_left {i : Instr} {len : Long} {s : State} {r : Result} {f : Fault}
    (h : afterInstr i len s r = .fault f) : f.left.run = .faulted ∧ f.left.inputs = s.inputs.tail := by
  cases r with
  | next u => exact enterFaulted_fault_left h
  | fault g => exact enterFaulted_fault_left (r := .fault g) h
  | refused r => cases h

/-- Whatever a step faults in, the processor is left faulted and the input taken (10_state.md R34). -/
theorem step_fault_left {s : State} {f : Fault} (h : step s = .fault f) :
    f.left.run = .faulted ∧ f.left.inputs = s.inputs.tail := by
  unfold step at h
  split at h
  · exact enterFaulted_fault_left h
  · split at h
    · cases h
    · exact enterFaulted_fault_left h
    · split at h
      · exact enterFaulted_fault_left h
      · exact afterInstr_fault_left h
      · exact afterInstr_fault_left h

/-! ## The step of an illegal opword, of a stopped processor, and external reset -/

/-- The fetch of an opword that selects no row does not look at the words after it (30_encoding.md R95). -/
theorem fetchInstr_illegal {s : State} (hstale : s.stale = []) (hread : Readable s.cfg .w s.pc)
    (hopword : decodeOpword ((s.load .w s.pc).setWidth 16) = none) : fetchInstr s = .illegalOpword := by
  have hword : (s.load .w s.pc).setWidth 16 = s.wordAt s.pc := by
    rw [load_word_eq_wordAt]
    simp
  have hdecode (ws : List Word) : decode (s.wordAt s.pc :: ws) = .illegalOpword (s.wordAt s.pc) := by
    simp only [decode, hword ▸ hopword]
  unfold fetchInstr
  simp only [maxWords, fetchWords, fetchWord_of_stale_nil hstale hread, hdecode]

theorem step_of_illegal_opword {s : State} (hrun : s.run = .running) (hreset : resetNext s.inputs = false)
    (hstale : s.stale = []) (hread : Readable s.cfg .w s.pc)
    (hopword : decodeOpword ((s.load .w s.pc).setWidth 16) = none) :
    step s = afterInstr .illegal 2 s (exec .illegal s) := by
  simp only [step, hreset, hrun, fetchInstr_illegal hstale hread hopword, afterFetch_of_stale_nil hstale, Bool.false_eq_true,
    if_false]

/-- While stopped, a step is a look at the interrupt input (60_exceptions.md R355). -/
theorem step_of_stopped {s t : State} (hrun : s.run = .stopped) (hreset : resetNext s.inputs = false)
    (hservice : serviceInterrupt s = .ok t) : step s = .next (noteEntry s t) := by
  simp only [step, hreset, hrun, stoppedStep_eq_ok.2 ⟨t, hservice, rfl⟩, Bool.false_eq_true, if_false]
  rfl

theorem step_of_faulted {s : State} (hrun : s.run = .faulted) (hreset : resetNext s.inputs = false) :
    step s = .next { s with inputs := s.inputs.tail } := by
  change step s = .next s.dropInput
  simp only [step, hreset, hrun, Bool.false_eq_true, if_false]

/-- The state external reset makes of what it reads (70_reset_and_hazards.md R380). -/
def afterReset (s : State) : State := { resetRegisters s with ssp := s.load .l 0, pc := s.load .l 4 }

/-- External reset where both longs can be read: an odd one is a model fault (70_reset_and_hazards.md R380). -/
theorem resetSequence_readable {s : State} (hssp : Readable s.cfg .l 0) (hpc : Readable s.cfg .l 4) :
    resetSequence s =
      if (s.load .l 0).toNat % 2 = 1 then .error (.fault (.addressError (s.load .l 0) (afterReset s)))
      else if (s.load .l 4).toNat % 2 = 1 then .error (.fault (.addressError (s.load .l 4) (afterReset s)))
      else .ok (afterReset s) := by
  have hread0 : readMem (resetRegisters s) .l 0 = .ok (s.load .l 0) := readMem_readable (s := resetRegisters s) hssp
  have hread4 : readMem { resetRegisters s with ssp := s.load .l 0 } .l 4 = .ok (s.load .l 4) :=
    readMem_readable (s := { resetRegisters s with ssp := s.load .l 0 }) hpc
  simp only [resetSequence, hread0, hread4, getLsbD_zero_eq_odd, decide_eq_true_eq]
  rfl

theorem step_of_reset {s : State} {ins : List PlatformInput} (h : s.inputs = .reset :: ins) :
    step s = enterFaulted s (finish (resetSequence s.dropInput)) := by
  have hreset : resetNext s.inputs = true := by rw [h]; rfl
  rw [step, if_pos hreset]

end Sys2Proof.Machine

namespace Sys2Proof.Proofs

/-- Settles O5: with no trace and no accepted interrupt the boundary is one look at the input. -/
theorem quietBoundaryKeepsState : Obligations.QuietBoundaryKeepsState := by
  intro i len s u htrace hmask hseven
  have hservice := serviceInterrupt_quiet (s := noteStores s (s.pc + len) u) hmask hseven
  exact ⟨⟨_, afterInstr_untraced htrace hservice, rfl⟩, fun _ => rfl, fun _ => rfl⟩

/-- Settles O17: the look at the input after the instruction accepts it and enters its exception. -/
theorem interruptAcceptedAtBoundary : Obligations.InterruptAcceptedAtBoundary := by
  intro i len s u level answer v ins htrace hinputs hv haccept hready
  have hpresented : presented u.inputs = (level, answer) := by rw [hinputs]; rfl
  have htail : u.inputs.tail = ins := by rw [hinputs]; rfl
  obtain ⟨t, hservice, hentered⟩ :=
    serviceInterrupt_accepted (s := noteStores s (s.pc + len) u) hpresented hv haccept hready
  have hfrom := entered_of_set_stale (s := { u with run := .running, inputs := u.inputs.tail, lastIpl := level }) hentered
  rw [htail] at hfrom
  exact ⟨_, _, hfrom, afterInstr_untraced htrace hservice, rfl⟩

/-- Settles O15: the trace exception is entered before the look at the input; the entry does not depend on the prefetch list,
which the instruction's stores may have changed. -/
theorem traceFollowsTracedInstruction : Obligations.TraceFollowsTracedInstruction := by
  refine ⟨fun i len s u ht hinputs =>
      ⟨fun hexecutes hready => ?traced, fun hexecutes => afterInstr_idle (.inr hexecutes) hinputs⟩,
    fun i len s u e level answer v ins ht hexecutes hinputs hv haccept hentry hready => ?interrupted⟩
  case traced =>
    obtain ⟨e, hentry, hentered⟩ := exceptionEntry_ready (s := noteStores s (s.pc + len) u) hready u.pc none
    have hidle : e.inputs = [] := (exceptionEntry_moves hentry).inputs.trans hinputs
    exact ⟨_, _, entered_of_set_stale (s := u) hentered,
      afterInstr_traced ht hexecutes hentry (serviceInterrupt_idle hidle), rfl⟩
  case interrupted =>
    have hmoves := exceptionEntry_moves hentry
    obtain ⟨hsr, -⟩ := exceptionEntry_registers hentry
    have hpresented : presented e.inputs = (level, answer) := by rw [hmoves.inputs, hinputs]; rfl
    have htail : e.inputs.tail = ins := by rw [hmoves.inputs, hinputs]; rfl
    have hipm : e.sr.ipm = u.sr.ipm := by rw [hsr]; rfl
    have haccept' : e.sr.ipm.toNat < level.toNat ∨ (level = 7 ∧ e.lastIpl ≠ 7) := by rwa [hipm, hmoves.lastIpl]
    have hentry' := exceptionEntry_set_stale (noteStores s (s.pc + len) u).stale hentry
    obtain ⟨f, hservice, hentered⟩ :=
      serviceInterrupt_accepted (s := { e with stale := (noteStores s (s.pc + len) u).stale }) hpresented hv haccept' hready
    have hfrom := entered_of_set_stale (s := { e with run := .running, inputs := e.inputs.tail, lastIpl := level }) hentered
    rw [htail] at hfrom
    exact ⟨_, _, hfrom, afterInstr_traced ht hexecutes hentry' hservice, rfl⟩

/-- Settles O18: while stopped a step is one look at the input; a look that is not followed by an entry leaves memory, so the
prefetch list, alone. -/
theorem stoppedUntilInterrupt : Obligations.StoppedUntilInterrupt := by
  intro s v hrun hreset
  refine ⟨fun hmask hseven => ?_, fun haccept hv hready => ?_⟩
  · rw [step_of_stopped hrun hreset (serviceInterrupt_quiet hmask hseven), noteEntry, keepStale_same]
  · obtain ⟨e, hservice, hentered⟩ := serviceInterrupt_accepted rfl hv haccept hready
    exact ⟨_, e, hentered, step_of_stopped hrun hreset hservice, rfl⟩

/-- Settles O7: the opword is fetched and selects no row, so the step is ILLEGAL's, which is an exception entry that is not
traced. -/
theorem illegalOpwordTakesVector4 : Obligations.IllegalOpwordTakesVector4 := by
  intro s hrun hstale hread hopword
  refine ⟨fun hreset => step_of_illegal_opword hrun hreset hstale hread hopword, fun hinputs hready => ?_⟩
  have hreset : resetNext s.inputs = false := by rw [hinputs]; rfl
  obtain ⟨e, hexec, hentered⟩ := exec_entered (i := .illegal) rfl hready
  obtain ⟨-, -, -, -, -, -, -, -, -, -, -, -, hkept, -, -⟩ := id hentered
  obtain ⟨t, hboundary, ht⟩ := afterInstr_idle (i := .illegal) (len := 2) (s := s) (.inr rfl) (hkept.trans hinputs)
  exact ⟨t, e, hentered, by rw [step_of_illegal_opword hrun hreset hstale hread hopword, hexec, hboundary], ht⟩

/-- Settles O12: external reset by the parity of the two longs it reads; a fault leaves the processor faulted; a faulted one only
takes its input. -/
theorem externalResetSequence : Obligations.ExternalResetSequence := by
  refine ⟨fun s ins hinputs hread0 hread4 => ?reset, fun _ _ => step_fault_left, fun _ => step_of_faulted⟩
  have htail : s.inputs.tail = ins := by rw [hinputs]; rfl
  have hreset := resetSequence_readable (s := s.dropInput) hread0 hread4
  have hload (a : Long) : s.dropInput.load .l a = s.load .l a := rfl
  rw [hload, hload] at hreset
  rw [step_of_reset hinputs, hreset]
  refine ⟨fun hssp hpc => ?even, fun hssp => ?oddSsp, fun hssp hpc => ?oddPc⟩
  case even =>
    rw [if_neg (by omega), if_neg (by omega)]
    exact ⟨_, rfl, rfl, rfl, rfl, rfl, rfl, rfl, rfl, rfl, rfl, htail⟩
  case oddSsp =>
    rw [if_pos hssp]
    exact ⟨_, rfl, rfl⟩
  case oddPc =>
    rw [if_neg (by omega), if_pos hpc]
    exact ⟨_, rfl, rfl⟩

end Sys2Proof.Proofs
end

section
/-! CLR, NEG, NEGX, NOT and TAS (49_unary_misc.md R310 to R313, 45_bit_tas.md R236): an operand changed in place by an operation of
one operand. NEG and NEGX subtract it from 0, and TAS sets a bit as BSET does. -/

open Sys2Proof Sys2Proof.Machine Sys2Proof.Safety

namespace Sys2Proof.Machine

section
variable {i : Instr} {sz : Size} {ea : Ea} {l : Loc} {s s1 : State} {d b sc : Nat}

/-- An operation of one operand leaves its result in the operand and its flags in CCR. -/
theorem unaryEa_result {op : UnaryOp} (hexec : exec i s = finish (unaryEa op sz ea s))
    (henc : encode i = encEa 4 d b sc [] sz ea) (hs : Sound s) (hres : resolve ea sz (extAt s 0) s = (l, s1))
    (hw : Writable s.cfg sz l) :
    ∃ t, exec i s = .next t ∧ locValue sz t l = trunc sz (op sz (locValue sz s1 l) s.sr.ccr).1 ∧
      t.sr.ccr = (op sz (locValue sz s1 l) s.sr.ccr).2 ∧ Changed i sz l (eaSteps ea) s s1 t := by
  obtain ⟨t, ht, hvalue, hccr, hchanged⟩ :=
    modifyEa_changed hs hres hw (fun v => op sz v s.sr.ccr) i _ (nextPc_encEa henc rfl s)
  exact ⟨t, hexec.trans (congrArg finish ht), hvalue, hccr, hchanged⟩

end

theorem natOf_zero (sz : Size) : natOf sz 0 = 0 := by cases sz <;> rfl

/-- The flags of CLR are those of a logic result of 0 (49_unary_misc.md R310). -/
theorem clrOp_rule (sz : Size) (v : Long) (old : Ccr) : LogicRule sz 0 old (clrOp sz v old).2 := by
  refine ⟨?_, ?_, rfl, rfl, rfl⟩ <;> cases sz <;> rfl

theorem negOp_eq_subOp (sz : Size) (v : Long) (old : Ccr) : negOp sz v old = subOp sz v 0 old := rfl

theorem negxOp_eq_subxOp (sz : Size) (v : Long) (old : Ccr) : negxOp sz v old = subxOp sz v 0 old := rfl

/-- NOT complements every bit of the operand (49_unary_misc.md R313). -/
theorem notOp_rule {sz : Size} {v r : Long} (old : Ccr) (hr : r = trunc sz (notOp sz v old).1) :
    BitwiseRule (fun d _ => !d) sz 0 v r ∧ LogicRule sz r old (notOp sz v old).2 := by
  have hsize : sz.bits ≤ 32 := by cases sz <;> decide
  have hvalue : r = trunc sz (~~~v) := hr.trans (trunc_trunc sz _)
  refine ⟨fun k hk => ?_, logicRule_congr (by rw [hvalue, natOf_trunc]) (logicCcr_rule sz (~~~v) old)⟩
  rw [hvalue, trunc_getLsbD, BitVec.getLsbD_not, decide_eq_true hk, decide_eq_true (hk.trans_le hsize), Bool.true_and,
    Bool.true_and]

/-- TAS sets bit 7 as BSET does (45_bit_tas.md R236). -/
theorem tasOp_rule {v r : Long} (old : Ccr) (hr : r = trunc .b (tasOp .b v old).1) : OneBitRule (fun _ => true) .b 7 v r := by
  have hbset : trunc .b r = trunc .b (bsetOp .b 7 v old).1 := by
    rw [hr, trunc_trunc]
    rfl
  obtain ⟨hbit, -⟩ := bsetOp_yields (src := 7) old rfl rfl hbset
  exact hbit

end Sys2Proof.Machine

namespace Sys2Proof.Proofs

/-- Settles O43: the five instructions are one shape; what is left is what each operation gives. -/
theorem unaryResultsAndFlags : Obligations.UnaryResultsAndFlags := by
  intro sz ea s s1 l _ hs hres hw
  refine ⟨?clr, ?neg, ?negx, ?not, ?tas⟩
  case clr =>
    obtain ⟨t, hexec, hvalue, hccr, hchanged⟩ := unaryEa_result (i := .clr sz ea) rfl rfl hs hres hw
    refine ⟨t, hexec, ?_, hccr ▸ clrOp_rule sz _ _, hchanged⟩
    rw [hvalue, natOf_trunc]
    exact natOf_zero sz
  case neg =>
    obtain ⟨t, hexec, hvalue, hccr, hchanged⟩ := unaryEa_result (i := .neg sz ea) rfl rfl hs hres hw
    rw [negOp_eq_subOp] at hvalue hccr
    have hr : trunc sz (locValue sz t l) = trunc sz (subOp sz (locValue sz s1 l) 0 s.sr.ccr).1 := by rw [hvalue, trunc_trunc]
    obtain ⟨hrule, hzero, hx⟩ := subOp_yields (src := locValue sz s1 l) (dst := 0) s.sr.ccr rfl rfl hr
    exact ⟨t, hexec, hccr ▸ hrule, hccr ▸ hzero, hccr ▸ hx, hchanged⟩
  case negx =>
    obtain ⟨t, hexec, hvalue, hccr, hchanged⟩ := unaryEa_result (i := .negx sz ea) rfl rfl hs hres hw
    rw [negxOp_eq_subxOp] at hvalue hccr
    have hr : trunc sz (locValue sz t l) = trunc sz (subxOp sz (locValue sz s1 l) 0 s.sr.ccr).1 := by rw [hvalue, trunc_trunc]
    obtain ⟨hrule, hzero, hx⟩ := subxOp_yields (src := locValue sz s1 l) (dst := 0) s.sr.ccr rfl rfl hr
    exact ⟨t, hexec, hccr ▸ hrule, hccr ▸ hzero, hccr ▸ hx, hchanged⟩
  case not =>
    obtain ⟨t, hexec, hvalue, hccr, hchanged⟩ := unaryEa_result (i := .not sz ea) rfl rfl hs hres hw
    obtain ⟨hbits, hflags⟩ := notOp_rule s.sr.ccr hvalue
    exact ⟨t, hexec, hbits, hccr ▸ hflags, hchanged⟩
  case tas =>
    rintro rfl
    obtain ⟨t, hexec, hvalue, hccr, hchanged⟩ := unaryEa_result (i := .tas ea) rfl rfl hs hres hw
    exact ⟨t, hexec, tasOp_rule s.sr.ccr hvalue, hccr ▸ logicCcr_rule .b _ _, hchanged⟩

end Sys2Proof.Proofs
end

section
/-! Multiply, divide and CHK (48_muldiv_chk_system.md R290 to R294): a word operand read, then a data register written, the flags
set alone, or an exception taken. The draws that choose free flags are no part of what the statements speak of. -/

open Sys2Proof Sys2Proof.Machine Sys2Proof.Safety

namespace Sys2Proof.Machine

/-! ## Numbers -/

theorem natOf_long (v : Long) : natOf .l v = v.toNat := Nat.mod_eq_of_lt v.isLt

theorem intOf_word_bounds (v : Long) : -32768 ≤ intOf .w v ∧ intOf .w v ≤ 32767 := by
  have hlt : natOf .w v < 65536 := natOf_lt .w v
  unfold intOf
  split <;> simp only [Size.bits] at * <;> omega

theorem intOf_word_eq_zero_iff (v : Long) : intOf .w v = 0 ↔ natOf .w v = 0 := by
  have hlt : natOf .w v < 65536 := natOf_lt .w v
  unfold intOf
  split <;> simp only [Size.bits] at * <;> omega

/-- A number that a long can hold, signed, is the long's value. -/
theorem toInt_ofIntAt_long {i : Int} (hlow : -2147483648 ≤ i) (hhigh : i ≤ 2147483647) : (ofIntAt .l i).toInt = i := by
  rw [← intOf_long, intOf, ofIntAt, natOf_ofNatAt]
  simp only [Size.bits]
  split <;> omega

theorem toNat_ofNatAt_long {n : Nat} (h : n < 4294967296) : (ofNatAt .l n).toNat = n := by
  rw [← natOf_long, natOf_ofNatAt]
  exact Nat.mod_eq_of_lt h

/-- The product of two words fits a long (48_muldiv_chk_system.md R292). -/
theorem word_product_bounds (v w : Long) :
    -2147483648 ≤ intOf .w v * intOf .w w ∧ intOf .w v * intOf .w w ≤ 2147483647 := by
  have habs (u : Long) : |intOf .w u| ≤ 32768 := by
    have hbounds := intOf_word_bounds u
    exact abs_le.2 ⟨by omega, by omega⟩
  have hproduct : |intOf .w v * intOf .w w| ≤ 32768 * 32768 := by
    rw [abs_mul]
    exact mul_le_mul (habs v) (habs w) (abs_nonneg _) (by decide)
  have hbounds := abs_le.1 hproduct
  omega

theorem word_product_lt (v w : Long) : natOf .w v * natOf .w w < 4294967296 :=
  Nat.mul_lt_mul'' (natOf_lt .w v) (natOf_lt .w w)

/-- The quotient truncated toward zero and the remainder with the dividend's sign are the only ones (48_muldiv_chk_system.md
R290). -/
theorem truncated_division_unique {n m q r : Int} (hm : m ≠ 0) (hn : n = q * m + r) (hlt : |r| < |m|) (hpos : 0 < r → 0 < n)
    (hneg : r < 0 → n < 0) : n.tdiv m = q ∧ n.tmod m = r := by
  have heq : r + m * q = n := by rw [hn, mul_comm, add_comm]
  rw [Int.abs_eq_natAbs, Int.abs_eq_natAbs] at hlt
  rcases le_total 0 n with hnonneg | hnonpos
  · exact (Int.tdiv_tmod_unique hnonneg hm).2 ⟨heq, by omega, by omega⟩
  · exact (Int.tdiv_tmod_unique' hnonpos hm).2 ⟨heq, by omega, by omega⟩

/-! ## A packed division -/

theorem packDivision_low (r q : Int) : (packDivision r q).setWidth 16 = BitVec.ofInt 16 q := by
  rw [packDivision, BitVec.setWidth_append, dif_pos (le_refl 16), BitVec.setWidth_eq]

theorem packDivision_high (r q : Int) : (packDivision r q >>> 16).setWidth 16 = BitVec.ofInt 16 r := by
  refine BitVec.eq_of_getLsbD_eq fun k hk => ?_
  rw [BitVec.getLsbD_setWidth, BitVec.getLsbD_ushiftRight, packDivision, BitVec.getLsbD_append, if_neg (by omega),
    Nat.add_sub_cancel_left, decide_eq_true hk, Bool.true_and]

/-- A word's value, signed, by its bits. -/
theorem intOf_word_of_setWidth {v : Long} {i : Int} (h : v.setWidth 16 = BitVec.ofInt 16 i) (hlow : -32768 ≤ i)
    (hhigh : i ≤ 32767) : intOf .w v = i := by
  rw [← sint_eq_intOf]
  change (v.setWidth 16).toInt = i
  rw [h, BitVec.toInt_ofInt_eq_self (by decide) (by omega) (by omega)]

/-- A remainder and a quotient that are words, as one long (48_muldiv_chk_system.md R291). -/
theorem packDivision_toNat {r q : Nat} (hr : r < 65536) (hq : q < 65536) :
    (packDivision (r : Int) (q : Int)).toNat = r * 2 ^ 16 + q := by
  have hqmod : q % 2 ^ 16 = q := Nat.mod_eq_of_lt hq
  have hrmod : r % 2 ^ 16 = r := Nat.mod_eq_of_lt hr
  rw [packDivision, BitVec.ofInt_natCast, BitVec.ofInt_natCast, BitVec.toNat_append, BitVec.toNat_ofNat, BitVec.toNat_ofNat,
    hqmod, hrmod, ← Nat.shiftLeft_add_eq_or_of_lt hq, Nat.shiftLeft_eq]

/-- Bit 15 of a quotient that is a signed word is its sign (48_muldiv_chk_system.md R290). -/
theorem signed_quotient_bit {q : Int} (hlow : -32768 ≤ q) (hhigh : q ≤ 32767) :
    (BitVec.ofInt 16 q).getLsbD 15 = decide (q < 0) := by
  have hsign := BitVec.msb_eq_toInt (x := BitVec.ofInt 16 q)
  rwa [BitVec.msb_eq_getLsbD_last, BitVec.toInt_ofInt_eq_self (by decide) (by omega) (by omega)] at hsign

theorem unsigned_quotient_bit {q : Nat} (hq : q < 65536) : (BitVec.ofInt 16 (q : Int)).getLsbD 15 = decide (32768 ≤ q) := by
  have htop := BitVec.msb_eq_decide (BitVec.ofNat 16 q)
  rwa [BitVec.msb_eq_getLsbD_last, BitVec.toNat_ofNat, Nat.mod_eq_of_lt hq] at htop

/-! ## What is left after the operand is read -/

/-- The address after an instruction of this part, whose only extension words are its word operand's. -/
theorem nextPc_word_operand {i : Instr} {ea : Ea} {line d b sc : Nat} (henc : encode i = encEa line d b sc [] .w ea) (s : State) :
    nextPc i s = s.pc + lengthOf 0 (ea.words .w) := nextPc_encEa henc rfl s

section
variable {i : Instr} {ea : Ea} {dn : Fin 8} {s s1 : State} {l : Loc} {len : Long}

/-- A data register and the flags written after a word operand was resolved. -/
theorem advanced_setDreg (hres : resolve ea .w (extAt s 0) s = (l, s1)) (hi : nextPc i s = s.pc + len) (p : Long) (c : Ccr) :
    Advanced i (oneReg dn) (eaSteps ea) [] s s1 (((s1.setDreg dn p).setCcr c).advance len) := by
  refine ⟨?pc, fun _ => rfl, ?kept⟩
  case pc =>
    rw [hi, ← pc_of_resolve hres]
    rfl
  case kept =>
    refine kept_mono (kept_finish (kept_trans (kept_of_resolve hres) (kept_setDreg s1 dn p)) c len) ?_ ?_ ?_ <;> simp [noReg]

/-- Drawing free values leaves the frame alone. -/
theorem advanced_skipDraws {dd da : Fin 8 → Bool} {bytes : List Nat} {t : State}
    (h : Advanced i dd da bytes s s1 (t.advance len)) (k : Nat) : Advanced i dd da bytes s s1 ((t.skipDraws k).advance len) := h

/-- An exception taken after the operand was resolved and flags were set: the frame and the stacked address are those of the state
before but for the flags (60_exceptions.md R340, R348). -/
theorem trapNext_entered {v : BitVec 8} (hres : resolve ea .w (extAt s 0) s = (l, s1)) (hi : nextPc i s = s.pc + len)
    (hready : EntryReady v s1) (f : Ccr) (k : Nat) :
    ∃ t, trapNext v len ((s1.setCcr f).skipDraws k) = .ok t ∧ Entered v (nextPc i s) s.sr.ipm (s1.setCcr f) t := by
  obtain ⟨t, hentry, hentered⟩ := exceptionEntry_ready (s := (s1.setCcr f).skipDraws k) hready (s1.pc + len) none
  refine ⟨t, hentry, ?_⟩
  rw [hi, ← pc_of_resolve hres, ← sr_of_resolve hres]
  exact hentered

/-! ## Multiply -/

theorem mulEa_result {f : Long → Long → Long} (hexec : exec i s = finish (mulEa f ea dn s))
    (hi : nextPc i s = s.pc + lengthOf 0 (ea.words .w)) (hres : resolve ea .w (extAt s 0) s = (l, s1))
    (hread : LocReadable s.cfg .w l) :
    ∃ t, exec i s = .next t ∧ t.dreg dn = f (s.dreg dn) (locValue .w s1 l) ∧ LogicRule .l (t.dreg dn) s.sr.ccr t.sr.ccr ∧
      Advanced i (oneReg dn) (eaSteps ea) [] s s1 t := by
  let p := f (s.dreg dn) (locValue .w s1 l)
  have hrun : mulEa f ea dn s = .ok (((s1.setDreg dn p).setCcr (logicCcr .l p s.sr.ccr)).advance (lengthOf 0 (ea.words .w))) := by
    rw [mulEa, readEa_ok hres hread]
    simp only [dreg_of_resolve hres]
    rfl
  have hreg : (s1.setDreg dn p).dreg dn = p := s1.dreg_setDreg_same dn p
  refine ⟨_, hexec.trans (congrArg finish hrun), hreg, ?_, advanced_setDreg hres hi _ _⟩
  rw [State.dreg_advance, State.dreg_setCcr, hreg]
  exact logicCcr_rule .l p s.sr.ccr

/-! ## Divide -/

theorem execDivu_eq (hres : resolve ea .w (extAt s 0) s = (l, s1)) (hread : LocReadable s.cfg .w l) :
    exec (.divu ea dn) s =
      finish (divideBy (decide (natOf .w (locValue .w s1 l) = 0)) (((s.dreg dn).toNat / natOf .w (locValue .w s1 l) : Nat) : Int)
        (((s.dreg dn).toNat % natOf .w (locValue .w s1 l) : Nat) : Int) 0 65535 dn (lengthOf 0 (ea.words .w)) s1) := by
  simp only [exec, execDivu, readEa_ok hres hread, uint_eq_natOf, natOf_long, dreg_of_resolve hres]

theorem execDivs_eq (hres : resolve ea .w (extAt s 0) s = (l, s1)) (hread : LocReadable s.cfg .w l) :
    exec (.divs ea dn) s =
      finish (divideBy (decide (intOf .w (locValue .w s1 l) = 0)) ((s.dreg dn).toInt.tdiv (intOf .w (locValue .w s1 l)))
        ((s.dreg dn).toInt.tmod (intOf .w (locValue .w s1 l))) (-32768) 32767 dn (lengthOf 0 (ea.words .w)) s1) := by
  simp only [exec, execDivs, readEa_ok hres hread, sint_eq_intOf, intOf_long, dreg_of_resolve hres]

section
variable {zero : Bool} {q r lo hi : Int}

/-- A quotient that fits: the register holds remainder and quotient (48_muldiv_chk_system.md R290, R291). -/
theorem divide_fits (hexec : exec i s = finish (divideBy zero q r lo hi dn len s1)) (hlen : nextPc i s = s.pc + len)
    (hres : resolve ea .w (extAt s 0) s = (l, s1)) (hzero : zero = false) (hlo : lo ≤ q) (hhi : q ≤ hi) :
    ∃ t, exec i s = .next t ∧ t.dreg dn = packDivision r q ∧
      t.sr.ccr = { x := s.sr.ccr.x, n := (BitVec.ofInt 16 q).getLsbD 15, z := decide (q = 0), v := false, c := false } ∧
      Advanced i (oneReg dn) (eaSteps ea) [] s s1 t := by
  have hfits : ¬ (q < lo ∨ hi < q) := by omega
  rw [divideBy, hzero, if_neg Bool.false_ne_true, if_neg hfits] at hexec
  refine ⟨_, hexec, s1.dreg_setDreg_same dn _, ?_, advanced_skipDraws (advanced_setDreg hres hlen _ _) 3⟩
  rw [← sr_of_resolve hres]
  rfl

/-- A quotient that does not fit: V set and the register kept (48_muldiv_chk_system.md R290, R291). -/
theorem divide_overflows (hexec : exec i s = finish (divideBy zero q r lo hi dn len s1)) (hlen : nextPc i s = s.pc + len)
    (hres : resolve ea .w (extAt s 0) s = (l, s1)) (hzero : zero = false) (hq : q < lo ∨ hi < q) :
    ∃ t, exec i s = .next t ∧ t.sr.ccr.x = s.sr.ccr.x ∧ t.sr.ccr.v = true ∧ t.sr.ccr.c = false ∧
      Advanced i noReg (eaSteps ea) [] s s1 t := by
  rw [divideBy, hzero, if_neg Bool.false_ne_true, if_pos hq] at hexec
  refine ⟨_, hexec, ?_, rfl, rfl,
    advanced_skipDraws (advanced_setCcr (kept_of_resolve hres) (pc_of_resolve hres) hlen _) 3⟩
  rw [← sr_of_resolve hres]
  rfl

/-- A divisor of zero: vector 5 (60_exceptions.md R337). -/
theorem divide_by_zero (hexec : exec i s = finish (divideBy zero q r lo hi dn len s1)) (hlen : nextPc i s = s.pc + len)
    (hres : resolve ea .w (extAt s 0) s = (l, s1)) (hzero : zero = true) (hready : EntryReady vecZeroDivide s1) :
    ∃ t f, exec i s = .next t ∧ f.x = s.sr.ccr.x ∧ f.c = false ∧ Entered 5 (nextPc i s) s.sr.ipm (s1.setCcr f) t := by
  let f : Ccr := { x := s1.sr.ccr.x, n := s1.draw 0, z := s1.draw 1, v := s1.draw 2, c := false }
  obtain ⟨t, hentry, hentered⟩ := trapNext_entered hres hlen hready f 3
  rw [divideBy, hzero, if_pos rfl, hentry] at hexec
  exact ⟨t, f, hexec, congrArg (fun r : StatusReg => r.ccr.x) (sr_of_resolve hres), rfl, hentered⟩

end

/-! ## CHK -/

theorem execChk_eq (hres : resolve ea .w (extAt s 0) s = (l, s1)) (hread : LocReadable s.cfg .w l) :
    exec (.chk ea dn) s =
      finish
        (if intOf .w (s.dreg dn) < 0 then
          trapNext vecChk (lengthOf 0 (ea.words .w)) ((s1.setCcr (chkCcr s1 true)).skipDraws 4)
        else if intOf .w (locValue .w s1 l) < intOf .w (s.dreg dn) then
          trapNext vecChk (lengthOf 0 (ea.words .w)) ((s1.setCcr (chkCcr s1 false)).skipDraws 4)
        else .ok (((s1.setCcr (chkCcr s1 (s1.draw 3))).skipDraws 4).advance (lengthOf 0 (ea.words .w)))) := by
  simp only [exec, execChk, readEa_ok hres hread, sint_eq_intOf, dreg_of_resolve hres]
  rfl

theorem chkCcr_x (hres : resolve ea .w (extAt s 0) s = (l, s1)) (n : Bool) : (chkCcr s1 n).x = s.sr.ccr.x :=
  congrArg (fun r : StatusReg => r.ccr.x) (sr_of_resolve hres)

end

end Sys2Proof.Machine

namespace Sys2Proof.Proofs

/-- Settles O54: the product of two words fits the register. -/
theorem multiplyProduct : Obligations.MultiplyProduct := by
  intro ea dn s s1 l _ hres hread
  refine ⟨?signed, ?unsigned⟩
  case signed =>
    obtain ⟨t, hexec, hvalue, hflags, hadvanced⟩ := mulEa_result rfl
      (nextPc_word_operand (i := .muls ea dn) rfl s) hres hread
    obtain ⟨hlow, hhigh⟩ := word_product_bounds (s.dreg dn) (locValue .w s1 l)
    refine ⟨t, hexec, ?_, hflags, hadvanced⟩
    rw [hvalue, sint_eq_intOf, sint_eq_intOf, toInt_ofIntAt_long hlow hhigh]
  case unsigned =>
    obtain ⟨t, hexec, hvalue, hflags, hadvanced⟩ := mulEa_result rfl
      (nextPc_word_operand (i := .mulu ea dn) rfl s) hres hread
    refine ⟨t, hexec, ?_, hflags, hadvanced⟩
    rw [hvalue, uint_eq_natOf, uint_eq_natOf, toNat_ofNatAt_long (word_product_lt _ _)]

/-- Settles O55: both divisions are one shape; the quotient and the remainder fit their words. -/
theorem divideQuotientRemainder : Obligations.DivideQuotientRemainder := by
  refine ⟨?unsigned, ?signed⟩
  case unsigned =>
    intro ea dn s s1 l _ hres hread n m hm
    have hexec : exec (.divu ea dn) s = _ := execDivu_eq hres hread
    have hlen := nextPc_word_operand (i := .divu ea dn) rfl s
    have hzero : decide (natOf .w (locValue .w s1 l) = 0) = false := decide_eq_false hm
    refine ⟨fun hfits => ?_, fun hover => divide_overflows hexec hlen hres hzero (.inr (by exact_mod_cast hover))⟩
    obtain ⟨t, hnext, hvalue, hccr, hadvanced⟩ :=
      divide_fits hexec hlen hres hzero (Int.natCast_nonneg _) (by exact_mod_cast hfits)
    have hrem : n % m < 65536 := (Nat.mod_lt n (Nat.pos_of_ne_zero hm)).trans (natOf_lt .w _)
    have hquot : n / m < 65536 := Nat.lt_succ_of_le hfits
    refine ⟨t, hnext, by rw [hvalue]; exact packDivision_toNat hrem hquot, ?_, hadvanced⟩
    rw [hccr, unsigned_quotient_bit hquot]
    simp only [Int.natCast_eq_zero]
    rfl
  case signed =>
    intro ea dn s s1 l q r _ hres hread n m hm hn hlt hpos hneg
    obtain ⟨hquot, hrem⟩ := truncated_division_unique hm hn hlt hpos hneg
    have hexec := execDivs_eq (dn := dn) hres hread
    rw [show (s.dreg dn).toInt.tdiv (intOf .w (locValue .w s1 l)) = q from hquot,
      show (s.dreg dn).toInt.tmod (intOf .w (locValue .w s1 l)) = r from hrem] at hexec
    have hlen := nextPc_word_operand (i := .divs ea dn) rfl s
    have hzero : decide (intOf .w (locValue .w s1 l) = 0) = false := decide_eq_false hm
    refine ⟨fun hlow hhigh => ?_, divide_overflows hexec hlen hres hzero⟩
    obtain ⟨t, hnext, hvalue, hccr, hadvanced⟩ := divide_fits hexec hlen hres hzero hlow hhigh
    have hm16 : |m| ≤ 32768 := by
      have hbounds := intOf_word_bounds (locValue .w s1 l)
      exact abs_le.2 ⟨by omega, by omega⟩
    have hrbounds := abs_lt.1 (hlt.trans_le hm16)
    refine ⟨t, hnext, ?quotient, ?remainder, by rw [hccr, signed_quotient_bit hlow hhigh], hadvanced⟩
    case quotient => rw [hvalue, intOf_word_of_setWidth (packDivision_low r q) hlow hhigh]
    case remainder => rw [hvalue, intOf_word_of_setWidth (packDivision_high r q) (by omega) (by omega)]

/-- Settles O56: either division takes the exception where the source's word is 0. -/
theorem zeroDivideTrap : Obligations.ZeroDivideTrap := by
  intro ea dn s s1 l _ hres hread hzero hready i hi
  rcases List.mem_pair.1 hi with rfl | rfl
  · exact divide_by_zero (execDivu_eq hres hread) (nextPc_word_operand rfl s) hres (decide_eq_true hzero) hready
  · have hsigned : decide (intOf .w (locValue .w s1 l) = 0) = true := decide_eq_true ((intOf_word_eq_zero_iff _).2 hzero)
    exact divide_by_zero (execDivs_eq hres hread) (nextPc_word_operand rfl s) hres hsigned hready

/-- Settles O57: the three branches of CHK, by where the register's word lies. -/
theorem chkTrapsOutsideBounds : Obligations.ChkTrapsOutsideBounds := by
  intro ea dn s s1 l _ hres hread v b
  have hexec : exec (.chk ea dn) s = _ := execChk_eq hres hread
  have hlen := nextPc_word_operand (i := .chk ea dn) rfl s
  refine ⟨fun hlow hhigh => ?inside, fun houtside hready => ?outside⟩
  case inside =>
    rw [if_neg (not_lt.2 hlow), if_neg (not_lt.2 hhigh)] at hexec
    exact ⟨_, hexec, chkCcr_x hres _,
      advanced_skipDraws (advanced_setCcr (kept_of_resolve hres) (pc_of_resolve hres) hlen _) 4⟩
  case outside =>
    obtain ⟨t, hentry, hentered⟩ := trapNext_entered hres hlen hready (chkCcr s1 (decide (v < 0))) 4
    refine ⟨t, _, ?_, chkCcr_x hres _, rfl, hentered⟩
    by_cases hnegative : v < 0
    · rw [decide_eq_true hnegative] at hentry
      rw [hexec, if_pos hnegative, hentry]
      rfl
    · rw [decide_eq_false hnegative] at hentry
      rw [hexec, if_neg hnegative, if_pos (houtside.resolve_left hnegative), hentry]
      rfl

end Sys2Proof.Proofs
end

section
/-! The encoder against the decoder (30_encoding.md R84 to R94), the parts: what each field and each operand is read as after it was
written, and written as after it was read. -/

namespace Sys2Proof

/-! ## Fields -/

@[simp] theorem regOf_val (r : Fin 8) : regOf r.val = r := Fin.ofNat_val_eq_self r

@[simp] theorem val_regOf {n : Nat} (h : n < 8) : (regOf n).val = n := Nat.mod_eq_of_lt h

@[simp] theorem Size.ofField_field (sz : Size) : Size.ofField sz.field = some sz := by cases sz <;> rfl

theorem Size.field_of_ofField {s : Nat} {sz : Size} (h : Size.ofField s = some sz) : sz.field = s := by
  unfold Size.ofField at h
  split at h <;> cases h <;> rfl

theorem Size.eq_three_of_ofField {s : Nat} (hs : s < 4) (h : Size.ofField s = none) : s = 3 := by
  by_contra hne
  have hlt : s < 3 := by omega
  interval_cases s <;> cases h

@[simp] theorem Size.field_lt (sz : Size) : sz.field < 4 := by cases sz <;> decide

@[simp] theorem Size.field_ne_three (sz : Size) : sz.field ≠ 3 := by cases sz <;> decide

@[simp] theorem Size.bit_le (sz : Size) : sz.bit ≤ 1 := by cases sz <;> decide

theorem Size.eq_of_notByte {sz : Size} (h : sz.notByte = true) : sz = .w ∨ sz = .l := by
  cases sz with
  | b => cases h
  | w => exact .inl rfl
  | l => exact .inr rfl

@[simp] theorem Size.ofBit_bit {sz : Size} (h : sz.notByte = true) : Size.ofBit sz.bit = sz := by
  obtain rfl | rfl := sz.eq_of_notByte h
  all_goals rfl

@[simp] theorem Size.bit_ofBit {n : Nat} (h : n < 2) : (Size.ofBit n).bit = n := by
  obtain rfl | rfl : n = 0 ∨ n = 1 := by omega
  all_goals rfl

@[simp] theorem Size.notByte_ofBit (n : Nat) : (Size.ofBit n).notByte = true := by
  unfold Size.ofBit
  split <;> rfl

@[simp] theorem Cond.ofField_field (c : Cond) : Cond.ofField c.field = c := by cases c <;> rfl

@[simp] theorem Cond.field_ofField {n : Nat} (h : n < 16) : (Cond.ofField n).field = n := by interval_cases n <;> rfl

theorem Cond.field_lt (c : Cond) : c.field < 16 := by cases c <;> decide

/-- Bcc has the conditions of encodings 2 to 15 (47_control.md R272). -/
theorem Cond.inBcc_iff (c : Cond) : c.inBcc = true ↔ 2 ≤ c.field := by cases c <;> decide

theorem MovepDir.field_lt (dir : MovepDir) : dir.field < 2 := by cases dir <;> decide

/-! ## Opwords (30_encoding.md R82) -/

/-- The six fields of an opword are read as they were written. -/
theorem decodeOpword_opword {l d b s m r : Nat} (hl : l < 16) (hd : d < 8) (hb : b < 2) (hs : s < 4) (hm : m < 8)
    (hr : r < 8) : decodeOpword (opword l d b s m r) = decodeFields l d b s m r := by
  unfold decodeOpword opword
  rw [BitVec.toNat_ofNat]
  congr 1 <;> omega

/-- The six fields of an opword, written as they are read, are that opword. -/
theorem opword_of_fields (w : Word) :
    opword (w.toNat / 4096) (w.toNat / 512 % 8) (w.toNat / 256 % 2) (w.toNat / 64 % 4) (w.toNat / 8 % 8) (w.toNat % 8) = w := by
  apply BitVec.eq_of_toNat_eq
  unfold opword
  rw [BitVec.toNat_ofNat]
  omega

/-- A low byte written from its three fields. -/
theorem encByte_ofNat (l d b : Nat) {s m r : Nat} (hs : s < 4) (hm : m < 8) (hr : r < 8) :
    encByte l d b (BitVec.ofNat 8 (s * 64 + m * 8 + r)) = opword l d b s m r := by
  unfold encByte
  rw [BitVec.toNat_ofNat]
  congr 1 <;> omega

/-- The low byte read from its three fields. -/
theorem byte_of_fields (n : Byte) :
    BitVec.ofNat 8 (n.toNat / 64 * 64 + n.toNat / 8 % 8 * 8 + n.toNat % 8) = n := by
  rw [show n.toNat / 64 * 64 + n.toNat / 8 % 8 * 8 + n.toNat % 8 = n.toNat by omega, BitVec.ofNat_toNat, BitVec.setWidth_eq]

/-- A line without instructions, written from its five fields. -/
theorem encLine_ofNat (l : Nat) {d b s m r : Nat} (hd : d < 8) (hb : b < 2) (hs : s < 4) (hm : m < 8) (hr : r < 8) :
    encLine l (BitVec.ofNat 12 (d * 512 + b * 256 + s * 64 + m * 8 + r)) = [opword l d b s m r] := by
  unfold encLine
  rw [BitVec.toNat_ofNat]
  congr 2 <;> omega

/-- The low twelve bits read from their five fields. -/
theorem line_of_fields (w : BitVec 12) :
    BitVec.ofNat 12
      (w.toNat / 512 * 512 + w.toNat / 256 % 2 * 256 + w.toNat / 64 % 4 * 64 + w.toNat / 8 % 8 * 8 + w.toNat % 8) = w := by
  rw [show w.toNat / 512 * 512 + w.toNat / 256 % 2 * 256 + w.toNat / 64 % 4 * 64 + w.toNat / 8 % 8 * 8 + w.toNat % 8 = w.toNat
    by omega, BitVec.ofNat_toNat, BitVec.setWidth_eq]

/-! ## Extension words -/

/-- The halves of a long, joined. -/
theorem extract_append (v : Long) : v.extractLsb' 16 16 ++ v.extractLsb' 0 16 = v :=
  BitVec.extractLsb'_append_extractLsb'_eq_extractLsb' rfl |>.trans (by simp)

/-- The low byte of an extension word whose high half is 0. -/
@[simp] theorem setWidth_byteWord (n : Byte) : (byteWord n).setWidth 8 = n := by simp [byteWord]

/-- Bits 15 to 11 and 7 to 0 of an indexed-mode extension word are all it holds (30_encoding.md R89). -/
theorem IndexExt.ofWord_toWord (x : IndexExt) : IndexExt.ofWord x.toWord = x := by
  obtain ⟨reg, long, disp⟩ := x
  have hreg := reg.isLt
  have hdisp := disp.isLt
  have hlow : disp.toNat % 65536 = disp.toNat := by omega
  unfold IndexExt.ofWord IndexExt.toWord
  congr 1
  case e_reg =>
    apply Fin.ext
    rw [Fin.val_ofNat, BitVec.toNat_ofNat]
    dsimp only
    split <;> omega
  case e_long =>
    rw [← BitVec.testBit_toNat, BitVec.toNat_ofNat, Nat.testBit_eq_decide_div_mod_eq]
    dsimp only
    cases long with
    | false => exact decide_eq_false (by rw [if_neg Bool.false_ne_true]; omega)
    | true => exact decide_eq_true (by rw [if_pos rfl]; omega)
  case e_disp =>
    apply BitVec.eq_of_toNat_eq
    rw [BitVec.toNat_setWidth, BitVec.toNat_ofNat]
    dsimp only
    split <;> omega

theorem Size.fits_setWidth {sz : Size} (x : BitVec sz.bits) : sz.fits (x.setWidth 32) = true :=
  decide_eq_true (((BitVec.toNat_setWidth 32 x).trans_le (Nat.mod_le _ _)).trans_lt x.isLt)

/-- A value below a size's bound is kept by what is narrower in between. -/
theorem setWidth_setWidth_of_lt {n : Nat} {v : Long} (h : v.toNat < 2 ^ n) : (v.setWidth n).setWidth 32 = v := by
  apply BitVec.eq_of_toNat_eq
  rw [BitVec.toNat_setWidth, BitVec.toNat_setWidth, Nat.mod_eq_of_lt h, Nat.mod_eq_of_lt v.isLt]

/-- An immediate that fits is read back from its words (30_encoding.md R86). -/
theorem nextImm_immWords {sz : Size} {v : Long} (h : sz.fits v = true) (ws : List Word) :
    nextImm sz (immWords sz v ++ ws) = some (v, ws) := by
  have hlt : v.toNat < 2 ^ sz.bits := of_decide_eq_true h
  cases sz with
  | b => simp [nextImm, immWords, nextWord, setWidth_setWidth_of_lt hlt]
  | w => simp [nextImm, immWords, nextWord, setWidth_setWidth_of_lt hlt]
  | l => simp [nextImm, immWords, nextLong, extract_append]

/-- What a reader took off the front of some words. -/
def TookWords (ws rest : List Word) (n : Nat) : Prop := ∃ own, ws = own ++ rest ∧ own.length = n

theorem TookWords.none (ws : List Word) : TookWords ws ws 0 := ⟨[], rfl, rfl⟩

theorem TookWords.trans {ws mid rest : List Word} {n k : Nat} (h : TookWords ws mid n) (h' : TookWords mid rest k) :
    TookWords ws rest (n + k) := by
  obtain ⟨own, rfl, rfl⟩ := h
  obtain ⟨own', rfl, rfl⟩ := h'
  exact ⟨own ++ own', (List.append_assoc ..).symm, List.length_append⟩

theorem nextWord_took {ws rest : List Word} {w : Word} (h : nextWord ws = some (w, rest)) : TookWords ws rest 1 := by
  cases ws with
  | nil => cases h
  | cons x xs => cases h; exact ⟨[w], rfl, rfl⟩

theorem nextLong_took {ws rest : List Word} {v : Long} (h : nextLong ws = some (v, rest)) : TookWords ws rest 2 := by
  match ws, h with
  | hi :: lo :: ws, h => cases h; exact ⟨[hi, lo], rfl, rfl⟩

/-- An immediate that was read fits its size, and as many words were taken as it is written in. -/
theorem nextImm_took {sz : Size} {ws rest : List Word} {v : Long} (h : nextImm sz ws = some (v, rest)) :
    sz.fits v = true ∧ TookWords ws rest (immWords sz v).length := by
  cases sz with
  | b =>
    obtain ⟨⟨w, _⟩, hread, heq⟩ := Option.map_eq_some_iff.1 h
    cases heq
    exact ⟨Size.fits_setWidth (sz := .b) _, nextWord_took hread⟩
  | w =>
    obtain ⟨⟨w, _⟩, hread, heq⟩ := Option.map_eq_some_iff.1 h
    cases heq
    exact ⟨Size.fits_setWidth (sz := .w) w, nextWord_took hread⟩
  | l => exact ⟨decide_eq_true v.isLt, nextLong_took h⟩

/-! ## Operands (40_addressing.md R120, R121) -/

/-- An operand as its mode and register field alone select it: its extension data zero. -/
def Ea.blank : Ea → Ea
  | .disp r _ => .disp r 0
  | .index r _ => .index r { reg := 0, long := false, disp := 0 }
  | .absW _ => .absW 0
  | .absL _ => .absL 0
  | .pcDisp _ => .pcDisp 0
  | .pcIndex _ => .pcIndex { reg := 0, long := false, disp := 0 }
  | .imm _ => .imm 0
  | e => e

theorem Ea.mode_lt (e : Ea) : e.mode < 8 := by cases e <;> simp [Ea.mode]

theorem Ea.regField_lt (e : Ea) : e.regField < 8 := by cases e <;> simp [Ea.regField]

theorem Ea.mode_blank (e : Ea) : e.blank.mode = e.mode := by cases e <;> rfl

theorem Ea.regField_blank (e : Ea) : e.blank.regField = e.regField := by cases e <;> rfl

/-- The mode and register field of an operand select it, but for its extension data. -/
@[simp] theorem Ea.select_mode_regField (e : Ea) : Ea.select e.mode e.regField = some e.blank := by
  cases e <;> simp [Ea.select, Ea.mode, Ea.regField, Ea.blank]

/-- What a mode and a register field select has them. -/
theorem Ea.fields_of_select {m r : Nat} {e : Ea} (hr : r < 8) (h : Ea.select m r = some e) :
    e.mode = m ∧ e.regField = r := by
  unfold Ea.select at h
  split at h
  case h_8 => split at h <;> cases h <;> exact ⟨rfl, rfl⟩
  case h_9 => cases h
  all_goals
    cases h
    exact ⟨rfl, Nat.mod_eq_of_lt hr⟩

/-- The extension words of an operand whose immediate fits are read back into what its fields select. -/
theorem Ea.fill_extWords {sz : Size} {e : Ea} (h : e.fits sz = true) (ws : List Word) :
    e.blank.fill sz (e.extWords sz ++ ws) = some (e, ws) := by
  cases e with
  | imm v => simp only [Ea.blank, Ea.fill, Ea.extWords, nextImm_immWords h, Option.map_some]
  | index r x => simp [Ea.blank, Ea.fill, Ea.extWords, nextWord, IndexExt.ofWord_toWord]
  | pcIndex x => simp [Ea.blank, Ea.fill, Ea.extWords, nextWord, IndexExt.ofWord_toWord]
  | absL a => simp [Ea.blank, Ea.fill, Ea.extWords, nextLong, extract_append]
  | _ => rfl

/-- What reading an operand's extension words gives: the operand selected but for its extension data, an immediate that fits, and as
many words taken as the operand is written in. -/
theorem Ea.fill_took {sz : Size} {e e' : Ea} {ws rest : List Word} (h : e.fill sz ws = some (e', rest)) :
    e'.blank = e.blank ∧ e'.fits sz = true ∧ TookWords ws rest (e'.extWords sz).length := by
  cases e with
  | dn r => cases h; exact ⟨rfl, rfl, .none _⟩
  | an r => cases h; exact ⟨rfl, rfl, .none _⟩
  | ind r => cases h; exact ⟨rfl, rfl, .none _⟩
  | postInc r => cases h; exact ⟨rfl, rfl, .none _⟩
  | preDec r => cases h; exact ⟨rfl, rfl, .none _⟩
  | absL a =>
    obtain ⟨⟨v, _⟩, hread, heq⟩ := Option.map_eq_some_iff.1 h
    cases heq
    exact ⟨rfl, rfl, nextLong_took hread⟩
  | imm v =>
    obtain ⟨⟨v, _⟩, hread, heq⟩ := Option.map_eq_some_iff.1 h
    cases heq
    obtain ⟨hfits, htook⟩ := nextImm_took hread
    exact ⟨rfl, hfits, htook⟩
  | _ =>
    obtain ⟨⟨w, _⟩, hread, heq⟩ := Option.map_eq_some_iff.1 h
    cases heq
    exact ⟨rfl, rfl, nextWord_took hread⟩

/-! ## Operand classes (40_addressing.md R139, R140) -/

/-- A class of operands that looks at the mode and the register field only. -/
def ClassByFields (cls : Ea → Bool) : Prop := ∀ e, cls e.blank = cls e

theorem data_byFields : ClassByFields Ea.data := fun e => by cases e <;> rfl
theorem dataNoImm_byFields : ClassByFields Ea.dataNoImm := fun e => by cases e <;> rfl
theorem dataAlterable_byFields : ClassByFields Ea.dataAlterable := fun e => by cases e <;> rfl
theorem memoryAlterable_byFields : ClassByFields Ea.memoryAlterable := fun e => by cases e <;> rfl
theorem control_byFields : ClassByFields Ea.control := fun e => by cases e <;> rfl
theorem movemToMem_byFields : ClassByFields Ea.movemToMem := fun e => by cases e <;> rfl
theorem movemFromMem_byFields : ClassByFields Ea.movemFromMem := fun e => by cases e <;> rfl
theorem allAt_byFields (sz : Size) : ClassByFields (Ea.allAt sz) := fun e => by cases e <;> rfl
theorem alterableAt_byFields (sz : Size) : ClassByFields (Ea.alterableAt sz) := fun e => by cases e <;> rfl

/-- Whatever its size, an operation other than a byte has every mode. -/
theorem Ea.allAt_of_notByte {sz : Size} (h : sz.notByte = true) (e : Ea) : e.allAt sz = true := by
  obtain rfl | rfl := sz.eq_of_notByte h
  all_goals rfl

end Sys2Proof
end

section
/-! The decoder gives back every well-formed instruction from its words (30_encoding.md R84, R93, R94): each row reads what the
encoder writes for it, and each opword the encoder writes selects that row. -/

namespace Sys2Proof

/-! ## Operands that a class rules out -/

section
variable {cls : Ea → Bool} {e : Ea} (h : cls e = true)
include h

theorem Ea.fits_of_class (hno : ∀ v, cls (.imm v) = false) (sz : Size) : e.fits sz = true := by
  cases e with
  | imm v => simp [hno v] at h
  | _ => rfl

/-- An operand of a class without immediates is not where an immediate stands, which may select another row. -/
theorem Ea.not_immediate_of_class (hno : ∀ v, cls (.imm v) = false) : ¬ (e.mode = 7 ∧ e.regField = 4) := by
  cases e with
  | imm v => simp [hno v] at h
  | _ => simp [Ea.mode, Ea.regField]

theorem Ea.mode_ne_zero_of_class (hno : ∀ r, cls (.dn r) = false) : e.mode ≠ 0 := by
  cases e with
  | dn r => simp [hno r] at h
  | _ => simp [Ea.mode]

theorem Ea.mode_ne_one_of_class (hno : ∀ r, cls (.an r) = false) : e.mode ≠ 1 := by
  cases e with
  | an r => simp [hno r] at h
  | _ => simp [Ea.mode]

end

theorem Ea.fits_of_alterableAt {sz : Size} {e : Ea} (h : e.alterableAt sz = true) : e.fits sz = true :=
  Ea.fits_of_class (cls := Ea.alterableAt sz) h (fun _ => rfl) sz

/-! ## Rows: what each reads back -/

/-- A row is selected and reads from the given extension words, whatever follows them, the given instruction. -/
def RowReads (row : Option Tail) (ext : List Word) (i : Instr) : Prop :=
  ∃ tail, row = some tail ∧ ∀ rest, tail (ext ++ rest) = some (i, rest)

theorem rowPlain_reads (i : Instr) : RowReads (rowPlain i) [] i := ⟨_, rfl, fun _ => rfl⟩

theorem rowWord_reads (mk : Word → Instr) (w : Word) : RowReads (rowWord mk) [w] (mk w) := ⟨_, rfl, fun _ => rfl⟩

section
variable {cls : Ea → Bool} {sz : Size} {e : Ea}

theorem rowEa_reads (hby : ClassByFields cls) (hcls : cls e = true) (hfits : e.fits sz = true) (mk : Ea → Instr) :
    RowReads (rowEa cls sz e.mode e.regField mk) (e.extWords sz) (mk e) := by
  refine ⟨fun ws => (e.blank.fill sz ws).map fun p => (mk p.1, p.2), ?_, fun rest => ?_⟩
  · simp [rowEa, hby e, hcls]
  · simp only [Ea.fill_extWords hfits, Option.map_some]

theorem rowWordEa_reads (hby : ClassByFields cls) (hcls : cls e = true) (hfits : e.fits sz = true) (mk : Word → Ea → Instr)
    (w : Word) : RowReads (rowWordEa cls sz e.mode e.regField mk) (w :: e.extWords sz) (mk w e) := by
  refine ⟨fun ws => (nextWord ws).bind fun p => (e.blank.fill sz p.2).map fun q => (mk p.1 q.1, q.2), ?_, fun rest => ?_⟩
  · simp [rowWordEa, hby e, hcls]
  · simp only [nextWord, List.cons_append, Option.bind_some, Ea.fill_extWords hfits, Option.map_some]

theorem rowImmEa_reads (hby : ClassByFields cls) (hcls : cls e = true) (hfits : e.fits sz = true) (mk : Long → Ea → Instr)
    {v : Long} (hv : sz.fits v = true) :
    RowReads (rowImmEa cls sz e.mode e.regField mk) (immWords sz v ++ e.extWords sz) (mk v e) := by
  refine ⟨fun ws => (nextImm sz ws).bind fun p => (e.blank.fill sz p.2).map fun q => (mk p.1 q.1, q.2), ?_, fun rest => ?_⟩
  · simp [rowImmEa, hby e, hcls]
  · simp only [List.append_assoc, nextImm_immWords hv, Option.bind_some, Ea.fill_extWords hfits, Option.map_some]

end

theorem rowMove_reads {sz : Size} {src dst : Ea} (hall : src.allAt sz = true) (hsrc : src.fits sz = true)
    (hdst : dst.dataAlterable = true) :
    RowReads (rowMove sz dst.mode dst.regField src.mode src.regField) (src.extWords sz ++ dst.extWords sz)
      (.move sz src dst) := by
  refine ⟨fun ws => (src.blank.fill sz ws).bind fun p => (dst.blank.fill sz p.2).map fun q => (.move sz p.1 q.1, q.2), ?_,
    fun rest => ?_⟩
  · simp [rowMove, allAt_byFields sz src, dataAlterable_byFields dst, hall, hdst]
  · simp only [List.append_assoc, Ea.fill_extWords hsrc, Option.bind_some,
      Ea.fill_extWords (Ea.fits_of_class hdst (fun _ => rfl) sz), Option.map_some]

/-! ## From a row to the decoder -/

/-- Decoding gives an instruction back from its words, and leaves the words after them. -/
def DecodesBack (i : Instr) : Prop := ∀ rest, decode (encode i ++ rest) = .instr i rest

/-- It is enough that the fields of the opword select a row that reads the extension words. -/
theorem decodesBack_of_row {i : Instr} {l d b s m r : Nat} {ext : List Word} (henc : encode i = opword l d b s m r :: ext)
    (hf : l < 16 ∧ d < 8 ∧ b < 2 ∧ s < 4 ∧ m < 8 ∧ r < 8) (hrow : RowReads (decodeFields l d b s m r) ext i) :
    DecodesBack i := by
  intro rest
  obtain ⟨tail, hsel, hread⟩ := hrow
  obtain ⟨hl, hd, hb, hs, hm, hr⟩ := hf
  rw [henc, List.cons_append]
  exact decode_cons_eq_instr.2 ⟨tail, (decodeOpword_opword hl hd hb hs hm hr).trans hsel, hread rest⟩

section
variable {cls : Ea → Bool} {sz : Size} {e : Ea} {l d b s : Nat}

/-- An operand in 5:0 and no words of the row's own. -/
theorem decodesBack_ea (hby : ClassByFields cls) (hcls : cls e = true) (hfits : e.fits sz = true) (mk : Ea → Instr)
    (henc : encode (mk e) = encEa l d b s [] sz e) (hf : l < 16 ∧ d < 8 ∧ b < 2 ∧ s < 4)
    (hrow : decodeFields l d b s e.mode e.regField = rowEa cls sz e.mode e.regField mk) : DecodesBack (mk e) := by
  obtain ⟨hl, hd, hb, hs⟩ := hf
  exact decodesBack_of_row henc ⟨hl, hd, hb, hs, e.mode_lt, e.regField_lt⟩ (hrow ▸ rowEa_reads hby hcls hfits mk)

theorem decodesBack_alterable (h : e.dataAlterable = true) (mk : Ea → Instr)
    (henc : encode (mk e) = encEa l d b s [] sz e) (hf : l < 16 ∧ d < 8 ∧ b < 2 ∧ s < 4)
    (hrow : e.mode ≠ 1 → ¬ (e.mode = 7 ∧ e.regField = 4) →
      decodeFields l d b s e.mode e.regField = rowEa Ea.dataAlterable sz e.mode e.regField mk) :
    DecodesBack (mk e) :=
  decodesBack_ea dataAlterable_byFields h (Ea.fits_of_class h (fun _ => rfl) sz) mk henc hf
    (hrow (Ea.mode_ne_one_of_class h fun _ => rfl) (Ea.not_immediate_of_class h fun _ => rfl))

theorem decodesBack_memory (h : e.memoryAlterable = true) (mk : Ea → Instr)
    (henc : encode (mk e) = encEa l d b s [] sz e) (hf : l < 16 ∧ d < 8 ∧ b < 2 ∧ s < 4)
    (hrow : e.mode ≠ 0 → e.mode ≠ 1 →
      decodeFields l d b s e.mode e.regField = rowEa Ea.memoryAlterable sz e.mode e.regField mk) :
    DecodesBack (mk e) :=
  decodesBack_ea memoryAlterable_byFields h (Ea.fits_of_class h (fun _ => rfl) sz) mk henc hf
    (hrow (Ea.mode_ne_zero_of_class h fun _ => rfl) (Ea.mode_ne_one_of_class h fun _ => rfl))

theorem decodesBack_control (h : e.control = true) (mk : Ea → Instr)
    (henc : encode (mk e) = encEa l d b s [] sz e) (hf : l < 16 ∧ d < 8 ∧ b < 2 ∧ s < 4)
    (hrow : e.mode ≠ 0 →
      decodeFields l d b s e.mode e.regField = rowEa Ea.control sz e.mode e.regField mk) :
    DecodesBack (mk e) :=
  decodesBack_ea control_byFields h (Ea.fits_of_class h (fun _ => rfl) sz) mk henc hf
    (hrow (Ea.mode_ne_zero_of_class h fun _ => rfl))

theorem decodesBack_data (h : (e.data && e.fits sz) = true) (mk : Ea → Instr)
    (henc : encode (mk e) = encEa l d b s [] sz e) (hf : l < 16 ∧ d < 8 ∧ b < 2 ∧ s < 4)
    (hrow : e.mode ≠ 1 →
      decodeFields l d b s e.mode e.regField = rowEa Ea.data sz e.mode e.regField mk) :
    DecodesBack (mk e) := by
  obtain ⟨hcls, hfits⟩ := Bool.and_eq_true_iff.1 h
  exact decodesBack_ea data_byFields hcls hfits mk henc hf (hrow (Ea.mode_ne_one_of_class hcls fun _ => rfl))

theorem decodesBack_all (h : (e.allAt sz && e.fits sz) = true) (mk : Ea → Instr)
    (henc : encode (mk e) = encEa l d b s [] sz e) (hf : l < 16 ∧ d < 8 ∧ b < 2 ∧ s < 4)
    (hrow : decodeFields l d b s e.mode e.regField = rowEa (Ea.allAt sz) sz e.mode e.regField mk) :
    DecodesBack (mk e) := by
  obtain ⟨hcls, hfits⟩ := Bool.and_eq_true_iff.1 h
  exact decodesBack_ea (allAt_byFields sz) hcls hfits mk henc hf hrow

theorem decodesBack_address (h : (sz.notByte && e.fits sz) = true) (mk : Ea → Instr)
    (henc : encode (mk e) = encEa l d b s [] sz e) (hf : l < 16 ∧ d < 8 ∧ b < 2 ∧ s < 4)
    (hrow : sz.notByte = true →
      decodeFields l d b s e.mode e.regField = rowEa (Ea.allAt sz) sz e.mode e.regField mk) :
    DecodesBack (mk e) := by
  obtain ⟨hsz, hfits⟩ := Bool.and_eq_true_iff.1 h
  exact decodesBack_ea (allAt_byFields sz) (Ea.allAt_of_notByte hsz e) hfits mk henc hf (hrow hsz)

/-- An immediate of the operation size, then a destination. -/
theorem decodesBack_immEa {v : Long} (h : (sz.fits v && e.dataAlterable) = true) (mk : Long → Ea → Instr)
    (henc : encode (mk v e) = encEa l d b s (immWords sz v) sz e) (hf : l < 16 ∧ d < 8 ∧ b < 2 ∧ s < 4)
    (hrow : ¬ (e.mode = 7 ∧ e.regField = 4) →
      decodeFields l d b s e.mode e.regField = rowImmEa Ea.dataAlterable sz e.mode e.regField mk) : DecodesBack (mk v e) := by
  obtain ⟨hv, hcls⟩ := Bool.and_eq_true_iff.1 h
  obtain ⟨hl, hd, hb, hs⟩ := hf
  refine decodesBack_of_row henc ⟨hl, hd, hb, hs, e.mode_lt, e.regField_lt⟩ ?_
  rw [hrow (Ea.not_immediate_of_class hcls fun _ => rfl)]
  exact rowImmEa_reads dataAlterable_byFields hcls (Ea.fits_of_class hcls (fun _ => rfl) sz) mk hv

/-- A word of the row's own, then an operand. -/
theorem decodesBack_wordEa (hby : ClassByFields cls) (hcls : cls e = true) (hno : ∀ v, cls (.imm v) = false)
    (mk : Word → Ea → Instr) {w : Word} {i : Instr} (hi : mk w e = i) (henc : encode i = encEa l d b s [w] sz e)
    (hf : l < 16 ∧ d < 8 ∧ b < 2 ∧ s < 4)
    (hrow : decodeFields l d b s e.mode e.regField = rowWordEa cls sz e.mode e.regField mk) : DecodesBack i := by
  subst hi
  obtain ⟨hl, hd, hb, hs⟩ := hf
  exact decodesBack_of_row henc ⟨hl, hd, hb, hs, e.mode_lt, e.regField_lt⟩
    (hrow ▸ rowWordEa_reads hby hcls (Ea.fits_of_class hcls hno sz) mk w)

end

section
variable {l d b s m r : Nat} (hf : l < 16 ∧ d < 8 ∧ b < 2 ∧ s < 4 ∧ m < 8 ∧ r < 8)
include hf

theorem decodesBack_plain {i : Instr} (henc : encode i = [opword l d b s m r])
    (hrow : decodeFields l d b s m r = rowPlain i) : DecodesBack i :=
  decodesBack_of_row henc hf (hrow ▸ rowPlain_reads i)

theorem decodesBack_word (mk : Word → Instr) {w : Word} {i : Instr} (hi : mk w = i) (henc : encode i = [opword l d b s m r, w])
    (hrow : decodeFields l d b s m r = rowWord mk) : DecodesBack i := by
  subst hi
  exact decodesBack_of_row henc hf (hrow ▸ rowWord_reads mk w)

end

/-! ## Rows with fields of their own -/

@[simp] theorem decodeFields_moveLine (sz : Size) (d b s m r : Nat) :
    decodeFields sz.moveLine d b s m r = decodeMove sz d b s m r := by cases sz <;> rfl

@[simp] theorem Size.moveLine_lt (sz : Size) : sz.moveLine < 16 := by cases sz <;> decide

/-- From 2 on the condition field is that of a Bcc (47_control.md R272). -/
theorem decodeLine6_of_two_le {d b : Nat} (h : 2 ≤ d * 2 + b) (s m r : Nat) :
    decodeLine6 d b s m r = rowBranch (s * 64 + m * 8 + r) (.bcc (Cond.ofField (d * 2 + b))) := by
  unfold decodeLine6
  split
  case h_3 => rfl
  all_goals omega

/-- MOVE: the destination's fields swapped in the opword, the source's words first (30_encoding.md R84). -/
theorem decodesBack_move {sz : Size} {src dst : Ea} (h : Instr.wellFormed (.move sz src dst) = true) :
    DecodesBack (.move sz src dst) := by
  obtain ⟨hsrc, hdst⟩ := Bool.and_eq_true_iff.1 h
  obtain ⟨hall, hfits⟩ := Bool.and_eq_true_iff.1 hsrc
  have hmode : dst.mode ≠ 1 := Ea.mode_ne_one_of_class hdst fun _ => rfl
  have hlt := dst.mode_lt
  refine decodesBack_of_row rfl
    ⟨by cases sz <;> decide, dst.regField_lt, by omega, Nat.mod_lt _ (by decide), src.mode_lt, src.regField_lt⟩ ?_
  rw [decodeFields_moveLine, decodeMove, Nat.div_add_mod', if_neg hmode]
  exact rowMove_reads hall hfits hdst

/-- An eight-bit displacement stands in the opword, which then is not 0; a word follows where it is (30_encoding.md R88). -/
theorem decodesBack_branch {c : Nat} (hc : c < 16) (mk : BranchDisp → Instr) {disp : BranchDisp}
    (h : disp.wellFormed = true) (henc : encode (mk disp) = encBranch c disp)
    (hrow : ∀ s m r, decodeLine6 (c / 2) (c % 2) s m r = rowBranch (s * 64 + m * 8 + r) mk) : DecodesBack (mk disp) := by
  cases disp with
  | short n =>
    have hlt := n.isLt
    have hne : n.toNat ≠ 0 := fun h0 => by simp [BranchDisp.wellFormed, BitVec.toNat_eq] at h; exact h h0
    refine decodesBack_plain (l := 6) (d := c / 2) (b := c % 2) (s := n.toNat / 64) (m := n.toNat / 8 % 8) (r := n.toNat % 8)
      (by omega) henc ?_
    rw [decodeFields, hrow, rowBranch, if_neg (by omega), byte_of_fields]
  | word w =>
    refine decodesBack_word (l := 6) (d := c / 2) (b := c % 2) (s := 0) (m := 0) (r := 0) (by omega) (fun w => mk (.word w))
      rfl henc ?_
    rw [decodeFields, hrow, rowBranch, if_pos rfl]

/-- MOVEP: the direction in bit 7, the size in bit 6. -/
theorem decodeFields_movep {dir : MovepDir} {sz : Size} (h : sz.notByte = true) (dx ay : Fin 8) :
    decodeFields 0 dx.val 1 (dir.field * 2 + sz.bit) 1 ay.val = rowWord (.movep dir sz dx ay) := by
  obtain rfl | rfl := sz.eq_of_notByte h
  all_goals cases dir <;> simp [decodeFields, decodeLine0, MovepDir.field, Size.bit, Size.ofBit]

/-- TRAP: the vector in 3:0, its top bit the mode field's last. -/
theorem decodeFields_trap (v : Fin 16) : decodeFields 4 7 0 1 (v.val / 8) (v.val % 8) = rowPlain (.trap v) := by
  obtain hm | hm : v.val / 8 = 0 ∨ v.val / 8 = 1 := by omega
  · have hv : Fin.ofNat 16 (v.val % 8) = v := Fin.ext (by rw [Fin.val_ofNat]; omega)
    rw [hm]
    exact congrArg (fun v => rowPlain (.trap v)) hv
  · have hv : Fin.ofNat 16 (8 + v.val % 8) = v := Fin.ext (by rw [Fin.val_ofNat]; omega)
    rw [hm]
    exact congrArg (fun v => rowPlain (.trap v)) hv

/-- A register shift: the type in 4:3, the direction in bit 8 (46_shift_rotate.md R240). -/
theorem decodesBack_shift {tt dir : Nat} (htt : tt < 4) (hdir : dir < 2) {sz : Size} {count : ShiftCount} {dn : Fin 8}
    {mk : Size → ShiftCount → Fin 8 → Instr} (henc : encode (mk sz count dn) = encShift tt dir sz count dn)
    (hrow : ∀ d m r, m % 4 = tt → decodeShiftReg sz d dir m r =
      rowPlain (mk sz (if m / 4 = 0 then .imm (regOf d) else .reg (regOf d)) (regOf r))) : DecodesBack (mk sz count dn) := by
  have hcount : count.field < 8 ∧ count.isReg < 2 ∧
      (if count.isReg = 0 then .imm (regOf count.field) else .reg (regOf count.field)) = count := by
    cases count <;> simp [ShiftCount.field, ShiftCount.isReg]
  obtain ⟨hfield, hreg, hcount⟩ := hcount
  refine decodesBack_plain ⟨by decide, hfield, hdir, sz.field_lt, by omega, dn.isLt⟩ henc ?_
  rw [decodeFields, decodeLine14, Size.ofField_field]
  simp only
  rw [hrow _ _ _ (by omega), show (count.isReg * 4 + tt) / 4 = count.isReg by omega, hcount, regOf_val]

/-! ## Every instruction -/

/-- Every instruction that an opword can encode is decoded from its words. -/
theorem decodesBack_of_wellFormed {i : Instr} (h : i.wellFormed = true) : DecodesBack i := by
  cases i with
  | ori sz v e | andi sz v e | eori sz v e =>
    exact decodesBack_immEa h _ rfl (by simp) (by simp +contextual [decodeFields, decodeLine0, rowImmOrStatus, rowSzImmEa])
  | subi sz v e | addi sz v e | cmpi sz v e =>
    exact decodesBack_immEa h _ rfl (by simp) (by simp [decodeFields, decodeLine0, rowSzImmEa])
  | oriToCcr n => exact decodesBack_word (by decide) (fun w => .oriToCcr (w.setWidth 8)) (by simp) rfl rfl
  | andiToCcr n => exact decodesBack_word (by decide) (fun w => .andiToCcr (w.setWidth 8)) (by simp) rfl rfl
  | eoriToCcr n => exact decodesBack_word (by decide) (fun w => .eoriToCcr (w.setWidth 8)) (by simp) rfl rfl
  | oriToSr w | andiToSr w | eoriToSr w => exact decodesBack_word (by decide) _ rfl rfl rfl
  | btstImm n e =>
    exact decodesBack_wordEa dataNoImm_byFields h (fun _ => rfl) (fun w => .btstImm (w.setWidth 8)) (by simp) rfl
      (by decide) rfl
  | bchgImm n e =>
    exact decodesBack_wordEa dataAlterable_byFields h (fun _ => rfl) (fun w => .bchgImm (w.setWidth 8)) (by simp) rfl
      (by decide) rfl
  | bclrImm n e =>
    exact decodesBack_wordEa dataAlterable_byFields h (fun _ => rfl) (fun w => .bclrImm (w.setWidth 8)) (by simp) rfl
      (by decide) rfl
  | bsetImm n e =>
    exact decodesBack_wordEa dataAlterable_byFields h (fun _ => rfl) (fun w => .bsetImm (w.setWidth 8)) (by simp) rfl
      (by decide) rfl
  | btstReg dn e => exact decodesBack_data h (.btstReg dn) rfl (by simp) (by simp +contextual [decodeFields, decodeLine0])
  | bchgReg dn e | bclrReg dn e | bsetReg dn e =>
    exact decodesBack_alterable h _ rfl (by simp) (by simp +contextual [decodeFields, decodeLine0])
  | movep dir sz dx ay w =>
    have hdir := dir.field_lt
    have hbit := sz.bit_le
    exact decodesBack_word (by omega) (.movep dir sz dx ay) rfl rfl (decodeFields_movep h ..)
  | move sz src dst => exact decodesBack_move h
  | movea sz src an => exact decodesBack_address h (.movea sz · an) rfl (by simp) (by simp +contextual [decodeMove])
  | negx sz e | clr sz e | neg sz e | not sz e | tst sz e =>
    exact decodesBack_alterable h _ rfl (by simp) (by simp +contextual [decodeFields, decodeLine4, rowSzEa])
  | moveFromSr e => exact decodesBack_alterable h .moveFromSr rfl (by decide) fun _ _ => rfl
  | moveToCcr e | moveToSr e => exact decodesBack_data h _ rfl (by decide) fun _ => rfl
  | chk e dn => exact decodesBack_data h (.chk · dn) rfl (by simp) (by simp +contextual [decodeFields, decodeLine4])
  | lea e an => exact decodesBack_control h (.lea · an) rfl (by simp) (by simp +contextual [decodeFields, decodeLine4])
  | nbcd e => exact decodesBack_alterable h .nbcd rfl (by decide) fun _ _ => rfl
  | swap dn => exact decodesBack_plain (by simp) rfl (by simp [decodeFields, decodeLine4])
  | pea e => exact decodesBack_control h .pea rfl (by decide) (by simp +contextual [decodeFields, decodeLine4])
  | ext sz dn =>
    obtain rfl | rfl := sz.eq_of_notByte h
    all_goals exact decodesBack_plain (by simp [Size.bit]) rfl (by simp [decodeFields, decodeLine4, Size.bit, Size.ofBit])
  | movemToMem sz mask e =>
    obtain ⟨hsz, hcls⟩ := Bool.and_eq_true_iff.1 h
    have hmode : e.mode ≠ 0 := Ea.mode_ne_zero_of_class hcls fun _ => rfl
    have hbit := sz.bit_le
    refine decodesBack_wordEa movemToMem_byFields hcls (fun _ => rfl) (.movemToMem sz) rfl rfl (by omega) ?_
    obtain rfl | rfl := sz.eq_of_notByte hsz
    all_goals simp [decodeFields, decodeLine4, Size.bit, Size.ofBit, hmode]
  | movemToReg sz mask e =>
    obtain ⟨hsz, hcls⟩ := Bool.and_eq_true_iff.1 h
    have hbit := sz.bit_le
    refine decodesBack_wordEa movemFromMem_byFields hcls (fun _ => rfl) (.movemToReg sz) rfl rfl (by omega) ?_
    obtain rfl | rfl := sz.eq_of_notByte hsz
    all_goals rfl
  | tas e => exact decodesBack_alterable h .tas rfl (by decide) (by simp +contextual [decodeFields, decodeLine4])
  | illegal => exact decodesBack_plain (by decide) rfl rfl
  | trap v => exact decodesBack_plain (by omega) rfl (decodeFields_trap v)
  | link an w => exact decodesBack_word (by simp) (.link an) rfl rfl (by simp [decodeFields, decodeLine4, decodeLine4Control])
  | unlk an | moveToUsp an | moveFromUsp an =>
    exact decodesBack_plain (by simp) rfl (by simp [decodeFields, decodeLine4, decodeLine4Control])
  | reset | nop | rte | rts | trapv | rtr => exact decodesBack_plain (by decide) rfl rfl
  | stop w => exact decodesBack_word (by decide) .stop rfl rfl rfl
  | jsr e | jmp e => exact decodesBack_control h _ rfl (by decide) fun _ => rfl
  | addq sz q e | subq sz q e =>
    exact decodesBack_ea (alterableAt_byFields sz) h (Ea.fits_of_alterableAt h) _ rfl (by simp)
      (by simp [decodeFields, decodeLine5])
  | scc c e =>
    have hc := c.field_lt
    exact decodesBack_alterable h (.scc c) rfl (by omega)
      (by simp +contextual [decodeFields, decodeLine5, Size.ofField, Nat.div_add_mod'])
  | dbcc c dn w =>
    have hc := c.field_lt
    exact decodesBack_word (by omega) (.dbcc c dn) rfl rfl (by simp [decodeFields, decodeLine5, Size.ofField, Nat.div_add_mod'])
  | bra disp | bsr disp => exact decodesBack_branch (by decide) _ h rfl fun _ _ _ => rfl
  | bcc c disp =>
    obtain ⟨hc, hdisp⟩ := Bool.and_eq_true_iff.1 h
    refine decodesBack_branch c.field_lt (.bcc c) hdisp rfl fun s m r => ?_
    rw [decodeLine6_of_two_le (by rw [Nat.div_add_mod']; exact c.inBcc_iff.1 hc), Nat.div_add_mod', Cond.ofField_field]
  | moveq dn n => exact decodesBack_plain (by omega) rfl (by simp [decodeFields, decodeLine7, byte_of_fields])
  | orEaDn sz e dn => exact decodesBack_data h (.orEaDn sz · dn) rfl (by simp) (by simp +contextual [decodeFields, decodeLine8])
  | orDnEa sz dn e => exact decodesBack_memory h (.orDnEa sz dn) rfl (by simp) (by simp +contextual [decodeFields, decodeLine8])
  | divu e dn =>
    exact decodesBack_data h (.divu · dn) rfl (by simp) (by simp +contextual [decodeFields, decodeLine8, Size.ofField])
  | divs e dn =>
    exact decodesBack_data h (.divs · dn) rfl (by simp) (by simp +contextual [decodeFields, decodeLine8, Size.ofField])
  | sbcd pm ry rx =>
    cases pm <;> exact decodesBack_plain (by simp [PairMode.field]) rfl
      (by simp [decodeFields, decodeLine8, PairMode.field, Size.ofField])
  | subEaDn sz e dn => exact decodesBack_all h (.subEaDn sz · dn) rfl (by simp) (by simp [decodeFields, decodeLine9])
  | subDnEa sz dn e =>
    exact decodesBack_memory h (.subDnEa sz dn) rfl (by simp) (by simp +contextual [decodeFields, decodeLine9])
  | suba sz e an =>
    exact decodesBack_address h (.suba sz · an) rfl (by simp) (by simp +contextual [decodeFields, decodeLine9, Size.ofField])
  | subx sz pm ry rx =>
    cases pm <;> exact decodesBack_plain (by simp [PairMode.field]) rfl
      (by simp [decodeFields, decodeLine9, PairMode.field])
  | cmp sz e dn => exact decodesBack_all h (.cmp sz · dn) rfl (by simp) (by simp [decodeFields, decodeLine11])
  | cmpa sz e an =>
    exact decodesBack_address h (.cmpa sz · an) rfl (by simp) (by simp +contextual [decodeFields, decodeLine11, Size.ofField])
  | eor sz dn e => exact decodesBack_alterable h (.eor sz dn) rfl (by simp) (by simp +contextual [decodeFields, decodeLine11])
  | cmpm sz ry rx => exact decodesBack_plain (by simp) rfl (by simp [decodeFields, decodeLine11])
  | andEaDn sz e dn =>
    exact decodesBack_data h (.andEaDn sz · dn) rfl (by simp) (by simp +contextual [decodeFields, decodeLine12])
  | andDnEa sz dn e =>
    exact decodesBack_memory h (.andDnEa sz dn) rfl (by simp) (by simp +contextual [decodeFields, decodeLine12])
  | mulu e dn =>
    exact decodesBack_data h (.mulu · dn) rfl (by simp) (by simp +contextual [decodeFields, decodeLine12, Size.ofField])
  | muls e dn =>
    exact decodesBack_data h (.muls · dn) rfl (by simp) (by simp +contextual [decodeFields, decodeLine12, Size.ofField])
  | abcd pm ry rx =>
    cases pm <;> exact decodesBack_plain (by simp [PairMode.field]) rfl
      (by simp [decodeFields, decodeLine12, PairMode.field, Size.ofField])
  | exgDD rx ry | exgAA rx ry | exgDA rx ry =>
    exact decodesBack_plain (by simp) rfl (by simp [decodeFields, decodeLine12, Size.ofField])
  | addEaDn sz e dn => exact decodesBack_all h (.addEaDn sz · dn) rfl (by simp) (by simp [decodeFields, decodeLine13])
  | addDnEa sz dn e =>
    exact decodesBack_memory h (.addDnEa sz dn) rfl (by simp) (by simp +contextual [decodeFields, decodeLine13])
  | adda sz e an =>
    exact decodesBack_address h (.adda sz · an) rfl (by simp) (by simp +contextual [decodeFields, decodeLine13, Size.ofField])
  | addx sz pm ry rx =>
    cases pm <;> exact decodesBack_plain (by simp [PairMode.field]) rfl
      (by simp [decodeFields, decodeLine13, PairMode.field])
  | asr sz count dn | asl sz count dn | lsr sz count dn | lsl sz count dn | roxr sz count dn | roxl sz count dn
    | ror sz count dn | rol sz count dn =>
    exact decodesBack_shift (by decide) (by decide) rfl (by simp +contextual [decodeShiftReg])
  | asrMem e | aslMem e | lsrMem e | lslMem e | roxrMem e | roxlMem e | rorMem e | rolMem e =>
    exact decodesBack_memory h _ rfl (by decide) fun _ _ => rfl
  | lineA w => exact decodesBack_plain (by omega) rfl (congrArg (fun w => rowPlain (.lineA w)) (line_of_fields w))
  | lineF w => exact decodesBack_plain (by omega) rfl (congrArg (fun w => rowPlain (.lineF w)) (line_of_fields w))

end Sys2Proof

namespace Sys2Proof.Proofs

/-- Settles O2: every instruction the opcode map has is decoded from its words. -/
theorem decodeEncode : Obligations.DecodeEncode := fun _ rest h => decodesBack_of_wellFormed h rest

/-- The words that encode an instruction decode to it. -/
theorem decode_of_encode {i : Instr} {ws : List Word} (hwf : i.wellFormed = true) (h : encode i = ws) :
    decode ws = .instr i [] := by
  subst h
  simpa using decodeEncode i [] hwf

/-- Settles O1: each of the ten is decoded from the words that encode it. -/
theorem decodeSpecWords : Obligations.DecodeSpecWords :=
  ⟨decode_of_encode rfl (by decide), decode_of_encode rfl (by decide), decode_of_encode rfl (by decide),
    decode_of_encode rfl (by decide), decode_of_encode (by decide) (by decide), decode_of_encode rfl (by decide),
    decode_of_encode rfl (by decide), decode_of_encode rfl (by decide), decode_of_encode rfl (by decide),
    decode_of_encode rfl (by decide)⟩

end Sys2Proof.Proofs
end

section
/-! What each row of the decoder answers is well formed and is encoded by the row's opword (30_encoding.md R83, R84, R93). -/

namespace Sys2Proof

/-! ## Rows: what each answers -/

/-- A row answers only instructions that are well formed and are written as the opword and as many words as the row takes, four at
most. -/
def RowEncodes (row : Option Tail) (w : Word) : Prop :=
  ∀ tail, row = some tail → ∀ ws i rest, tail ws = some (i, rest) →
    i.wellFormed = true ∧ ∃ ext, encode i = w :: ext ∧ ext.length ≤ 4 ∧ TookWords ws rest ext.length

@[simp] theorem rowEncodes_none (w : Word) : RowEncodes none w := fun _ h => nomatch h

theorem rowPlain_encodes {i : Instr} {w : Word} (hwf : i.wellFormed = true) (henc : encode i = [w]) :
    RowEncodes (rowPlain i) w := by
  intro tail htail ws j rest hread
  cases htail
  cases hread
  exact ⟨hwf, [], henc, by simp, .none ws⟩

theorem rowWord_encodes {mk : Word → Instr} {w : Word} (hwf : ∀ x, (mk x).wellFormed = true)
    (henc : ∀ x, ∃ y, encode (mk x) = [w, y]) : RowEncodes (rowWord mk) w := by
  intro tail htail ws i rest hread
  cases htail
  obtain ⟨⟨x, _⟩, hnext, heq⟩ := Option.map_eq_some_iff.1 hread
  cases heq
  obtain ⟨y, hy⟩ := henc x
  exact ⟨hwf x, [y], hy, by simp, nextWord_took hnext⟩

theorem rowBranch_encodes {mk : BranchDisp → Instr} {c s m r : Nat} (hs : s < 4) (hm : m < 8) (hr : r < 8)
    (hwf : ∀ disp, disp.wellFormed = true → (mk disp).wellFormed = true)
    (henc : ∀ disp, encode (mk disp) = encBranch c disp) :
    RowEncodes (rowBranch (s * 64 + m * 8 + r) mk) (opword 6 (c / 2) (c % 2) s m r) := by
  unfold rowBranch
  split
  next hzero =>
    obtain ⟨rfl, rfl, rfl⟩ : s = 0 ∧ m = 0 ∧ r = 0 := by omega
    exact rowWord_encodes (fun x => hwf _ rfl) fun x => ⟨x, henc _⟩
  next hne =>
    refine rowPlain_encodes (hwf _ ?_) ((henc _).trans (congrArg (fun w => [w]) (encByte_ofNat 6 _ _ hs hm hr)))
    rw [BranchDisp.wellFormed, bne_iff_ne, ne_eq, ← BitVec.toNat_inj, BitVec.toNat_ofNat]
    change ¬ _ % 256 = 0
    omega

section
variable {cls : Ea → Bool} {sz : Size} {l d b s m r : Nat} (hr : r < 8)
include hr

/-- What is selected and then filled has the fields that selected it, is of the class, and its immediate fits. -/
theorem Ea.selected_filled (hby : ClassByFields cls) {e e' : Ea} (hsel : Ea.select m r = some e) (hcls : cls e = true)
    {ws rest : List Word} (h : e.fill sz ws = some (e', rest)) :
    e'.mode = m ∧ e'.regField = r ∧ cls e' = true ∧ e'.fits sz = true ∧ TookWords ws rest (e'.extWords sz).length := by
  obtain ⟨hblank, hfits, htook⟩ := Ea.fill_took h
  obtain ⟨hmode, hreg⟩ := Ea.fields_of_select hr hsel
  rw [← hmode, ← hreg, ← e'.mode_blank, ← e'.regField_blank, ← hby e', hblank, e.mode_blank, e.regField_blank, hby e]
  exact ⟨rfl, rfl, hcls, hfits, htook⟩

theorem rowEa_encodes (hby : ClassByFields cls) {mk : Ea → Instr}
    (hwf : ∀ e, cls e = true → e.fits sz = true → (mk e).wellFormed = true)
    (henc : ∀ e, encode (mk e) = encEa l d b s [] sz e) : RowEncodes (rowEa cls sz m r mk) (opword l d b s m r) := by
  intro tail htail ws i rest hread
  unfold rowEa at htail
  split at htail
  next => cases htail
  next e hsel =>
    split at htail
    next hcls =>
      cases htail
      obtain ⟨⟨e', _⟩, hfill, heq⟩ := Option.map_eq_some_iff.1 hread
      cases heq
      obtain ⟨rfl, rfl, hcls, hfits, htook⟩ := Ea.selected_filled hr hby hsel hcls hfill
      exact ⟨hwf e' hcls hfits, _, henc e', (Laws.extWords_length sz e').trans (by decide), htook⟩
    next => cases htail

theorem rowWordEa_encodes (hby : ClassByFields cls) {mk : Word → Ea → Instr}
    (hwf : ∀ w e, cls e = true → (mk w e).wellFormed = true)
    (henc : ∀ w e, ∃ x, encode (mk w e) = encEa l d b s [x] sz e) :
    RowEncodes (rowWordEa cls sz m r mk) (opword l d b s m r) := by
  intro tail htail ws i rest hread
  unfold rowWordEa at htail
  split at htail
  next => cases htail
  next e hsel =>
    split at htail
    next hcls =>
      cases htail
      obtain ⟨⟨w, mid⟩, hnext, hthen⟩ := Option.bind_eq_some_iff.1 hread
      obtain ⟨⟨e', _⟩, hfill, heq⟩ := Option.map_eq_some_iff.1 hthen
      cases heq
      obtain ⟨rfl, rfl, hcls, -, htook⟩ := Ea.selected_filled hr hby hsel hcls hfill
      obtain ⟨x, hx⟩ := henc w e'
      have hlen := Laws.extWords_length sz e'
      refine ⟨hwf w e' hcls, _, hx, by simp; omega, ?_⟩
      rw [List.length_append]
      exact (nextWord_took hnext).trans htook
    next => cases htail

theorem rowImmEa_encodes {mk : Long → Ea → Instr}
    (hwf : ∀ v e, sz.fits v = true → e.dataAlterable = true → (mk v e).wellFormed = true)
    (henc : ∀ v e, encode (mk v e) = encEa l d b s (immWords sz v) sz e) :
    RowEncodes (rowImmEa Ea.dataAlterable sz m r mk) (opword l d b s m r) := by
  intro tail htail ws i rest hread
  unfold rowImmEa at htail
  split at htail
  next => cases htail
  next e hsel =>
    split at htail
    next hcls =>
      cases htail
      obtain ⟨⟨v, mid⟩, himm, hthen⟩ := Option.bind_eq_some_iff.1 hread
      obtain ⟨⟨e', _⟩, hfill, heq⟩ := Option.map_eq_some_iff.1 hthen
      cases heq
      obtain ⟨hv, htookImm⟩ := nextImm_took himm
      obtain ⟨rfl, rfl, hcls, -, htook⟩ := Ea.selected_filled hr dataAlterable_byFields hsel hcls hfill
      have hlen := Laws.extWords_length sz e'
      have hlenImm := Laws.immWords_length sz v
      refine ⟨hwf v e' hv hcls, _, henc v e', by rw [List.length_append]; omega, ?_⟩
      rw [List.length_append]
      exact htookImm.trans htook
    next => cases htail

/-- A row whose class is all that well-formedness asks. -/
theorem rowEa_class_encodes (hby : ClassByFields cls) {mk : Ea → Instr} (hwf : ∀ e, (mk e).wellFormed = cls e)
    (henc : ∀ e, encode (mk e) = encEa l d b s [] sz e) : RowEncodes (rowEa cls sz m r mk) (opword l d b s m r) :=
  rowEa_encodes hr hby (fun e hcls _ => (hwf e).trans hcls) henc

/-- A row whose well-formedness also asks that an immediate fits. -/
theorem rowEa_fits_encodes (hby : ClassByFields cls) {mk : Ea → Instr} (hwf : ∀ e, (mk e).wellFormed = (cls e && e.fits sz))
    (henc : ∀ e, encode (mk e) = encEa l d b s [] sz e) : RowEncodes (rowEa cls sz m r mk) (opword l d b s m r) :=
  rowEa_encodes hr hby (fun e hcls hfits => by rw [hwf, hcls, hfits]; rfl) henc

/-- A row of an operation on an address register, at a size other than a byte. -/
theorem rowEa_address_encodes (hsz : sz.notByte = true) {mk : Ea → Instr}
    (hwf : ∀ e, (mk e).wellFormed = (sz.notByte && e.fits sz)) (henc : ∀ e, encode (mk e) = encEa l d b s [] sz e) :
    RowEncodes (rowEa (Ea.allAt sz) sz m r mk) (opword l d b s m r) :=
  rowEa_encodes hr (allAt_byFields sz) (fun e _ hfits => by rw [hwf, hsz, hfits]; rfl) henc

end

end Sys2Proof
end

section
/-! What the decoder answers is well formed and is encoded by the opword read, in as many words as were read (30_encoding.md R83,
R93, R94): the branches of each line are rows whose fields are those of the opword. -/

namespace Sys2Proof

section
variable {d b s m r : Nat}

/-- MOVE: both operands are as their fields selected them. -/
theorem rowMove_encodes {sz : Size} (hd : d < 8) (hs : s < 4) (hr : r < 8) :
    RowEncodes (rowMove sz (b * 4 + s) d m r) (opword sz.moveLine d b s m r) := by
  intro tail htail ws i rest hread
  unfold rowMove at htail
  split at htail
  next src dst hsrc hdst =>
    split at htail
    next hcls =>
      cases htail
      obtain ⟨hall, halt⟩ := Bool.and_eq_true_iff.1 hcls
      obtain ⟨⟨src', mid⟩, hfillSrc, hthen⟩ := Option.bind_eq_some_iff.1 hread
      obtain ⟨⟨dst', _⟩, hfillDst, heq⟩ := Option.map_eq_some_iff.1 hthen
      cases heq
      obtain ⟨hm, hr', hall', hfits, htookSrc⟩ := Ea.selected_filled hr (allAt_byFields sz) hsrc hall hfillSrc
      obtain ⟨hdm, hdr, halt', -, htookDst⟩ := Ea.selected_filled hd dataAlterable_byFields hdst halt hfillDst
      have hlenSrc := Laws.extWords_length sz src'
      have hlenDst := Laws.extWords_length sz dst'
      refine ⟨by simp [Instr.wellFormed, hall', hfits, halt'], src'.extWords sz ++ dst'.extWords sz, ?_, ?_, ?_⟩
      · rw [encode, hm, hr', hdm, hdr, show (b * 4 + s) / 4 = b by omega, show (b * 4 + s) % 4 = s by omega]
      · rw [List.length_append]; omega
      · rw [List.length_append]; exact htookSrc.trans htookDst
    next => cases htail
  next => cases htail

/-! ## Fields put together again -/

theorem eq_three {n : Nat} (h : n < 4) (h0 : n ≠ 0) (h1 : n ≠ 1) (h2 : n ≠ 2) : n = 3 := by omega

theorem eq_seven {n : Nat} (h : n < 8) (h0 : n ≠ 0) (h1 : n ≠ 1) (h2 : n ≠ 2) (h3 : n ≠ 3) (h4 : n ≠ 4) (h5 : n ≠ 5)
    (h6 : n ≠ 6) : n = 7 := by omega

theorem Size.lt_three_of_ofField {sz : Size} (h : Size.ofField s = some sz) : s < 3 := by
  rw [← Size.field_of_ofField h]
  cases sz <;> decide

/-- The size fields 10 and 11 of EXT and MOVEM, the one-bit size field below a bit that is set. -/
theorem two_add_bit (hs : s < 4) (h0 : s ≠ 0) (h1 : s ≠ 1) : 2 + (Size.ofBit (s % 2)).bit = s := by
  rw [Size.bit_ofBit (Nat.mod_lt s (by decide))]
  omega

theorem encode_movep (hd : d < 8) (hs : s < 4) (hr : r < 8) (w : Word) :
    encode (.movep (if s / 2 = 0 then .toReg else .toMem) (Size.ofBit (s % 2)) (regOf d) (regOf r) w) =
      [opword 0 d 1 s 1 r, w] := by
  have hfield : (if s / 2 = 0 then MovepDir.toReg else .toMem).field = s / 2 := by
    split
    next h => exact h.symm
    next h => change 1 = s / 2; omega
  rw [encode, hfield, Size.bit_ofBit (Nat.mod_lt s (by decide)), val_regOf hd, val_regOf hr, Nat.div_add_mod']

/-! ## Rows with a size field -/

section
variable (hr : r < 8)
include hr

theorem rowSzEa_encodes {mk : Size → Ea → Instr} {l : Nat} (hwf : ∀ sz e, (mk sz e).wellFormed = e.dataAlterable)
    (henc : ∀ sz e, encode (mk sz e) = encEa l d b sz.field [] sz e) :
    RowEncodes (rowSzEa Ea.dataAlterable s m r mk) (opword l d b s m r) := by
  unfold rowSzEa
  split
  next => simp
  next sz hsz =>
    obtain rfl := Size.field_of_ofField hsz
    exact rowEa_class_encodes hr dataAlterable_byFields (hwf sz) (henc sz)

theorem rowSzImmEa_encodes {mk : Size → Long → Ea → Instr} {l : Nat}
    (hwf : ∀ sz v e, (mk sz v e).wellFormed = (sz.fits v && e.dataAlterable))
    (henc : ∀ sz v e, encode (mk sz v e) = encEa l d b sz.field (immWords sz v) sz e) :
    RowEncodes (rowSzImmEa s m r mk) (opword l d b s m r) := by
  unfold rowSzImmEa
  split
  next => simp
  next sz hsz =>
    obtain rfl := Size.field_of_ofField hsz
    exact rowImmEa_encodes hr (fun v e hv hcls => by rw [hwf, hv, hcls]; rfl) (henc sz)

theorem rowImmOrStatus_encodes {mk : Size → Long → Ea → Instr} {toCcr : Byte → Instr} {toSr : Word → Instr} {l : Nat}
    (hwf : ∀ sz v e, (mk sz v e).wellFormed = (sz.fits v && e.dataAlterable))
    (henc : ∀ sz v e, encode (mk sz v e) = encEa l d b sz.field (immWords sz v) sz e)
    (hwfCcr : ∀ n, (toCcr n).wellFormed = true) (hencCcr : ∀ n, encode (toCcr n) = [opword l d b 0 7 4, byteWord n])
    (hwfSr : ∀ w, (toSr w).wellFormed = true) (hencSr : ∀ w, encode (toSr w) = [opword l d b 1 7 4, w]) :
    RowEncodes (rowImmOrStatus s m r mk toCcr toSr) (opword l d b s m r) := by
  unfold rowImmOrStatus
  split
  next himm =>
    obtain ⟨rfl, rfl⟩ := himm
    split
    · exact rowWord_encodes (fun w => hwfCcr _) fun w => ⟨_, hencCcr _⟩
    · exact rowWord_encodes hwfSr fun w => ⟨w, hencSr w⟩
    · simp
  next => exact rowSzImmEa_encodes hr hwf henc

/-- The rows of a register pair in the place of the two register modes of a destination in memory (30_encoding.md R93). -/
theorem rowPairOrEa_encodes {pair : PairMode → Instr} {mk : Ea → Instr} {sz : Size} {l : Nat}
    (hwfPair : ∀ pm, (pair pm).wellFormed = true) (hencPair : ∀ pm, encode (pair pm) = [opword l d b s pm.field r])
    (hwf : ∀ e, (mk e).wellFormed = e.memoryAlterable) (henc : ∀ e, encode (mk e) = encEa l d b s [] sz e) :
    RowEncodes (if m = 0 then rowPlain (pair .dataReg) else if m = 1 then rowPlain (pair .memPreDec)
      else rowEa Ea.memoryAlterable sz m r mk) (opword l d b s m r) := by
  split
  next hm0 => subst hm0; exact rowPlain_encodes (hwfPair _) (hencPair _)
  next =>
    split
    next hm1 => subst hm1; exact rowPlain_encodes (hwfPair _) (hencPair _)
    next => exact rowEa_class_encodes hr memoryAlterable_byFields hwf henc

end

/-! ## Lines -/

section
variable (hd : d < 8) (hb : b < 2) (hs : s < 4) (hm : m < 8) (hr : r < 8)
include hd hb hs hm hr

theorem decodeLine0_encodes : RowEncodes (decodeLine0 d b s m r) (opword 0 d b s m r) := by
  unfold decodeLine0
  split
  next hb1 =>
    subst hb1
    split
    next hm1 =>
      subst hm1
      exact rowWord_encodes (fun _ => Size.notByte_ofBit _) fun w => ⟨w, encode_movep hd hs hr w⟩
    next =>
      split
      case h_1 => exact rowEa_fits_encodes hr data_byFields (fun _ => rfl) fun _ => by simp [encode, hd]
      case h_2 | h_3 => exact rowEa_class_encodes hr dataAlterable_byFields (fun _ => rfl) fun _ => by simp [encode, hd]
      case h_4 h0 h1 h2 =>
        obtain rfl := eq_three hs h0 h1 h2
        exact rowEa_class_encodes hr dataAlterable_byFields (fun _ => rfl) fun _ => by simp [encode, hd]
  next hb1 =>
    obtain rfl : b = 0 := by omega
    split
    case h_1 | h_2 | h_6 =>
      exact rowImmOrStatus_encodes hr (fun _ _ _ => rfl) (fun _ _ _ => rfl) (fun _ => rfl) (fun _ => rfl) (fun _ => rfl)
        fun _ => rfl
    case h_3 | h_4 | h_7 => exact rowSzImmEa_encodes hr (fun _ _ _ => rfl) fun _ _ _ => rfl
    case h_5 =>
      split
      case h_1 => exact rowWordEa_encodes hr dataNoImm_byFields (fun _ _ h => h) fun _ _ => ⟨_, rfl⟩
      case h_2 | h_3 => exact rowWordEa_encodes hr dataAlterable_byFields (fun _ _ h => h) fun _ _ => ⟨_, rfl⟩
      case h_4 h0 h1 h2 =>
        obtain rfl := eq_three hs h0 h1 h2
        exact rowWordEa_encodes hr dataAlterable_byFields (fun _ _ h => h) fun _ _ => ⟨_, rfl⟩
    case h_8 => simp

omit hm in
theorem decodeMove_encodes (sz : Size) : RowEncodes (decodeMove sz d b s m r) (opword sz.moveLine d b s m r) := by
  unfold decodeMove
  split
  next hmode =>
    obtain ⟨rfl, rfl⟩ : b = 0 ∧ s = 1 := by omega
    split
    next hsz => exact rowEa_address_encodes hr hsz (fun _ => rfl) fun _ => by simp [encode, hd]
    next => simp
  next => exact rowMove_encodes hd hs hr

omit hd hb in
theorem decodeLine4Control_encodes : RowEncodes (decodeLine4Control s m r) (opword 4 7 0 s m r) := by
  unfold decodeLine4Control
  split
  case h_1 =>
    split
    case h_1 =>
      exact rowPlain_encodes rfl (by rw [encode, Fin.val_ofNat, show r % 16 / 8 = 0 by omega, show r % 16 % 8 = r by omega])
    case h_2 =>
      exact rowPlain_encodes rfl
        (by rw [encode, Fin.val_ofNat, show (8 + r) % 16 / 8 = 1 by omega, show (8 + r) % 16 % 8 = r by omega])
    case h_3 => exact rowWord_encodes (fun _ => rfl) fun w => ⟨w, by simp [encode, hr]⟩
    case h_4 | h_5 | h_6 => exact rowPlain_encodes rfl (by simp [encode, hr])
    case h_7 =>
      split
      case h_3 => exact rowWord_encodes (fun _ => rfl) fun w => ⟨w, rfl⟩
      case h_8 => simp
      all_goals exact rowPlain_encodes rfl rfl
    case h_8 => simp
  case h_2 | h_3 => exact rowEa_class_encodes hr control_byFields (fun _ => rfl) fun _ => rfl
  case h_4 => simp

theorem decodeLine4_encodes : RowEncodes (decodeLine4 d b s m r) (opword 4 d b s m r) := by
  unfold decodeLine4
  split
  next hb1 =>
    subst hb1
    split
    case h_1 => exact rowEa_fits_encodes hr data_byFields (fun _ => rfl) fun _ => by simp [encode, hd]
    case h_2 => exact rowEa_class_encodes hr control_byFields (fun _ => rfl) fun _ => by simp [encode, hd]
    case h_3 => simp
  next hb1 =>
    obtain rfl : b = 0 := by omega
    split
    case h_1 =>
      split
      next hs3 => subst hs3; exact rowEa_class_encodes hr dataAlterable_byFields (fun _ => rfl) fun _ => rfl
      next => exact rowSzEa_encodes hr (fun _ _ => rfl) fun _ _ => rfl
    case h_2 => exact rowSzEa_encodes hr (fun _ _ => rfl) fun _ _ => rfl
    case h_3 | h_4 =>
      split
      next hs3 => subst hs3; exact rowEa_fits_encodes hr data_byFields (fun _ => rfl) fun _ => rfl
      next => exact rowSzEa_encodes hr (fun _ _ => rfl) fun _ _ => rfl
    case h_5 =>
      split
      case h_1 => exact rowEa_class_encodes hr dataAlterable_byFields (fun _ => rfl) fun _ => rfl
      case h_2 =>
        split
        next hm0 => subst hm0; exact rowPlain_encodes rfl (by simp [encode, hr])
        next => exact rowEa_class_encodes hr control_byFields (fun _ => rfl) fun _ => rfl
      case h_3 h0 h1 =>
        have hbit : 2 + (Size.ofBit (s % 2)).bit = s := two_add_bit hs h0 h1
        split
        next hm0 => subst hm0; exact rowPlain_encodes (Size.notByte_ofBit _) (by rw [encode, hbit, val_regOf hr])
        next =>
          exact rowWordEa_encodes hr movemToMem_byFields (fun _ _ h => by simp [Instr.wellFormed, h])
            fun w _ => ⟨w, by rw [encode, hbit]⟩
    case h_6 =>
      split
      next hs3 =>
        subst hs3
        split
        next himm => obtain ⟨rfl, rfl⟩ := himm; exact rowPlain_encodes rfl rfl
        next => exact rowEa_class_encodes hr dataAlterable_byFields (fun _ => rfl) fun _ => rfl
      next => exact rowSzEa_encodes hr (fun _ _ => rfl) fun _ _ => rfl
    case h_7 =>
      split
      case h_1 | h_2 => exact rowWordEa_encodes hr movemFromMem_byFields (fun _ _ h => h) fun w _ => ⟨w, rfl⟩
      case h_3 => simp
    case h_8 h0 h1 h2 h3 h4 h5 h6 =>
      obtain rfl := eq_seven hd h0 h1 h2 h3 h4 h5 h6
      exact decodeLine4Control_encodes hs hm hr

theorem decodeLine5_encodes : RowEncodes (decodeLine5 d b s m r) (opword 5 d b s m r) := by
  unfold decodeLine5
  split
  next sz hsz =>
    obtain rfl := Size.field_of_ofField hsz
    split
    next hb0 => subst hb0; exact rowEa_class_encodes hr (alterableAt_byFields sz) (fun _ => rfl) fun _ => by simp [encode, hd]
    next hb0 =>
      obtain rfl : b = 1 := by omega
      exact rowEa_class_encodes hr (alterableAt_byFields sz) (fun _ => rfl) fun _ => by simp [encode, hd]
  next hsz =>
    obtain rfl := Size.eq_three_of_ofField hs hsz
    have hcond : (Cond.ofField (d * 2 + b)).field = d * 2 + b := Cond.field_ofField (by omega)
    have hdiv : (d * 2 + b) / 2 = d := by omega
    have hmod : (d * 2 + b) % 2 = b := by omega
    split
    next hm1 =>
      subst hm1
      exact rowWord_encodes (fun _ => rfl) fun w => ⟨w, by rw [encode, hcond, hdiv, hmod, val_regOf hr]⟩
    next =>
      exact rowEa_class_encodes hr dataAlterable_byFields (fun _ => rfl) fun _ => by rw [encode, hcond, hdiv, hmod]

theorem decodeLine6_encodes : RowEncodes (decodeLine6 d b s m r) (opword 6 d b s m r) := by
  have hdiv : (d * 2 + b) / 2 = d := by omega
  have hmod : (d * 2 + b) % 2 = b := by omega
  unfold decodeLine6
  split
  next hc =>
    obtain ⟨rfl, rfl⟩ : d = 0 ∧ b = 0 := by omega
    exact rowBranch_encodes (c := 0) hs hm hr (fun _ h => h) fun _ => rfl
  next hc =>
    obtain ⟨rfl, rfl⟩ : d = 0 ∧ b = 1 := by omega
    exact rowBranch_encodes (c := 1) hs hm hr (fun _ h => h) fun _ => rfl
  next h0 h1 =>
    have hcond : (Cond.ofField (d * 2 + b)).field = d * 2 + b := Cond.field_ofField (by omega)
    have htwo : 2 ≤ d * 2 + b := (Nat.two_le_iff _).2 ⟨h0, h1⟩
    have hin : (Cond.ofField (d * 2 + b)).inBcc = true := (Cond.inBcc_iff _).2 (htwo.trans_eq hcond.symm)
    have hrow := rowBranch_encodes (mk := .bcc (Cond.ofField (d * 2 + b))) (c := d * 2 + b) hs hm hr
      (fun _ h => by rw [Instr.wellFormed, hin, h]; rfl) fun _ => by rw [encode, hcond]
    rwa [hdiv, hmod] at hrow

theorem decodeLine7_encodes : RowEncodes (decodeLine7 d b s m r) (opword 7 d b s m r) := by
  unfold decodeLine7
  split
  next hb0 => subst hb0; exact rowPlain_encodes rfl (by rw [encode, val_regOf hd, encByte_ofNat 7 d 0 hs hm hr])
  next => simp

omit hm in
theorem decodeLine8_encodes : RowEncodes (decodeLine8 d b s m r) (opword 8 d b s m r) := by
  unfold decodeLine8
  split
  next hsz =>
    obtain rfl := Size.eq_three_of_ofField hs hsz
    split
    next hb0 => subst hb0; exact rowEa_fits_encodes hr data_byFields (fun _ => rfl) fun _ => by simp [encode, hd]
    next hb0 =>
      obtain rfl : b = 1 := by omega
      exact rowEa_fits_encodes hr data_byFields (fun _ => rfl) fun _ => by simp [encode, hd]
  next sz hsz =>
    obtain rfl := Size.field_of_ofField hsz
    split
    next hb0 => subst hb0; exact rowEa_fits_encodes hr data_byFields (fun _ => rfl) fun _ => by simp [encode, hd]
    next hb0 =>
      obtain rfl : b = 1 := by omega
      split
      next hm0 =>
        split
        next hs0 => rw [hm0, hs0]; exact rowPlain_encodes rfl (by simp [encode, PairMode.field, hd, hr])
        next => simp
      next =>
        split
        next hm1 =>
          split
          next hs0 => rw [hm1, hs0]; exact rowPlain_encodes rfl (by simp [encode, PairMode.field, hd, hr])
          next => simp
        next => exact rowEa_class_encodes hr memoryAlterable_byFields (fun _ => rfl) fun _ => by simp [encode, hd]

omit hm in
theorem decodeLine9_encodes : RowEncodes (decodeLine9 d b s m r) (opword 9 d b s m r) := by
  unfold decodeLine9
  split
  next hsz =>
    obtain rfl := Size.eq_three_of_ofField hs hsz
    exact rowEa_address_encodes hr (Size.notByte_ofBit b) (fun _ => rfl) fun _ => by simp [encode, hd, Size.bit_ofBit hb]
  next sz hsz =>
    obtain rfl := Size.field_of_ofField hsz
    split
    next hb0 => subst hb0; exact rowEa_fits_encodes hr (allAt_byFields sz) (fun _ => rfl) fun _ => by simp [encode, hd]
    next hb0 =>
      obtain rfl : b = 1 := by omega
      exact rowPairOrEa_encodes hr (pair := fun pm => .subx sz pm (regOf r) (regOf d)) (mk := .subDnEa sz (regOf d))
        (fun _ => rfl) (fun _ => by simp [encode, hd, hr]) (fun _ => rfl) fun _ => by simp [encode, hd]

theorem decodeLine11_encodes : RowEncodes (decodeLine11 d b s m r) (opword 11 d b s m r) := by
  unfold decodeLine11
  split
  next hsz =>
    obtain rfl := Size.eq_three_of_ofField hs hsz
    exact rowEa_address_encodes hr (Size.notByte_ofBit b) (fun _ => rfl) fun _ => by simp [encode, hd, Size.bit_ofBit hb]
  next sz hsz =>
    obtain rfl := Size.field_of_ofField hsz
    split
    next hb0 => subst hb0; exact rowEa_fits_encodes hr (allAt_byFields sz) (fun _ => rfl) fun _ => by simp [encode, hd]
    next hb0 =>
      obtain rfl : b = 1 := by omega
      split
      next hm1 => subst hm1; exact rowPlain_encodes rfl (by simp [encode, hd, hr])
      next => exact rowEa_class_encodes hr dataAlterable_byFields (fun _ => rfl) fun _ => by simp [encode, hd]

theorem decodeLine12_encodes : RowEncodes (decodeLine12 d b s m r) (opword 12 d b s m r) := by
  unfold decodeLine12
  split
  next hsz =>
    obtain rfl := Size.eq_three_of_ofField hs hsz
    split
    next hb0 => subst hb0; exact rowEa_fits_encodes hr data_byFields (fun _ => rfl) fun _ => by simp [encode, hd]
    next hb0 =>
      obtain rfl : b = 1 := by omega
      exact rowEa_fits_encodes hr data_byFields (fun _ => rfl) fun _ => by simp [encode, hd]
  next sz hsz =>
    have hs3 : s < 3 := Size.lt_three_of_ofField hsz
    split
    next hb0 =>
      obtain rfl := Size.field_of_ofField hsz
      subst hb0
      exact rowEa_fits_encodes hr data_byFields (fun _ => rfl) fun _ => by simp [encode, hd]
    next hb0 =>
      obtain rfl : b = 1 := by omega
      split
      next hm0 =>
        subst hm0
        split
        case h_1 | h_2 => exact rowPlain_encodes rfl (by simp [encode, PairMode.field, hd, hr])
        case h_3 => simp
      next =>
        split
        next hm1 =>
          subst hm1
          split
          case h_1 | h_2 => exact rowPlain_encodes rfl (by simp [encode, PairMode.field, hd, hr])
          case h_3 h0 h1 =>
            obtain rfl : s = 2 := le_antisymm (Nat.le_of_lt_succ hs3) ((Nat.two_le_iff s).2 ⟨h0, h1⟩)
            exact rowPlain_encodes rfl (by simp [encode, hd, hr])
        next =>
          obtain rfl := Size.field_of_ofField hsz
          exact rowEa_class_encodes hr memoryAlterable_byFields (fun _ => rfl) fun _ => by simp [encode, hd]

omit hm in
theorem decodeLine13_encodes : RowEncodes (decodeLine13 d b s m r) (opword 13 d b s m r) := by
  unfold decodeLine13
  split
  next hsz =>
    obtain rfl := Size.eq_three_of_ofField hs hsz
    exact rowEa_address_encodes hr (Size.notByte_ofBit b) (fun _ => rfl) fun _ => by simp [encode, hd, Size.bit_ofBit hb]
  next sz hsz =>
    obtain rfl := Size.field_of_ofField hsz
    split
    next hb0 => subst hb0; exact rowEa_fits_encodes hr (allAt_byFields sz) (fun _ => rfl) fun _ => by simp [encode, hd]
    next hb0 =>
      obtain rfl : b = 1 := by omega
      exact rowPairOrEa_encodes hr (pair := fun pm => .addx sz pm (regOf r) (regOf d)) (mk := .addDnEa sz (regOf d))
        (fun _ => rfl) (fun _ => by simp [encode, hd, hr]) (fun _ => rfl) fun _ => by simp [encode, hd]

omit hd hs hm in
theorem decodeShiftMem_encodes : RowEncodes (decodeShiftMem d b m r) (opword 14 d b 3 m r) := by
  have hdiv : (d * 2 + b) / 2 = d := by omega
  have hmod : (d * 2 + b) % 2 = b := by omega
  have hrow : RowEncodes (decodeShiftMem d b m r) (opword 14 ((d * 2 + b) / 2) ((d * 2 + b) % 2) 3 m r) := by
    unfold decodeShiftMem
    generalize d * 2 + b = n
    split
    case h_9 => simp
    all_goals exact rowEa_class_encodes hr memoryAlterable_byFields (fun _ => rfl) fun _ => rfl
  rwa [hdiv, hmod] at hrow

omit hb hs in
/-- A register shift is written in the fields its count and type were read from. -/
theorem encShift_of_fields {sz : Size} {tt dir : Nat} (htt : m % 4 = tt) :
    encShift tt dir sz (if m / 4 = 0 then .imm (regOf d) else .reg (regOf d)) (regOf r) = [opword 14 d dir sz.field m r] := by
  unfold encShift
  split
  next h => rw [ShiftCount.field, ShiftCount.isReg, val_regOf hd, val_regOf hr, show 0 * 4 + tt = m by omega]
  next h => rw [ShiftCount.field, ShiftCount.isReg, val_regOf hd, val_regOf hr, show 1 * 4 + tt = m by omega]

omit hs in
theorem decodeShiftReg_encodes (sz : Size) : RowEncodes (decodeShiftReg sz d b m r) (opword 14 d b sz.field m r) := by
  unfold decodeShiftReg
  obtain rfl | rfl : b = 0 ∨ b = 1 := by omega
  all_goals
    obtain htt | htt | htt | htt : m % 4 = 0 ∨ m % 4 = 1 ∨ m % 4 = 2 ∨ m % 4 = 3 := by omega
    all_goals
      rw [htt]
      exact rowPlain_encodes rfl (encShift_of_fields hd hm hr htt)

theorem decodeLine14_encodes : RowEncodes (decodeLine14 d b s m r) (opword 14 d b s m r) := by
  unfold decodeLine14
  split
  next hsz =>
    obtain rfl := Size.eq_three_of_ofField hs hsz
    exact decodeShiftMem_encodes hb hr
  next sz hsz =>
    obtain rfl := Size.field_of_ofField hsz
    exact decodeShiftReg_encodes hd hb hm hr sz

theorem decodeFields_encodes {l : Nat} (hl : l < 16) : RowEncodes (decodeFields l d b s m r) (opword l d b s m r) := by
  interval_cases l
  · exact decodeLine0_encodes hd hb hs hm hr
  · exact decodeMove_encodes hd hb hs hr .b
  · exact decodeMove_encodes hd hb hs hr .l
  · exact decodeMove_encodes hd hb hs hr .w
  · exact decodeLine4_encodes hd hb hs hm hr
  · exact decodeLine5_encodes hd hb hs hm hr
  · exact decodeLine6_encodes hd hb hs hm hr
  · exact decodeLine7_encodes hd hb hs hm hr
  · exact decodeLine8_encodes hd hb hs hr
  · exact decodeLine9_encodes hd hb hs hr
  · exact rowPlain_encodes rfl (encLine_ofNat 10 hd hb hs hm hr)
  · exact decodeLine11_encodes hd hb hs hm hr
  · exact decodeLine12_encodes hd hb hs hm hr
  · exact decodeLine13_encodes hd hb hs hr
  · exact decodeLine14_encodes hd hb hs hm hr
  · exact rowPlain_encodes rfl (encLine_ofNat 15 hd hb hs hm hr)

end

end

/-- The row an opword selects answers only instructions that the opword encodes. -/
theorem decodeOpword_encodes (w : Word) : RowEncodes (decodeOpword w) w := by
  have hw := w.isLt
  have hrow := decodeFields_encodes (l := w.toNat / 4096) (d := w.toNat / 512 % 8) (b := w.toNat / 256 % 2)
    (s := w.toNat / 64 % 4) (m := w.toNat / 8 % 8) (r := w.toNat % 8) (by omega) (by omega) (by omega) (by omega) (by omega)
    (by omega)
  rwa [opword_of_fields w] at hrow

end Sys2Proof

namespace Sys2Proof.Proofs

/-- Settles O3: the opword is the instruction's first word, and the row it selects takes the instruction's other words. -/
theorem decodedWellFormed : Obligations.DecodedWellFormed := by
  intro w ws rest i h
  obtain ⟨tail, hsel, hread⟩ := decode_cons_eq_instr.1 h
  obtain ⟨hwf, ext, henc, hlen, own, hown, hcount⟩ := decodeOpword_encodes w tail hsel ws i rest hread
  refine ⟨hwf, ?_, ?_, w :: own, ?_, ?_⟩
  · rw [henc, List.length_cons]; omega
  · rw [henc, List.head?_cons]
  · rw [hown, List.cons_append]
  · rw [henc, List.length_cons, List.length_cons, hcount]

end Sys2Proof.Proofs
end
